-- ==== Sys2Proof/Word.lean ====
section
/-! DEFINITION. The two widths of the M68HC11 MPU: every memory location and accumulator is a byte (R51, R21),
every address and 16-bit register a word (R50). -/

namespace Sys2Proof

/-- One memory location, one accumulator, one operand byte (R5, R51). -/
abbrev Byte := BitVec 8

/-- An address or the contents of a 16-bit register (R5, R50). -/
abbrev Word := BitVec 16

end Sys2Proof
end

