-- ==== Sys2Proof/Syntax.lean ====
section
/-! DEFINITION. The instructions as syntax: one constructor of `Instr` per mnemonic of spec/opcode_table.json (145:
139 primary, 6 aliases, R99), the addressing mode in its operand (R82 to R91). -/

namespace Sys2Proof

/-- An operand in memory, by addressing mode: DIR (R85), EXT (R86), IND,X (R87), IND,Y (R88). -/
inductive Mem
  | dir (dd : Byte)
  | ext (hhll : Word)
  | indX (ff : Byte)
  | indY (ff : Byte)
deriving DecidableEq, Repr

/-- An 8-bit source operand: IMM (R83) or in memory. -/
inductive Opr8
  | imm (ii : Byte)
  | mem (m : Mem)
deriving DecidableEq, Repr

/-- A 16-bit source operand: IMM (R84) or in memory. -/
inductive Opr16
  | imm (jjkk : Word)
  | mem (m : Mem)
deriving DecidableEq, Repr

/-- An instruction. `mm` is a mask byte (R90), `rr` a signed relative offset (R89). -/
inductive Instr
  -- Loads, stores, transfers, exchanges, stack, clear (40_load_store_stack.md)
  | ldaa (o : Opr8)  -- R120
  | ldab (o : Opr8)  -- R121
  | ldd (o : Opr16)  -- R122
  | lds (o : Opr16)  -- R123
  | ldx (o : Opr16)  -- R124
  | ldy (o : Opr16)  -- R125
  | staa (m : Mem)  -- R126
  | stab (m : Mem)  -- R127
  | std (m : Mem)  -- R128
  | sts (m : Mem)  -- R129
  | stx (m : Mem)  -- R130
  | sty (m : Mem)  -- R131
  | tab  -- R132
  | tba  -- R133
  | tap  -- R134
  | tpa  -- R135
  | tsx  -- R136
  | tsy  -- R137
  | txs  -- R138
  | tys  -- R139
  | xgdx  -- R140
  | xgdy  -- R141
  | psha  -- R142
  | pshb  -- R143
  | pshx  -- R144
  | pshy  -- R145
  | pula  -- R146
  | pulb  -- R147
  | pulx  -- R148
  | puly  -- R149
  | clr (m : Mem)  -- R150
  | clra  -- R151
  | clrb  -- R152
  -- Arithmetic (41_arithmetic.md)
  | aba  -- R160
  | abx  -- R161
  | aby  -- R162
  | adca (o : Opr8)  -- R163
  | adcb (o : Opr8)  -- R164
  | adda (o : Opr8)  -- R165
  | addb (o : Opr8)  -- R166
  | addd (o : Opr16)  -- R167
  | cba  -- R168
  | cmpa (o : Opr8)  -- R169
  | cmpb (o : Opr8)  -- R170
  | cpd (o : Opr16)  -- R171
  | cpx (o : Opr16)  -- R172
  | cpy (o : Opr16)  -- R173
  | daa  -- R174
  | dec (m : Mem)  -- R175
  | deca  -- R176
  | decb  -- R177
  | des  -- R178
  | dex  -- R179
  | dey  -- R180
  | fdiv  -- R181
  | idiv  -- R182
  | inc (m : Mem)  -- R183
  | inca  -- R184
  | incb  -- R185
  | ins  -- R186
  | inx  -- R187
  | iny  -- R188
  | mul  -- R189
  | neg (m : Mem)  -- R190
  | nega  -- R191
  | negb  -- R192
  | sba  -- R193
  | sbca (o : Opr8)  -- R194
  | sbcb (o : Opr8)  -- R195
  | suba (o : Opr8)  -- R196
  | subb (o : Opr8)  -- R197
  | subd (o : Opr16)  -- R198
  | tst (m : Mem)  -- R199
  | tsta  -- R200
  | tstb  -- R201
  -- Logic, complement, shifts, rotates, memory bits, flags (42_logic_shift_bit.md)
  | anda (o : Opr8)  -- R220
  | andb (o : Opr8)  -- R221
  | bita (o : Opr8)  -- R222
  | bitb (o : Opr8)  -- R223
  | eora (o : Opr8)  -- R224
  | eorb (o : Opr8)  -- R225
  | oraa (o : Opr8)  -- R226
  | orab (o : Opr8)  -- R227
  | com (m : Mem)  -- R228
  | coma  -- R229
  | comb  -- R230
  | asl (m : Mem)  -- R231
  | asla  -- R232
  | aslb  -- R233
  | asld  -- R234
  | asr (m : Mem)  -- R235
  | asra  -- R236
  | asrb  -- R237
  | lsr (m : Mem)  -- R238
  | lsra  -- R239
  | lsrb  -- R240
  | lsrd  -- R241
  | rol (m : Mem)  -- R242
  | rola  -- R243
  | rolb  -- R244
  | ror (m : Mem)  -- R245
  | rora  -- R246
  | rorb  -- R247
  | bclr (m : Mem) (mm : Byte)  -- R248
  | bset (m : Mem) (mm : Byte)  -- R249
  | clc  -- R250
  | clv  -- R251
  | sec  -- R252
  | sev  -- R253
  | lsl (m : Mem)  -- R254
  | lsla  -- R255
  | lslb  -- R256
  | lsld  -- R257
  -- Control transfer (43_control.md)
  | bcc (rr : Byte)  -- R271
  | bcs (rr : Byte)  -- R272
  | beq (rr : Byte)  -- R273
  | bge (rr : Byte)  -- R274
  | bgt (rr : Byte)  -- R275
  | bhi (rr : Byte)  -- R276
  | bhs (rr : Byte)  -- R277
  | ble (rr : Byte)  -- R278
  | blo (rr : Byte)  -- R279
  | bls (rr : Byte)  -- R280
  | blt (rr : Byte)  -- R281
  | bmi (rr : Byte)  -- R282
  | bne (rr : Byte)  -- R283
  | bpl (rr : Byte)  -- R284
  | bra (rr : Byte)  -- R285
  | brn (rr : Byte)  -- R286
  | bvc (rr : Byte)  -- R287
  | bvs (rr : Byte)  -- R288
  | brclr (m : Mem) (mm rr : Byte)  -- R289
  | brset (m : Mem) (mm rr : Byte)  -- R290
  | bsr (rr : Byte)  -- R291
  | jmp (m : Mem)  -- R292
  | jsr (m : Mem)  -- R293
  | rts  -- R294
  | nop  -- R295
  -- System (44_system.md)
  | cli  -- R310
  | sei  -- R311
  | rti  -- R312
  | swi  -- R313
  | wai  -- R314
  | stop  -- R315
  | test  -- R316
deriving DecidableEq, Repr

end Sys2Proof
end

