-- ==== Sys2Proof/WellFormed.lean ====
section
/-! DEFINITION. Which instruction terms have an encoding: what a mnemonic's own addressing modes exclude
(30_encoding.md R83 to R91). -/

namespace Sys2Proof

/-- Not the DIR mode: the read-modify-write group, TST, CLR and JMP have EXT and indexed forms only. -/
def Mem.notDir : Mem → Bool
  | .dir _ => false
  | .ext _ => true
  | .indX _ => true
  | .indY _ => true

/-- Not the EXT mode: BSET, BCLR, BRSET and BRCLR have DIR and indexed forms only (R90). -/
def Mem.notExt : Mem → Bool
  | .dir _ => true
  | .ext _ => false
  | .indX _ => true
  | .indY _ => true

/-- The instruction has an encoding. -/
def Instr.wellFormed : Instr → Bool
  | .neg m | .com m | .lsr m | .ror m | .asr m | .asl m | .lsl m | .rol m
  | .dec m | .inc m | .tst m | .jmp m | .clr m => m.notDir
  | .bset m _ | .bclr m _ => m.notExt
  | .brset m _ _ | .brclr m _ _ => m.notExt
  | .ldaa _ | .ldab _ | .ldd _ | .lds _ | .ldx _ | .ldy _ | .staa _ | .stab _ | .std _ | .sts _
  | .stx _ | .sty _ | .tab | .tba | .tap | .tpa | .tsx | .tsy | .txs | .tys | .xgdx | .xgdy | .psha
  | .pshb | .pshx | .pshy | .pula | .pulb | .pulx | .puly | .clra | .clrb | .aba | .abx | .aby
  | .adca _ | .adcb _ | .adda _ | .addb _ | .addd _ | .cba | .cmpa _ | .cmpb _ | .cpd _ | .cpx _
  | .cpy _ | .daa | .deca | .decb | .des | .dex | .dey | .fdiv | .idiv | .inca | .incb | .ins | .inx
  | .iny | .mul | .nega | .negb | .sba | .sbca _ | .sbcb _ | .suba _ | .subb _ | .subd _ | .tsta
  | .tstb | .anda _ | .andb _ | .bita _ | .bitb _ | .eora _ | .eorb _ | .oraa _ | .orab _ | .coma
  | .comb | .asla | .aslb | .asld | .asra | .asrb | .lsra | .lsrb | .lsrd | .rola | .rolb | .rora
  | .rorb | .clc | .clv | .sec | .sev | .lsla | .lslb | .lsld | .bcc _ | .bcs _ | .beq _ | .bge _
  | .bgt _ | .bhi _ | .bhs _ | .ble _ | .blo _ | .bls _ | .blt _ | .bmi _ | .bne _ | .bpl _ | .bra _
  | .brn _ | .bvc _ | .bvs _ | .bsr _ | .jsr _ | .rts | .nop | .cli | .sei | .rti | .swi | .wai
  | .stop | .test => true

/-- The instruction a decoder answers for these bytes: an alias is its primary instruction (R99). -/
def Instr.primary : Instr → Instr
  | .lsl m => .asl m
  | .lsla => .asla
  | .lslb => .aslb
  | .lsld => .asld
  | .bhs rr => .bcc rr
  | .blo rr => .bcs rr
  | i => i

end Sys2Proof
end

