-- ==== Sys2Proof/Decode.lean ====
section
/-! DEFINITION. From bytes to instructions and back (30_encoding.md): the opcode maps of pages 1 to 4 (R92 to
R95), a decoder that is total on any bytes, and an encoder written from the instruction rules' own encodings. -/

namespace Sys2Proof

/-- `hi(v)`, the high-order byte of a 16-bit value (R5). -/
def hiByte (v : Word) : Byte := v.extractLsb' 8 8

/-- `lo(v)`, the low-order byte of a 16-bit value (R5). -/
def loByte (v : Word) : Byte := v.extractLsb' 0 8

/-- `h : l`, the high-order byte first (R5, R52, R54). -/
def joinBytes (h l : Byte) : Word := h ++ l

/-- The opcode page a prebyte selects (R81). -/
inductive Page
  | one
  | two
  | three
  | four
deriving DecidableEq, Repr

/-- The address operand of a mode, made from the operand bytes that start the list, with the bytes after it. -/
abbrev MemMode := List Byte → Option (Mem × List Byte)

/-- DIR: one byte `dd` (R85). -/
def dirMode : MemMode
  | dd :: rest => some (.dir dd, rest)
  | [] => none

/-- EXT: two bytes `hh ll` (R86). -/
def extMode : MemMode
  | hh :: ll :: rest => some (.ext (joinBytes hh ll), rest)
  | [_] => none
  | [] => none

/-- IND,X: one byte `ff` (R87). -/
def indXMode : MemMode
  | ff :: rest => some (.indX ff, rest)
  | [] => none

/-- IND,Y: one byte `ff` (R88). -/
def indYMode : MemMode
  | ff :: rest => some (.indY ff, rest)
  | [] => none

/-- What an opcode map has at an opcode: nothing (R96), a prebyte (R81), or an instruction that takes its
operand bytes in one of the formats of R91. -/
inductive Slot
  | undefined
  | prebyte (p : Page)
  | inh (i : Instr)
  | imm8 (f : Opr8 → Instr)
  | imm16 (f : Opr16 → Instr)
  | opr8 (mode : MemMode) (f : Opr8 → Instr)
  | opr16 (mode : MemMode) (f : Opr16 → Instr)
  | mem (mode : MemMode) (f : Mem → Instr)
  | rel (f : Byte → Instr)
  | mask (mode : MemMode) (f : Mem → Byte → Instr)
  | maskRel (mode : MemMode) (f : Mem → Byte → Byte → Instr)

/-- Row $0x of page 1 (R92). -/
def page1Row0 : List Slot :=
  [.inh .test, .inh .nop, .inh .idiv, .inh .fdiv, .inh .lsrd, .inh .asld, .inh .tap, .inh .tpa,
   .inh .inx, .inh .dex, .inh .clv, .inh .sev, .inh .clc, .inh .sec, .inh .cli, .inh .sei]

/-- Row $1x of page 1 (R92). -/
def page1Row1 : List Slot :=
  [.inh .sba, .inh .cba, .maskRel dirMode .brset, .maskRel dirMode .brclr, .mask dirMode .bset,
   .mask dirMode .bclr, .inh .tab, .inh .tba, .prebyte .two, .inh .daa, .prebyte .three, .inh .aba,
   .mask indXMode .bset, .mask indXMode .bclr, .maskRel indXMode .brset, .maskRel indXMode .brclr]

/-- Row $2x of page 1 (R92). -/
def page1Row2 : List Slot :=
  [.rel .bra, .rel .brn, .rel .bhi, .rel .bls, .rel .bcc, .rel .bcs, .rel .bne, .rel .beq,
   .rel .bvc, .rel .bvs, .rel .bpl, .rel .bmi, .rel .bge, .rel .blt, .rel .bgt, .rel .ble]

/-- Row $3x of page 1 (R92). -/
def page1Row3 : List Slot :=
  [.inh .tsx, .inh .ins, .inh .pula, .inh .pulb, .inh .des, .inh .txs, .inh .psha, .inh .pshb,
   .inh .pulx, .inh .rts, .inh .abx, .inh .rti, .inh .pshx, .inh .mul, .inh .wai, .inh .swi]

/-- Row $4x of page 1 (R92). -/
def page1Row4 : List Slot :=
  [.inh .nega, .undefined, .undefined, .inh .coma, .inh .lsra, .undefined, .inh .rora, .inh .asra,
   .inh .asla, .inh .rola, .inh .deca, .undefined, .inh .inca, .inh .tsta, .undefined, .inh .clra]

/-- Row $5x of page 1 (R92). -/
def page1Row5 : List Slot :=
  [.inh .negb, .undefined, .undefined, .inh .comb, .inh .lsrb, .undefined, .inh .rorb, .inh .asrb,
   .inh .aslb, .inh .rolb, .inh .decb, .undefined, .inh .incb, .inh .tstb, .undefined, .inh .clrb]

/-- Row $6x of page 1 (R92). -/
def page1Row6 : List Slot :=
  [.mem indXMode .neg, .undefined, .undefined, .mem indXMode .com, .mem indXMode .lsr, .undefined,
   .mem indXMode .ror, .mem indXMode .asr, .mem indXMode .asl, .mem indXMode .rol,
   .mem indXMode .dec, .undefined, .mem indXMode .inc, .mem indXMode .tst, .mem indXMode .jmp,
   .mem indXMode .clr]

/-- Row $7x of page 1 (R92). -/
def page1Row7 : List Slot :=
  [.mem extMode .neg, .undefined, .undefined, .mem extMode .com, .mem extMode .lsr, .undefined,
   .mem extMode .ror, .mem extMode .asr, .mem extMode .asl, .mem extMode .rol, .mem extMode .dec,
   .undefined, .mem extMode .inc, .mem extMode .tst, .mem extMode .jmp, .mem extMode .clr]

/-- Row $8x of page 1 (R92). -/
def page1Row8 : List Slot :=
  [.imm8 .suba, .imm8 .cmpa, .imm8 .sbca, .imm16 .subd, .imm8 .anda, .imm8 .bita, .imm8 .ldaa,
   .undefined, .imm8 .eora, .imm8 .adca, .imm8 .oraa, .imm8 .adda, .imm16 .cpx, .rel .bsr,
   .imm16 .lds, .inh .xgdx]

/-- Row $9x of page 1 (R92). -/
def page1Row9 : List Slot :=
  [.opr8 dirMode .suba, .opr8 dirMode .cmpa, .opr8 dirMode .sbca, .opr16 dirMode .subd,
   .opr8 dirMode .anda, .opr8 dirMode .bita, .opr8 dirMode .ldaa, .mem dirMode .staa,
   .opr8 dirMode .eora, .opr8 dirMode .adca, .opr8 dirMode .oraa, .opr8 dirMode .adda,
   .opr16 dirMode .cpx, .mem dirMode .jsr, .opr16 dirMode .lds, .mem dirMode .sts]

/-- Row $Ax of page 1 (R92). -/
def page1RowA : List Slot :=
  [.opr8 indXMode .suba, .opr8 indXMode .cmpa, .opr8 indXMode .sbca, .opr16 indXMode .subd,
   .opr8 indXMode .anda, .opr8 indXMode .bita, .opr8 indXMode .ldaa, .mem indXMode .staa,
   .opr8 indXMode .eora, .opr8 indXMode .adca, .opr8 indXMode .oraa, .opr8 indXMode .adda,
   .opr16 indXMode .cpx, .mem indXMode .jsr, .opr16 indXMode .lds, .mem indXMode .sts]

/-- Row $Bx of page 1 (R92). -/
def page1RowB : List Slot :=
  [.opr8 extMode .suba, .opr8 extMode .cmpa, .opr8 extMode .sbca, .opr16 extMode .subd,
   .opr8 extMode .anda, .opr8 extMode .bita, .opr8 extMode .ldaa, .mem extMode .staa,
   .opr8 extMode .eora, .opr8 extMode .adca, .opr8 extMode .oraa, .opr8 extMode .adda,
   .opr16 extMode .cpx, .mem extMode .jsr, .opr16 extMode .lds, .mem extMode .sts]

/-- Row $Cx of page 1 (R92). -/
def page1RowC : List Slot :=
  [.imm8 .subb, .imm8 .cmpb, .imm8 .sbcb, .imm16 .addd, .imm8 .andb, .imm8 .bitb, .imm8 .ldab,
   .undefined, .imm8 .eorb, .imm8 .adcb, .imm8 .orab, .imm8 .addb, .imm16 .ldd, .prebyte .four,
   .imm16 .ldx, .inh .stop]

/-- Row $Dx of page 1 (R92). -/
def page1RowD : List Slot :=
  [.opr8 dirMode .subb, .opr8 dirMode .cmpb, .opr8 dirMode .sbcb, .opr16 dirMode .addd,
   .opr8 dirMode .andb, .opr8 dirMode .bitb, .opr8 dirMode .ldab, .mem dirMode .stab,
   .opr8 dirMode .eorb, .opr8 dirMode .adcb, .opr8 dirMode .orab, .opr8 dirMode .addb,
   .opr16 dirMode .ldd, .mem dirMode .std, .opr16 dirMode .ldx, .mem dirMode .stx]

/-- Row $Ex of page 1 (R92). -/
def page1RowE : List Slot :=
  [.opr8 indXMode .subb, .opr8 indXMode .cmpb, .opr8 indXMode .sbcb, .opr16 indXMode .addd,
   .opr8 indXMode .andb, .opr8 indXMode .bitb, .opr8 indXMode .ldab, .mem indXMode .stab,
   .opr8 indXMode .eorb, .opr8 indXMode .adcb, .opr8 indXMode .orab, .opr8 indXMode .addb,
   .opr16 indXMode .ldd, .mem indXMode .std, .opr16 indXMode .ldx, .mem indXMode .stx]

/-- Row $Fx of page 1 (R92). -/
def page1RowF : List Slot :=
  [.opr8 extMode .subb, .opr8 extMode .cmpb, .opr8 extMode .sbcb, .opr16 extMode .addd,
   .opr8 extMode .andb, .opr8 extMode .bitb, .opr8 extMode .ldab, .mem extMode .stab,
   .opr8 extMode .eorb, .opr8 extMode .adcb, .opr8 extMode .orab, .opr8 extMode .addb,
   .opr16 extMode .ldd, .mem extMode .std, .opr16 extMode .ldx, .mem extMode .stx]

/-- Page 2, the opcodes after the prebyte $18 (R93): 64 are defined. -/
def page2Opcodes : List (Nat × Slot) :=
  [(0x08, .inh .iny), (0x09, .inh .dey), (0x1C, .mask indYMode .bset),
   (0x1D, .mask indYMode .bclr), (0x1E, .maskRel indYMode .brset),
   (0x1F, .maskRel indYMode .brclr), (0x30, .inh .tsy), (0x35, .inh .tys), (0x38, .inh .puly),
   (0x3A, .inh .aby), (0x3C, .inh .pshy), (0x60, .mem indYMode .neg), (0x63, .mem indYMode .com),
   (0x64, .mem indYMode .lsr), (0x66, .mem indYMode .ror), (0x67, .mem indYMode .asr),
   (0x68, .mem indYMode .asl), (0x69, .mem indYMode .rol), (0x6A, .mem indYMode .dec),
   (0x6C, .mem indYMode .inc), (0x6D, .mem indYMode .tst), (0x6E, .mem indYMode .jmp),
   (0x6F, .mem indYMode .clr), (0x8C, .imm16 .cpy), (0x8F, .inh .xgdy),
   (0x9C, .opr16 dirMode .cpy), (0xA0, .opr8 indYMode .suba), (0xA1, .opr8 indYMode .cmpa),
   (0xA2, .opr8 indYMode .sbca), (0xA3, .opr16 indYMode .subd), (0xA4, .opr8 indYMode .anda),
   (0xA5, .opr8 indYMode .bita), (0xA6, .opr8 indYMode .ldaa), (0xA7, .mem indYMode .staa),
   (0xA8, .opr8 indYMode .eora), (0xA9, .opr8 indYMode .adca), (0xAA, .opr8 indYMode .oraa),
   (0xAB, .opr8 indYMode .adda), (0xAC, .opr16 indYMode .cpy), (0xAD, .mem indYMode .jsr),
   (0xAE, .opr16 indYMode .lds), (0xAF, .mem indYMode .sts), (0xBC, .opr16 extMode .cpy),
   (0xCE, .imm16 .ldy), (0xDE, .opr16 dirMode .ldy), (0xDF, .mem dirMode .sty),
   (0xE0, .opr8 indYMode .subb), (0xE1, .opr8 indYMode .cmpb), (0xE2, .opr8 indYMode .sbcb),
   (0xE3, .opr16 indYMode .addd), (0xE4, .opr8 indYMode .andb), (0xE5, .opr8 indYMode .bitb),
   (0xE6, .opr8 indYMode .ldab), (0xE7, .mem indYMode .stab), (0xE8, .opr8 indYMode .eorb),
   (0xE9, .opr8 indYMode .adcb), (0xEA, .opr8 indYMode .orab), (0xEB, .opr8 indYMode .addb),
   (0xEC, .opr16 indYMode .ldd), (0xED, .mem indYMode .std), (0xEE, .opr16 indYMode .ldy),
   (0xEF, .mem indYMode .sty), (0xFE, .opr16 extMode .ldy), (0xFF, .mem extMode .sty)]

/-- Page 3, the opcodes after the prebyte $1A (R94): 7 are defined. -/
def page3Opcodes : List (Nat × Slot) :=
  [(0x83, .imm16 .cpd), (0x93, .opr16 dirMode .cpd), (0xA3, .opr16 indXMode .cpd),
   (0xAC, .opr16 indXMode .cpy), (0xB3, .opr16 extMode .cpd), (0xEE, .opr16 indXMode .ldy),
   (0xEF, .mem indXMode .sty)]

/-- Page 4, the opcodes after the prebyte $CD (R95): 4 are defined. -/
def page4Opcodes : List (Nat × Slot) :=
  [(0xA3, .opr16 indYMode .cpd), (0xAC, .opr16 indYMode .cpx), (0xEE, .opr16 indYMode .ldx),
   (0xEF, .mem indYMode .stx)]

/-- Page 1, the opcode map of R92, row by row. -/
def page1Rows : List (List Slot) :=
  [page1Row0, page1Row1, page1Row2, page1Row3, page1Row4, page1Row5, page1Row6, page1Row7,
   page1Row8, page1Row9, page1RowA, page1RowB, page1RowC, page1RowD, page1RowE, page1RowF]

/-- The entry of a page after a prebyte; every opcode its table does not list is undefined (R93 to R96). -/
def lookupOpcode (opcodes : List (Nat × Slot)) (op : Byte) : Slot :=
  match opcodes.find? (fun e => e.1 == op.toNat) with
  | some e => e.2
  | none => .undefined

/-- Look (page, op) up in the maps of R92 to R95. -/
def opcodeMap (p : Page) (op : Byte) : Slot :=
  match p with
  | .one => (page1Rows.getD (op.toNat / 16) []).getD (op.toNat % 16) .undefined
  | .two => lookupOpcode page2Opcodes op
  | .three => lookupOpcode page3Opcodes op
  | .four => lookupOpcode page4Opcodes op

/-- What a list of bytes is to the decoder: an instruction and the bytes after it, an undefined opcode (R96),
or too few bytes to say. -/
inductive Decoded
  | instr (i : Instr) (rest : List Byte)
  | undefined (p : Page) (op : Byte)
  | tooShort
deriving DecidableEq, Repr

/-- An address operand, and what the bytes after it make of it. -/
def withMem (mode : MemMode) (bytes : List Byte) (k : Mem → List Byte → Decoded) : Decoded :=
  match mode bytes with
  | some (m, rest) => k m rest
  | none => .tooShort

/-- Take the operand bytes of a slot's format, in ascending address order (R91, R102). `p`, `op` name the
opcode; a prebyte after a prebyte is no slot of its page and is undefined (R102). -/
def Slot.operands (p : Page) (op : Byte) (slot : Slot) (bytes : List Byte) : Decoded :=
  match slot with
  | .undefined => .undefined p op
  | .prebyte _ => .undefined p op
  | .inh i => .instr i bytes
  | .imm8 f =>
    match bytes with
    | ii :: rest => .instr (f (.imm ii)) rest
    | [] => .tooShort
  | .imm16 f =>
    match bytes with
    | jj :: kk :: rest => .instr (f (.imm (joinBytes jj kk))) rest
    | [_] => .tooShort
    | [] => .tooShort
  | .opr8 mode f => withMem mode bytes fun m rest => .instr (f (.mem m)) rest
  | .opr16 mode f => withMem mode bytes fun m rest => .instr (f (.mem m)) rest
  | .mem mode f => withMem mode bytes fun m rest => .instr (f m) rest
  | .rel f =>
    match bytes with
    | rr :: rest => .instr (f rr) rest
    | [] => .tooShort
  | .mask mode f => withMem mode bytes fun m rest =>
    match rest with
    | mm :: rest => .instr (f m mm) rest
    | [] => .tooShort
  | .maskRel mode f => withMem mode bytes fun m rest =>
    match rest with
    | mm :: rr :: rest => .instr (f m mm rr) rest
    | [_] => .tooShort
    | [] => .tooShort

/-- The decoder (R102): the first byte selects the page or is the opcode of page 1. Opcode $00 decodes as TEST;
what TEST does outside test mode, R98, is its meaning's (R316). -/
def decode : List Byte → Decoded
  | [] => .tooShort
  | b0 :: rest =>
    match opcodeMap .one b0 with
    | .prebyte p =>
      match rest with
      | op :: rest => (opcodeMap p op).operands p op rest
      | [] => .tooShort
    | slot => slot.operands .one b0 rest

/-- The address operand of a slot of format MSK or MSK_REL, when `bytes` are exactly the bytes it takes. -/
def Slot.earlyOperand (slot : Slot) (bytes : List Byte) : Option Mem :=
  match slot with
  | .mask mode _ => earlyMem mode bytes
  | .maskRel mode _ => earlyMem mode bytes
  | .undefined | .prebyte _ | .inh _ | .imm8 _ | .imm16 _ | .opr8 _ _ | .opr16 _ _ | .mem _ _ | .rel _ => none
where
  /-- The operand, if it takes all the bytes. -/
  earlyMem (mode : MemMode) (bytes : List Byte) : Option Mem :=
    match mode bytes with
    | some (m, []) => some m
    | some (_, _ :: _) => none
    | none => none

/-- BSET, BCLR, BRSET and BRCLR read the byte at EA before their mask and offset are fetched (R248, R249, R289, R290,
R380): the operand whose byte the bus reads next, when `bytes` are the bytes of the instruction fetched so far. -/
def earlyOperand : List Byte → Option Mem
  | [] => none
  | b0 :: rest =>
    match opcodeMap .one b0 with
    | .prebyte p =>
      match rest with
      | op :: rest => (opcodeMap p op).earlyOperand rest
      | [] => none
    | slot => slot.earlyOperand rest

/-! ### The encoder -/

/-- The opcode bytes of the mode, then its operand bytes (R85 to R88, R91). -/
def encodeMem (dir ext indX indY : List Byte) : Mem → List Byte
  | .dir dd => dir ++ [dd]
  | .ext hhll => ext ++ [hiByte hhll, loByte hhll]
  | .indX ff => indX ++ [ff]
  | .indY ff => indY ++ [ff]

/-- As `encodeMem`, with the IMM8 form (R83). -/
def encodeOpr8 (imm dir ext indX indY : List Byte) : Opr8 → List Byte
  | .imm ii => imm ++ [ii]
  | .mem m => encodeMem dir ext indX indY m

/-- As `encodeMem`, with the IMM16 form (R84). -/
def encodeOpr16 (imm dir ext indX indY : List Byte) : Opr16 → List Byte
  | .imm jjkk => imm ++ [hiByte jjkk, loByte jjkk]
  | .mem m => encodeMem dir ext indX indY m

/-- The bytes of a well-formed instruction, from the encodings of its own rule: opcode bytes in the order
IMM, DIR, EXT, IND,X, IND,Y; a mode the instruction lacks has no opcode bytes here. -/
def encode : Instr → List Byte
  | .ldaa o => encodeOpr8 [0x86] [0x96] [0xB6] [0xA6] [0x18, 0xA6] o
  | .ldab o => encodeOpr8 [0xC6] [0xD6] [0xF6] [0xE6] [0x18, 0xE6] o
  | .ldd o => encodeOpr16 [0xCC] [0xDC] [0xFC] [0xEC] [0x18, 0xEC] o
  | .lds o => encodeOpr16 [0x8E] [0x9E] [0xBE] [0xAE] [0x18, 0xAE] o
  | .ldx o => encodeOpr16 [0xCE] [0xDE] [0xFE] [0xEE] [0xCD, 0xEE] o
  | .ldy o => encodeOpr16 [0x18, 0xCE] [0x18, 0xDE] [0x18, 0xFE] [0x1A, 0xEE] [0x18, 0xEE] o
  | .staa m => encodeMem [0x97] [0xB7] [0xA7] [0x18, 0xA7] m
  | .stab m => encodeMem [0xD7] [0xF7] [0xE7] [0x18, 0xE7] m
  | .std m => encodeMem [0xDD] [0xFD] [0xED] [0x18, 0xED] m
  | .sts m => encodeMem [0x9F] [0xBF] [0xAF] [0x18, 0xAF] m
  | .stx m => encodeMem [0xDF] [0xFF] [0xEF] [0xCD, 0xEF] m
  | .sty m => encodeMem [0x18, 0xDF] [0x18, 0xFF] [0x1A, 0xEF] [0x18, 0xEF] m
  | .tab => [0x16]
  | .tba => [0x17]
  | .tap => [0x06]
  | .tpa => [0x07]
  | .tsx => [0x30]
  | .tsy => [0x18, 0x30]
  | .txs => [0x35]
  | .tys => [0x18, 0x35]
  | .xgdx => [0x8F]
  | .xgdy => [0x18, 0x8F]
  | .psha => [0x36]
  | .pshb => [0x37]
  | .pshx => [0x3C]
  | .pshy => [0x18, 0x3C]
  | .pula => [0x32]
  | .pulb => [0x33]
  | .pulx => [0x38]
  | .puly => [0x18, 0x38]
  | .clr m => encodeMem [] [0x7F] [0x6F] [0x18, 0x6F] m
  | .clra => [0x4F]
  | .clrb => [0x5F]
  | .aba => [0x1B]
  | .abx => [0x3A]
  | .aby => [0x18, 0x3A]
  | .adca o => encodeOpr8 [0x89] [0x99] [0xB9] [0xA9] [0x18, 0xA9] o
  | .adcb o => encodeOpr8 [0xC9] [0xD9] [0xF9] [0xE9] [0x18, 0xE9] o
  | .adda o => encodeOpr8 [0x8B] [0x9B] [0xBB] [0xAB] [0x18, 0xAB] o
  | .addb o => encodeOpr8 [0xCB] [0xDB] [0xFB] [0xEB] [0x18, 0xEB] o
  | .addd o => encodeOpr16 [0xC3] [0xD3] [0xF3] [0xE3] [0x18, 0xE3] o
  | .cba => [0x11]
  | .cmpa o => encodeOpr8 [0x81] [0x91] [0xB1] [0xA1] [0x18, 0xA1] o
  | .cmpb o => encodeOpr8 [0xC1] [0xD1] [0xF1] [0xE1] [0x18, 0xE1] o
  | .cpd o => encodeOpr16 [0x1A, 0x83] [0x1A, 0x93] [0x1A, 0xB3] [0x1A, 0xA3] [0xCD, 0xA3] o
  | .cpx o => encodeOpr16 [0x8C] [0x9C] [0xBC] [0xAC] [0xCD, 0xAC] o
  | .cpy o => encodeOpr16 [0x18, 0x8C] [0x18, 0x9C] [0x18, 0xBC] [0x1A, 0xAC] [0x18, 0xAC] o
  | .daa => [0x19]
  | .dec m => encodeMem [] [0x7A] [0x6A] [0x18, 0x6A] m
  | .deca => [0x4A]
  | .decb => [0x5A]
  | .des => [0x34]
  | .dex => [0x09]
  | .dey => [0x18, 0x09]
  | .fdiv => [0x03]
  | .idiv => [0x02]
  | .inc m => encodeMem [] [0x7C] [0x6C] [0x18, 0x6C] m
  | .inca => [0x4C]
  | .incb => [0x5C]
  | .ins => [0x31]
  | .inx => [0x08]
  | .iny => [0x18, 0x08]
  | .mul => [0x3D]
  | .neg m => encodeMem [] [0x70] [0x60] [0x18, 0x60] m
  | .nega => [0x40]
  | .negb => [0x50]
  | .sba => [0x10]
  | .sbca o => encodeOpr8 [0x82] [0x92] [0xB2] [0xA2] [0x18, 0xA2] o
  | .sbcb o => encodeOpr8 [0xC2] [0xD2] [0xF2] [0xE2] [0x18, 0xE2] o
  | .suba o => encodeOpr8 [0x80] [0x90] [0xB0] [0xA0] [0x18, 0xA0] o
  | .subb o => encodeOpr8 [0xC0] [0xD0] [0xF0] [0xE0] [0x18, 0xE0] o
  | .subd o => encodeOpr16 [0x83] [0x93] [0xB3] [0xA3] [0x18, 0xA3] o
  | .tst m => encodeMem [] [0x7D] [0x6D] [0x18, 0x6D] m
  | .tsta => [0x4D]
  | .tstb => [0x5D]
  | .anda o => encodeOpr8 [0x84] [0x94] [0xB4] [0xA4] [0x18, 0xA4] o
  | .andb o => encodeOpr8 [0xC4] [0xD4] [0xF4] [0xE4] [0x18, 0xE4] o
  | .bita o => encodeOpr8 [0x85] [0x95] [0xB5] [0xA5] [0x18, 0xA5] o
  | .bitb o => encodeOpr8 [0xC5] [0xD5] [0xF5] [0xE5] [0x18, 0xE5] o
  | .eora o => encodeOpr8 [0x88] [0x98] [0xB8] [0xA8] [0x18, 0xA8] o
  | .eorb o => encodeOpr8 [0xC8] [0xD8] [0xF8] [0xE8] [0x18, 0xE8] o
  | .oraa o => encodeOpr8 [0x8A] [0x9A] [0xBA] [0xAA] [0x18, 0xAA] o
  | .orab o => encodeOpr8 [0xCA] [0xDA] [0xFA] [0xEA] [0x18, 0xEA] o
  | .com m => encodeMem [] [0x73] [0x63] [0x18, 0x63] m
  | .coma => [0x43]
  | .comb => [0x53]
  | .asl m => encodeMem [] [0x78] [0x68] [0x18, 0x68] m
  | .asla => [0x48]
  | .aslb => [0x58]
  | .asld => [0x05]
  | .asr m => encodeMem [] [0x77] [0x67] [0x18, 0x67] m
  | .asra => [0x47]
  | .asrb => [0x57]
  | .lsr m => encodeMem [] [0x74] [0x64] [0x18, 0x64] m
  | .lsra => [0x44]
  | .lsrb => [0x54]
  | .lsrd => [0x04]
  | .rol m => encodeMem [] [0x79] [0x69] [0x18, 0x69] m
  | .rola => [0x49]
  | .rolb => [0x59]
  | .ror m => encodeMem [] [0x76] [0x66] [0x18, 0x66] m
  | .rora => [0x46]
  | .rorb => [0x56]
  | .bclr m mm => encodeMem [0x15] [] [0x1D] [0x18, 0x1D] m ++ [mm]
  | .bset m mm => encodeMem [0x14] [] [0x1C] [0x18, 0x1C] m ++ [mm]
  | .clc => [0x0C]
  | .clv => [0x0A]
  | .sec => [0x0D]
  | .sev => [0x0B]
  | .lsl m => encodeMem [] [0x78] [0x68] [0x18, 0x68] m
  | .lsla => [0x48]
  | .lslb => [0x58]
  | .lsld => [0x05]
  | .bcc rr => [0x24] ++ [rr]
  | .bcs rr => [0x25] ++ [rr]
  | .beq rr => [0x27] ++ [rr]
  | .bge rr => [0x2C] ++ [rr]
  | .bgt rr => [0x2E] ++ [rr]
  | .bhi rr => [0x22] ++ [rr]
  | .bhs rr => [0x24] ++ [rr]
  | .ble rr => [0x2F] ++ [rr]
  | .blo rr => [0x25] ++ [rr]
  | .bls rr => [0x23] ++ [rr]
  | .blt rr => [0x2D] ++ [rr]
  | .bmi rr => [0x2B] ++ [rr]
  | .bne rr => [0x26] ++ [rr]
  | .bpl rr => [0x2A] ++ [rr]
  | .bra rr => [0x20] ++ [rr]
  | .brn rr => [0x21] ++ [rr]
  | .bvc rr => [0x28] ++ [rr]
  | .bvs rr => [0x29] ++ [rr]
  | .brclr m mm rr => encodeMem [0x13] [] [0x1F] [0x18, 0x1F] m ++ [mm, rr]
  | .brset m mm rr => encodeMem [0x12] [] [0x1E] [0x18, 0x1E] m ++ [mm, rr]
  | .bsr rr => [0x8D] ++ [rr]
  | .jmp m => encodeMem [] [0x7E] [0x6E] [0x18, 0x6E] m
  | .jsr m => encodeMem [0x9D] [0xBD] [0xAD] [0x18, 0xAD] m
  | .rts => [0x39]
  | .nop => [0x01]
  | .cli => [0x0E]
  | .sei => [0x0F]
  | .rti => [0x3B]
  | .swi => [0x3F]
  | .wai => [0x3E]
  | .stop => [0xCF]
  | .test => [0x00]

/-- LEN, the number of bytes of the instruction (R9, R91). -/
def Instr.length (i : Instr) : Nat := (encode i).length

/-- The instruction's page-1 opcode is $40 to $5F, "column 4 or 5 of the opcode map" (R104, R374). -/
def Instr.column45 (i : Instr) : Bool :=
  match encode i with
  | b :: _ => b.toNat / 16 == 4 || b.toNat / 16 == 5
  | [] => false

/-! ### The opcode table's words -/

/-- The longest instruction has five bytes (R80). -/
def maxLength : Nat := 5

/-- `n` bytes of `w`, bits 7..0 first. -/
def bytesOf : Nat → Nat → List Byte
  | 0, _ => []
  | n + 1, w => BitVec.ofNat 8 w :: bytesOf n (w / 256)

/-- Is the number one of the three prebytes (R81)? -/
def isPrebyte (n : Nat) : Bool := n == 0x18 || n == 0x1A || n == 0xCD

/-- The bytes of a row of spec/opcode_table.json: `nbits` bits of `w`, bits 7..0 the first byte. A two-byte row
of the table is its prebyte and opcode read as one big-endian number, so there the prebyte stands in bits
15..8 and comes first. DEDUCED (log 24); safe. -/
def tableBytes (nbits w : Nat) : List Byte :=
  if nbits == 16 && isPrebyte (w / 256 % 256) then bytesOf 1 (w / 256) ++ bytesOf 1 w
  else bytesOf (nbits / 8) w

/-- A row's bytes with zeros after them, to the length of the longest instruction. -/
def tableProgram (nbits w : Nat) : List Byte :=
  let bytes := tableBytes nbits w
  bytes ++ List.replicate (maxLength - bytes.length) 0

/-- The instruction the decoder reads from a row of the opcode table; none where it refuses. -/
def decodeTableWord (nbits w : Nat) : Option Instr :=
  match decode (tableProgram nbits w) with
  | .instr i _ => some i
  | .undefined _ _ => none
  | .tooShort => none

end Sys2Proof
end

