-- ==== Sys2Proof/Config.lean ====
section
/-! DEFINITION. What an implementation fixes (the parameters of 00_scope.md R3, held as plain data so that a
statement can quantify over them) and the free values (the oracle UNSPEC, as constants without a body). -/

namespace Sys2Proof

/-- What MEM has at an address (D3): RAM, ROM (writes are ignored, U11), a device location (its behaviour is
the environment's, U12), or nothing (an access is a fault of the model, U10). -/
inductive MemKind
  | ram
  | rom
  | device
  | nothing
deriving DecidableEq, Repr

/-- The addresses `first` to `last`, both included, hold memory of one kind (parameter MEM, R61). -/
structure Region where
  first : Word
  last : Word
  kind : MemKind
deriving DecidableEq, Repr

/-- ILLOP_POLICY (R3, R97): the model stops at an undefined opcode, or takes the entry of R340. -/
inductive IllopPolicy
  | fault
  | trap
deriving DecidableEq, Repr

/-- A source of maskable interrupts: the IRQ pin, or another source of the platform with its vector
VEC_OTHER(src) (R3, R339). -/
inductive Source
  | irq
  | other (id : Nat) (vector : Word)
deriving DecidableEq, Repr

/-- The implementation and platform parameters of R3. No step changes them. PART names no behaviour. -/
structure Platform where
  /-- TEST_MODE (R41, D12). -/
  testMode : Bool
  /-- ILLOP_POLICY (R97, D6). -/
  illopPolicy : IllopPolicy
  /-- DUMMY_READS (R60, D4). -/
  dummyReads : Bool
  /-- STOP_ERRATUM (R374, D13). -/
  stopErratum : Bool
  /-- Address of the high byte of each vector (R59, D5). -/
  vecSwi : Word
  vecIllop : Word
  vecXirq : Word
  vecIrq : Word
  vecReset : Word
  /-- IRQ_PRIORITY: the maskable sources the platform has, highest first (R335, D9). -/
  priority : List Source
  /-- MEM (R61, D3): the first region that holds an address says what is there. -/
  regions : List Region
  /-- MEM at the addresses no region holds. -/
  elsewhere : MemKind
deriving DecidableEq, Repr

/-- The defaults of R3; for MEM, which R3 leaves open, RAM everywhere, the configuration of the spec's own
test vectors (D3). DESIGN CHOICE (log 6); PRESUMED vector addresses (log 1); unsafe. -/
def Platform.standard : Platform where
  testMode := false
  illopPolicy := .fault
  dummyReads := false
  stopErratum := false
  vecSwi := 0xFFF6
  vecIllop := 0xFFF8
  vecXirq := 0xFFF4
  vecIrq := 0xFFF2
  vecReset := 0xFFFE
  priority := [.irq]
  regions := []
  elsewhere := .ram

/-- The `n`-th draw of an 8-bit value the spec leaves indeterminate (UNSPEC, R14, D10). Log 12; safe. -/
opaque Config.unspec8 : Nat → Byte

/-- The `n`-th draw of a 16-bit value the spec leaves indeterminate (UNSPEC, R14, D10). Log 12; safe. -/
opaque Config.unspec16 : Nat → Word

/-- The `n`-th draw of a bit the spec leaves indeterminate (UNSPEC, R14, D10). Log 12; safe. -/
opaque Config.unspecBit : Nat → Bool

/-- What the `n`-th draw, a read of the device location at an address, answers: the environment's to say
(D3, U12). Log 9; safe. -/
opaque Config.deviceByte : Nat → Word → Byte

end Sys2Proof
end

