-- ==== Sys2Proof/Machine/State.lean ====
section
/-! DEFINITION. The machine's state as plain data: the seven registers of R20, the hidden state of R38 to R41,
memory, the environment's request lines, the platform's parameters, and the model's own counter and log. -/

namespace Sys2Proof.Machine

/-- The condition code register, one Bool per bit S X H I N Z V C, bit 7 first (R28); it has no other bits. -/
structure Ccr where
  /-- Bit 7, stop disable (R29). -/
  s : Bool
  /-- Bit 6, X interrupt mask (R30). -/
  x : Bool
  /-- Bit 5, half carry (R31). -/
  h : Bool
  /-- Bit 4, I interrupt mask (R32). -/
  i : Bool
  /-- Bit 3, negative (R33). -/
  n : Bool
  /-- Bit 2, zero (R34). -/
  z : Bool
  /-- Bit 1, two's complement overflow (R35). -/
  v : Bool
  /-- Bit 0, carry or borrow (R36). -/
  c : Bool
deriving DecidableEq, Repr

/-- RS, what the MPU is doing (R40). -/
inductive RunState
  | running
  | waiting
  | stopped
  | testLoop
deriving DecidableEq, Repr

/-- The levels of the request lines: RESET, XIRQ, IRQ, and the asserted other sources REQ(src) (R39). -/
structure Lines where
  reset : Bool
  xirq : Bool
  irq : Bool
  others : List Nat
deriving DecidableEq, Repr

/-- No request asserted. -/
def Lines.quiet : Lines where
  reset := false
  xirq := false
  irq := false
  others := []

/-- An access to a device location (R69, D3). -/
inductive DeviceAccess
  | read (addr : Word) (value : Byte)
  | write (addr : Word) (value : Byte)
deriving DecidableEq, Repr

/-- The bytes of the 65536 addresses (R50), as a list of the addresses that hold another byte than
`Memory.unlisted`, strictly rising. -/
abbrev Memory := List Host.Cell

/-- What an unlisted address reads as: RAM nothing has written. The spec leaves it to MEM; its test vectors
hold $00. DESIGN CHOICE (log 5); unsafe. -/
def Memory.unlisted : Byte := 0x00

/-- The machine's state. -/
structure State where
  /-- Accumulator A (R21); the high-order byte of D (R23). -/
  a : Byte
  /-- Accumulator B (R22); the low-order byte of D (R23). -/
  b : Byte
  /-- Index register X (R24). -/
  ix : Word
  /-- Index register Y (R25). -/
  iy : Word
  /-- Stack pointer, the next empty location of the stack (R26). -/
  sp : Word
  /-- Program counter; between instructions the address of the next one (R27). -/
  pc : Word
  /-- Condition code register (R28). -/
  ccr : Ccr
  /-- The I-delay latch (R38). -/
  idelay : Bool
  /-- The run-state (R40). -/
  runState : RunState
  /-- The instruction before had a page-1 opcode $40 to $5F: what the STOP erratum looks at (R374). -/
  prevColumn45 : Bool
  /-- Memory (R50). -/
  mem : Memory
  /-- The request lines as the environment holds them (R39). -/
  lines : Lines
  /-- The levels the environment puts on the lines before each coming step; after the last they stay (R347).
  DESIGN CHOICE (log 18); safe. -/
  script : List Lines
  /-- The parameters of R3. -/
  platform : Platform
  /-- The model's own: how many free values have been drawn (UNSPEC, R14). Log 12. -/
  draws : Nat
  /-- The model's own: the accesses made to device locations, newest first (R69). Log 9. -/
  deviceLog : List DeviceAccess
deriving DecidableEq, Repr

/-- Why the model stops a run where the machine has no event for it. -/
inductive Fault
  /-- The bytes at this address select no instruction and ILLOP_POLICY is `fault` (R97, D6); raised at decode,
  and by TEST outside test mode (R316). Safe: the machine may do anything here. -/
  | illegalOpcode (opa : Word)
  /-- An access to an address where MEM has nothing (R61, D3); raised by every bus access. Safe. -/
  | unpopulated (addr : Word)
deriving DecidableEq, Repr

/-- Why the model has no meaning for an instruction. -/
inductive Refusal
  /-- No meaning written; raised by no arm of `exec`. Safe. -/
  | notModelled (mnemonic : String)
deriving DecidableEq, Repr

/-- The three outcomes of a step. -/
abbrev Result := Host.Outcome State Fault Refusal

/-- A bus operation: its value and the state after it, or the fault that stops the run. -/
inductive Res (α : Type)
  | ok (value : α) (s : State)
  | stop (f : Fault)

/-- Right after reset (R42, R370). X is the source's; S and I are PRESUMED (log 3); the PC is what the vector
holds in the blank memory (log 4); the rest of the registers and flags, which R42 leaves unspecified, are zero
by DESIGN CHOICE (log 2), unsafe; no line is asserted (log 18). -/
def State.reset : State where
  a := 0x00
  b := 0x00
  ix := 0x0000
  iy := 0x0000
  sp := 0x0000
  pc := 0x0000
  ccr := { s := true, x := true, h := false, i := true, n := false, z := false, v := false, c := false }
  idelay := false
  runState := .running
  prevColumn45 := false
  mem := []
  lines := Lines.quiet
  script := []
  platform := Platform.standard
  draws := 0
  deviceLog := []

end Sys2Proof.Machine
end

