-- ==== Sys2Proof/Machine/Flags.lean ====
section
/-! DEFINITION. The condition code register as a byte (R28) and every flag computation of the spec, each as the
new value of an operand together with the new condition codes (R10 to R13, files 41 and 42). -/

namespace Sys2Proof.Machine

/-- A bit as a number of `w` bits: the carry-in of R11, R12 and of the rotates. -/
def bitValue (w : Nat) (c : Bool) : BitVec w := if c then 1 else 0

/-- The CCR as the byte TPA and the stacking see, S in bit 7 (R28). -/
def Ccr.toByte (cc : Ccr) : Byte :=
  BitVec.ofBool cc.s ++ BitVec.ofBool cc.x ++ BitVec.ofBool cc.h ++ BitVec.ofBool cc.i ++
  BitVec.ofBool cc.n ++ BitVec.ofBool cc.z ++ BitVec.ofBool cc.v ++ BitVec.ofBool cc.c

/-- The CCR a byte stands for (R28). -/
def Ccr.ofByte (v : Byte) : Ccr where
  s := v.getLsbD 7
  x := v.getLsbD 6
  h := v.getLsbD 5
  i := v.getLsbD 4
  n := v.getLsbD 3
  z := v.getLsbD 2
  v := v.getLsbD 1
  c := v.getLsbD 0

/-- TAP and RTI write the CCR from a byte: X may go from one to zero, never from zero to one (R30). -/
def Ccr.load (cc : Ccr) (v : Byte) : Ccr := { Ccr.ofByte v with x := cc.x && v.getLsbD 6 }

/-- `NZ8`, `NZ16` (R10). -/
def Ccr.nz {w : Nat} (cc : Ccr) (r : BitVec w) : Ccr := { cc with n := r.msb, z := r == 0 }

/-- `NZV0_8`, `NZV0_16` (R10). -/
def Ccr.nzv0 {w : Nat} (cc : Ccr) (r : BitVec w) : Ccr := { cc.nz r with v := false }

/-- Z alone, from a 16-bit result (R179, R180, R187, R188). -/
def Ccr.zOnly (cc : Ccr) (r : Word) : Ccr := { cc with z := r == 0 }

/-! ### The Boolean formulas of R11 to R13 -/

/-- Carry out of bit 3 (R11, C1). -/
def halfCarry (x m r : Byte) : Bool :=
  (x.getLsbD 3 && m.getLsbD 3) || (m.getLsbD 3 && !r.getLsbD 3) || (!r.getLsbD 3 && x.getLsbD 3)

/-- Carry out of the most significant bit of an addition (R11, R13). -/
def addCarry {w : Nat} (x m r : BitVec w) : Bool :=
  (x.msb && m.msb) || (m.msb && !r.msb) || (!r.msb && x.msb)

/-- Signed overflow of an addition (R11, R13). -/
def addOverflow {w : Nat} (x m r : BitVec w) : Bool :=
  (x.msb && m.msb && !r.msb) || (!x.msb && !m.msb && r.msb)

/-- Borrow of a subtraction (R12, R13, C2). -/
def subBorrow {w : Nat} (x m r : BitVec w) : Bool :=
  (!x.msb && m.msb) || (m.msb && r.msb) || (r.msb && !x.msb)

/-- Signed overflow of a subtraction (R12, R13). -/
def subOverflow {w : Nat} (x m r : BitVec w) : Bool :=
  (x.msb && !m.msb && !r.msb) || (!x.msb && m.msb && r.msb)

/-! ### Operations of two operands -/

/-- A register operand, the other operand and the CCR, to the result and the CCR after. -/
abbrev Binary (w : Nat) := BitVec w → BitVec w → Ccr → BitVec w × Ccr

/-- `Add8(x, m, c)` and SetHNZVC (R11). -/
def add8 (c : Bool) (x m : Byte) (cc : Ccr) : Byte × Ccr :=
  let r := x + m + bitValue 8 c
  (r, { cc.nz r with h := halfCarry x m r, v := addOverflow x m r, c := addCarry x m r })

/-- ADC: the carry-in is the C bit (R163, R164). -/
def adc8 : Binary 8 := fun x m cc => add8 cc.c x m cc

/-- `Sub8(x, m, c)` and N, Z, V, C (R12). -/
def sub8 (c : Bool) (x m : Byte) (cc : Ccr) : Byte × Ccr :=
  let r := x - m - bitValue 8 c
  (r, { cc.nz r with v := subOverflow x m r, c := subBorrow x m r })

/-- SBC: the borrow-in is the C bit (R194, R195). -/
def sbc8 : Binary 8 := fun x m cc => sub8 cc.c x m cc

/-- `Add16(x, m)` and N, Z, V, C (R13). -/
def add16 : Binary 16 := fun x m cc =>
  let r := x + m
  (r, { cc.nz r with v := addOverflow x m r, c := addCarry x m r })

/-- `Sub16(x, m)` and N, Z, V, C (R13). -/
def sub16 : Binary 16 := fun x m cc =>
  let r := x - m
  (r, { cc.nz r with v := subOverflow x m r, c := subBorrow x m r })

/-- AND, BIT (R220 to R223). -/
def and8 : Binary 8 := fun x m cc => (x &&& m, cc.nzv0 (x &&& m))

/-- EOR (R224, R225). -/
def eor8 : Binary 8 := fun x m cc => (x ^^^ m, cc.nzv0 (x ^^^ m))

/-- ORA (R226, R227). -/
def ora8 : Binary 8 := fun x m cc => (x ||| m, cc.nzv0 (x ||| m))

/-! ### Operations of one operand -/

/-- An operand and the CCR, to the result and the CCR after. -/
abbrev Unary (w : Nat) := BitVec w → Ccr → BitVec w × Ccr

/-- NEG (R190 to R192). -/
def neg8 : Unary 8 := fun x cc =>
  let r := 0 - x
  (r, { cc.nz r with v := r == 0x80, c := r != 0 })

/-- COM (R228 to R230). -/
def com8 : Unary 8 := fun x cc =>
  let r := x ^^^ 0xFF
  (r, { cc.nz r with v := false, c := true })

/-- INC (R183 to R185): C is left alone (C19). -/
def inc8 : Unary 8 := fun x cc => (x + 1, { cc.nz (x + 1) with v := x == 0x7F })

/-- DEC (R175 to R177): C is left alone. -/
def dec8 : Unary 8 := fun x cc => (x - 1, { cc.nz (x - 1) with v := x == 0x80 })

/-- CLR (R150 to R152). -/
def clr8 : Unary 8 := fun _ cc => (0, { cc with n := false, z := true, v := false, c := false })

/-- TST (R199 to R201): the operand stays. -/
def tst8 : Unary 8 := fun x cc => (x, { cc.nz x with v := false, c := false })

/-- The flags of every shift and rotate: C is the bit shifted out, V = N ^ C after the shift. -/
def shifted {w : Nat} (cc : Ccr) (r : BitVec w) (out : Bool) : BitVec w × Ccr :=
  (r, { cc.nz r with v := xor r.msb out, c := out })

/-- ASL, ASLD (R231 to R234). -/
def asl {w : Nat} : Unary w := fun x cc => shifted cc (x <<< 1) x.msb

/-- ASR: bit 7 is held constant (R235 to R237). -/
def asr8 : Unary 8 := fun x cc => shifted cc (x >>> 1 ||| x &&& 0x80) (x.getLsbD 0)

/-- LSR, LSRD (R238 to R241): N is cleared, so V is C. -/
def lsr {w : Nat} : Unary w := fun x cc =>
  let r := x >>> 1
  (r, { cc with n := false, z := r == 0, v := x.getLsbD 0, c := x.getLsbD 0 })

/-- ROL: bit 0 is loaded from C (R242 to R244). -/
def rol8 : Unary 8 := fun x cc => shifted cc (x <<< 1 ||| bitValue 8 cc.c) x.msb

/-- ROR: bit 7 is loaded from C (R245 to R247). -/
def ror8 : Unary 8 := fun x cc => shifted cc (x >>> 1 ||| bitValue 8 cc.c <<< 7) (x.getLsbD 0)

/-- BCLR with mask `mm` (R248). -/
def bclr8 (mm : Byte) : Unary 8 := fun x cc => (x &&& ~~~mm, cc.nzv0 (x &&& ~~~mm))

/-- BSET with mask `mm` (R249). -/
def bset8 (mm : Byte) : Unary 8 := fun x cc => (x ||| mm, cc.nzv0 (x ||| mm))

/-! ### Decimal adjust -/

/-- A row of the DAA table: the ranges of its four input columns, the number added, C after (R174). -/
structure DaaRow where
  cBefore : Bool
  hiFrom : Nat
  hiTo : Nat
  h : Bool
  loFrom : Nat
  loTo : Nat
  added : Byte
  cAfter : Bool
deriving DecidableEq, Repr

/-- The nine rows of the DAA table (R174). -/
def daaTable : List DaaRow :=
  [⟨false, 0x0, 0x9, false, 0x0, 0x9, 0x00, false⟩,
   ⟨false, 0x0, 0x8, false, 0xA, 0xF, 0x06, false⟩,
   ⟨false, 0x0, 0x9, true, 0x0, 0x3, 0x06, false⟩,
   ⟨false, 0xA, 0xF, false, 0x0, 0x9, 0x60, true⟩,
   ⟨false, 0x9, 0xF, false, 0xA, 0xF, 0x66, true⟩,
   ⟨false, 0xA, 0xF, true, 0x0, 0x3, 0x66, true⟩,
   ⟨true, 0x0, 0x2, false, 0x0, 0x9, 0x60, true⟩,
   ⟨true, 0x0, 0x2, false, 0xA, 0xF, 0x66, true⟩,
   ⟨true, 0x0, 0x3, true, 0x0, 0x3, 0x66, true⟩]

/-- The row's four input columns match C, A[7:4], H, A[3:0]. -/
def DaaRow.applies (row : DaaRow) (a : Byte) (cc : Ccr) : Bool :=
  row.cBefore == cc.c && row.hiFrom ≤ a.toNat / 16 && a.toNat / 16 ≤ row.hiTo &&
  row.h == cc.h && row.loFrom ≤ a.toNat % 16 && a.toNat % 16 ≤ row.loTo

/-- The row of the DAA table that matches, if there is one (D22). -/
def daaRow (a : Byte) (cc : Ccr) : Option DaaRow := daaTable.find? fun row => row.applies a cc

end Sys2Proof.Machine
end

