-- ==== Sys2Proof/Machine/Ops.lean ====
section
/-! DEFINITION. The named operations over memory, the bus, registers and the stack (00_scope.md R6 to R9,
20_memory.md), taking an exception and returning from one (60_exceptions.md), and reset (R370). -/

namespace Sys2Proof.Machine

/-! ### Bus operations in sequence -/

/-- Do `r`, then `k` with its value in the state after it; a fault stops the run. -/
def Res.bind {α β : Type} (r : Res α) (k : α → State → Res β) : Res β :=
  match r with
  | .ok a s => k a s
  | .stop f => .stop f

/-- Do `r`; its value and the state after it give the next state. -/
def Res.complete {α : Type} (r : Res α) (k : α → State → State) : Result :=
  match r with
  | .ok a s => .next (k a s)
  | .stop f => .fault f

/-- Do `r`, then what the rest of the instruction makes of its value and the state after it. -/
def Res.andThen {α : Type} (r : Res α) (k : α → State → Result) : Result :=
  match r with
  | .ok a s => k a s
  | .stop f => .fault f

/-! ### Memory as data -/

/-- The byte at an address. -/
def Memory.read : Memory → Nat → Byte
  | [], _ => Memory.unlisted
  | (k, v) :: rest, addr => if k = addr then v else Memory.read rest addr

/-- The cell of an address and a byte before `rest`; no cell where the byte is what an unlisted address reads
as. -/
def Memory.put (addr : Nat) (v : Byte) (rest : Memory) : Memory :=
  if v = Memory.unlisted then rest else (addr, v) :: rest

/-- Memory with one byte written, in canonical form. -/
def Memory.write : Memory → Nat → Byte → Memory
  | [], addr, v => Memory.put addr v []
  | (k, w) :: rest, addr, v =>
    if addr < k then Memory.put addr v ((k, w) :: rest)
    else if addr = k then Memory.put addr v rest
    else (k, w) :: Memory.write rest addr v

/-- Every cell of a list of memory has an address of at least `low` and below 65536, the addresses strictly
rise, and no cell holds what an unlisted address reads as. -/
def Memory.wfFrom : Nat → Memory → Bool
  | _, [] => true
  | low, (k, v) :: rest => decide (low ≤ k ∧ k < 65536 ∧ v ≠ Memory.unlisted) && Memory.wfFrom (k + 1) rest

/-- The canonical form of memory. -/
def Memory.wf (m : Memory) : Bool := Memory.wfFrom 0 m

/-- Bytes written at rising addresses from `addr`, modulo 2^16 (R54, R56). -/
def Memory.load (m : Memory) (addr : Word) : List Byte → Memory
  | [] => m
  | v :: rest => Memory.load (m.write addr.toNat v) (addr + 1) rest

/-! ### The memory map -/

/-- The address lies in the region. -/
def regionHolds (r : Region) (addr : Word) : Bool := r.first ≤ addr && addr ≤ r.last

/-- What MEM has at an address (R61, D3). -/
def kindIn (p : Platform) (addr : Word) : MemKind :=
  match p.regions.find? fun r => regionHolds r addr with
  | some r => r.kind
  | none => p.elsewhere

/-- What MEM has at an address. -/
def State.kindAt (s : State) (addr : Word) : MemKind := kindIn s.platform addr

/-! ### Free values (R14, D10) -/

/-- One more value drawn. -/
def State.drawn (s : State) : State := { s with draws := s.draws + 1 }

/-- `Unspec8()`. -/
def State.unspec8 (s : State) : Byte := Config.unspec8 s.draws

/-- `Unspec16()`. -/
def State.unspec16 (s : State) : Word := Config.unspec16 s.draws

/-- `UnspecBit()`. -/
def State.unspecBit (s : State) : Bool := Config.unspecBit s.draws

/-! ### Bus accesses (R7, R51 to R56, R61) -/

/-- `MemRead(addr, 1)`: RAM and ROM answer the byte they hold, a device what the environment says, and an
access to nothing stops the run (D3). -/
def readByte (addr : Word) (s : State) : Res Byte :=
  match s.kindAt addr with
  | .ram => .ok (s.mem.read addr.toNat) s
  | .rom => .ok (s.mem.read addr.toNat) s
  | .device =>
    let v := Config.deviceByte s.draws addr
    .ok v { s.drawn with deviceLog := .read addr v :: s.deviceLog }
  | .nothing => .stop (.unpopulated addr)

/-- `MemWrite(addr, 1, v)`: RAM takes the byte, ROM ignores it (U11), a device gets it, and an access to
nothing stops the run (D3). -/
def writeByte (addr : Word) (v : Byte) (s : State) : Res Unit :=
  match s.kindAt addr with
  | .ram => .ok () { s with mem := s.mem.write addr.toNat v }
  | .rom => .ok () s
  | .device => .ok () { s with deviceLog := .write addr v :: s.deviceLog }
  | .nothing => .stop (.unpopulated addr)

/-- `MemRead(addr, 2)`: the high-order byte at `addr` first (R52, R53). -/
def readWord (addr : Word) (s : State) : Res Word :=
  (readByte addr s).bind fun h s => (readByte (addr + 1) s).bind fun l s => .ok (joinBytes h l) s

/-- `MemWrite(addr, 2, v)`: the high-order byte at `addr` first (R52, R53). -/
def writeWord (addr v : Word) (s : State) : Res Unit :=
  (writeByte addr (hiByte v) s).bind fun _ s => writeByte (addr + 1) (loByte v) s

/-- A value-less read of `addr` (R60): performed only with DUMMY_READS, its value discarded (D4). -/
def valueless (addr : Word) (s : State) : Res Unit :=
  if s.platform.dummyReads then (readByte addr s).bind fun _ s => .ok () s else .ok () s

/-- The address the bus shows in internal cycles (R60). -/
def idleAddress : Word := 0xFFFF

/-- `n` internal cycles, `i` of R380. -/
def idle : Nat → State → Res Unit
  | 0, s => .ok () s
  | n + 1, s => (valueless idleAddress s).bind fun _ s => idle n s

/-- The value-less read of the byte after the instruction, `n` of R380. -/
def lookAhead (s : State) : Res Unit := valueless s.pc s

/-- The value-less read at SP, `s` of R380, after the look-ahead. -/
def stackCycle (s : State) : Res Unit := (lookAhead s).bind fun _ s => valueless s.sp s

/-! ### Registers (R6, R21 to R26) -/

/-- ACCX, A or B by the mnemonic (R6). -/
inductive Acc
  | a
  | b
deriving DecidableEq, Repr

/-- A 16-bit register an instruction names. -/
inductive Reg16
  | d
  | x
  | y
  | s
deriving DecidableEq, Repr

/-- Read an accumulator. -/
def State.acc (s : State) : Acc → Byte
  | .a => s.a
  | .b => s.b

/-- Write an accumulator. -/
def State.setAcc (s : State) (r : Acc) (v : Byte) : State :=
  match r with
  | .a => { s with a := v }
  | .b => { s with b := v }

/-- D = A : B (R23). -/
def State.d (s : State) : Word := joinBytes s.a s.b

/-- Writing D writes A and B (R23). -/
def State.setD (s : State) (v : Word) : State := { s with a := hiByte v, b := loByte v }

/-- Read a 16-bit register. -/
def State.reg (s : State) : Reg16 → Word
  | .d => s.d
  | .x => s.ix
  | .y => s.iy
  | .s => s.sp

/-- Write a 16-bit register. -/
def State.setReg (s : State) (r : Reg16) (v : Word) : State :=
  match r with
  | .d => s.setD v
  | .x => { s with ix := v }
  | .y => { s with iy := v }
  | .s => { s with sp := v }

/-! ### The stack (R8) -/

/-- `Push8(v)`. -/
def push8 (v : Byte) (s : State) : Res Unit :=
  (writeByte s.sp v s).bind fun _ s => .ok () { s with sp := s.sp - 1 }

/-- `Pull8()`. -/
def pull8 (s : State) : Res Byte := readByte (s.sp + 1) { s with sp := s.sp + 1 }

/-- `Push16(v)`: low byte first, at the higher address. -/
def push16 (v : Word) (s : State) : Res Unit :=
  (push8 (loByte v) s).bind fun _ s => push8 (hiByte v) s

/-- `Pull16()`: high byte first. -/
def pull16 (s : State) : Res Word :=
  (pull8 s).bind fun h s => (pull8 s).bind fun l s => .ok (joinBytes h l) s

/-! ### Taking an exception (60_exceptions.md) and returning from one -/

/-- The events that divert the MPU through a vector, but for reset (R330). -/
inductive Event
  | swi
  | illegal (opa : Word)
  | xirq
  | maskable (src : Source)
deriving DecidableEq, Repr

/-- Address of the event's vector (R330, R339). -/
def Event.vector (p : Platform) : Event → Word
  | .swi => p.vecSwi
  | .illegal _ => p.vecIllop
  | .xirq => p.vecXirq
  | .maskable .irq => p.vecIrq
  | .maskable (.other _ vector) => vector

/-- The return address an event stacks: the undefined sequence itself, or the next instruction (R343). -/
def Event.returnAddress (s : State) : Event → Word
  | .swi => s.pc
  | .illegal opa => opa
  | .xirq => s.pc
  | .maskable _ => s.pc

/-- Only an XIRQ entry sets X (R338). -/
def Event.setsX : Event → Bool
  | .swi => false
  | .illegal _ => false
  | .xirq => true
  | .maskable _ => false

/-- `StackFrame(ret)`: nine bytes, the CCR as it is before the entry changes I or X (R337). -/
def stackFrame (ret : Word) (s : State) : Res Unit :=
  (push16 ret s).bind fun _ s => (push16 s.iy s).bind fun _ s => (push16 s.ix s).bind fun _ s =>
  (push8 s.a s).bind fun _ s => (push8 s.b s).bind fun _ s => push8 s.ccr.toByte s

/-- The value-less read of the stacked CCR, cycle 12 of SWI and WAI (R380, R313). -/
def rereadCcr (s : State) : Res Unit := valueless (s.sp + 1) s

/-- The end of every entry: set I, and X for XIRQ, and go where the vector says (R336 to R340, R342). The
latches are cleared: no instruction is before the handler's first (log 16, log 17). -/
def fetchVector (e : Event) (s : State) : Res Unit :=
  (readWord (e.vector s.platform) s).bind fun handler s =>
  .ok () { s with ccr := { s.ccr with i := true, x := s.ccr.x || e.setsX }, pc := handler,
                  runState := .running, idelay := false, prevColumn45 := false }

/-- Taking an exception: stack the frame, re-read the stacked CCR for SWI (R380), go through the vector. -/
def takeException (e : Event) (s : State) : Res Unit :=
  (stackFrame (e.returnAddress s) s).bind fun _ s =>
  (if e = .swi then rereadCcr s else .ok () s).bind fun _ s => fetchVector e s

/-- `raise IllegalOpcode(opa)`: stop, or take the entry of R340, as ILLOP_POLICY says (R97, D6). -/
def illegalOpcode (opa : Word) (s : State) : Result :=
  match s.platform.illopPolicy with
  | .fault => .fault (.illegalOpcode opa)
  | .trap => (takeException (.illegal opa) s).complete fun _ s => s

/-- Return from an exception: the nine bytes above SP, CCR first, X only downward (R312, R344). -/
def returnFromException (s : State) : Res Unit :=
  (pull8 s).bind fun c s => (pull8 s).bind fun b s => (pull8 s).bind fun a s =>
  (pull16 s).bind fun ix s => (pull16 s).bind fun iy s => (pull16 s).bind fun pc s =>
  .ok () { s with ccr := s.ccr.load c, b := b, a := a, ix := ix, iy := iy, pc := pc }

/-! ### Reset (R370) -/

/-- The registers and flags reset leaves without a value take free values (R370, R371, log 11); S, X, I are
set, the latches cleared, the MPU running. -/
def State.resetRegisters (s : State) : State :=
  let n := s.draws
  { s with
    a := Config.unspec8 n
    b := Config.unspec8 (n + 1)
    ix := Config.unspec16 (n + 2)
    iy := Config.unspec16 (n + 3)
    sp := Config.unspec16 (n + 4)
    ccr := { s := true, x := true, h := Config.unspecBit (n + 5), i := true, n := Config.unspecBit (n + 6),
             z := Config.unspecBit (n + 7), v := Config.unspecBit (n + 8), c := Config.unspecBit (n + 9) }
    idelay := false
    runState := .running
    prevColumn45 := false
    draws := n + 10 }

/-- `raise Reset`: nothing is stacked, memory is not changed, PC is what the reset vector holds (R341, R370). -/
def takeReset (s : State) : Res Unit :=
  (readWord s.platform.vecReset s.resetRegisters).bind fun start s => .ok () { s with pc := start }

/-! ### The I-delay latch -/

/-- CLI and TAP arm the latch when they change I from one to zero (R38, R310, R134, D18; for TAP PRESUMED,
log 17). `before` is the CCR before the instruction. -/
def State.armIdelay (before : Ccr) (s : State) : State :=
  { s with idelay := s.idelay || (before.i && !s.ccr.i) }

end Sys2Proof.Machine
end

