-- ==== Sys2Proof/Machine/Operands.lean ====
section
/-! DEFINITION. Effective addresses, source operands (30_encoding.md R82 to R91, R105) and the shapes of
instruction the families share, each with its bus cycles (70_reset_and_hazards.md R380). -/

namespace Sys2Proof.Machine

/-- `EA`, from the register values at the start of the instruction (R85 to R88, R105). -/
def State.ea (s : State) : Mem → Word
  | .dir dd => joinBytes 0x00 dd
  | .ext hhll => hhll
  | .indX ff => s.ix + ff.setWidth 16
  | .indY ff => s.iy + ff.setWidth 16

/-- The internal cycle of the indexed modes, before any access to the operand (R380). -/
def indexCycle (m : Mem) (s : State) : Res Unit :=
  match m with
  | .dir _ => .ok () s
  | .ext _ => .ok () s
  | .indX _ => idle 1 s
  | .indY _ => idle 1 s

/-- The byte at the effective address, after the mode's own cycle. -/
def readMem8 (m : Mem) (s : State) : Res Byte :=
  (indexCycle m s).bind fun _ t => readByte (s.ea m) t

/-- `Opr8()` (R105). -/
def operand8 (o : Opr8) (s : State) : Res Byte :=
  match o with
  | .imm ii => .ok ii s
  | .mem m => readMem8 m s

/-- `Opr16()` (R105). -/
def operand16 (o : Opr16) (s : State) : Res Word :=
  match o with
  | .imm jjkk => .ok jjkk s
  | .mem m => (indexCycle m s).bind fun _ t => readWord (s.ea m) t

/-- The target of a relative branch, from the PC after the instruction (R89, R103). -/
def State.target (s : State) (rr : Byte) : Word := s.pc + rr.signExtend 16

/-! ### Inherent instructions: `F n`, `F n i…`, `F n s` (R380) -/

/-- An inherent instruction of two cycles. -/
def inherent (f : State → State) (s : State) : Result :=
  (lookAhead s).complete fun _ s => f s

/-- An inherent instruction with `n` internal cycles. -/
def inherentIdle (n : Nat) (f : State → State) (s : State) : Result :=
  ((lookAhead s).bind fun _ s => idle n s).complete fun _ s => f s

/-- An inherent instruction with SP on the bus. -/
def inherentStack (f : State → State) (s : State) : Result :=
  (stackCycle s).complete fun _ s => f s

/-! ### An accumulator or a 16-bit register and an operand -/

/-- ACCX and an 8-bit operand to ACCX and the CCR. -/
def accBinary (f : Binary 8) (r : Acc) (o : Opr8) (s : State) : Result :=
  (operand8 o s).complete fun m s =>
    { s.setAcc r (f (s.acc r) m s.ccr).1 with ccr := (f (s.acc r) m s.ccr).2 }

/-- As `accBinary`, the result discarded: a compare or bit test. -/
def accTest (f : Binary 8) (r : Acc) (o : Opr8) (s : State) : Result :=
  (operand8 o s).complete fun m s => { s with ccr := (f (s.acc r) m s.ccr).2 }

/-- A 16-bit operand and the internal cycle after it: `16-bit read and operate` (R380). -/
def operateOperand16 (o : Opr16) (s : State) : Res Word :=
  (operand16 o s).bind fun m s => (idle 1 s).bind fun _ s => .ok m s

/-- A 16-bit register and a 16-bit operand to the register and the CCR. -/
def regBinary (f : Binary 16) (r : Reg16) (o : Opr16) (s : State) : Result :=
  (operateOperand16 o s).complete fun m s =>
    { s.setReg r (f (s.reg r) m s.ccr).1 with ccr := (f (s.reg r) m s.ccr).2 }

/-- As `regBinary`, the result discarded. -/
def regTest (f : Binary 16) (r : Reg16) (o : Opr16) (s : State) : Result :=
  (operateOperand16 o s).complete fun m s => { s with ccr := (f (s.reg r) m s.ccr).2 }

/-! ### One operand -/

/-- ACCX to ACCX and the CCR, inherent. -/
def accUnary (f : Unary 8) (r : Acc) (s : State) : Result :=
  inherent (fun s => { s.setAcc r (f (s.acc r) s.ccr).1 with ccr := (f (s.acc r) s.ccr).2 }) s

/-- D to D and the CCR, inherent with one internal cycle. -/
def dUnary (f : Unary 16) (s : State) : Result :=
  inherentIdle 1 (fun s => { s.setD (f s.d s.ccr).1 with ccr := (f s.d s.ccr).2 }) s

/-- The rest of a read-modify-write once the byte `x` at EA is read: an internal cycle, one write (R64, R380). -/
def memModify (f : Unary 8) (m : Mem) (x : Byte) (s : State) : Result :=
  ((idle 1 s).bind fun _ t => writeByte (s.ea m) (f x s.ccr).1 t).complete
  fun _ t => { t with ccr := (f x s.ccr).2 }

/-- Read-modify-write of the byte at EA: one read, an internal cycle, one write (R63, R64, R380). -/
def memUnary (f : Unary 8) (m : Mem) (s : State) : Result := (readMem8 m s).andThen (memModify f m)

/-- The byte at EA read and tested, then two internal cycles; nothing is written (R199, R380). -/
def memTest (f : Unary 8) (m : Mem) (s : State) : Result :=
  ((readMem8 m s).bind fun x t => (idle 2 t).bind fun _ t => .ok x t).complete
  fun x t => { t with ccr := (f x t.ccr).2 }

/-! ### Loads, stores, pushes, pulls -/

/-- Load an accumulator: N, Z from the data, V cleared. -/
def loadAcc (r : Acc) (o : Opr8) (s : State) : Result :=
  (operand8 o s).complete fun v s => { s.setAcc r v with ccr := s.ccr.nzv0 v }

/-- Load a 16-bit register: N, Z from the data, V cleared. -/
def loadReg (r : Reg16) (o : Opr16) (s : State) : Result :=
  (operand16 o s).complete fun v s => { s.setReg r v with ccr := s.ccr.nzv0 v }

/-- Store an accumulator: one write, no read of the destination (R63). -/
def storeAcc (r : Acc) (m : Mem) (s : State) : Result :=
  ((indexCycle m s).bind fun _ t => writeByte (s.ea m) (s.acc r) t).complete
  fun _ t => { t with ccr := t.ccr.nzv0 (s.acc r) }

/-- Store a 16-bit register, high-order byte first. -/
def storeReg (r : Reg16) (m : Mem) (s : State) : Result :=
  ((indexCycle m s).bind fun _ t => writeWord (s.ea m) (s.reg r) t).complete
  fun _ t => { t with ccr := t.ccr.nzv0 (s.reg r) }

/-- Push an accumulator. -/
def pushAcc (r : Acc) (s : State) : Result :=
  ((lookAhead s).bind fun _ t => push8 (s.acc r) t).complete fun _ t => t

/-- Push a 16-bit register. -/
def pushReg (r : Reg16) (s : State) : Result :=
  ((lookAhead s).bind fun _ t => push16 (s.reg r) t).complete fun _ t => t

/-- Pull an accumulator; no flag changes. -/
def pullAcc (r : Acc) (s : State) : Result :=
  ((stackCycle s).bind fun _ s => pull8 s).complete fun v s => s.setAcc r v

/-- Pull a 16-bit register; no flag changes. -/
def pullReg (r : Reg16) (s : State) : Result :=
  ((stackCycle s).bind fun _ s => pull16 s).complete fun v s => s.setReg r v

/-! ### Control transfer -/

/-- The conditional branch (R270): an internal cycle, then the target if the condition holds. -/
def branchIf (cond : Bool) (rr : Byte) (s : State) : Result :=
  (idle 1 s).complete fun _ s => if cond then { s with pc := s.target rr } else s

/-- BSR and JSR: the value-less read of the target, the return address pushed, PC at the target (R291, R293,
R380). -/
def callTo (target : Word) (s : State) : Res Unit :=
  (valueless target s).bind fun _ s => (push16 s.pc s).bind fun _ s => .ok () { s with pc := target }

end Sys2Proof.Machine
end

