-- ==== Sys2Proof/Machine/Arithmetic.lean ====
section
/-! DEFINITION. Add, subtract, compare, increment, decrement, negate, test, decimal adjust, multiply, divide
(41_arithmetic.md R160 to R201). -/

namespace Sys2Proof.Machine

/-- ABA: A + B to A (R160). -/
def execAba (s : State) : Result :=
  inherent (fun s => { s with a := (add8 false s.a s.b s.ccr).1, ccr := (add8 false s.a s.b s.ccr).2 }) s

/-- ABX: B, unsigned, added to IX; no flag changes (R161). -/
def execAbx (s : State) : Result := inherentIdle 1 (fun s => { s with ix := s.ix + s.b.setWidth 16 }) s

/-- ABY: B, unsigned, added to IY; no flag changes (R162). -/
def execAby (s : State) : Result := inherentIdle 1 (fun s => { s with iy := s.iy + s.b.setWidth 16 }) s

/-- ADCA: A + M + C to A (R163). -/
def execAdca (o : Opr8) (s : State) : Result := accBinary adc8 .a o s

/-- ADCB: B + M + C to B (R164). -/
def execAdcb (o : Opr8) (s : State) : Result := accBinary adc8 .b o s

/-- ADDA: A + M to A (R165). -/
def execAdda (o : Opr8) (s : State) : Result := accBinary (add8 false) .a o s

/-- ADDB: B + M to B (R166). -/
def execAddb (o : Opr8) (s : State) : Result := accBinary (add8 false) .b o s

/-- ADDD: D + M:M+1 to D; H is not written (R167). -/
def execAddd (o : Opr16) (s : State) : Result := regBinary add16 .d o s

/-- CBA: A - B to the flags (R168). -/
def execCba (s : State) : Result := inherent (fun s => { s with ccr := (sub8 false s.a s.b s.ccr).2 }) s

/-- CMPA: A - M to the flags (R169). -/
def execCmpa (o : Opr8) (s : State) : Result := accTest (sub8 false) .a o s

/-- CMPB: B - M to the flags (R170). -/
def execCmpb (o : Opr8) (s : State) : Result := accTest (sub8 false) .b o s

/-- CPD: D - M:M+1 to the flags (R171). -/
def execCpd (o : Opr16) (s : State) : Result := regTest sub16 .d o s

/-- CPX: IX - M:M+1 to the flags (R172). -/
def execCpx (o : Opr16) (s : State) : Result := regTest sub16 .x o s

/-- CPY: IY - M:M+1 to the flags (R173). -/
def execCpy (o : Opr16) (s : State) : Result := regTest sub16 .y o s

/-- The effect of DAA (R174): by the row that matches, V a free bit (U3); where none matches A, C and V are free
values (D22, U8), N and Z from the A drawn. -/
def decimalAdjust (s : State) : State :=
  match daaRow s.a s.ccr with
  | some row =>
    let r := s.a + row.added
    { s.drawn with a := r, ccr := { s.ccr.nz r with c := row.cAfter, v := s.unspecBit } }
  | none =>
    let r := s.unspec8
    { s.drawn.drawn.drawn with
      a := r, ccr := { s.ccr.nz r with c := s.drawn.unspecBit, v := s.drawn.drawn.unspecBit } }

/-- DAA: decimal adjust A (R174). -/
def execDaa (s : State) : Result := inherent decimalAdjust s

/-- DEC: decrement a byte of memory; C is kept (R175). -/
def execDec (m : Mem) (s : State) : Result := memUnary dec8 m s

/-- DECA: decrement A; C is kept (R176). -/
def execDeca (s : State) : Result := accUnary dec8 .a s

/-- DECB: decrement B; C is kept (R177). -/
def execDecb (s : State) : Result := accUnary dec8 .b s

/-- DES: decrement SP; no flag changes (R178). -/
def execDes (s : State) : Result := inherentStack (fun s => { s with sp := s.sp - 1 }) s

/-- DEX: decrement IX; Z alone changes (R179). -/
def execDex (s : State) : Result :=
  inherentIdle 1 (fun s => { s with ix := s.ix - 1, ccr := s.ccr.zOnly (s.ix - 1) }) s

/-- DEY: decrement IY; Z alone changes (R180). -/
def execDey (s : State) : Result :=
  inherentIdle 1 (fun s => { s with iy := s.iy - 1, ccr := s.ccr.zOnly (s.iy - 1) }) s

/-- A divide whose remainder is indeterminate: IX takes $FFFF, D a free value, Z is cleared (U1, U2). -/
def divideFails (v c : Bool) (s : State) : State :=
  { s.drawn.setD s.unspec16 with ix := 0xFFFF, ccr := { s.ccr with z := false, v := v, c := c } }

/-- A divide that has a quotient and a remainder: IX takes the quotient, D the remainder, Z is the quotient's. -/
def divideGives (quotient remainder : Nat) (s : State) : State :=
  { s.setD (BitVec.ofNat 16 remainder) with
    ix := BitVec.ofNat 16 quotient
    ccr := { s.ccr with z := BitVec.ofNat 16 quotient == 0, v := false, c := false } }

/-- The effect of FDIV: the numerator times 2^16 divided by the denominator (R181). -/
def fractionalDivide (s : State) : State :=
  if s.ix = 0 then divideFails true true s
  else if s.ix ≤ s.d then divideFails true false s
  else divideGives (s.d.toNat * 65536 / s.ix.toNat) (s.d.toNat * 65536 % s.ix.toNat) s

/-- The effect of IDIV (R182). -/
def integerDivide (s : State) : State :=
  if s.ix = 0 then divideFails false true s
  else divideGives (s.d.toNat / s.ix.toNat) (s.d.toNat % s.ix.toNat) s

/-- FDIV: fractional divide (R181). -/
def execFdiv (s : State) : Result := inherentIdle 39 fractionalDivide s

/-- IDIV: integer divide (R182). -/
def execIdiv (s : State) : Result := inherentIdle 39 integerDivide s

/-- INC: increment a byte of memory; C is kept (R183). -/
def execInc (m : Mem) (s : State) : Result := memUnary inc8 m s

/-- INCA: increment A; C is kept (R184). -/
def execInca (s : State) : Result := accUnary inc8 .a s

/-- INCB: increment B; C is kept (R185). -/
def execIncb (s : State) : Result := accUnary inc8 .b s

/-- INS: increment SP; no flag changes (R186). -/
def execIns (s : State) : Result := inherentStack (fun s => { s with sp := s.sp + 1 }) s

/-- INX: increment IX; Z alone changes (R187). -/
def execInx (s : State) : Result :=
  inherentIdle 1 (fun s => { s with ix := s.ix + 1, ccr := s.ccr.zOnly (s.ix + 1) }) s

/-- INY: increment IY; Z alone changes (R188). -/
def execIny (s : State) : Result :=
  inherentIdle 1 (fun s => { s with iy := s.iy + 1, ccr := s.ccr.zOnly (s.iy + 1) }) s

/-- The effect of MUL: the unsigned product to D, C its bit 7 (R189). -/
def multiply (s : State) : State :=
  let p := s.a.setWidth 16 * s.b.setWidth 16
  { s.setD p with ccr := { s.ccr with c := p.getLsbD 7 } }

/-- MUL: multiply A and B, unsigned (R189). -/
def execMul (s : State) : Result := inherentIdle 8 multiply s

/-- NEG: negate a byte of memory (R190). -/
def execNeg (m : Mem) (s : State) : Result := memUnary neg8 m s

/-- NEGA: negate A (R191). -/
def execNega (s : State) : Result := accUnary neg8 .a s

/-- NEGB: negate B (R192). -/
def execNegb (s : State) : Result := accUnary neg8 .b s

/-- SBA: A - B to A (R193). -/
def execSba (s : State) : Result :=
  inherent (fun s => { s with a := (sub8 false s.a s.b s.ccr).1, ccr := (sub8 false s.a s.b s.ccr).2 }) s

/-- SBCA: A - M - C to A (R194). -/
def execSbca (o : Opr8) (s : State) : Result := accBinary sbc8 .a o s

/-- SBCB: B - M - C to B (R195). -/
def execSbcb (o : Opr8) (s : State) : Result := accBinary sbc8 .b o s

/-- SUBA: A - M to A (R196). -/
def execSuba (o : Opr8) (s : State) : Result := accBinary (sub8 false) .a o s

/-- SUBB: B - M to B (R197). -/
def execSubb (o : Opr8) (s : State) : Result := accBinary (sub8 false) .b o s

/-- SUBD: D - M:M+1 to D (R198). -/
def execSubd (o : Opr16) (s : State) : Result := regBinary sub16 .d o s

/-- TST: test a byte of memory; it is read, not written (R199). -/
def execTst (m : Mem) (s : State) : Result := memTest tst8 m s

/-- TSTA: test A (R200). -/
def execTsta (s : State) : Result := accUnary tst8 .a s

/-- TSTB: test B (R201). -/
def execTstb (s : State) : Result := accUnary tst8 .b s

end Sys2Proof.Machine
end

