-- ==== Sys2Proof/Machine/Control.lean ====
section
/-! DEFINITION. Branches, bit-test branches, jumps, calls, return and NOP (43_control.md R270 to R295). -/

namespace Sys2Proof.Machine

/-- BCC: branch if C is clear (R271). -/
def execBcc (rr : Byte) (s : State) : Result := branchIf (!s.ccr.c) rr s

/-- BCS: branch if C is set (R272). -/
def execBcs (rr : Byte) (s : State) : Result := branchIf s.ccr.c rr s

/-- BEQ: branch if Z is set (R273). -/
def execBeq (rr : Byte) (s : State) : Result := branchIf s.ccr.z rr s

/-- BGE: branch if N ^ V = 0 (R274). -/
def execBge (rr : Byte) (s : State) : Result := branchIf (!(xor s.ccr.n s.ccr.v)) rr s

/-- BGT: branch if Z + (N ^ V) = 0 (R275). -/
def execBgt (rr : Byte) (s : State) : Result := branchIf (!(s.ccr.z || xor s.ccr.n s.ccr.v)) rr s

/-- BHI: branch if C + Z = 0 (R276). -/
def execBhi (rr : Byte) (s : State) : Result := branchIf (!(s.ccr.c || s.ccr.z)) rr s

/-- BHS: branch if C is clear, the same as BCC (R277). -/
def execBhs (rr : Byte) (s : State) : Result := branchIf (!s.ccr.c) rr s

/-- BLE: branch if Z + (N ^ V) = 1 (R278). -/
def execBle (rr : Byte) (s : State) : Result := branchIf (s.ccr.z || xor s.ccr.n s.ccr.v) rr s

/-- BLO: branch if C is set, the same as BCS (R279). -/
def execBlo (rr : Byte) (s : State) : Result := branchIf s.ccr.c rr s

/-- BLS: branch if C + Z = 1 (R280). -/
def execBls (rr : Byte) (s : State) : Result := branchIf (s.ccr.c || s.ccr.z) rr s

/-- BLT: branch if N ^ V = 1 (R281). -/
def execBlt (rr : Byte) (s : State) : Result := branchIf (xor s.ccr.n s.ccr.v) rr s

/-- BMI: branch if N is set (R282). -/
def execBmi (rr : Byte) (s : State) : Result := branchIf s.ccr.n rr s

/-- BNE: branch if Z is clear (R283). -/
def execBne (rr : Byte) (s : State) : Result := branchIf (!s.ccr.z) rr s

/-- BPL: branch if N is clear (R284). -/
def execBpl (rr : Byte) (s : State) : Result := branchIf (!s.ccr.n) rr s

/-- BRA: branch always (R285). -/
def execBra (rr : Byte) (s : State) : Result := branchIf true rr s

/-- BRN: branch never (R286). -/
def execBrn (rr : Byte) (s : State) : Result := branchIf false rr s

/-- BVC: branch if V is clear (R287). -/
def execBvc (rr : Byte) (s : State) : Result := branchIf (!s.ccr.v) rr s

/-- BVS: branch if V is set (R288). -/
def execBvs (rr : Byte) (s : State) : Result := branchIf s.ccr.v rr s

/-- BRCLR from the byte `x` at EA on: the mask and the offset are fetched between the read and this (R289, R380). -/
def finishBrclr (mm rr x : Byte) (s : State) : Result := branchIf (x &&& mm == 0) rr s

/-- BRCLR: branch if every bit of the mask is zero in a byte of memory; one read, no write (R289). -/
def execBrclr (m : Mem) (mm rr : Byte) (s : State) : Result := (readMem8 m s).andThen (finishBrclr mm rr)

/-- BRSET from the byte `x` at EA on: the mask and the offset are fetched between the read and this (R290, R380). -/
def finishBrset (mm rr x : Byte) (s : State) : Result := branchIf (~~~x &&& mm == 0) rr s

/-- BRSET: branch if every bit of the mask is one in a byte of memory; one read, no write (C12) (R290). -/
def execBrset (m : Mem) (mm rr : Byte) (s : State) : Result := (readMem8 m s).andThen (finishBrset mm rr)

/-- BSR: branch to subroutine (R291). -/
def execBsr (rr : Byte) (s : State) : Result :=
  ((idle 1 s).bind fun _ s => callTo (s.target rr) s).complete fun _ s => s

/-- JMP: jump to the effective address (R292). -/
def execJmp (m : Mem) (s : State) : Result := (indexCycle m s).complete fun _ t => { t with pc := s.ea m }

/-- JSR: jump to subroutine; EA is computed before the pushes (R293). -/
def execJsr (m : Mem) (s : State) : Result :=
  ((indexCycle m s).bind fun _ t => callTo (s.ea m) t).complete fun _ t => t

/-- RTS: return from subroutine (R294). -/
def execRts (s : State) : Result := ((stackCycle s).bind fun _ s => pull16 s).complete fun v s => { s with pc := v }

/-- NOP: nothing but the PC (R295). -/
def execNop (s : State) : Result := inherent (fun s => s) s

end Sys2Proof.Machine
end

