-- ==== Sys2Proof/Machine/LoadStore.lean ====
section
/-! DEFINITION. Loads, stores, transfers, exchanges, pushes, pulls and clears (40_load_store_stack.md R120 to R152). -/

namespace Sys2Proof.Machine

/-- LDAA: load accumulator A; C and H are kept (R120). -/
def execLdaa (o : Opr8) (s : State) : Result := loadAcc .a o s

/-- LDAB: load accumulator B; C and H are kept (R121). -/
def execLdab (o : Opr8) (s : State) : Result := loadAcc .b o s

/-- LDD: load D (R122). -/
def execLdd (o : Opr16) (s : State) : Result := loadReg .d o s

/-- LDS: load SP (R123). -/
def execLds (o : Opr16) (s : State) : Result := loadReg .s o s

/-- LDX: load IX (R124). -/
def execLdx (o : Opr16) (s : State) : Result := loadReg .x o s

/-- LDY: load IY (R125). -/
def execLdy (o : Opr16) (s : State) : Result := loadReg .y o s

/-- STAA: store accumulator A; the flags change (R126). -/
def execStaa (m : Mem) (s : State) : Result := storeAcc .a m s

/-- STAB: store accumulator B; the flags change (R127). -/
def execStab (m : Mem) (s : State) : Result := storeAcc .b m s

/-- STD: store D (R128). -/
def execStd (m : Mem) (s : State) : Result := storeReg .d m s

/-- STS: store SP (R129). -/
def execSts (m : Mem) (s : State) : Result := storeReg .s m s

/-- STX: store IX (R130). -/
def execStx (m : Mem) (s : State) : Result := storeReg .x m s

/-- STY: store IY (R131). -/
def execSty (m : Mem) (s : State) : Result := storeReg .y m s

/-- TAB: A to B (R132). -/
def execTab (s : State) : Result := inherent (fun s => { s with b := s.a, ccr := s.ccr.nzv0 s.a }) s

/-- TBA: B to A (R133). -/
def execTba (s : State) : Result := inherent (fun s => { s with a := s.b, ccr := s.ccr.nzv0 s.b }) s

/-- TAP: A to the CCR, X only downward; the I-delay latch is armed when I goes from one to zero (R134). -/
def execTap (s : State) : Result := inherent (fun s => { s with ccr := s.ccr.load s.a }.armIdelay s.ccr) s

/-- TPA: the CCR to A (R135). -/
def execTpa (s : State) : Result := inherent (fun s => { s with a := s.ccr.toByte }) s

/-- TSX: IX takes SP + 1 (R136). -/
def execTsx (s : State) : Result := inherentStack (fun s => { s with ix := s.sp + 1 }) s

/-- TSY: IY takes SP + 1 (R137). -/
def execTsy (s : State) : Result := inherentStack (fun s => { s with iy := s.sp + 1 }) s

/-- TXS: SP takes IX - 1 (R138). -/
def execTxs (s : State) : Result := inherentIdle 1 (fun s => { s with sp := s.ix - 1 }) s

/-- TYS: SP takes IY - 1 (R139). -/
def execTys (s : State) : Result := inherentIdle 1 (fun s => { s with sp := s.iy - 1 }) s

/-- XGDX: D and IX exchanged (R140). -/
def execXgdx (s : State) : Result := inherentIdle 1 (fun s => { s.setD s.ix with ix := s.d }) s

/-- XGDY: D and IY exchanged (R141). -/
def execXgdy (s : State) : Result := inherentIdle 1 (fun s => { s.setD s.iy with iy := s.d }) s

/-- PSHA: push A; no flag changes (R142). -/
def execPsha (s : State) : Result := pushAcc .a s

/-- PSHB: push B; no flag changes (R143). -/
def execPshb (s : State) : Result := pushAcc .b s

/-- PSHX: push IX, low byte first; no flag changes (R144). -/
def execPshx (s : State) : Result := pushReg .x s

/-- PSHY: push IY, low byte first; no flag changes (R145). -/
def execPshy (s : State) : Result := pushReg .y s

/-- PULA: pull A; no flag changes (R146). -/
def execPula (s : State) : Result := pullAcc .a s

/-- PULB: pull B; no flag changes (R147). -/
def execPulb (s : State) : Result := pullAcc .b s

/-- PULX: pull IX, high byte first; no flag changes (R148). -/
def execPulx (s : State) : Result := pullReg .x s

/-- PULY: pull IY, high byte first; no flag changes (R149). -/
def execPuly (s : State) : Result := pullReg .y s

/-- CLR: clear a byte of memory, which is read first (R63) (R150). -/
def execClr (m : Mem) (s : State) : Result := memUnary clr8 m s

/-- CLRA: clear A (R151). -/
def execClra (s : State) : Result := accUnary clr8 .a s

/-- CLRB: clear B (R152). -/
def execClrb (s : State) : Result := accUnary clr8 .b s

end Sys2Proof.Machine
end

