-- ==== Sys2Proof/Machine/Logic.lean ====
section
/-! DEFINITION. Logic, complement, shifts, rotates, memory bits and flag instructions (42_logic_shift_bit.md R220 to R257). -/

namespace Sys2Proof.Machine

/-- ANDA: A AND M to A (R220). -/
def execAnda (o : Opr8) (s : State) : Result := accBinary and8 .a o s

/-- ANDB: B AND M to B (R221). -/
def execAndb (o : Opr8) (s : State) : Result := accBinary and8 .b o s

/-- BITA: A AND M to the flags (R222). -/
def execBita (o : Opr8) (s : State) : Result := accTest and8 .a o s

/-- BITB: B AND M to the flags (R223). -/
def execBitb (o : Opr8) (s : State) : Result := accTest and8 .b o s

/-- EORA: A exclusive OR M to A (R224). -/
def execEora (o : Opr8) (s : State) : Result := accBinary eor8 .a o s

/-- EORB: B exclusive OR M to B (R225). -/
def execEorb (o : Opr8) (s : State) : Result := accBinary eor8 .b o s

/-- ORAA: A inclusive OR M to A (R226). -/
def execOraa (o : Opr8) (s : State) : Result := accBinary ora8 .a o s

/-- ORAB: B inclusive OR M to B (R227). -/
def execOrab (o : Opr8) (s : State) : Result := accBinary ora8 .b o s

/-- COM: complement, a byte of memory (R228). -/
def execCom (m : Mem) (s : State) : Result := memUnary com8 m s

/-- COMA: complement, A (R229). -/
def execComa (s : State) : Result := accUnary com8 .a s

/-- COMB: complement, B (R230). -/
def execComb (s : State) : Result := accUnary com8 .b s

/-- ASL: arithmetic shift left, a byte of memory (R231). -/
def execAsl (m : Mem) (s : State) : Result := memUnary asl m s

/-- ASLA: arithmetic shift left, A (R232). -/
def execAsla (s : State) : Result := accUnary asl .a s

/-- ASLB: arithmetic shift left, B (R233). -/
def execAslb (s : State) : Result := accUnary asl .b s

/-- ASLD: arithmetic shift left, D (R234). -/
def execAsld (s : State) : Result := dUnary asl s

/-- ASR: arithmetic shift right, a byte of memory (R235). -/
def execAsr (m : Mem) (s : State) : Result := memUnary asr8 m s

/-- ASRA: arithmetic shift right, A (R236). -/
def execAsra (s : State) : Result := accUnary asr8 .a s

/-- ASRB: arithmetic shift right, B (R237). -/
def execAsrb (s : State) : Result := accUnary asr8 .b s

/-- LSR: logical shift right, a byte of memory (R238). -/
def execLsr (m : Mem) (s : State) : Result := memUnary lsr m s

/-- LSRA: logical shift right, A (R239). -/
def execLsra (s : State) : Result := accUnary lsr .a s

/-- LSRB: logical shift right, B (R240). -/
def execLsrb (s : State) : Result := accUnary lsr .b s

/-- LSRD: logical shift right, D (R241). -/
def execLsrd (s : State) : Result := dUnary lsr s

/-- ROL: rotate left through C, a byte of memory (R242). -/
def execRol (m : Mem) (s : State) : Result := memUnary rol8 m s

/-- ROLA: rotate left through C, A (R243). -/
def execRola (s : State) : Result := accUnary rol8 .a s

/-- ROLB: rotate left through C, B (R244). -/
def execRolb (s : State) : Result := accUnary rol8 .b s

/-- ROR: rotate right through C, a byte of memory (R245). -/
def execRor (m : Mem) (s : State) : Result := memUnary ror8 m s

/-- RORA: rotate right through C, A (R246). -/
def execRora (s : State) : Result := accUnary ror8 .a s

/-- RORB: rotate right through C, B (R247). -/
def execRorb (s : State) : Result := accUnary ror8 .b s

/-- LSL: logical shift left, the same as ASL, a byte of memory (R254). -/
def execLsl (m : Mem) (s : State) : Result := memUnary asl m s

/-- LSLA: logical shift left, the same as ASL, A (R255). -/
def execLsla (s : State) : Result := accUnary asl .a s

/-- LSLB: logical shift left, the same as ASL, B (R256). -/
def execLslb (s : State) : Result := accUnary asl .b s

/-- LSLD: logical shift left, the same as ASL, D (R257). -/
def execLsld (s : State) : Result := dUnary asl s

/-- BCLR from the byte `x` at EA on: the mask is fetched between the read and this (R248, R64, R380). -/
def finishBclr (m : Mem) (mm x : Byte) (s : State) : Result := memModify (bclr8 mm) m x s

/-- BCLR: clear the bits of the mask in a byte of memory (R248). -/
def execBclr (m : Mem) (mm : Byte) (s : State) : Result := (readMem8 m s).andThen (finishBclr m mm)

/-- BSET from the byte `x` at EA on: the mask is fetched between the read and this (R249, R64, R380). -/
def finishBset (m : Mem) (mm x : Byte) (s : State) : Result := memModify (bset8 mm) m x s

/-- BSET: set the bits of the mask in a byte of memory (R249). -/
def execBset (m : Mem) (mm : Byte) (s : State) : Result := (readMem8 m s).andThen (finishBset m mm)

/-- CLC: clear C (R250). -/
def execClc (s : State) : Result := inherent (fun s => { s with ccr := { s.ccr with c := false } }) s

/-- CLV: clear V (R251). -/
def execClv (s : State) : Result := inherent (fun s => { s with ccr := { s.ccr with v := false } }) s

/-- SEC: set C (R252). -/
def execSec (s : State) : Result := inherent (fun s => { s with ccr := { s.ccr with c := true } }) s

/-- SEV: set V, and nothing else (C24) (R253). -/
def execSev (s : State) : Result := inherent (fun s => { s with ccr := { s.ccr with v := true } }) s

end Sys2Proof.Machine
end

