-- ==== Sys2Proof/Machine/System.lean ====
section
/-! DEFINITION. Interrupt mask, software interrupt, return from interrupt, wait, stop and test (44_system.md R310 to R316). -/

namespace Sys2Proof.Machine

/-- CLI: clear I; the I-delay latch is armed if I was set (R310). -/
def execCli (s : State) : Result := inherent (fun s => { s with ccr := { s.ccr with i := false } }.armIdelay s.ccr) s

/-- SEI: set I (R311). -/
def execSei (s : State) : Result := inherent (fun s => { s with ccr := { s.ccr with i := true } }) s

/-- RTI: return from interrupt; it arms no I-delay latch (D18) (R312). -/
def execRti (s : State) : Result := ((stackCycle s).bind fun _ s => returnFromException s).complete fun _ s => s

/-- SWI: software interrupt (R313). -/
def execSwi (s : State) : Result := ((lookAhead s).bind fun _ s => takeException .swi s).complete fun _ s => s

/-- WAI: stack the frame and wait; I is not set yet (R314). -/
def execWai (s : State) : Result :=
  ((lookAhead s).bind fun _ s => (stackFrame s.pc s).bind fun _ s => rereadCcr s).complete
  fun _ s => { s with runState := .waiting }

/-- The effect of STOP (R315): with S set a NOP; with S clear the MPU stops, on a part with the STOP erratum with
the PC one byte further if the instruction before came from column 4 or 5 (R374, D13). -/
def stopProcessing (s : State) : State :=
  if s.ccr.s then s
  else if s.platform.stopErratum && s.prevColumn45 then { s with runState := .stopped, pc := s.pc + 1 }
  else { s with runState := .stopped }

/-- STOP: stop processing (R315). -/
def execStop (s : State) : Result := inherent stopProcessing s

/-- The bus reads of TEST that its text and its table agree on, OP+1 to OP+3 (R380, C27); what follows them is not
modelled (U23). -/
def testCycles (s : State) : Res Unit :=
  (lookAhead s).bind fun _ s => (valueless (s.pc + 1) s).bind fun _ s => valueless (s.pc + 2) s

/-- The TEST loop: the PC is a free value (R316, D12, U6). -/
def State.loopTest (s : State) : State := { s.drawn with runState := .testLoop, pc := s.unspec16 }

/-- TEST: the test loop in test mode; otherwise an illegal opcode, its address one before the PC (R98) (R316). -/
def execTest (s : State) : Result :=
  if s.platform.testMode then (testCycles s).complete fun _ s => s.loopTest
  else illegalOpcode (s.pc - 1) s

end Sys2Proof.Machine
end

