-- ==== Sys2Proof/Machine/Boundary.lean ====
section
/-! DEFINITION. Between instructions: fetching and running the next one (00_scope.md R9, R15, 30_encoding.md R102),
recognising reset and interrupts (60_exceptions.md R334, R335), and the wait, stop and test states (44_system.md
R314 to R316). -/

namespace Sys2Proof.Machine

/-! ### Fetch -/

/-- `Fetch8()` (R9). -/
def fetch8 (s : State) : Res Byte :=
  (readByte s.pc s).bind fun b s => .ok b { s with pc := s.pc + 1 }

/-- An instruction whose bytes are fetched, with the byte at its EA if the bus reads that before the last of them. -/
structure Fetched where
  instr : Instr
  operand : Option Byte
deriving DecidableEq, Repr

/-- Fetch bytes in ascending address order until the decoder knows the instruction (R102), `acc` being the bytes
fetched so far: exactly LEN bytes, or the opcode bytes of an undefined opcode (none). BSET, BCLR, BRSET and BRCLR read
the byte at EA once their address operand is fetched, before the mask and the offset (R248, R249, R289, R290, R380,
D14); `operand` is that byte. -/
def fetchMore : Nat → List Byte → Option Byte → State → Res (Option Fetched)
  | 0, _, _, s => .ok none s
  | n + 1, acc, operand, s =>
    (fetch8 s).bind fun b s =>
    match decode (acc ++ [b]) with
    | .instr i _ => .ok (some ⟨i, operand⟩) s
    | .undefined _ _ => .ok none s
    | .tooShort =>
      match earlyOperand (acc ++ [b]) with
      | some m => (readMem8 m s).bind fun x s => fetchMore n (acc ++ [b]) (some x) s
      | none => fetchMore n (acc ++ [b]) operand s

/-- Fetch and decode the instruction at PC; PC is then `OPA + LEN` (R9, R102). -/
def fetchInstr (s : State) : Res (Option Fetched) := fetchMore maxLength [] none s

/-- The meaning of a fetched instruction; of one whose operand byte is read already, what remains of it. -/
def execFetched (f : Fetched) (s : State) : Result :=
  match f.operand, f.instr with
  | some x, .bset m mm => finishBset m mm x s
  | some x, .bclr m mm => finishBclr m mm x s
  | some x, .brset _ mm rr => finishBrset mm rr x s
  | some x, .brclr _ mm rr => finishBrclr mm rr x s
  | _, i => exec i s

/-- The end of a step that executed `i`: what the STOP erratum will look at (R374). -/
def State.executed (i : Instr) (s : State) : State := { s with prevColumn45 := i.column45 }

/-- Run an instruction whose bytes are fetched: the I-delay latch is cleared unless it arms it again (R38). -/
def runInstr (f : Fetched) (s : State) : Result :=
  match execFetched f { s with idelay := false } with
  | .next t => .next (t.executed f.instr)
  | .fault why => .fault why
  | .refused r => .refused r

/-- Execute the next instruction, or raise the illegal-opcode event with the address of its first byte (R15,
R97, R102). -/
def executeNext (s : State) : Result :=
  match fetchInstr s with
  | .ok (some f) t => runInstr f t
  | .ok none t => illegalOpcode s.pc t
  | .stop f => .fault f

/-! ### Requests -/

/-- The source requests (R39). -/
def Lines.requests (l : Lines) : Source → Bool
  | .irq => l.irq
  | .other id _ => l.others.contains id

/-- The I-maskable source to be taken, if I is clear and one requests: the highest by IRQ_PRIORITY (R334, R335). -/
def State.maskableRequest (s : State) : Option Source :=
  if s.ccr.i then none else s.platform.priority.find? fun src => s.lines.requests src

/-- An XIRQ request that X does not mask (R333). -/
def State.xirqRequest (s : State) : Bool := s.lines.xirq && !s.ccr.x

/-- The environment puts the next levels of its script on the lines, before the step looks at them (R347). -/
def State.takeScript (s : State) : State :=
  match s.script with
  | [] => s
  | now :: later => { s with lines := now, script := later }

/-- Take an event as the whole step. -/
def interrupt (e : Event) (s : State) : Result := (takeException e s).complete fun _ s => s

/-! ### The run-states -/

/-- `Running`, reset not asserted (R334): XIRQ, then the maskable sources unless the latch holds them off, then the
next instruction. -/
def runningStep (s : State) : Result :=
  if s.xirqRequest then interrupt .xirq s
  else if s.idelay then executeNext s
  else
    match s.maskableRequest with
    | some src => interrupt (.maskable src) s
    | none => executeNext s

/-- `Waiting`, reset not asserted (R314): the frame is already on the stack; while nothing is sensed the bus re-reads
the stacked CCR (R380). -/
def waitingStep (s : State) : Result :=
  if s.xirqRequest then (fetchVector .xirq s).complete fun _ s => s
  else
    match s.maskableRequest with
    | some src => (fetchVector (.maskable src) s).complete fun _ s => s
    | none => (rereadCcr s).complete fun _ s => s

/-- `Stopped`, reset not asserted (R315): XIRQ wakes the MPU, taken if X is clear and not taken if X is set; of the
maskable sources the IRQ pin alone (D19). -/
def stoppedStep (s : State) : Result :=
  if s.lines.xirq then
    if s.ccr.x then .next { s with runState := .running } else interrupt .xirq s
  else if s.lines.irq && !s.ccr.i then interrupt (.maskable .irq) s
  else .next s

/-- `TestLoop`, reset not asserted (R316): only the PC changes, to a free value (D12, U6). -/
def testLoopStep (s : State) : Result := .next { s.drawn with pc := s.unspec16 }

/-- One step, the lines being what they are (R15). -/
def stepWithLines (s : State) : Result :=
  if s.lines.reset then (takeReset s).complete fun _ s => s
  else
    match s.runState with
    | .running => runningStep s
    | .waiting => waitingStep s
    | .stopped => stoppedStep s
    | .testLoop => testLoopStep s

/-- One step: the environment sets the lines, then the MPU looks at them and acts (R15, R347). -/
def oneStep (s : State) : Result := stepWithLines s.takeScript

end Sys2Proof.Machine
end

