-- ==== Sys2Proof/Machine/Step.lean ====
section
/-! DEFINITION. The machine's step, and how an instruction is put where it fetches. -/

namespace Sys2Proof.Machine

/-- One step of the machine (R15). -/
def step (s : State) : Host.Outcome State Fault Refusal := oneStep s

/-- The state with an instruction of the opcode table stored at the program counter, zeros after it to the length
of the longest instruction (log 4). -/
def State.withFetchWord (s : State) (nbits w : Nat) : State :=
  { s with mem := s.mem.load s.pc (tableProgram nbits w) }

end Sys2Proof.Machine
end

