-- ==== Sys2Proof/Machine/Timing.lean ====
section
/-! DEFINITION. How many E-clock cycles an instruction takes (70_reset_and_hazards.md R380, R381). No rule depends on a
count and the machine has no clock; the counts are what the table of the spec gives. -/

namespace Sys2Proof

/-- The count by addressing mode; 0 where the instruction has no such mode. -/
def memCycles (dir ext indX indY : Nat) : Mem → Nat
  | .dir _ => dir
  | .ext _ => ext
  | .indX _ => indX
  | .indY _ => indY

/-- As `memCycles`, with the IMM8 form. -/
def opr8Cycles (imm dir ext indX indY : Nat) : Opr8 → Nat
  | .imm _ => imm
  | .mem m => memCycles dir ext indX indY m

/-- As `memCycles`, with the IMM16 form. -/
def opr16Cycles (imm dir ext indX indY : Nat) : Opr16 → Nat
  | .imm _ => imm
  | .mem m => memCycles dir ext indX indY m

/-- The cycles of an instruction; none for TEST, unbounded. WAI takes 14 and the wait, STOP 2 where it does not stop
the clocks (R381, opcode_table.json). -/
def Instr.cycles : Instr → Option Nat
  | .ldaa o | .ldab o | .adca o | .adcb o | .adda o | .addb o | .cmpa o | .cmpb o | .sbca o | .sbcb o
  | .suba o | .subb o | .anda o | .andb o | .bita o | .bitb o | .eora o | .eorb o | .oraa o | .orab o => some (opr8Cycles 2 3 4 4 5 o)
  | .ldd o | .lds o | .ldx o => some (opr16Cycles 3 4 5 5 6 o)
  | .ldy o => some (opr16Cycles 4 5 6 6 6 o)
  | .staa m | .stab m => some (memCycles 3 4 4 5 m)
  | .std m | .sts m | .stx m => some (memCycles 4 5 5 6 m)
  | .sty m => some (memCycles 5 6 6 6 m)
  | .tab | .tba | .tap | .tpa | .clra | .clrb | .aba | .cba | .daa | .deca | .decb | .inca | .incb | .nega
  | .negb | .sba | .tsta | .tstb | .coma | .comb | .asla | .aslb | .asra | .asrb | .lsra | .lsrb | .rola
  | .rolb | .rora | .rorb | .clc | .clv | .sec | .sev | .lsla | .lslb | .nop | .cli | .sei | .stop => some 2
  | .tsx | .txs | .xgdx | .psha | .pshb | .abx | .des | .dex | .ins | .inx | .asld | .lsrd | .lsld
  | .bcc _ | .bcs _ | .beq _ | .bge _ | .bgt _ | .bhi _ | .bhs _ | .ble _ | .blo _ | .bls _ | .blt _
  | .bmi _ | .bne _ | .bpl _ | .bra _ | .brn _ | .bvc _ | .bvs _ => some 3
  | .tsy | .tys | .xgdy | .pshx | .pula | .pulb | .aby | .dey | .iny => some 4
  | .pshy | .pulx | .rts => some 5
  | .puly | .bsr _ => some 6
  | .clr m | .dec m | .inc m | .neg m | .tst m | .com m | .asl m | .asr m | .lsr m | .rol m | .ror m
  | .lsl m => some (memCycles 0 6 6 7 m)
  | .addd o | .cpx o | .subd o => some (opr16Cycles 4 5 6 6 7 o)
  | .cpd o | .cpy o => some (opr16Cycles 5 6 7 7 7 o)
  | .fdiv | .idiv => some 41
  | .mul => some 10
  | .bclr m _ | .bset m _ | .brclr m _ _ | .brset m _ _ => some (memCycles 6 0 7 8 m)
  | .jmp m => some (memCycles 0 3 3 4 m)
  | .jsr m => some (memCycles 5 6 6 7 m)
  | .rti => some 12
  | .swi | .wai => some 14
  | .test => none

end Sys2Proof
end

