-- ==== Sys2Proof/Safety.lean ====
section
/-! DEFINITION. The terms claims are stated in: what a run needs of the platform, when a run is at its end (R373),
which flags, registers and bytes an instruction may change (R37, R21 to R26, R62), the arithmetic reading of the
flags (R11 to R13), and the machine's invariant. -/

namespace Sys2Proof.Machine

/-! ### The platform and the lines -/

/-- MEM has something at every address: no access can stop the run (R61). -/
def State.populated (s : State) : Prop := ∀ addr : Word, s.kindAt addr ≠ .nothing

/-- The address is plain memory to a read: RAM or ROM. -/
def State.plain (s : State) (addr : Word) : Prop := s.kindAt addr = .ram ∨ s.kindAt addr = .rom

/-- RAM at every address and no value-less reads: the configuration of the spec's test vectors (95, part 2). -/
def State.allRam (s : State) : Prop := s.platform.dummyReads = false ∧ ∀ addr : Word, s.kindAt addr = .ram

/-- The byte at an address of memory. -/
def State.byteAt (s : State) (addr : Word) : Byte := s.mem.read addr.toNat

/-- The 16-bit value at an address of memory, high-order byte first (R52, R56). -/
def State.wordAt (s : State) (addr : Word) : Word := joinBytes (s.byteAt addr) (s.byteAt (addr + 1))

/-- The state after bus reads from `s`: it differs in the device log and the draws alone. -/
def State.afterReads (s t : State) : Prop := t = { s with draws := t.draws, deviceLog := t.deviceLog }

/-- The state after bus accesses from `s` that store to no address but these: it differs from `s` in memory, the
device log and the draws alone, and in memory only at these addresses and only where MEM has RAM; memory stays
canonical. -/
def State.afterStores (s : State) (addrs : List Word) (t : State) : Prop :=
  t = { s with mem := t.mem, draws := t.draws, deviceLog := t.deviceLog } ∧
  (∀ a, a ∉ addrs → t.byteAt a = s.byteAt a) ∧ (∀ a, s.kindAt a ≠ .ram → t.byteAt a = s.byteAt a) ∧
  (s.mem.wf = true → t.mem.wf = true)

/-- The accesses to device locations made between two states, newest first. -/
def State.accessesSince (s t : State) : List DeviceAccess :=
  t.deviceLog.take (t.deviceLog.length - s.deviceLog.length)

/-- `v` is what a read of `addr` between `s` and `t` gives, where nothing is stored there before it: the byte of RAM
or ROM, or what the device answered (R61, R69). -/
def State.fetched (s t : State) (addr : Word) (v : Byte) : Prop :=
  match s.kindAt addr with
  | .ram => v = s.byteAt addr
  | .rom => v = s.byteAt addr
  | .device => .read addr v ∈ s.accessesSince t
  | .nothing => False

/-- `v` is what `t` holds at `addr` after a store between `s` and `t`: RAM holds it, ROM ignored it, a device got
it (R61, R69). -/
def State.stored (s t : State) (addr : Word) (v : Byte) : Prop :=
  match s.kindAt addr with
  | .ram => t.byteAt addr = v
  | .rom => t.byteAt addr = s.byteAt addr
  | .device => .write addr v ∈ s.accessesSince t
  | .nothing => False

/-- `v` is what the last read of `addr` between `s` and `t` gives, where stores come before it and none after: the
byte of RAM or ROM as it then is, or what the device answered (R61, R69). -/
def State.fetchedLast (s t : State) (addr : Word) (v : Byte) : Prop :=
  match s.kindAt addr with
  | .ram => v = t.byteAt addr
  | .rom => v = t.byteAt addr
  | .device => .read addr v ∈ s.accessesSince t
  | .nothing => False

/-- `v` is the 8-bit source operand (R105). -/
def State.operandIs8 (s t : State) (o : Opr8) (v : Byte) : Prop :=
  match o with
  | .imm ii => v = ii
  | .mem m => s.fetched t (s.ea m) v

/-- `v` is the 16-bit source operand, high-order byte at the lower address (R105). -/
def State.operandIs16 (s t : State) (o : Opr16) (v : Word) : Prop :=
  match o with
  | .imm jjkk => v = jjkk
  | .mem m => s.fetched t (s.ea m) (hiByte v) ∧ s.fetched t (s.ea m + 1) (loByte v)

/-- The instruction completes, and leaves what `f` makes of `s` after the instruction's bus reads. -/
def State.gives (s : State) (i : Instr) (f : State → State) : Prop :=
  ∃ t, s.afterReads t ∧ exec i s = .next (f t)

/-- The `n` bytes of memory from the program counter on. -/
def State.codeBytes (s : State) (n : Nat) : List Byte :=
  (List.range n).map fun k => s.byteAt (s.pc + BitVec.ofNat 16 k)

/-- The `n` bytes from the program counter on are RAM or ROM. -/
def State.codePlain (s : State) (n : Nat) : Prop := ∀ k < n, s.plain (s.pc + BitVec.ofNat 16 k)

/-- The fault is an access to an address where this platform has nothing (R61, D3). -/
def Fault.ofPlatform (p : Platform) (f : Fault) : Prop :=
  ∃ addr, f = .unpopulated addr ∧ kindIn p addr = .nothing

/-- No request is asserted and the environment has nothing more to do. -/
def State.quiet (s : State) : Prop := s.lines = Lines.quiet ∧ s.script = []

/-- The MPU runs and no reset or interrupt is recognised at this boundary (R334). -/
def State.undisturbed (s : State) : Prop :=
  s.runState = .running ∧ s.script = [] ∧ s.lines.reset = false ∧ s.xirqRequest = false ∧
  (s.idelay = true ∨ s.maskableRequest = none)

/-- The instruction is legal where the machine is: TEST outside test mode is an illegal opcode (R98). -/
def State.legal (s : State) (i : Instr) : Prop := i = .test → s.platform.testMode = true

/-! ### Safe runs -/

/-- The step neither faults nor is refused. -/
def State.safe (s : State) : Prop := ∃ t, step s = .next t

/-- The levels the environment still puts on the lines: those of its script, or the present ones at its end (R347). -/
def State.levelsAhead (s : State) : List Lines :=
  match s.script with
  | [] => [s.lines]
  | now :: later => now :: later

/-- These levels take the MPU out of what it does: reset, or an interrupt its run-state recognises (R314 to R316,
R334). -/
def State.divertedBy (s : State) (l : Lines) : Bool :=
  l.reset ||
  match s.runState with
  | .running => { s with lines := l }.xirqRequest || { s with lines := l }.maskableRequest.isSome
  | .waiting => { s with lines := l }.xirqRequest || { s with lines := l }.maskableRequest.isSome
  | .stopped => l.xirq || (l.irq && !s.ccr.i)
  | .testLoop => false

/-- The next instruction is `BRA *`, in RAM or ROM: the bytes `20 FE` (R373). -/
def State.atSelfBranch (s : State) : Prop :=
  s.plain s.pc ∧ s.plain (s.pc + 1) ∧ s.byteAt s.pc = 0x20 ∧ s.byteAt (s.pc + 1) = 0xFE

/-- The end of a run (R373, D16): a fault of the model, the test loop, or `Stopped`, `Waiting` or `BRA *` with no event
ahead that diverts the MPU. -/
def State.ended (s : State) : Prop :=
  (∃ f, step s = .fault f) ∨ s.runState = .testLoop ∨
  ((s.runState = .stopped ∨ s.runState = .waiting ∨ (s.runState = .running ∧ s.atSelfBranch)) ∧
    ∀ l ∈ s.levelsAhead, s.divertedBy l = false)

/-! ### The CCR activity table (R37) -/

/-- A mark of the CCR row: `-`, `d`, `0`, `1`, `v`, `?`. -/
inductive Act
  | keeps
  | byResult
  | clears
  | sets
  | falls
  | free
deriving DecidableEq, Repr

/-- What a mark says of a flag before and after. -/
def Act.allows (m : Act) (before after : Bool) : Prop :=
  match m with
  | .keeps => after = before
  | .byResult => True
  | .clears => after = false
  | .sets => after = true
  | .falls => after = true → before = true
  | .free => True

/-- A CCR row, S X H I N Z V C. -/
structure Activity where
  s : Act
  x : Act
  h : Act
  i : Act
  n : Act
  z : Act
  v : Act
  c : Act
deriving DecidableEq, Repr

/-- A row that changes no bit but N, Z, V, C. -/
def nzvc (n z v c : Act) : Activity := ⟨.keeps, .keeps, .keeps, .keeps, n, z, v, c⟩

/-- What a row says of the CCR before and after. -/
def Activity.allows (row : Activity) (before after : Ccr) : Prop :=
  row.s.allows before.s after.s ∧ row.x.allows before.x after.x ∧ row.h.allows before.h after.h ∧
  row.i.allows before.i after.i ∧ row.n.allows before.n after.n ∧ row.z.allows before.z after.z ∧
  row.v.allows before.v after.v ∧ row.c.allows before.c after.c

/-- The CCR row of an instruction, S X H I N Z V C (R37). WAI's own row is the note of its page: the instruction
itself changes no bit (R314, C29). -/
def activityOf : Instr → Activity
  | .aba | .adca _ | .adcb _ | .adda _ | .addb _ => ⟨.keeps, .keeps, .byResult, .keeps, .byResult, .byResult, .byResult, .byResult⟩
  | .addd _ | .subd _ | .cpd _ | .cpx _ | .cpy _ | .suba _ | .subb _ | .sbca _ | .sbcb _ | .sba | .cba
  | .cmpa _ | .cmpb _ | .neg _ | .nega | .negb | .asl _ | .lsl _ | .asla | .lsla | .aslb | .lslb | .asld
  | .lsld | .asr _ | .asra | .asrb | .rol _ | .rola | .rolb | .ror _ | .rora | .rorb => nzvc .byResult .byResult .byResult .byResult
  | .lsr _ | .lsra | .lsrb | .lsrd => nzvc .clears .byResult .byResult .byResult
  | .anda _ | .andb _ | .bita _ | .bitb _ | .eora _ | .eorb _ | .oraa _ | .orab _ | .bclr _ _ | .bset _ _
  | .ldaa _ | .ldab _ | .ldd _ | .lds _ | .ldx _ | .ldy _ | .staa _ | .stab _ | .std _ | .sts _ | .stx _
  | .sty _ | .tab | .tba => nzvc .byResult .byResult .clears .keeps
  | .clr _ | .clra | .clrb => nzvc .clears .sets .clears .clears
  | .com _ | .coma | .comb => nzvc .byResult .byResult .clears .sets
  | .tst _ | .tsta | .tstb => nzvc .byResult .byResult .clears .clears
  | .inc _ | .inca | .incb | .dec _ | .deca | .decb => nzvc .byResult .byResult .byResult .keeps
  | .inx | .iny | .dex | .dey => nzvc .keeps .byResult .keeps .keeps
  | .daa => nzvc .byResult .byResult .free .byResult
  | .mul => nzvc .keeps .keeps .keeps .byResult
  | .idiv => nzvc .keeps .byResult .clears .byResult
  | .fdiv => nzvc .keeps .byResult .byResult .byResult
  | .clc => nzvc .keeps .keeps .keeps .clears
  | .sec => nzvc .keeps .keeps .keeps .sets
  | .clv => nzvc .keeps .keeps .clears .keeps
  | .sev => nzvc .keeps .keeps .sets .keeps
  | .cli => ⟨.keeps, .keeps, .keeps, .clears, .keeps, .keeps, .keeps, .keeps⟩
  | .sei | .swi => ⟨.keeps, .keeps, .keeps, .sets, .keeps, .keeps, .keeps, .keeps⟩
  | .tap | .rti => ⟨.byResult, .falls, .byResult, .byResult, .byResult, .byResult, .byResult, .byResult⟩
  | .tpa | .tsx | .tsy | .txs | .tys | .xgdx | .xgdy | .psha | .pshb | .pshx | .pshy | .pula | .pulb
  | .pulx | .puly | .abx | .aby | .des | .ins | .bcc _ | .bcs _ | .beq _ | .bge _ | .bgt _ | .bhi _
  | .bhs _ | .ble _ | .blo _ | .bls _ | .blt _ | .bmi _ | .bne _ | .bpl _ | .bra _ | .brn _ | .bvc _
  | .bvs _ | .brclr _ _ _ | .brset _ _ _ | .bsr _ | .jmp _ | .jsr _ | .rts | .nop | .wai | .stop | .test => nzvc .keeps .keeps .keeps .keeps

/-- A subtract, compare, negate or test instruction (R12). -/
def subtracts : Instr → Bool
  | .suba _ | .subb _ | .subd _ | .sbca _ | .sbcb _ | .sba | .cmpa _ | .cmpb _ | .cba | .cpd _ | .cpx _ | .cpy _
  | .neg _ | .nega | .negb | .tst _ | .tsta | .tstb => true
  | _ => false

/-- The registers of R21 to R26 that have storage of their own. -/
inductive RegName
  | a
  | b
  | ix
  | iy
  | sp
deriving DecidableEq, Repr

/-- The contents of a register, as a number. -/
def State.contents (s : State) : RegName → Nat
  | .a => s.a.toNat
  | .b => s.b.toNat
  | .ix => s.ix.toNat
  | .iy => s.iy.toNat
  | .sp => s.sp.toNat

/-- The registers an instruction writes (R21 to R26 and the instruction's own rule); D is A and B (R23). -/
def registersWritten : Instr → List RegName
  | .ldaa _ | .tba | .tpa | .clra | .aba | .adca _ | .adda _ | .daa | .deca | .inca | .nega | .sba
  | .sbca _ | .suba _ | .anda _ | .eora _ | .oraa _ | .coma | .asla | .asra | .lsra | .rola | .rora
  | .lsla => [.a]
  | .ldab _ | .tab | .clrb | .adcb _ | .addb _ | .decb | .incb | .negb | .sbcb _ | .subb _ | .andb _
  | .eorb _ | .orab _ | .comb | .aslb | .asrb | .lsrb | .rolb | .rorb | .lslb => [.b]
  | .ldd _ | .addd _ | .mul | .subd _ | .asld | .lsrd | .lsld => [.a, .b]
  | .lds _ | .txs | .tys | .psha | .pshb | .pshx | .pshy | .des | .ins | .bsr _ | .jsr _ | .rts | .swi
  | .wai => [.sp]
  | .ldx _ | .tsx | .abx | .dex | .inx => [.ix]
  | .ldy _ | .tsy | .aby | .dey | .iny => [.iy]
  | .staa _ | .stab _ | .std _ | .sts _ | .stx _ | .sty _ | .tap | .clr _ | .cba | .cmpa _ | .cmpb _
  | .cpd _ | .cpx _ | .cpy _ | .dec _ | .inc _ | .neg _ | .tst _ | .tsta | .tstb | .bita _ | .bitb _
  | .com _ | .asl _ | .asr _ | .lsr _ | .rol _ | .ror _ | .bclr _ _ | .bset _ _ | .clc | .clv | .sec
  | .sev | .lsl _ | .bcc _ | .bcs _ | .beq _ | .bge _ | .bgt _ | .bhi _ | .bhs _ | .ble _ | .blo _
  | .bls _ | .blt _ | .bmi _ | .bne _ | .bpl _ | .bra _ | .brn _ | .bvc _ | .bvs _ | .brclr _ _ _
  | .brset _ _ _ | .jmp _ | .nop | .cli | .sei | .stop | .test => []
  | .xgdx | .fdiv | .idiv => [.a, .b, .ix]
  | .xgdy => [.a, .b, .iy]
  | .pula => [.a, .sp]
  | .pulb => [.b, .sp]
  | .pulx => [.ix, .sp]
  | .puly => [.iy, .sp]
  | .rti => [.a, .b, .ix, .iy, .sp]

/-- The instruction can leave another PC than that of the next instruction (R27; STOP on a part with the erratum, R374;
TEST, R316). -/
def canTransfer : Instr → Bool
  | .bcc _ | .bcs _ | .beq _ | .bge _ | .bgt _ | .bhi _ | .bhs _ | .ble _ | .blo _ | .bls _ | .blt _
  | .bmi _ | .bne _ | .bpl _ | .bra _ | .bvc _ | .bvs _ | .brclr _ _ _ | .brset _ _ _ | .bsr _ | .jmp _
  | .jsr _ | .rts | .rti | .swi | .stop | .test => true
  | .ldaa _ | .ldab _ | .ldd _ | .lds _ | .ldx _ | .ldy _ | .staa _ | .stab _ | .std _ | .sts _ | .stx _
  | .sty _ | .tab | .tba | .tap | .tpa | .tsx | .tsy | .txs | .tys | .xgdx | .xgdy | .psha | .pshb | .pshx
  | .pshy | .pula | .pulb | .pulx | .puly | .clr _ | .clra | .clrb | .aba | .abx | .aby | .adca _
  | .adcb _ | .adda _ | .addb _ | .addd _ | .cba | .cmpa _ | .cmpb _ | .cpd _ | .cpx _ | .cpy _ | .daa
  | .dec _ | .deca | .decb | .des | .dex | .dey | .fdiv | .idiv | .inc _ | .inca | .incb | .ins | .inx
  | .iny | .mul | .neg _ | .nega | .negb | .sba | .sbca _ | .sbcb _ | .suba _ | .subb _ | .subd _ | .tst _
  | .tsta | .tstb | .anda _ | .andb _ | .bita _ | .bitb _ | .eora _ | .eorb _ | .oraa _ | .orab _ | .com _
  | .coma | .comb | .asl _ | .asla | .aslb | .asld | .asr _ | .asra | .asrb | .lsr _ | .lsra | .lsrb
  | .lsrd | .rol _ | .rola | .rolb | .ror _ | .rora | .rorb | .bclr _ _ | .bset _ _ | .clc | .clv | .sec
  | .sev | .lsl _ | .lsla | .lslb | .lsld | .brn _ | .nop | .cli | .sei | .wai => false

/-- The nine addresses of the interrupt stack frame, in the order they are written (R337). -/
def State.frameAddresses (s : State) : List Word :=
  [s.sp, s.sp - 1, s.sp - 2, s.sp - 3, s.sp - 4, s.sp - 5, s.sp - 6, s.sp - 7, s.sp - 8]

/-- The addresses an instruction stores to, in a state whose PC is past it (R62). -/
def storedAddresses (s : State) : Instr → List Word
  | .staa m | .stab m | .neg m | .com m | .lsr m | .ror m | .asr m | .asl m | .lsl m | .rol m | .dec m
  | .inc m | .clr m | .bset m _ | .bclr m _ => [s.ea m]
  | .std m | .sts m | .stx m | .sty m => [s.ea m, s.ea m + 1]
  | .psha | .pshb => [s.sp]
  | .pshx | .pshy | .bsr _ | .jsr _ => [s.sp, s.sp - 1]
  | .swi | .wai => s.frameAddresses
  | .ldaa _ | .ldab _ | .ldd _ | .lds _ | .ldx _ | .ldy _ | .tab | .tba | .tap | .tpa | .tsx | .tsy | .txs
  | .tys | .xgdx | .xgdy | .pula | .pulb | .pulx | .puly | .clra | .clrb | .aba | .abx | .aby | .adca _
  | .adcb _ | .adda _ | .addb _ | .addd _ | .cba | .cmpa _ | .cmpb _ | .cpd _ | .cpx _ | .cpy _ | .daa
  | .deca | .decb | .des | .dex | .dey | .fdiv | .idiv | .inca | .incb | .ins | .inx | .iny | .mul | .nega
  | .negb | .sba | .sbca _ | .sbcb _ | .suba _ | .subb _ | .subd _ | .tst _ | .tsta | .tstb | .anda _
  | .andb _ | .bita _ | .bitb _ | .eora _ | .eorb _ | .oraa _ | .orab _ | .coma | .comb | .asla | .aslb
  | .asld | .asra | .asrb | .lsra | .lsrb | .lsrd | .rola | .rolb | .rora | .rorb | .clc | .clv | .sec
  | .sev | .lsla | .lslb | .lsld | .bcc _ | .bcs _ | .beq _ | .bge _ | .bgt _ | .bhi _ | .bhs _ | .ble _
  | .blo _ | .bls _ | .blt _ | .bmi _ | .bne _ | .bpl _ | .bra _ | .brn _ | .bvc _ | .bvs _ | .brclr _ _ _
  | .brset _ _ _ | .jmp _ | .rts | .nop | .cli | .sei | .rti | .stop | .test => []

/-! ### The entry into a handler -/

/-- The bytes a frame holds, in the order of `State.frameAddresses`, for a return address (R337). -/
def State.frameBytes (s : State) (ret : Word) : List Byte :=
  [loByte ret, hiByte ret, loByte s.iy, hiByte s.iy, loByte s.ix, hiByte s.ix, s.a, s.b, s.ccr.toByte]

/-- The nine bytes of the frame are on the stack (R337). -/
def State.frameStored (s t : State) (ret : Word) : Prop :=
  ∀ e ∈ s.frameAddresses.zip (s.frameBytes ret), s.stored t e.1 e.2

/-- What an entry leaves (R336 to R340, R342): the frame below SP, SP nine lower, I set, X set if the event sets it,
the MPU running at the handler read at the vector once the frame is stored, nothing else changed but the latches,
which are clear. -/
def State.entered (s t : State) (ret vec : Word) (setsX : Bool) : Prop :=
  s.frameStored t ret ∧
  { s with sp := s.sp - 9, ccr := { s.ccr with i := true, x := s.ccr.x || setsX }, pc := t.pc,
           runState := .running, idelay := false, prevColumn45 := false }.afterStores s.frameAddresses t ∧
  s.fetchedLast t vec (hiByte t.pc) ∧ s.fetchedLast t (vec + 1) (loByte t.pc)

/-! ### The arithmetic reading of the flags -/

/-- The CCR after `Add8(x, m, c)`, by the equivalents R11 gives: H is a carry out of the low digit, C one out of the
byte, V a sum outside -128 to 127. -/
def Ccr.afterAdd8 (cc : Ccr) (x m : Byte) (c : Bool) : Ccr :=
  { cc with
    h := decide (x.toNat % 16 + m.toNat % 16 + c.toNat > 15)
    n := decide ((x.toNat + m.toNat + c.toNat) % 256 ≥ 128)
    z := decide ((x.toNat + m.toNat + c.toNat) % 256 = 0)
    v := decide (x.toInt + m.toInt + c.toNat < -128 ∨ x.toInt + m.toInt + c.toNat > 127)
    c := decide (x.toNat + m.toNat + c.toNat > 255) }

/-- The CCR after `Sub8(x, m, c)`: C is set iff m + c is larger than x as unsigned numbers, V iff the difference is
outside -128 to 127 (R12, C2). -/
def Ccr.afterSub8 (cc : Ccr) (x m : Byte) (c : Bool) : Ccr :=
  { cc with
    n := decide ((x.toNat + 512 - m.toNat - c.toNat) % 256 ≥ 128)
    z := decide ((x.toNat + 512 - m.toNat - c.toNat) % 256 = 0)
    v := decide (x.toInt - m.toInt - c.toNat < -128 ∨ x.toInt - m.toInt - c.toNat > 127)
    c := decide (m.toNat + c.toNat > x.toNat) }

/-- The CCR after `Add16(x, m)` (R13). -/
def Ccr.afterAdd16 (cc : Ccr) (x m : Word) : Ccr :=
  { cc with
    n := decide ((x.toNat + m.toNat) % 65536 ≥ 32768)
    z := decide ((x.toNat + m.toNat) % 65536 = 0)
    v := decide (x.toInt + m.toInt < -32768 ∨ x.toInt + m.toInt > 32767)
    c := decide (x.toNat + m.toNat > 65535) }

/-- The CCR after `Sub16(x, m)`: C is set iff m is larger than x as unsigned numbers (R13). -/
def Ccr.afterSub16 (cc : Ccr) (x m : Word) : Ccr :=
  { cc with
    n := decide ((x.toNat + 65536 - m.toNat) % 65536 ≥ 32768)
    z := decide (x = m)
    v := decide (x.toInt - m.toInt < -32768 ∨ x.toInt - m.toInt > 32767)
    c := decide (m.toNat > x.toNat) }

/-- The CCR after a load, store, transfer or logical instruction with this result (R10). -/
def Ccr.afterData {w : Nat} (cc : Ccr) (r : BitVec w) : Ccr := { cc with n := r.msb, z := r == 0, v := false }

/-- The CCR after a shift or rotate that gives `r` and shifts `out` out: V = N ^ C (R35, R36). -/
def Ccr.afterShift {w : Nat} (cc : Ccr) (r : BitVec w) (out : Bool) : Ccr :=
  { cc with n := r.msb, z := r == 0, v := xor r.msb out, c := out }

/-! ### Tables of results -/

/-- An instruction of one 8-bit operand, on memory and on each accumulator, with its result and the CCR after. -/
structure OneOperand where
  onMem : Mem → Instr
  onA : Instr
  onB : Instr
  result : Byte
  ccr : Ccr

/-- The one-operand instructions that write their result, for the operand `x` (R150 to R152, R175 to R177, R183 to
R185, R190 to R192, R228 to R247, R254 to R256). -/
def oneOperandRows (x : Byte) (cc : Ccr) : List OneOperand :=
  let twice := BitVec.ofNat 8 (2 * x.toNat)
  let twiceC := BitVec.ofNat 8 (2 * x.toNat + cc.c.toNat)
  let half := BitVec.ofNat 8 (x.toNat / 2)
  let halfC := BitVec.ofNat 8 (x.toNat / 2 + 128 * cc.c.toNat)
  let halfSigned := BitVec.ofInt 8 (x.toInt / 2)
  let top := decide (x.toNat ≥ 128)
  let low := decide (x.toNat % 2 = 1)
  let minus := BitVec.ofNat 8 (256 - x.toNat)
  let inverse := BitVec.ofNat 8 (255 - x.toNat)
  let more := BitVec.ofNat 8 (x.toNat + 1)
  let less := BitVec.ofNat 8 (x.toNat + 255)
  [⟨.clr, .clra, .clrb, 0, { cc with n := false, z := true, v := false, c := false }⟩,
   ⟨.neg, .nega, .negb, minus,
    { cc with n := minus.msb, z := minus == 0, v := decide (x.toNat = 128), c := decide (x.toNat ≠ 0) }⟩,
   ⟨.com, .coma, .comb, inverse, { cc with n := inverse.msb, z := inverse == 0, v := false, c := true }⟩,
   ⟨.inc, .inca, .incb, more, { cc with n := more.msb, z := more == 0, v := decide (x.toNat = 127) }⟩,
   ⟨.dec, .deca, .decb, less, { cc with n := less.msb, z := less == 0, v := decide (x.toNat = 128) }⟩,
   ⟨.asl, .asla, .aslb, twice, cc.afterShift twice top⟩,
   ⟨.lsl, .lsla, .lslb, twice, cc.afterShift twice top⟩,
   ⟨.asr, .asra, .asrb, halfSigned, cc.afterShift halfSigned low⟩,
   ⟨.lsr, .lsra, .lsrb, half, cc.afterShift half low⟩,
   ⟨.rol, .rola, .rolb, twiceC, cc.afterShift twiceC top⟩,
   ⟨.ror, .rora, .rorb, halfC, cc.afterShift halfC low⟩]

/-- An instruction of an accumulator and an 8-bit operand, on each accumulator, with what the accumulator holds after
and the CCR after. -/
structure TwoOperand where
  onA : Opr8 → Instr
  onB : Opr8 → Instr
  result : Byte
  ccr : Ccr

/-- The instructions of an accumulator that holds `x` and an operand `m` (R163 to R166, R169, R170, R194 to R197, R220
to R227). -/
def twoOperandRows (x m : Byte) (cc : Ccr) : List TwoOperand :=
  let c := cc.c.toNat
  [⟨.adda, .addb, BitVec.ofNat 8 (x.toNat + m.toNat), cc.afterAdd8 x m false⟩,
   ⟨.adca, .adcb, BitVec.ofNat 8 (x.toNat + m.toNat + c), cc.afterAdd8 x m cc.c⟩,
   ⟨.suba, .subb, BitVec.ofNat 8 (x.toNat + 256 - m.toNat), cc.afterSub8 x m false⟩,
   ⟨.sbca, .sbcb, BitVec.ofNat 8 (x.toNat + 512 - m.toNat - c), cc.afterSub8 x m cc.c⟩,
   ⟨.cmpa, .cmpb, x, cc.afterSub8 x m false⟩,
   ⟨.anda, .andb, x &&& m, cc.afterData (x &&& m)⟩,
   ⟨.bita, .bitb, x, cc.afterData (x &&& m)⟩,
   ⟨.eora, .eorb, x ^^^ m, cc.afterData (x ^^^ m)⟩,
   ⟨.oraa, .orab, x ||| m, cc.afterData (x ||| m)⟩]

/-- A branch and whether the CCR lets it be taken: the Boolean column of R270. -/
def branchRows (cc : Ccr) : List ((Byte → Instr) × Bool) :=
  [(.bra, true), (.brn, false),
   (.bcc, !cc.c), (.bhs, !cc.c), (.bcs, cc.c), (.blo, cc.c),
   (.bne, !cc.z), (.beq, cc.z), (.bvc, !cc.v), (.bvs, cc.v), (.bpl, !cc.n), (.bmi, cc.n),
   (.bhi, !(cc.c || cc.z)), (.bls, cc.c || cc.z),
   (.bge, cc.n == cc.v), (.blt, cc.n != cc.v),
   (.bgt, !cc.z && cc.n == cc.v), (.ble, cc.z || cc.n != cc.v)]

/-- A branch after a compare or subtract of `m` from `r`, and whether it is taken: the first column of R270, the
numbers as signed and as unsigned. -/
def comparisonRows {w : Nat} (r m : BitVec w) : List ((Byte → Instr) × Bool) :=
  [(.bgt, decide (r.toInt > m.toInt)), (.bge, decide (r.toInt ≥ m.toInt)), (.beq, decide (r = m)),
   (.ble, decide (r.toInt ≤ m.toInt)), (.blt, decide (r.toInt < m.toInt)), (.bne, decide (r ≠ m)),
   (.bhi, decide (r.toNat > m.toNat)), (.bhs, decide (r.toNat ≥ m.toNat)), (.bcc, decide (r.toNat ≥ m.toNat)),
   (.bls, decide (r.toNat ≤ m.toNat)), (.blo, decide (r.toNat < m.toNat)), (.bcs, decide (r.toNat < m.toNat))]

/-- Two binary-coded-decimal digits. -/
def isBcd (x : Byte) : Prop := x.toNat / 16 ≤ 9 ∧ x.toNat % 16 ≤ 9

/-- The number two binary-coded-decimal digits stand for. -/
def bcdValue (x : Byte) : Nat := x.toNat / 16 * 10 + x.toNat % 16

/-- The two digits of a number below 100. -/
def bcdDigits (n : Nat) : Byte := BitVec.ofNat 8 (n / 10 % 10 * 16 + n % 10)

/-! ### The opcodes of the pages (R93 to R96) -/

/-- The page-1 bytes no instruction uses (R96). -/
def undefinedOnPage1 : List Byte :=
  [0x41, 0x42, 0x45, 0x4B, 0x4E, 0x51, 0x52, 0x55, 0x5B, 0x5E, 0x61, 0x62, 0x65, 0x6B, 0x71, 0x72, 0x75, 0x7B,
   0x87, 0xC7]

/-- The second bytes of page 2 (R93). -/
def definedOnPage2 : List Byte :=
  [0x08, 0x09, 0x1C, 0x1D, 0x1E, 0x1F, 0x30, 0x35, 0x38, 0x3A, 0x3C, 0x60, 0x63, 0x64, 0x66, 0x67, 0x68,
   0x69, 0x6A, 0x6C, 0x6D, 0x6E, 0x6F, 0x8C, 0x8F, 0x9C, 0xA0, 0xA1, 0xA2, 0xA3, 0xA4, 0xA5, 0xA6, 0xA7,
   0xA8, 0xA9, 0xAA, 0xAB, 0xAC, 0xAD, 0xAE, 0xAF, 0xBC, 0xCE, 0xDE, 0xDF, 0xE0, 0xE1, 0xE2, 0xE3, 0xE4,
   0xE5, 0xE6, 0xE7, 0xE8, 0xE9, 0xEA, 0xEB, 0xEC, 0xED, 0xEE, 0xEF, 0xFE, 0xFF]

/-- The second bytes of page 3 (R94). -/
def definedOnPage3 : List Byte := [0x83, 0x93, 0xA3, 0xAC, 0xB3, 0xEE, 0xEF]

/-- The second bytes of page 4 (R95). -/
def definedOnPage4 : List Byte := [0xA3, 0xAC, 0xEE, 0xEF]

/-! ### The invariant -/

/-- Memory is in canonical form, and the I-delay latch is set only in a running MPU whose I bit is clear (R38). -/
def State.Inv (s : State) : Prop :=
  s.mem.wf = true ∧ (s.idelay = true → s.runState = .running ∧ s.ccr.i = false)

end Sys2Proof.Machine
end

