-- ==== Sys2Proof/Certificates/Slice0/Obligations.lean ====
section
/-! DEFINITION. The statements for the provers. -/

section Statements

open Sys2Proof Sys2Proof.Machine

/-! ### Encoding (30_encoding.md) -/

/-- R99, R102: whatever follows them, the bytes the encoder writes for a well-formed instruction decode to that
instruction, and the decoder takes no byte more; an alias decodes to its primary instruction, has its encoding and
does what it does. -/
def Obligations.DecodeReadsWhatEncodeWrites : Prop :=
  ∀ (i : Instr) (rest : List Byte), i.wellFormed = true →
    decode (encode i ++ rest) = .instr i.primary rest ∧ encode i = encode i.primary ∧
      ∀ s, exec i s = exec i.primary s

/-- R80, R99: bytes that decode to an instruction are its encoding, the instruction is well-formed and no alias. -/
def Obligations.DecodedBytesAreItsEncoding : Prop :=
  ∀ (bytes rest : List Byte) (i : Instr), decode bytes = .instr i rest →
    i.wellFormed = true ∧ i.primary = i ∧ bytes = encode i ++ rest

/-- R96: the undefined opcodes of page 1 are the twenty of the list; on pages 2, 3, 4 those not in the tables of R93
to R95, 192, 249 and 252 of them. -/
def Obligations.UndefinedOpcodesAreTheListed : Prop :=
  (∀ (b : Byte) (rest : List Byte), decode (b :: rest) = .undefined .one b ↔ b ∈ undefinedOnPage1) ∧
  (∀ (op : Byte) (rest : List Byte), decode (0x18 :: op :: rest) = .undefined .two op ↔ op ∉ definedOnPage2) ∧
  (∀ (op : Byte) (rest : List Byte), decode (0x1A :: op :: rest) = .undefined .three op ↔ op ∉ definedOnPage3) ∧
  (∀ (op : Byte) (rest : List Byte), decode (0xCD :: op :: rest) = .undefined .four op ↔ op ∉ definedOnPage4) ∧
  undefinedOnPage1.length = 20 ∧ 256 - definedOnPage2.dedup.length = 192 ∧
  256 - definedOnPage3.dedup.length = 249 ∧ 256 - definedOnPage4.dedup.length = 252

/-- R81 to R84, R86, R88, R90, R92, R93, R95: words of the spec decode to the instructions they stand for. -/
def Obligations.SampleWordsDecode : Prop :=
  decode [0x1B] = .instr .aba [] ∧ decode [0x18, 0x3A] = .instr .aby [] ∧
  decode [0x8B, 0x7F] = .instr (.adda (.imm 0x7F)) [] ∧
  decode [0xCC, 0x12, 0x34] = .instr (.ldd (.imm 0x1234)) [] ∧
  decode [0xCD, 0xA3, 0x05] = .instr (.cpd (.mem (.indY 0x05))) [] ∧
  decode [0x18, 0x1E, 0x05, 0x80, 0xFB] = .instr (.brset (.indY 0x05) 0x80 0xFB) [] ∧
  decode [0x7E, 0xC0, 0x00] = .instr (.jmp (.ext 0xC000)) [] ∧ decode [0x3F] = .instr .swi []

/-! ### A step runs the decoded instruction (00_scope.md R9, R15) -/

/-- R15, R102, R103: when the environment's script is at its end, no reset or interrupt is recognised, and the bytes
at the program counter, in RAM or ROM, are those of an instruction, the step is the instruction's meaning with the PC
past its bytes and the I-delay latch cleared (R38); the step then remembers whether its opcode was of column 4 or 5,
in a latch of the model's own (log 16). -/
def Obligations.StepRunsDecodedInstruction : Prop :=
  ∀ (s : State) (i : Instr) (n : Nat), s.undisturbed → s.codePlain n → decode (s.codeBytes n) = .instr i [] →
    step s = match exec i { s with pc := s.pc + BitVec.ofNat 16 n, idelay := false } with
      | .next t => .next { t with prevColumn45 := i.column45 }
      | .fault f => .fault f
      | .refused r => .refused r

/-- R97, R340, the spec's decision D6 (log 14): bytes that select no instruction stop the model where ILLOP_POLICY is
`fault`; where it is `trap` the frame is stacked with the address of the first byte, I is set and the PC is what
VEC_ILLOP holds; that the entry clears the two latches is the model's choice (log 16, log 17). -/
def Obligations.UndefinedOpcodeStopsOrTraps : Prop :=
  ∀ (s : State) (n : Nat) (p : Page) (op : Byte), s.undisturbed → s.codePlain n →
    decode (s.codeBytes n) = .undefined p op →
    (s.platform.illopPolicy = .fault → step s = .fault (.illegalOpcode s.pc)) ∧
    (s.platform.illopPolicy = .trap → s.populated → s.mem.wf = true →
      ∃ t, step s = .next t ∧ s.entered t s.pc s.platform.vecIllop false)

/-! ### Memory (20_memory.md) -/

/-- R66, decision D14 (log 28): a read of RAM returns the value of the latest earlier write to that address, and a
write leaves every other address alone. -/
def Obligations.ReadReturnsLatestWrite : Prop :=
  ∀ (s : State) (addr : Word) (v : Byte), s.mem.wf = true → s.kindAt addr = .ram →
    ∃ t, writeByte addr v s = .ok () t ∧ readByte addr t = .ok v t ∧
      ∀ other, other ≠ addr → t.byteAt other = s.byteAt other

/-- R61, decision D3, the model's choices of log 7, log 8, log 9: ROM ignores writes, a device is read and written
through its log, an access to nothing stops. -/
def Obligations.AccessFollowsTheMemoryMap : Prop :=
  ∀ (s : State) (addr : Word) (v : Byte),
    (s.kindAt addr = .rom → writeByte addr v s = .ok () s ∧ readByte addr s = .ok (s.byteAt addr) s) ∧
    (s.kindAt addr = .device →
      writeByte addr v s = .ok () { s with deviceLog := .write addr v :: s.deviceLog } ∧
      ∃ w, readByte addr s = .ok w { s with draws := s.draws + 1, deviceLog := .read addr w :: s.deviceLog }) ∧
    (s.kindAt addr = .nothing →
      writeByte addr v s = .stop (.unpopulated addr) ∧ readByte addr s = .stop (.unpopulated addr))

/-- R52, R53: a 16-bit value has its high-order byte at the lower address, and 16-bit data moves that byte first; a
push writes the low-order byte first, at the higher address, a pull reads the high-order byte first. -/
def Obligations.WordsMoveInTheOrderOfTheTables : Prop :=
  (∀ (s : State) (addr : Word), s.plain addr → s.plain (addr + 1) →
    readWord addr s = .ok (joinBytes (s.byteAt addr) (s.byteAt (addr + 1))) s) ∧
  (∀ (s : State) (addr v : Word), s.mem.wf = true → s.kindAt addr = .ram → s.kindAt (addr + 1) = .ram →
    ∃ t, writeWord addr v s = .ok () t ∧ t.byteAt addr = hiByte v ∧ t.byteAt (addr + 1) = loByte v ∧
      ∀ a, a ≠ addr → a ≠ addr + 1 → t.byteAt a = s.byteAt a) ∧
  (∀ (s : State) (addr v : Word), s.kindAt addr = .device → s.kindAt (addr + 1) = .device →
    (∃ h l t, readWord addr s = .ok (joinBytes h l) t ∧
      t.deviceLog = .read (addr + 1) l :: .read addr h :: s.deviceLog) ∧
    ∃ t, writeWord addr v s = .ok () t ∧
      t.deviceLog = .write (addr + 1) (loByte v) :: .write addr (hiByte v) :: s.deviceLog) ∧
  (∀ (s : State) (v : Word), s.kindAt s.sp = .device → s.kindAt (s.sp - 1) = .device →
    ∃ t, push16 v s = .ok () t ∧
      t.deviceLog = .write (s.sp - 1) (hiByte v) :: .write s.sp (loByte v) :: s.deviceLog) ∧
  (∀ s : State, s.kindAt (s.sp + 1) = .device → s.kindAt (s.sp + 2) = .device →
    ∃ h l t, pull16 s = .ok (joinBytes h l) t ∧
      t.deviceLog = .read (s.sp + 2) l :: .read (s.sp + 1) h :: s.deviceLog)

/-- R8: what is pushed is pulled, and SP is as before. -/
def Obligations.PullReturnsWhatWasPushed : Prop :=
  ∀ (s : State) (v : Word), s.mem.wf = true → s.kindAt s.sp = .ram → s.kindAt (s.sp - 1) = .ram →
    (∃ t, push16 v s = .ok () t ∧ t.sp = s.sp - 2 ∧ pull16 t = .ok v { t with sp := s.sp }) ∧
    ∃ t, push8 (loByte v) s = .ok () t ∧ t.sp = s.sp - 1 ∧ pull8 t = .ok (loByte v) { t with sp := s.sp }

/-- R85 to R88, R56 and decision D2 (log 25): the effective address of each mode, modulo 2^16. -/
def Obligations.EffectiveAddresses : Prop :=
  ∀ (s : State) (b : Byte) (w : Word),
    (s.ea (.dir b)).toNat = b.toNat ∧ s.ea (.ext w) = w ∧
    (s.ea (.indX b)).toNat = (s.ix.toNat + b.toNat) % 65536 ∧
    (s.ea (.indY b)).toNat = (s.iy.toNat + b.toNat) % 65536

/-! ### Every instruction (R14, R37, R332) -/

/-- R14, R332: where MEM has something everywhere, every instruction, TEST only in test mode (R98), answers a next
state: none raises a memory, alignment, divide or overflow exception. -/
def Obligations.EveryInstructionCompletes : Prop :=
  ∀ (i : Instr) (s : State), s.populated → s.legal i → ∃ t, exec i s = .next t

/-- R61, R97, R98, R332: no instruction and no step is refused; an instruction stops the run only at an address where
MEM has nothing or, TEST outside test mode where ILLOP_POLICY is `fault`, as an illegal opcode; where MEM has
something everywhere, a step stops only at an illegal opcode under ILLOP_POLICY `fault`. -/
def Obligations.RunsStopOnlyWhereSaid : Prop :=
  (∀ (i : Instr) (s : State), (∀ r, exec i s ≠ .refused r) ∧
    ∀ f, exec i s = .fault f → f.ofPlatform s.platform ∨
      (i = .test ∧ s.platform.testMode = false ∧ s.platform.illopPolicy = .fault ∧
        f = .illegalOpcode (s.pc - 1))) ∧
  ∀ s : State, (∀ r, step s ≠ .refused r) ∧
    ∀ f, step s = .fault f → f.ofPlatform s.platform ∨
      (s.platform.illopPolicy = .fault ∧ ∃ opa, f = .illegalOpcode opa)

/-- R62: an instruction changes no byte of memory but those at the addresses it stores to. -/
def Obligations.InstructionsStoreNowhereElse : Prop :=
  ∀ (i : Instr) (s t : State), s.legal i → exec i s = .next t →
    ∀ a, a ∉ storedAddresses s i → t.byteAt a = s.byteAt a

/-- R21 to R27: an instruction changes no register but those it writes, and leaves the PC at the next instruction
unless it transfers control. -/
def Obligations.InstructionsChangeNoOtherRegister : Prop :=
  ∀ (i : Instr) (s t : State), s.legal i → exec i s = .next t →
    (∀ r, r ∉ registersWritten i → t.contents r = s.contents r) ∧ (canTransfer i = false → t.pc = s.pc)

/-- R37: the flags change as the instruction's row of the CCR table says. -/
def Obligations.FlagsFollowTheActivityTable : Prop :=
  ∀ (i : Instr) (s t : State), s.legal i → exec i s = .next t → (activityOf i).allows s.ccr t.ccr

/-- R38 to R41: an instruction changes no parameter and no line; only CLI, TAP and SWI touch the I-delay latch, only
WAI, STOP, TEST and SWI the run-state; where MEM has no device nothing is logged, and only DAA, IDIV, FDIV and TEST
draw a free value (the model's latches and counters: log 9, log 12, log 16, log 17). -/
def Obligations.HiddenStateChangesOnlyWhereSaid : Prop :=
  ∀ (i : Instr) (s t : State), s.legal i → exec i s = .next t →
    t.platform = s.platform ∧ t.lines = s.lines ∧ t.script = s.script ∧
    (i ∉ [.cli, .tap, .swi] → t.idelay = s.idelay) ∧
    (i ∉ [.wai, .stop, .test, .swi] → t.runState = s.runState) ∧
    (i ≠ .swi → t.prevColumn45 = s.prevColumn45) ∧
    ((∀ a, s.kindAt a ≠ .device) → t.deviceLog = s.deviceLog ∧
      (i ∉ [.daa, .idiv, .fdiv, .test] → t.draws = s.draws))

/-- R380, R381: on a bus that shows every access and with the value-less cycles performed, an instruction makes as
many accesses as its cycle table has rows, its own bytes apart; WAI's last two cycles are those of the wake-up (log
26). -/
def Obligations.BusAccessesMatchTheCycleTables : Prop :=
  ∀ (i : Instr) (s t : State) (n : Nat), (∀ a, s.kindAt a = .device) → s.platform.dummyReads = true →
    i.wellFormed = true → i.cycles = some n → exec i s = .next t →
    t.deviceLog.length + i.length = s.deviceLog.length + (if i = .wai then n - 2 else n)

/-! ### Loads, stores, transfers, stack, clear (40_load_store_stack.md) -/

/-- R120 to R125: a load takes its operand, N and Z from it, V cleared, C and H kept. -/
def Obligations.LoadsTakeTheirOperand : Prop :=
  ∀ s : State, s.populated →
    (∀ o, ∃ v t, s.afterReads t ∧ s.operandIs8 t o v ∧
      exec (.ldaa o) s = .next { t with a := v, ccr := s.ccr.afterData v } ∧
      exec (.ldab o) s = .next { t with b := v, ccr := s.ccr.afterData v }) ∧
    ∀ o, ∃ v t, s.afterReads t ∧ s.operandIs16 t o v ∧
      exec (.ldd o) s = .next { t with a := hiByte v, b := loByte v, ccr := s.ccr.afterData v } ∧
      exec (.lds o) s = .next { t with sp := v, ccr := s.ccr.afterData v } ∧
      exec (.ldx o) s = .next { t with ix := v, ccr := s.ccr.afterData v } ∧
      exec (.ldy o) s = .next { t with iy := v, ccr := s.ccr.afterData v }

/-- R126 to R131: a store puts the register at the effective address, high-order byte first, N and Z from it, V
cleared, and changes nothing else. -/
def Obligations.StoresPutTheirRegister : Prop :=
  ∀ (s : State) (m : Mem), s.populated → s.mem.wf = true →
    (∀ e ∈ [(Instr.staa, s.a), (Instr.stab, s.b)], ∃ t, exec (e.1 m) s = .next t ∧
      { s with ccr := s.ccr.afterData e.2 }.afterStores [s.ea m] t ∧ s.stored t (s.ea m) e.2) ∧
    ∀ e ∈ [(Instr.std, joinBytes s.a s.b), (Instr.sts, s.sp), (Instr.stx, s.ix), (Instr.sty, s.iy)],
      ∃ t, exec (e.1 m) s = .next t ∧
        { s with ccr := s.ccr.afterData e.2 }.afterStores [s.ea m, s.ea m + 1] t ∧
        s.stored t (s.ea m) (hiByte e.2) ∧ s.stored t (s.ea m + 1) (loByte e.2)

/-- R132, R133, R136 to R141: transfers and exchanges. -/
def Obligations.TransfersMoveRegisters : Prop :=
  ∀ s : State, s.populated →
    s.gives .tab (fun t => { t with b := s.a, ccr := s.ccr.afterData s.a }) ∧
    s.gives .tba (fun t => { t with a := s.b, ccr := s.ccr.afterData s.b }) ∧
    s.gives .tsx (fun t => { t with ix := s.sp + 1 }) ∧ s.gives .tsy (fun t => { t with iy := s.sp + 1 }) ∧
    s.gives .txs (fun t => { t with sp := s.ix - 1 }) ∧ s.gives .tys (fun t => { t with sp := s.iy - 1 }) ∧
    s.gives .xgdx (fun t => { t with a := hiByte s.ix, b := loByte s.ix, ix := joinBytes s.a s.b }) ∧
    s.gives .xgdy (fun t => { t with a := hiByte s.iy, b := loByte s.iy, iy := joinBytes s.a s.b })

/-- R134, R135, R30: TPA takes the CCR, S in bit 7 to C in bit 0; TAP loads it back from A, X only downward; that TAP
arms the I-delay latch as CLI does is the spec's own reading (D18, log 17). -/
def Obligations.TapAndTpaMoveTheCcr : Prop :=
  ∀ s : State, s.populated →
    s.gives .tap (fun t => { t with
      ccr := { s := s.a.getLsbD 7, x := s.ccr.x && s.a.getLsbD 6, h := s.a.getLsbD 5, i := s.a.getLsbD 4,
               n := s.a.getLsbD 3, z := s.a.getLsbD 2, v := s.a.getLsbD 1, c := s.a.getLsbD 0 },
      idelay := s.idelay || (s.ccr.i && !s.a.getLsbD 4) }) ∧
    s.gives .tpa (fun t => { t with a := BitVec.ofNat 8 (128 * s.ccr.s.toNat + 64 * s.ccr.x.toNat +
      32 * s.ccr.h.toNat + 16 * s.ccr.i.toNat + 8 * s.ccr.n.toNat + 4 * s.ccr.z.toNat + 2 * s.ccr.v.toNat +
      s.ccr.c.toNat) })

/-- R142 to R149: pushes store at SP downward, a word low-order byte first; pulls read upward; no flag changes. -/
def Obligations.PushesAndPullsUseTheStack : Prop :=
  ∀ s : State, s.populated → s.mem.wf = true →
    (∀ e ∈ [(Instr.psha, s.a), (Instr.pshb, s.b)], ∃ t, exec e.1 s = .next t ∧
      { s with sp := s.sp - 1 }.afterStores [s.sp] t ∧ s.stored t s.sp e.2) ∧
    (∀ e ∈ [(Instr.pshx, s.ix), (Instr.pshy, s.iy)], ∃ t, exec e.1 s = .next t ∧
      { s with sp := s.sp - 2 }.afterStores [s.sp, s.sp - 1] t ∧
      s.stored t s.sp (loByte e.2) ∧ s.stored t (s.sp - 1) (hiByte e.2)) ∧
    (∃ v t, s.afterReads t ∧ s.fetched t (s.sp + 1) v ∧
      exec .pula s = .next { t with a := v, sp := s.sp + 1 } ∧
      exec .pulb s = .next { t with b := v, sp := s.sp + 1 }) ∧
    ∃ h l t, s.afterReads t ∧ s.fetched t (s.sp + 1) h ∧ s.fetched t (s.sp + 2) l ∧
      exec .pulx s = .next { t with ix := joinBytes h l, sp := s.sp + 2 } ∧
      exec .puly s = .next { t with iy := joinBytes h l, sp := s.sp + 2 }

/-! ### Arithmetic (41_arithmetic.md) and logic (42_logic_shift_bit.md) -/

/-- R11: `Add8`, its five flags by the Boolean formulas and by the equivalents the rule gives. -/
def Obligations.ByteAdditionSetsTheFlags : Prop :=
  ∀ (x m : Byte) (c : Bool) (cc : Ccr),
    let r := (add8 c x m cc).1
    r.toNat = (x.toNat + m.toNat + c.toNat) % 256 ∧
    (add8 c x m cc).2 = { cc with
      h := x.getLsbD 3 && m.getLsbD 3 || m.getLsbD 3 && !r.getLsbD 3 || !r.getLsbD 3 && x.getLsbD 3
      v := x.getLsbD 7 && m.getLsbD 7 && !r.getLsbD 7 || !x.getLsbD 7 && !m.getLsbD 7 && r.getLsbD 7
      c := x.getLsbD 7 && m.getLsbD 7 || m.getLsbD 7 && !r.getLsbD 7 || !r.getLsbD 7 && x.getLsbD 7
      n := r.getLsbD 7
      z := decide (r = 0) } ∧
    (add8 c x m cc).2 = cc.afterAdd8 x m c

/-- R12: `Sub8`, its four flags by the Boolean formulas and by what they mean; no subtract, compare, negate or test
instruction writes H. -/
def Obligations.ByteSubtractionSetsTheFlags : Prop :=
  (∀ (x m : Byte) (c : Bool) (cc : Ccr),
    let r := (sub8 c x m cc).1
    r.toNat = (x.toNat + 512 - m.toNat - c.toNat) % 256 ∧
    (sub8 c x m cc).2 = { cc with
      v := x.getLsbD 7 && !m.getLsbD 7 && !r.getLsbD 7 || !x.getLsbD 7 && m.getLsbD 7 && r.getLsbD 7
      c := !x.getLsbD 7 && m.getLsbD 7 || m.getLsbD 7 && r.getLsbD 7 || r.getLsbD 7 && !x.getLsbD 7
      n := r.getLsbD 7
      z := decide (r = 0) } ∧
    (sub8 c x m cc).2 = cc.afterSub8 x m c) ∧
  ∀ (i : Instr) (s t : State), subtracts i = true → exec i s = .next t → t.ccr.h = s.ccr.h

/-- R13: `Add16` and `Sub16`, their flags by the Boolean formulas and by what they mean; H is kept. -/
def Obligations.WordArithmeticSetsTheFlags : Prop :=
  ∀ (x m : Word) (cc : Ccr),
    let r := (add16 x m cc).1
    let d := (sub16 x m cc).1
    r.toNat = (x.toNat + m.toNat) % 65536 ∧ d.toNat = (x.toNat + 65536 - m.toNat) % 65536 ∧
    (add16 x m cc).2 = { cc with
      v := x.getLsbD 15 && m.getLsbD 15 && !r.getLsbD 15 || !x.getLsbD 15 && !m.getLsbD 15 && r.getLsbD 15
      c := x.getLsbD 15 && m.getLsbD 15 || m.getLsbD 15 && !r.getLsbD 15 || !r.getLsbD 15 && x.getLsbD 15
      n := r.getLsbD 15
      z := decide (r = 0) } ∧
    (sub16 x m cc).2 = { cc with
      v := x.getLsbD 15 && !m.getLsbD 15 && !d.getLsbD 15 || !x.getLsbD 15 && m.getLsbD 15 && d.getLsbD 15
      c := !x.getLsbD 15 && m.getLsbD 15 || m.getLsbD 15 && d.getLsbD 15 || d.getLsbD 15 && !x.getLsbD 15
      n := d.getLsbD 15
      z := decide (d = 0) } ∧
    (add16 x m cc).2 = cc.afterAdd16 x m ∧ (sub16 x m cc).2 = cc.afterSub16 x m

/-- R163 to R166, R169, R170, R194 to R197, R220 to R227: what an accumulator and an operand give, for both
accumulators. -/
def Obligations.TwoOperandInstructionsCompute : Prop :=
  ∀ (s : State) (o : Opr8), s.populated → ∃ m t, s.afterReads t ∧ s.operandIs8 t o m ∧
    (∀ row ∈ twoOperandRows s.a m s.ccr, exec (row.onA o) s = .next { t with a := row.result, ccr := row.ccr }) ∧
    ∀ row ∈ twoOperandRows s.b m s.ccr, exec (row.onB o) s = .next { t with b := row.result, ccr := row.ccr }

/-- R160, R168, R193, R161, R162: the inherent additions and subtractions of two registers. -/
def Obligations.InherentArithmeticComputes : Prop :=
  ∀ s : State, s.populated →
    s.gives .aba (fun t => { t with a := BitVec.ofNat 8 (s.a.toNat + s.b.toNat),
                                    ccr := s.ccr.afterAdd8 s.a s.b false }) ∧
    s.gives .sba (fun t => { t with a := BitVec.ofNat 8 (s.a.toNat + 256 - s.b.toNat),
                                    ccr := s.ccr.afterSub8 s.a s.b false }) ∧
    s.gives .cba (fun t => { t with ccr := s.ccr.afterSub8 s.a s.b false }) ∧
    s.gives .abx (fun t => { t with ix := BitVec.ofNat 16 (s.ix.toNat + s.b.toNat) }) ∧
    s.gives .aby (fun t => { t with iy := BitVec.ofNat 16 (s.iy.toNat + s.b.toNat) })

/-- R167, R198, R171 to R173: 16-bit add, subtract and compare. -/
def Obligations.WordInstructionsCompute : Prop :=
  ∀ (s : State) (o : Opr16), s.populated → ∃ m t, s.afterReads t ∧ s.operandIs16 t o m ∧
    (let d := joinBytes s.a s.b
     let sum := BitVec.ofNat 16 (d.toNat + m.toNat)
     let difference := BitVec.ofNat 16 (d.toNat + 65536 - m.toNat)
     exec (.addd o) s = .next { t with a := hiByte sum, b := loByte sum, ccr := s.ccr.afterAdd16 d m } ∧
     exec (.subd o) s =
       .next { t with a := hiByte difference, b := loByte difference, ccr := s.ccr.afterSub16 d m } ∧
     exec (.cpd o) s = .next { t with ccr := s.ccr.afterSub16 d m } ∧
     exec (.cpx o) s = .next { t with ccr := s.ccr.afterSub16 s.ix m } ∧
     exec (.cpy o) s = .next { t with ccr := s.ccr.afterSub16 s.iy m })

/-- R151, R152, R176, R177, R184, R185, R191, R192, R200, R201, R229, R230 and the accumulator forms of the shifts and
rotates: what an accumulator becomes. -/
def Obligations.AccumulatorInstructionsCompute : Prop :=
  ∀ s : State, s.populated →
    (∀ row ∈ oneOperandRows s.a s.ccr, s.gives row.onA fun t => { t with a := row.result, ccr := row.ccr }) ∧
    (∀ row ∈ oneOperandRows s.b s.ccr, s.gives row.onB fun t => { t with b := row.result, ccr := row.ccr }) ∧
    s.gives .tsta (fun t => { t with ccr := { s.ccr.afterData s.a with c := false } }) ∧
    s.gives .tstb (fun t => { t with ccr := { s.ccr.afterData s.b with c := false } })

/-- R63, R64, R199 and the memory forms of CLR, NEG, COM, INC, DEC, the shifts and rotates: the byte at the effective
address becomes the result; a device there sees one read and then one write. TST reads the byte and writes nothing. -/
def Obligations.MemoryInstructionsCompute : Prop :=
  ∀ (s : State) (m : Mem), s.populated → s.mem.wf = true → ∃ x,
    (∀ row ∈ oneOperandRows x s.ccr,
      ∃ t, exec (row.onMem m) s = .next t ∧ s.fetched t (s.ea m) x ∧ s.stored t (s.ea m) row.result ∧
        { s with ccr := row.ccr }.afterStores [s.ea m] t ∧
        (s.kindAt (s.ea m) = .device → s.platform.dummyReads = false →
          s.accessesSince t = [.write (s.ea m) row.result, .read (s.ea m) x])) ∧
    ∃ t, s.afterReads t ∧ s.fetched t (s.ea m) x ∧
      exec (.tst m) s = .next { t with ccr := { s.ccr.afterData x with c := false } }

/-- R248, R249, R64: BSET sets and BCLR clears the bits of the mask, and both write the byte even where no bit
changes. Where mask and operand are device locations, the step reads the operand, fetches the mask, writes the operand
(R380). -/
def Obligations.BitInstructionsSetAndClear : Prop :=
  (∀ (s : State) (m : Mem) (mm : Byte), s.populated → s.mem.wf = true → ∃ x,
    ∀ e ∈ [(Instr.bset m mm, x ||| mm), (Instr.bclr m mm, x &&& ~~~mm)],
      ∃ t, exec e.1 s = .next t ∧ s.fetched t (s.ea m) x ∧ s.stored t (s.ea m) e.2 ∧
        { s with ccr := s.ccr.afterData e.2 }.afterStores [s.ea m] t ∧
        (s.kindAt (s.ea m) = .device → s.platform.dummyReads = false →
          s.accessesSince t = [.write (s.ea m) e.2, .read (s.ea m) x])) ∧
  ∀ (s : State) (m : Mem) (k : Nat), s.undisturbed → s.platform.dummyReads = false → s.codePlain k →
    s.kindAt (s.pc + BitVec.ofNat 16 k) = .device → s.kindAt (s.ea m) = .device →
    ∀ e ∈ ([(.bset m, fun x mm => x ||| mm), (.bclr m, fun x mm => x &&& ~~~mm)] :
        List ((Byte → Instr) × (Byte → Byte → Byte))),
      (e.1 0).wellFormed = true → s.codeBytes k = (encode (e.1 0)).dropLast →
      ∃ x mm t, step s = .next t ∧ t.deviceLog =
        .write (s.ea m) (e.2 x mm) :: .read (s.pc + BitVec.ofNat 16 k) mm :: .read (s.ea m) x :: s.deviceLog

/-- R178 to R180, R186 to R188: SP, IX, IY by one, up or down; Z alone changes, and only for IX and IY. -/
def Obligations.PointerStepsComplete : Prop :=
  ∀ s : State, s.populated →
    s.gives .ins (fun t => { t with sp := s.sp + 1 }) ∧ s.gives .des (fun t => { t with sp := s.sp - 1 }) ∧
    s.gives .inx (fun t => { t with ix := s.ix + 1, ccr := { s.ccr with z := decide (s.ix = 0xFFFF) } }) ∧
    s.gives .dex (fun t => { t with ix := s.ix - 1, ccr := { s.ccr with z := decide (s.ix = 1) } }) ∧
    s.gives .iny (fun t => { t with iy := s.iy + 1, ccr := { s.ccr with z := decide (s.iy = 0xFFFF) } }) ∧
    s.gives .dey (fun t => { t with iy := s.iy - 1, ccr := { s.ccr with z := decide (s.iy = 1) } })

/-- R234, R241, R257: the 16-bit shifts of D. -/
def Obligations.WordShiftsCompute : Prop :=
  ∀ s : State, s.populated →
    (let d := joinBytes s.a s.b
     let twice := BitVec.ofNat 16 (2 * d.toNat)
     let half := BitVec.ofNat 16 (d.toNat / 2)
     s.gives .asld (fun t => { t with a := hiByte twice, b := loByte twice,
                                      ccr := s.ccr.afterShift twice (decide (d.toNat ≥ 32768)) }) ∧
     s.gives .lsld (fun t => { t with a := hiByte twice, b := loByte twice,
                                      ccr := s.ccr.afterShift twice (decide (d.toNat ≥ 32768)) }) ∧
     s.gives .lsrd (fun t => { t with a := hiByte half, b := loByte half,
                                      ccr := s.ccr.afterShift half (decide (d.toNat % 2 = 1)) }))

/-- R189: MUL leaves the unsigned product in D and its bit 7 in C. -/
def Obligations.MulGivesTheProduct : Prop :=
  ∀ s : State, s.populated → ∃ t u, s.afterReads t ∧ exec .mul s = .next u ∧
    (joinBytes u.a u.b).toNat = s.a.toNat * s.b.toNat ∧
    u = { t with a := u.a, b := u.b, ccr := { s.ccr with c := decide (s.a.toNat * s.b.toNat / 128 % 2 = 1) } }

/-- R181, R182: IDIV leaves the quotient of D by IX in IX and the remainder in D, V cleared, FDIV those of D times
2^16; a zero divisor of IDIV sets C, a divisor of FDIV not above D sets V, a zero one C as well: IX is then $FFFF and
D any value. -/
def Obligations.DividesGiveQuotientAndRemainder : Prop :=
  ∀ s : State, s.populated →
    (let d := joinBytes s.a s.b
     (∃ t u, s.afterReads t ∧ exec .idiv s = .next u ∧
       u = { t with a := u.a, b := u.b, ix := u.ix, ccr := u.ccr } ∧
       (s.ix ≠ 0 → d.toNat = u.ix.toNat * s.ix.toNat + (joinBytes u.a u.b).toNat ∧
         (joinBytes u.a u.b).toNat < s.ix.toNat ∧
         u.ccr = { s.ccr with z := decide (u.ix = 0), v := false, c := false }) ∧
       (s.ix = 0 → u.ix = 0xFFFF ∧ u.ccr = { s.ccr with z := false, v := false, c := true })) ∧
     ∃ t u, s.afterReads t ∧ exec .fdiv s = .next u ∧
       u = { t with a := u.a, b := u.b, ix := u.ix, ccr := u.ccr } ∧
       (d.toNat < s.ix.toNat → d.toNat * 65536 = u.ix.toNat * s.ix.toNat + (joinBytes u.a u.b).toNat ∧
         (joinBytes u.a u.b).toNat < s.ix.toNat ∧
         u.ccr = { s.ccr with z := decide (u.ix = 0), v := false, c := false }) ∧
       (s.ix.toNat ≤ d.toNat →
         u.ix = 0xFFFF ∧ u.ccr = { s.ccr with z := false, v := true, c := decide (s.ix = 0) }))

/-- R174, R376: after an addition of two binary-coded-decimal bytes and a carry, DAA leaves the two digits of the
decimal sum in A and its carry in C, V being any value. -/
def Obligations.DaaMakesADecimalSum : Prop :=
  ∀ (s : State) (x m : Byte) (c : Bool) (cc : Ccr), s.populated → isBcd x → isBcd m →
    s.a = (add8 c x m cc).1 → s.ccr = (add8 c x m cc).2 →
    (let sum := bcdValue x + bcdValue m + c.toNat
     let digits := bcdDigits sum
     ∃ v, s.gives .daa fun t => { t with
       a := digits
       ccr := { s.ccr with n := digits.msb, z := decide (digits = 0), v := v, c := decide (sum ≥ 100) } })

/-- R174 and decision D22: for every A, H and C, DAA completes and changes no register but A; N and Z are those of the
A it leaves, and where the inputs are none of the table's, A, C and V are any values. -/
def Obligations.DaaCompletesOnAnyInput : Prop :=
  ∀ s : State, s.populated → ∃ r v c,
    s.gives .daa (fun t => { t with a := r, ccr := { s.ccr with n := r.msb, z := decide (r = 0), v := v, c := c } }) ∧
    ∀ row ∈ daaTable, row.applies s.a s.ccr = true → r = s.a + row.added ∧ c = row.cAfter

/-- R250 to R253, R295, R310, R311: the flag instructions, and NOP; CLI arms the I-delay latch if I was set. -/
def Obligations.FlagInstructionsComplete : Prop :=
  ∀ s : State, s.populated →
    s.gives .clc (fun t => { t with ccr := { s.ccr with c := false } }) ∧
    s.gives .sec (fun t => { t with ccr := { s.ccr with c := true } }) ∧
    s.gives .clv (fun t => { t with ccr := { s.ccr with v := false } }) ∧
    s.gives .sev (fun t => { t with ccr := { s.ccr with v := true } }) ∧
    s.gives .cli (fun t => { t with ccr := { s.ccr with i := false }, idelay := s.idelay || s.ccr.i }) ∧
    s.gives .sei (fun t => { t with ccr := { s.ccr with i := true } }) ∧
    s.gives .nop (fun t => t)

/-! ### Control transfer (43_control.md) -/

/-- R270 to R288, R103: a branch goes to the PC plus the signed offset, modulo 2^16, if the Boolean column holds of
the CCR, and to the next instruction if not. -/
def Obligations.BranchesFollowTheBooleanColumn : Prop :=
  ∀ (s : State) (rr : Byte), s.populated → ∀ row ∈ branchRows s.ccr,
    s.gives (row.1 rr) fun t =>
      { t with pc := if row.2 then BitVec.ofInt 16 (s.pc.toNat + rr.toInt) else s.pc }

/-- R270: after a compare or subtract of `m` from `r`, of bytes or of words, the branches read the CCR as the order of
the two numbers, signed and unsigned. -/
def Obligations.BranchesAfterACompareReadTheOrder : Prop :=
  (∀ (s : State) (r m rr : Byte) (cc : Ccr), s.populated → s.ccr = cc.afterSub8 r m false →
    ∀ row ∈ comparisonRows r m, s.gives (row.1 rr) fun t =>
      { t with pc := if row.2 then BitVec.ofInt 16 (s.pc.toNat + rr.toInt) else s.pc }) ∧
  ∀ (s : State) (r m : Word) (rr : Byte) (cc : Ccr), s.populated → s.ccr = cc.afterSub16 r m →
    ∀ row ∈ comparisonRows r m, s.gives (row.1 rr) fun t =>
      { t with pc := if row.2 then BitVec.ofInt 16 (s.pc.toNat + rr.toInt) else s.pc }

/-- R289, R290: BRCLR branches if every bit of the mask is clear in the byte, BRSET if every one is set; an empty mask
always branches. Where mask, offset and operand are device locations, the step reads the operand before it fetches
them (R380). -/
def Obligations.BitBranchesTestTheMask : Prop :=
  (∀ (s : State) (m : Mem) (mm rr : Byte), s.populated → ∃ x t, s.afterReads t ∧ s.fetched t (s.ea m) x ∧
    (let target := BitVec.ofInt 16 (s.pc.toNat + rr.toInt)
     exec (.brclr m mm rr) s = .next { t with
       pc := if ∀ k : Fin 8, mm.getLsbD k = true → x.getLsbD k = false then target else s.pc } ∧
     exec (.brset m mm rr) s = .next { t with
       pc := if ∀ k : Fin 8, mm.getLsbD k = true → x.getLsbD k = true then target else s.pc })) ∧
  ∀ (s : State) (m : Mem) (k : Nat), s.undisturbed → s.platform.dummyReads = false → s.codePlain k →
    s.kindAt (s.pc + BitVec.ofNat 16 k) = .device → s.kindAt (s.pc + BitVec.ofNat 16 (k + 1)) = .device →
    s.kindAt (s.ea m) = .device →
    ∀ e ∈ ([(.brclr m, fun x mm => x &&& mm == 0), (.brset m, fun x mm => ~~~x &&& mm == 0)] :
        List ((Byte → Byte → Instr) × (Byte → Byte → Bool))),
      (e.1 0 0).wellFormed = true → s.codeBytes k = (encode (e.1 0 0)).take k → k + 2 = (e.1 0 0).length →
      ∃ x mm rr t, step s = .next t ∧
        t.deviceLog = .read (s.pc + BitVec.ofNat 16 (k + 1)) rr :: .read (s.pc + BitVec.ofNat 16 k) mm ::
          .read (s.ea m) x :: s.deviceLog ∧
        (let next := s.pc + BitVec.ofNat 16 (k + 2)
         t.pc = if e.2 x mm then BitVec.ofInt 16 (next.toNat + rr.toInt) else next)

/-- R291 to R294: JMP, JSR and BSR go to their target, the calls with the address of the next instruction pushed, low
byte first; RTS pulls it. -/
def Obligations.JumpsCallsAndReturns : Prop :=
  ∀ s : State, s.populated → s.mem.wf = true →
    (∀ m, s.gives (.jmp m) fun t => { t with pc := s.ea m }) ∧
    (∀ e : Instr × Word, ((∃ m, e = (.jsr m, s.ea m)) ∨
        ∃ rr : Byte, e = (.bsr rr, BitVec.ofInt 16 (s.pc.toNat + rr.toInt))) →
      ∃ t, exec e.1 s = .next t ∧ { s with sp := s.sp - 2, pc := e.2 }.afterStores [s.sp, s.sp - 1] t ∧
        s.stored t s.sp (loByte s.pc) ∧ s.stored t (s.sp - 1) (hiByte s.pc)) ∧
    ∃ h l t, s.afterReads t ∧ s.fetched t (s.sp + 1) h ∧ s.fetched t (s.sp + 2) l ∧
      exec .rts s = .next { t with sp := s.sp + 2, pc := joinBytes h l }

/-- R291, R293, R294: RTS after a call returns to the instruction after it, SP as before. -/
def Obligations.ReturnFollowsTheCall : Prop :=
  ∀ (s : State) (i : Instr), s.populated → s.mem.wf = true → s.kindAt s.sp = .ram → s.kindAt (s.sp - 1) = .ram →
    (∃ m, i = .jsr m) ∨ (∃ rr, i = .bsr rr) →
    ∃ t u, exec i s = .next t ∧ exec .rts t = .next u ∧ u.pc = s.pc ∧ u.sp = s.sp

/-! ### System (44_system.md) and exceptions (60_exceptions.md) -/

/-- R313, R336, R337: SWI stacks the nine bytes with the address of the next instruction, sets I and goes through the
SWI vector, whatever I and X are. -/
def Obligations.SwiEntersThroughItsVector : Prop :=
  ∀ s : State, s.populated → s.mem.wf = true →
    ∃ t, exec .swi s = .next t ∧ s.entered t s.pc s.platform.vecSwi false

/-- R312, R344: RTI restores the CCR, B, A, IX, IY and PC from the nine bytes above SP, X only downward. -/
def Obligations.RtiRestoresFromTheFrame : Prop :=
  ∀ s : State, s.populated → ∃ t c b a xh xl yh yl ph pl, s.afterReads t ∧
    (∀ e ∈ [(1, c), (2, b), (3, a), (4, xh), (5, xl), (6, yh), (7, yl), (8, ph), (9, pl)],
      s.fetched t (s.sp + BitVec.ofNat 16 e.1) e.2) ∧
    exec .rti s = .next { t with
      ccr := { s := c.getLsbD 7, x := s.ccr.x && c.getLsbD 6, h := c.getLsbD 5, i := c.getLsbD 4,
               n := c.getLsbD 3, z := c.getLsbD 2, v := c.getLsbD 1, c := c.getLsbD 0 }
      b := b, a := a, ix := joinBytes xh xl, iy := joinBytes yh yl, pc := joinBytes ph pl, sp := s.sp + 9 }

/-- R344: an RTI right after an entry, from an event or from SWI, gives back every register, I and the flags as they
were; X as it was, since an entry can only set it. -/
def Obligations.RtiUndoesAnEntry : Prop :=
  ∀ (s t : State) (ret vec : Word) (setsX : Bool), t.populated → s.mem.wf = true →
    (∀ a ∈ s.frameAddresses, s.kindAt a = .ram) → s.entered t ret vec setsX →
    ∃ u, exec .rti t = .next u ∧ u.a = s.a ∧ u.b = s.b ∧ u.ix = s.ix ∧ u.iy = s.iy ∧ u.sp = s.sp ∧
      u.ccr = s.ccr ∧ u.pc = ret

/-- R314: WAI stacks the frame with the CCR as it is, changes no flag, and waits at the next instruction. -/
def Obligations.WaiStacksAndWaits : Prop :=
  ∀ s : State, s.populated → s.mem.wf = true →
    ∃ t, exec .wai s = .next t ∧ s.frameStored t s.pc ∧
      { s with sp := s.sp - 9, runState := .waiting }.afterStores s.frameAddresses t

/-- R315: STOP with S set is a NOP, with S clear it stops the MPU; on a part with the STOP erratum the byte after STOP
is skipped if the instruction before came from opcode column 4 or 5 (R374, the spec's reading D13). -/
def Obligations.StopHaltsUnlessDisabled : Prop :=
  ∀ s : State, s.populated →
    (s.ccr.s = true → s.gives .stop fun t => t) ∧
    (s.ccr.s = false → (s.platform.stopErratum = false ∨ s.prevColumn45 = false) →
      s.gives .stop fun t => { t with runState := .stopped }) ∧
    (s.ccr.s = false → s.platform.stopErratum = true → s.prevColumn45 = true →
      s.gives .stop fun t => { t with runState := .stopped, pc := s.pc + 1 })

/-- R316, R98: TEST in test mode starts the test loop, the PC being any value; there interrupts are not recognised and
no register but the PC changes. Outside test mode it is an illegal opcode at the byte before the PC, which stops or
traps by ILLOP_POLICY (R97, R340, decisions D6, D12: log 14, log 15); that the trap's entry clears the latches is the
model's choice (log 16, log 17). -/
def Obligations.TestLoopsOrIsIllegal : Prop :=
  ∀ s : State, s.populated →
    (s.platform.testMode = true → ∃ pc, s.gives .test fun t => { t with runState := .testLoop, pc := pc }) ∧
    (s.runState = .testLoop → s.script = [] → s.lines.reset = false →
      ∃ pc, step s = .next { s with pc := pc, draws := s.draws + 1 }) ∧
    (s.platform.testMode = false → s.platform.illopPolicy = .fault →
      exec .test s = .fault (.illegalOpcode (s.pc - 1))) ∧
    (s.platform.testMode = false → s.platform.illopPolicy = .trap → s.mem.wf = true →
      ∃ t, exec .test s = .next t ∧ s.entered t (s.pc - 1) s.platform.vecIllop false)

/-- R334, R335: the maskable source taken is the highest by IRQ_PRIORITY of those that request, and none while I is
set; the order is the spec's own decision D9 (log 19). -/
def Obligations.MaskableSourceIsTheHighest : Prop :=
  ∀ (s : State) (src : Source), s.maskableRequest = some src ↔
    s.ccr.i = false ∧ s.lines.requests src = true ∧ ∃ above below, s.platform.priority = above ++ src :: below ∧
      ∀ other ∈ above, s.lines.requests other = false

/-- R334, R338, R339: in a running MPU an XIRQ that X does not mask is taken first, then a maskable source unless the
I-delay latch holds it off; the entry stacks the PC, sets I, and X for XIRQ, and goes through the source's vector
(decisions D9, D21: log 19, log 21); that it clears the latches is the model's choice (log 16, log 17). -/
def Obligations.InterruptsEnterThroughTheirVectors : Prop :=
  ∀ s : State, s.populated → s.mem.wf = true → s.runState = .running → s.script = [] → s.lines.reset = false →
    (s.lines.xirq = true → s.ccr.x = false →
      ∃ t, step s = .next t ∧ s.entered t s.pc s.platform.vecXirq true) ∧
    ∀ src, (s.lines.xirq = false ∨ s.ccr.x = true) → s.idelay = false → s.maskableRequest = some src →
      ∃ t, step s = .next t ∧ s.entered t s.pc ((Event.maskable src).vector s.platform) false

/-- R314: a waiting MPU leaves the wait for an unmasked XIRQ or maskable source without stacking again, sets I, and X
for XIRQ, and goes through the vector; else nothing but value-less reads happens (decisions D4, D19: log 20, log
26); that the latches are clear after the wait is the model's choice (log 16, log 17). -/
def Obligations.WaitingEndsWithoutStacking : Prop :=
  ∀ s : State, s.populated → s.runState = .waiting → s.script = [] → s.lines.reset = false →
    (s.lines.xirq = true → s.ccr.x = false → ∃ t, s.afterReads t ∧ ∃ handler,
      step s = .next { t with ccr := { s.ccr with i := true, x := true }, pc := handler, runState := .running,
                              idelay := false, prevColumn45 := false } ∧
      s.fetched t s.platform.vecXirq (hiByte handler) ∧ s.fetched t (s.platform.vecXirq + 1) (loByte handler)) ∧
    (∀ src, (s.lines.xirq = false ∨ s.ccr.x = true) → s.maskableRequest = some src → ∃ t, s.afterReads t ∧ ∃ handler,
      step s = .next { t with ccr := { s.ccr with i := true }, pc := handler, runState := .running,
                              idelay := false, prevColumn45 := false } ∧
      s.fetched t ((Event.maskable src).vector s.platform) (hiByte handler) ∧
      s.fetched t ((Event.maskable src).vector s.platform + 1) (loByte handler)) ∧
    ((s.lines.xirq = false ∨ s.ccr.x = true) → s.maskableRequest = none →
      ∃ t, s.afterReads t ∧ step s = .next t ∧ (s.platform.dummyReads = false → t = s))

/-- R315: a stopped MPU takes an unmasked XIRQ or IRQ with a full entry, goes on without an entry for a masked XIRQ,
and else stays as it is, other sources than the IRQ pin asserted or not (decision D19: log 20); that the entry
clears the latches is the model's choice (log 16, log 17). -/
def Obligations.StoppedWakesForXirqOrIrq : Prop :=
  ∀ s : State, s.populated → s.mem.wf = true → s.runState = .stopped → s.script = [] → s.lines.reset = false →
    (s.lines.xirq = true → s.ccr.x = false →
      ∃ t, step s = .next t ∧ s.entered t s.pc s.platform.vecXirq true) ∧
    (s.lines.xirq = true → s.ccr.x = true → step s = .next { s with runState := .running }) ∧
    (s.lines.xirq = false → s.lines.irq = true → s.ccr.i = false →
      ∃ t, step s = .next t ∧ s.entered t s.pc s.platform.vecIrq false) ∧
    (s.lines.xirq = false → (s.lines.irq = false ∨ s.ccr.i = true) → step s = .next s)

/-- R341, R370: reset, asserted in any run-state, stacks nothing and changes no byte of memory; S, X and I are set,
the latch is clear, the MPU runs at what VEC_RESET holds. That S and I are set is decision D7 (log 3). -/
def Obligations.ResetStartsAtItsVector : Prop :=
  ∀ s : State, s.populated → s.script = [] → s.lines.reset = true →
    ∃ t, step s = .next t ∧ t.ccr.s = true ∧ t.ccr.x = true ∧ t.ccr.i = true ∧ t.idelay = false ∧
      t.runState = .running ∧ t.mem = s.mem ∧
      s.fetched t s.platform.vecReset (hiByte t.pc) ∧ s.fetched t (s.platform.vecReset + 1) (loByte t.pc)

/-- R310, R375: after a CLI that clears I the next boundary recognises no maskable source, whatever requests; the
instruction after it executes, and the latch is then clear unless that is a CLI or TAP (TAP: log 17). -/
def Obligations.CliDelaysOneInstruction : Prop :=
  (∀ s : State, s.undisturbed → s.populated → s.ccr.i = true → s.plain s.pc → s.byteAt s.pc = 0x0E →
    ∃ t, step s = .next t ∧ t.ccr.i = false ∧ t.idelay = true ∧ t.pc = s.pc + 1 ∧ step t = executeNext t) ∧
  ∀ (s t : State) (f : Fetched), f.instr ≠ .cli → f.instr ≠ .tap → s.legal f.instr → runInstr f s = .next t →
    t.idelay = false

/-! ### The whole machine -/

/-- R38, R40: canonical memory, and an I-delay latch set only in a running MPU whose I bit is clear, are kept by every
step (the model's own form of memory and latch: log 5, log 17). -/
def Obligations.StepKeepsTheInvariant : Prop :=
  ∀ s t : State, s.Inv → step s = .next t → t.Inv

/-- The state after reset satisfies the invariant. -/
def Obligations.ResetSatisfiesTheInvariant : Prop := State.reset.Inv

/-- R30, R333: X becomes set only by a reset or by the recognition of an XIRQ, whatever instruction runs. -/
def Obligations.XMaskIsSetOnlyByResetOrXirq : Prop :=
  ∀ s t : State, s.ccr.x = false → step s = .next t → t.ccr.x = true →
    s.takeScript.lines.reset = true ∨ s.takeScript.lines.xirq = true

/-- R3, R41, R61: no step changes a parameter, nor a byte of ROM or of any address that is not RAM (log 8, log 10). -/
def Obligations.PlatformAndRomNeverChange : Prop :=
  ∀ s t : State, step s = .next t → t.platform = s.platform ∧
    ∀ a, s.kindAt a ≠ .ram → t.byteAt a = s.byteAt a

end Statements
end

