-- ==== Sys2Proof/Laws/Flags.lean ====
section
/-! SUPPORT. Bytes and words, and the condition code register as a byte. -/

namespace Sys2Proof

theorem getLsbD_joinBytes (h l : Byte) (i : Nat) :
    (joinBytes h l).getLsbD i = if i < 8 then l.getLsbD i else h.getLsbD (i - 8) :=
  BitVec.getLsbD_append

@[simp] theorem hiByte_joinBytes (h l : Byte) : hiByte (joinBytes h l) = h := by
  ext i hi
  have h8 : ¬ 8 + i < 8 := by omega
  simp only [hiByte, BitVec.getElem_extractLsb', getLsbD_joinBytes, h8, if_false, Nat.add_sub_cancel_left,
    BitVec.getLsbD_eq_getElem hi]

@[simp] theorem loByte_joinBytes (h l : Byte) : loByte (joinBytes h l) = l := by
  ext i hi
  simp only [loByte, BitVec.getElem_extractLsb', getLsbD_joinBytes, Nat.zero_add, hi, if_true,
    BitVec.getLsbD_eq_getElem hi]

@[simp] theorem joinBytes_hiByte_loByte (v : Word) : joinBytes (hiByte v) (loByte v) = v := by
  ext i hi
  simp only [joinBytes, hiByte, loByte, ← BitVec.getLsbD_eq_getElem, BitVec.getLsbD_append,
    BitVec.getLsbD_extractLsb']
  by_cases h : i < 8
  · simp [h]
  · have h1 : i - 8 < 8 := by omega
    have h2 : 8 + (i - 8) = i := by omega
    simp [h, h1, h2]

namespace Machine

@[simp] theorem Ccr.ofByte_toByte (cc : Ccr) : Ccr.ofByte cc.toByte = cc := by
  rcases cc with ⟨s, x, h, i, n, z, v, c⟩
  revert s x h i n z v c
  decide

@[simp] theorem Ccr.toByte_ofByte (v : Byte) : (Ccr.ofByte v).toByte = v := by
  revert v
  decide

/-- Loading the byte of another CCR: that CCR, but for X, which can only fall (R30). -/
theorem Ccr.load_toByte (cc other : Ccr) : cc.load other.toByte = { other with x := cc.x && other.x } := by
  have h := Ccr.ofByte_toByte other
  have hx : other.toByte.getLsbD 6 = other.x := congrArg Ccr.x h
  simp only [Ccr.load, h, hx]

end Machine

end Sys2Proof
end

