-- ==== Sys2Proof/Laws/Memory.lean ====
section
/-! SUPPORT. Memory as a list of cells: read after write, and that every write keeps the canonical form. -/

namespace Sys2Proof.Machine

theorem Memory.read_put_same (addr : Nat) (v : Byte) (rest : Memory)
    (h : Memory.read rest addr = Memory.unlisted) : Memory.read (Memory.put addr v rest) addr = v := by
  unfold Memory.put
  split
  · rename_i hv; rw [h, hv]
  · simp [Memory.read]

theorem Memory.read_put_other (addr other : Nat) (v : Byte) (rest : Memory) (h : addr ≠ other) :
    Memory.read (Memory.put addr v rest) other = Memory.read rest other := by
  unfold Memory.put
  split
  · rfl
  · simp [Memory.read, h]

/-- Below the first cell a canonical list has nothing listed. -/
theorem Memory.read_below {m : Memory} {low addr : Nat} (hm : Memory.wfFrom low m = true) (h : addr < low) :
    Memory.read m addr = Memory.unlisted := by
  induction m generalizing low with
  | nil => rfl
  | cons cell rest ih =>
    obtain ⟨k, v⟩ := cell
    simp only [Memory.wfFrom, Bool.and_eq_true, decide_eq_true_eq] at hm
    have hk : k ≠ addr := by omega
    simp only [Memory.read, hk, if_false]
    exact ih hm.2 (by omega)

/-- A canonical list is canonical from any lower start. -/
theorem Memory.wfFrom_mono {m : Memory} {low low' : Nat} (hm : Memory.wfFrom low m = true) (h : low' ≤ low) :
    Memory.wfFrom low' m = true := by
  cases m with
  | nil => rfl
  | cons cell rest =>
    obtain ⟨k, v⟩ := cell
    simp only [Memory.wfFrom, Bool.and_eq_true, decide_eq_true_eq] at hm ⊢
    exact ⟨⟨by omega, hm.1.2⟩, hm.2⟩

theorem Memory.wfFrom_put {addr low : Nat} {v : Byte} {rest : Memory} (hr : Memory.wfFrom (addr + 1) rest = true)
    (hl : low ≤ addr) (ha : addr < 65536) : Memory.wfFrom low (Memory.put addr v rest) = true := by
  unfold Memory.put
  split
  · exact Memory.wfFrom_mono hr (by omega)
  · rename_i hv
    simp only [Memory.wfFrom, Bool.and_eq_true, decide_eq_true_eq]
    exact ⟨⟨hl, ha, hv⟩, hr⟩

theorem Memory.wfFrom_write {m : Memory} {low addr : Nat} {v : Byte} (hm : Memory.wfFrom low m = true)
    (hl : low ≤ addr) (ha : addr < 65536) : Memory.wfFrom low (m.write addr v) = true := by
  induction m generalizing low with
  | nil => exact Memory.wfFrom_put rfl hl ha
  | cons cell rest ih =>
    obtain ⟨k, w⟩ := cell
    have hm' := hm
    simp only [Memory.wfFrom, Bool.and_eq_true, decide_eq_true_eq] at hm
    simp only [Memory.write]
    split
    · rename_i h
      refine Memory.wfFrom_put ?_ hl ha
      simp only [Memory.wfFrom, Bool.and_eq_true, decide_eq_true_eq]
      exact ⟨⟨by omega, hm.1.2⟩, hm.2⟩
    · split
      · rename_i h1 h2
        subst h2
        exact Memory.wfFrom_put hm.2 hl ha
      · rename_i h1 h2
        simp only [Memory.wfFrom, Bool.and_eq_true, decide_eq_true_eq]
        exact ⟨hm.1, ih hm.2 (by omega)⟩

/-- A write of a byte of the address space keeps the canonical form. -/
theorem Memory.wf_write {m : Memory} (hm : m.wf = true) (addr : Word) (v : Byte) :
    (m.write addr.toNat v).wf = true :=
  Memory.wfFrom_write hm (Nat.zero_le _) addr.isLt

/-- Loading bytes keeps the canonical form. -/
theorem Memory.wf_load {m : Memory} (hm : m.wf = true) (addr : Word) (bytes : List Byte) :
    (m.load addr bytes).wf = true := by
  induction bytes generalizing m addr with
  | nil => exact hm
  | cons v rest ih => exact ih (Memory.wf_write hm addr v) (addr + 1)

theorem Memory.read_write_same_from {m : Memory} {low addr : Nat} (hm : Memory.wfFrom low m = true) (v : Byte) :
    Memory.read (m.write addr v) addr = v := by
  induction m generalizing low with
  | nil => exact Memory.read_put_same addr v [] rfl
  | cons cell rest ih =>
    obtain ⟨k, w⟩ := cell
    have hm' := hm
    simp only [Memory.wfFrom, Bool.and_eq_true, decide_eq_true_eq] at hm
    simp only [Memory.write]
    split
    · rename_i h
      refine Memory.read_put_same addr v _ (Memory.read_below (low := k) ?_ h)
      simp only [Memory.wfFrom, Bool.and_eq_true, decide_eq_true_eq]
      exact ⟨⟨Nat.le_refl _, hm.1.2⟩, hm.2⟩
    · split
      · rename_i h1 h2
        subst h2
        exact Memory.read_put_same addr v _ (Memory.read_below hm.2 (Nat.lt_succ_self _))
      · rename_i h1 h2
        have hk : k ≠ addr := fun h => h2 h.symm
        simp only [Memory.read, hk, if_false]
        exact ih hm.2

/-- Read after write, the same address. -/
theorem Memory.read_write_same {m : Memory} (hm : m.wf = true) (addr : Nat) (v : Byte) :
    Memory.read (m.write addr v) addr = v :=
  Memory.read_write_same_from hm v

/-- Read after write, another address. -/
theorem Memory.read_write_other (m : Memory) {addr other : Nat} (v : Byte) (h : addr ≠ other) :
    Memory.read (m.write addr v) other = Memory.read m other := by
  induction m with
  | nil => exact Memory.read_put_other addr other v [] h
  | cons cell rest ih =>
    obtain ⟨k, w⟩ := cell
    simp only [Memory.write]
    split
    · exact Memory.read_put_other addr other v _ h
    · split
      · rename_i h1 h2
        rw [Memory.read_put_other addr other v _ h]
        have hk : k ≠ other := fun hk => h (h2.trans hk)
        simp [Memory.read, hk]
      · simp only [Memory.read]
        split
        · rfl
        · exact ih

theorem Memory.wf_reset : State.reset.mem.wf = true := rfl

end Sys2Proof.Machine
end

