-- ==== Sys2Proof/Laws/State.lean ====
section
/-! SUPPORT. What each named update of the state leaves and gives, field by field. -/

namespace Sys2Proof.Machine

variable (s : State)

/-! ### One more value drawn -/

@[simp] theorem State.drawn_a : (s.drawn).a = s.a := rfl
@[simp] theorem State.drawn_b : (s.drawn).b = s.b := rfl
@[simp] theorem State.drawn_ix : (s.drawn).ix = s.ix := rfl
@[simp] theorem State.drawn_iy : (s.drawn).iy = s.iy := rfl
@[simp] theorem State.drawn_sp : (s.drawn).sp = s.sp := rfl
@[simp] theorem State.drawn_pc : (s.drawn).pc = s.pc := rfl
@[simp] theorem State.drawn_ccr : (s.drawn).ccr = s.ccr := rfl
@[simp] theorem State.drawn_idelay : (s.drawn).idelay = s.idelay := rfl
@[simp] theorem State.drawn_runState : (s.drawn).runState = s.runState := rfl
@[simp] theorem State.drawn_prevColumn45 : (s.drawn).prevColumn45 = s.prevColumn45 := rfl
@[simp] theorem State.drawn_mem : (s.drawn).mem = s.mem := rfl
@[simp] theorem State.drawn_lines : (s.drawn).lines = s.lines := rfl
@[simp] theorem State.drawn_script : (s.drawn).script = s.script := rfl
@[simp] theorem State.drawn_platform : (s.drawn).platform = s.platform := rfl
@[simp] theorem State.drawn_draws : (s.drawn).draws = s.draws + 1 := rfl
@[simp] theorem State.drawn_deviceLog : (s.drawn).deviceLog = s.deviceLog := rfl

/-! ### Writing accumulator A -/

@[simp] theorem State.setAcc_a_a (v : Byte) : (s.setAcc .a v).a = v := rfl
@[simp] theorem State.setAcc_a_b (v : Byte) : (s.setAcc .a v).b = s.b := rfl
@[simp] theorem State.setAcc_a_ix (v : Byte) : (s.setAcc .a v).ix = s.ix := rfl
@[simp] theorem State.setAcc_a_iy (v : Byte) : (s.setAcc .a v).iy = s.iy := rfl
@[simp] theorem State.setAcc_a_sp (v : Byte) : (s.setAcc .a v).sp = s.sp := rfl
@[simp] theorem State.setAcc_a_pc (v : Byte) : (s.setAcc .a v).pc = s.pc := rfl
@[simp] theorem State.setAcc_a_ccr (v : Byte) : (s.setAcc .a v).ccr = s.ccr := rfl
@[simp] theorem State.setAcc_a_idelay (v : Byte) : (s.setAcc .a v).idelay = s.idelay := rfl
@[simp] theorem State.setAcc_a_runState (v : Byte) : (s.setAcc .a v).runState = s.runState := rfl
@[simp] theorem State.setAcc_a_prevColumn45 (v : Byte) : (s.setAcc .a v).prevColumn45 = s.prevColumn45 := rfl
@[simp] theorem State.setAcc_a_mem (v : Byte) : (s.setAcc .a v).mem = s.mem := rfl
@[simp] theorem State.setAcc_a_lines (v : Byte) : (s.setAcc .a v).lines = s.lines := rfl
@[simp] theorem State.setAcc_a_script (v : Byte) : (s.setAcc .a v).script = s.script := rfl
@[simp] theorem State.setAcc_a_platform (v : Byte) : (s.setAcc .a v).platform = s.platform := rfl
@[simp] theorem State.setAcc_a_draws (v : Byte) : (s.setAcc .a v).draws = s.draws := rfl
@[simp] theorem State.setAcc_a_deviceLog (v : Byte) : (s.setAcc .a v).deviceLog = s.deviceLog := rfl

/-! ### Writing accumulator B -/

@[simp] theorem State.setAcc_b_a (v : Byte) : (s.setAcc .b v).a = s.a := rfl
@[simp] theorem State.setAcc_b_b (v : Byte) : (s.setAcc .b v).b = v := rfl
@[simp] theorem State.setAcc_b_ix (v : Byte) : (s.setAcc .b v).ix = s.ix := rfl
@[simp] theorem State.setAcc_b_iy (v : Byte) : (s.setAcc .b v).iy = s.iy := rfl
@[simp] theorem State.setAcc_b_sp (v : Byte) : (s.setAcc .b v).sp = s.sp := rfl
@[simp] theorem State.setAcc_b_pc (v : Byte) : (s.setAcc .b v).pc = s.pc := rfl
@[simp] theorem State.setAcc_b_ccr (v : Byte) : (s.setAcc .b v).ccr = s.ccr := rfl
@[simp] theorem State.setAcc_b_idelay (v : Byte) : (s.setAcc .b v).idelay = s.idelay := rfl
@[simp] theorem State.setAcc_b_runState (v : Byte) : (s.setAcc .b v).runState = s.runState := rfl
@[simp] theorem State.setAcc_b_prevColumn45 (v : Byte) : (s.setAcc .b v).prevColumn45 = s.prevColumn45 := rfl
@[simp] theorem State.setAcc_b_mem (v : Byte) : (s.setAcc .b v).mem = s.mem := rfl
@[simp] theorem State.setAcc_b_lines (v : Byte) : (s.setAcc .b v).lines = s.lines := rfl
@[simp] theorem State.setAcc_b_script (v : Byte) : (s.setAcc .b v).script = s.script := rfl
@[simp] theorem State.setAcc_b_platform (v : Byte) : (s.setAcc .b v).platform = s.platform := rfl
@[simp] theorem State.setAcc_b_draws (v : Byte) : (s.setAcc .b v).draws = s.draws := rfl
@[simp] theorem State.setAcc_b_deviceLog (v : Byte) : (s.setAcc .b v).deviceLog = s.deviceLog := rfl

/-! ### Writing D -/

@[simp] theorem State.setD_a (v : Word) : (s.setD v).a = hiByte v := rfl
@[simp] theorem State.setD_b (v : Word) : (s.setD v).b = loByte v := rfl
@[simp] theorem State.setD_ix (v : Word) : (s.setD v).ix = s.ix := rfl
@[simp] theorem State.setD_iy (v : Word) : (s.setD v).iy = s.iy := rfl
@[simp] theorem State.setD_sp (v : Word) : (s.setD v).sp = s.sp := rfl
@[simp] theorem State.setD_pc (v : Word) : (s.setD v).pc = s.pc := rfl
@[simp] theorem State.setD_ccr (v : Word) : (s.setD v).ccr = s.ccr := rfl
@[simp] theorem State.setD_idelay (v : Word) : (s.setD v).idelay = s.idelay := rfl
@[simp] theorem State.setD_runState (v : Word) : (s.setD v).runState = s.runState := rfl
@[simp] theorem State.setD_prevColumn45 (v : Word) : (s.setD v).prevColumn45 = s.prevColumn45 := rfl
@[simp] theorem State.setD_mem (v : Word) : (s.setD v).mem = s.mem := rfl
@[simp] theorem State.setD_lines (v : Word) : (s.setD v).lines = s.lines := rfl
@[simp] theorem State.setD_script (v : Word) : (s.setD v).script = s.script := rfl
@[simp] theorem State.setD_platform (v : Word) : (s.setD v).platform = s.platform := rfl
@[simp] theorem State.setD_draws (v : Word) : (s.setD v).draws = s.draws := rfl
@[simp] theorem State.setD_deviceLog (v : Word) : (s.setD v).deviceLog = s.deviceLog := rfl

/-! ### Writing IX -/

@[simp] theorem State.setReg_x_a (v : Word) : (s.setReg .x v).a = s.a := rfl
@[simp] theorem State.setReg_x_b (v : Word) : (s.setReg .x v).b = s.b := rfl
@[simp] theorem State.setReg_x_ix (v : Word) : (s.setReg .x v).ix = v := rfl
@[simp] theorem State.setReg_x_iy (v : Word) : (s.setReg .x v).iy = s.iy := rfl
@[simp] theorem State.setReg_x_sp (v : Word) : (s.setReg .x v).sp = s.sp := rfl
@[simp] theorem State.setReg_x_pc (v : Word) : (s.setReg .x v).pc = s.pc := rfl
@[simp] theorem State.setReg_x_ccr (v : Word) : (s.setReg .x v).ccr = s.ccr := rfl
@[simp] theorem State.setReg_x_idelay (v : Word) : (s.setReg .x v).idelay = s.idelay := rfl
@[simp] theorem State.setReg_x_runState (v : Word) : (s.setReg .x v).runState = s.runState := rfl
@[simp] theorem State.setReg_x_prevColumn45 (v : Word) : (s.setReg .x v).prevColumn45 = s.prevColumn45 := rfl
@[simp] theorem State.setReg_x_mem (v : Word) : (s.setReg .x v).mem = s.mem := rfl
@[simp] theorem State.setReg_x_lines (v : Word) : (s.setReg .x v).lines = s.lines := rfl
@[simp] theorem State.setReg_x_script (v : Word) : (s.setReg .x v).script = s.script := rfl
@[simp] theorem State.setReg_x_platform (v : Word) : (s.setReg .x v).platform = s.platform := rfl
@[simp] theorem State.setReg_x_draws (v : Word) : (s.setReg .x v).draws = s.draws := rfl
@[simp] theorem State.setReg_x_deviceLog (v : Word) : (s.setReg .x v).deviceLog = s.deviceLog := rfl

/-! ### Writing IY -/

@[simp] theorem State.setReg_y_a (v : Word) : (s.setReg .y v).a = s.a := rfl
@[simp] theorem State.setReg_y_b (v : Word) : (s.setReg .y v).b = s.b := rfl
@[simp] theorem State.setReg_y_ix (v : Word) : (s.setReg .y v).ix = s.ix := rfl
@[simp] theorem State.setReg_y_iy (v : Word) : (s.setReg .y v).iy = v := rfl
@[simp] theorem State.setReg_y_sp (v : Word) : (s.setReg .y v).sp = s.sp := rfl
@[simp] theorem State.setReg_y_pc (v : Word) : (s.setReg .y v).pc = s.pc := rfl
@[simp] theorem State.setReg_y_ccr (v : Word) : (s.setReg .y v).ccr = s.ccr := rfl
@[simp] theorem State.setReg_y_idelay (v : Word) : (s.setReg .y v).idelay = s.idelay := rfl
@[simp] theorem State.setReg_y_runState (v : Word) : (s.setReg .y v).runState = s.runState := rfl
@[simp] theorem State.setReg_y_prevColumn45 (v : Word) : (s.setReg .y v).prevColumn45 = s.prevColumn45 := rfl
@[simp] theorem State.setReg_y_mem (v : Word) : (s.setReg .y v).mem = s.mem := rfl
@[simp] theorem State.setReg_y_lines (v : Word) : (s.setReg .y v).lines = s.lines := rfl
@[simp] theorem State.setReg_y_script (v : Word) : (s.setReg .y v).script = s.script := rfl
@[simp] theorem State.setReg_y_platform (v : Word) : (s.setReg .y v).platform = s.platform := rfl
@[simp] theorem State.setReg_y_draws (v : Word) : (s.setReg .y v).draws = s.draws := rfl
@[simp] theorem State.setReg_y_deviceLog (v : Word) : (s.setReg .y v).deviceLog = s.deviceLog := rfl

/-! ### Writing SP -/

@[simp] theorem State.setReg_s_a (v : Word) : (s.setReg .s v).a = s.a := rfl
@[simp] theorem State.setReg_s_b (v : Word) : (s.setReg .s v).b = s.b := rfl
@[simp] theorem State.setReg_s_ix (v : Word) : (s.setReg .s v).ix = s.ix := rfl
@[simp] theorem State.setReg_s_iy (v : Word) : (s.setReg .s v).iy = s.iy := rfl
@[simp] theorem State.setReg_s_sp (v : Word) : (s.setReg .s v).sp = v := rfl
@[simp] theorem State.setReg_s_pc (v : Word) : (s.setReg .s v).pc = s.pc := rfl
@[simp] theorem State.setReg_s_ccr (v : Word) : (s.setReg .s v).ccr = s.ccr := rfl
@[simp] theorem State.setReg_s_idelay (v : Word) : (s.setReg .s v).idelay = s.idelay := rfl
@[simp] theorem State.setReg_s_runState (v : Word) : (s.setReg .s v).runState = s.runState := rfl
@[simp] theorem State.setReg_s_prevColumn45 (v : Word) : (s.setReg .s v).prevColumn45 = s.prevColumn45 := rfl
@[simp] theorem State.setReg_s_mem (v : Word) : (s.setReg .s v).mem = s.mem := rfl
@[simp] theorem State.setReg_s_lines (v : Word) : (s.setReg .s v).lines = s.lines := rfl
@[simp] theorem State.setReg_s_script (v : Word) : (s.setReg .s v).script = s.script := rfl
@[simp] theorem State.setReg_s_platform (v : Word) : (s.setReg .s v).platform = s.platform := rfl
@[simp] theorem State.setReg_s_draws (v : Word) : (s.setReg .s v).draws = s.draws := rfl
@[simp] theorem State.setReg_s_deviceLog (v : Word) : (s.setReg .s v).deviceLog = s.deviceLog := rfl

@[simp] theorem State.setReg_d (v : Word) : s.setReg .d v = s.setD v := rfl

/-! ### The I-delay latch -/

@[simp] theorem State.armIdelay_a (before : Ccr) : (s.armIdelay before).a = s.a := rfl
@[simp] theorem State.armIdelay_b (before : Ccr) : (s.armIdelay before).b = s.b := rfl
@[simp] theorem State.armIdelay_ix (before : Ccr) : (s.armIdelay before).ix = s.ix := rfl
@[simp] theorem State.armIdelay_iy (before : Ccr) : (s.armIdelay before).iy = s.iy := rfl
@[simp] theorem State.armIdelay_sp (before : Ccr) : (s.armIdelay before).sp = s.sp := rfl
@[simp] theorem State.armIdelay_pc (before : Ccr) : (s.armIdelay before).pc = s.pc := rfl
@[simp] theorem State.armIdelay_ccr (before : Ccr) : (s.armIdelay before).ccr = s.ccr := rfl
@[simp] theorem State.armIdelay_idelay (before : Ccr) : (s.armIdelay before).idelay = (s.idelay || (before.i && !s.ccr.i)) := rfl
@[simp] theorem State.armIdelay_runState (before : Ccr) : (s.armIdelay before).runState = s.runState := rfl
@[simp] theorem State.armIdelay_prevColumn45 (before : Ccr) : (s.armIdelay before).prevColumn45 = s.prevColumn45 := rfl
@[simp] theorem State.armIdelay_mem (before : Ccr) : (s.armIdelay before).mem = s.mem := rfl
@[simp] theorem State.armIdelay_lines (before : Ccr) : (s.armIdelay before).lines = s.lines := rfl
@[simp] theorem State.armIdelay_script (before : Ccr) : (s.armIdelay before).script = s.script := rfl
@[simp] theorem State.armIdelay_platform (before : Ccr) : (s.armIdelay before).platform = s.platform := rfl
@[simp] theorem State.armIdelay_draws (before : Ccr) : (s.armIdelay before).draws = s.draws := rfl
@[simp] theorem State.armIdelay_deviceLog (before : Ccr) : (s.armIdelay before).deviceLog = s.deviceLog := rfl

/-! ### The end of a step that executed an instruction -/

@[simp] theorem State.executed_a (i : Instr) : (s.executed i).a = s.a := rfl
@[simp] theorem State.executed_b (i : Instr) : (s.executed i).b = s.b := rfl
@[simp] theorem State.executed_ix (i : Instr) : (s.executed i).ix = s.ix := rfl
@[simp] theorem State.executed_iy (i : Instr) : (s.executed i).iy = s.iy := rfl
@[simp] theorem State.executed_sp (i : Instr) : (s.executed i).sp = s.sp := rfl
@[simp] theorem State.executed_pc (i : Instr) : (s.executed i).pc = s.pc := rfl
@[simp] theorem State.executed_ccr (i : Instr) : (s.executed i).ccr = s.ccr := rfl
@[simp] theorem State.executed_idelay (i : Instr) : (s.executed i).idelay = s.idelay := rfl
@[simp] theorem State.executed_runState (i : Instr) : (s.executed i).runState = s.runState := rfl
@[simp] theorem State.executed_prevColumn45 (i : Instr) : (s.executed i).prevColumn45 = i.column45 := rfl
@[simp] theorem State.executed_mem (i : Instr) : (s.executed i).mem = s.mem := rfl
@[simp] theorem State.executed_lines (i : Instr) : (s.executed i).lines = s.lines := rfl
@[simp] theorem State.executed_script (i : Instr) : (s.executed i).script = s.script := rfl
@[simp] theorem State.executed_platform (i : Instr) : (s.executed i).platform = s.platform := rfl
@[simp] theorem State.executed_draws (i : Instr) : (s.executed i).draws = s.draws := rfl
@[simp] theorem State.executed_deviceLog (i : Instr) : (s.executed i).deviceLog = s.deviceLog := rfl

/-! ### The TEST loop -/

@[simp] theorem State.loopTest_a : (s.loopTest).a = s.a := rfl
@[simp] theorem State.loopTest_b : (s.loopTest).b = s.b := rfl
@[simp] theorem State.loopTest_ix : (s.loopTest).ix = s.ix := rfl
@[simp] theorem State.loopTest_iy : (s.loopTest).iy = s.iy := rfl
@[simp] theorem State.loopTest_sp : (s.loopTest).sp = s.sp := rfl
@[simp] theorem State.loopTest_pc : (s.loopTest).pc = s.unspec16 := rfl
@[simp] theorem State.loopTest_ccr : (s.loopTest).ccr = s.ccr := rfl
@[simp] theorem State.loopTest_idelay : (s.loopTest).idelay = s.idelay := rfl
@[simp] theorem State.loopTest_runState : (s.loopTest).runState = .testLoop := rfl
@[simp] theorem State.loopTest_prevColumn45 : (s.loopTest).prevColumn45 = s.prevColumn45 := rfl
@[simp] theorem State.loopTest_mem : (s.loopTest).mem = s.mem := rfl
@[simp] theorem State.loopTest_lines : (s.loopTest).lines = s.lines := rfl
@[simp] theorem State.loopTest_script : (s.loopTest).script = s.script := rfl
@[simp] theorem State.loopTest_platform : (s.loopTest).platform = s.platform := rfl
@[simp] theorem State.loopTest_draws : (s.loopTest).draws = s.draws + 1 := rfl
@[simp] theorem State.loopTest_deviceLog : (s.loopTest).deviceLog = s.deviceLog := rfl

/-! ### Reset -/

@[simp] theorem State.resetRegisters_a : (s.resetRegisters).a = Config.unspec8 s.draws := rfl
@[simp] theorem State.resetRegisters_b : (s.resetRegisters).b = Config.unspec8 (s.draws + 1) := rfl
@[simp] theorem State.resetRegisters_ix : (s.resetRegisters).ix = Config.unspec16 (s.draws + 2) := rfl
@[simp] theorem State.resetRegisters_iy : (s.resetRegisters).iy = Config.unspec16 (s.draws + 3) := rfl
@[simp] theorem State.resetRegisters_sp : (s.resetRegisters).sp = Config.unspec16 (s.draws + 4) := rfl
@[simp] theorem State.resetRegisters_pc : (s.resetRegisters).pc = s.pc := rfl
@[simp] theorem State.resetRegisters_idelay : (s.resetRegisters).idelay = false := rfl
@[simp] theorem State.resetRegisters_runState : (s.resetRegisters).runState = .running := rfl
@[simp] theorem State.resetRegisters_prevColumn45 : (s.resetRegisters).prevColumn45 = false := rfl
@[simp] theorem State.resetRegisters_mem : (s.resetRegisters).mem = s.mem := rfl
@[simp] theorem State.resetRegisters_lines : (s.resetRegisters).lines = s.lines := rfl
@[simp] theorem State.resetRegisters_script : (s.resetRegisters).script = s.script := rfl
@[simp] theorem State.resetRegisters_platform : (s.resetRegisters).platform = s.platform := rfl
@[simp] theorem State.resetRegisters_draws : (s.resetRegisters).draws = s.draws + 10 := rfl
@[simp] theorem State.resetRegisters_deviceLog : (s.resetRegisters).deviceLog = s.deviceLog := rfl
@[simp] theorem State.resetRegisters_ccr_s : s.resetRegisters.ccr.s = true := rfl
@[simp] theorem State.resetRegisters_ccr_x : s.resetRegisters.ccr.x = true := rfl
@[simp] theorem State.resetRegisters_ccr_i : s.resetRegisters.ccr.i = true := rfl

/-! ### The environment's script -/

@[simp] theorem State.takeScript_a : s.takeScript.a = s.a := by
  unfold State.takeScript; split <;> rfl
@[simp] theorem State.takeScript_b : s.takeScript.b = s.b := by
  unfold State.takeScript; split <;> rfl
@[simp] theorem State.takeScript_ix : s.takeScript.ix = s.ix := by
  unfold State.takeScript; split <;> rfl
@[simp] theorem State.takeScript_iy : s.takeScript.iy = s.iy := by
  unfold State.takeScript; split <;> rfl
@[simp] theorem State.takeScript_sp : s.takeScript.sp = s.sp := by
  unfold State.takeScript; split <;> rfl
@[simp] theorem State.takeScript_pc : s.takeScript.pc = s.pc := by
  unfold State.takeScript; split <;> rfl
@[simp] theorem State.takeScript_ccr : s.takeScript.ccr = s.ccr := by
  unfold State.takeScript; split <;> rfl
@[simp] theorem State.takeScript_idelay : s.takeScript.idelay = s.idelay := by
  unfold State.takeScript; split <;> rfl
@[simp] theorem State.takeScript_runState : s.takeScript.runState = s.runState := by
  unfold State.takeScript; split <;> rfl
@[simp] theorem State.takeScript_prevColumn45 : s.takeScript.prevColumn45 = s.prevColumn45 := by
  unfold State.takeScript; split <;> rfl
@[simp] theorem State.takeScript_mem : s.takeScript.mem = s.mem := by
  unfold State.takeScript; split <;> rfl
@[simp] theorem State.takeScript_platform : s.takeScript.platform = s.platform := by
  unfold State.takeScript; split <;> rfl
@[simp] theorem State.takeScript_draws : s.takeScript.draws = s.draws := by
  unfold State.takeScript; split <;> rfl
@[simp] theorem State.takeScript_deviceLog : s.takeScript.deviceLog = s.deviceLog := by
  unfold State.takeScript; split <;> rfl

theorem State.takeScript_of_nil (h : s.script = []) : s.takeScript = s := by
  unfold State.takeScript; rw [h]

theorem State.takeScript_of_cons (now : Lines) (later : List Lines) (h : s.script = now :: later) :
    s.takeScript = { s with lines := now, script := later } := by
  unfold State.takeScript; rw [h]

/-! ### The condition codes -/

variable (cc : Ccr)

@[simp] theorem Ccr.nz_s {w : Nat} (r : BitVec w) : (cc.nz r).s = cc.s := rfl
@[simp] theorem Ccr.nz_x {w : Nat} (r : BitVec w) : (cc.nz r).x = cc.x := rfl
@[simp] theorem Ccr.nz_h {w : Nat} (r : BitVec w) : (cc.nz r).h = cc.h := rfl
@[simp] theorem Ccr.nz_i {w : Nat} (r : BitVec w) : (cc.nz r).i = cc.i := rfl
@[simp] theorem Ccr.nz_n {w : Nat} (r : BitVec w) : (cc.nz r).n = r.msb := rfl
@[simp] theorem Ccr.nz_z {w : Nat} (r : BitVec w) : (cc.nz r).z = (r == 0) := rfl
@[simp] theorem Ccr.nz_v {w : Nat} (r : BitVec w) : (cc.nz r).v = cc.v := rfl
@[simp] theorem Ccr.nz_c {w : Nat} (r : BitVec w) : (cc.nz r).c = cc.c := rfl

@[simp] theorem Ccr.nzv0_s {w : Nat} (r : BitVec w) : (cc.nzv0 r).s = cc.s := rfl
@[simp] theorem Ccr.nzv0_x {w : Nat} (r : BitVec w) : (cc.nzv0 r).x = cc.x := rfl
@[simp] theorem Ccr.nzv0_h {w : Nat} (r : BitVec w) : (cc.nzv0 r).h = cc.h := rfl
@[simp] theorem Ccr.nzv0_i {w : Nat} (r : BitVec w) : (cc.nzv0 r).i = cc.i := rfl
@[simp] theorem Ccr.nzv0_n {w : Nat} (r : BitVec w) : (cc.nzv0 r).n = r.msb := rfl
@[simp] theorem Ccr.nzv0_z {w : Nat} (r : BitVec w) : (cc.nzv0 r).z = (r == 0) := rfl
@[simp] theorem Ccr.nzv0_v {w : Nat} (r : BitVec w) : (cc.nzv0 r).v = false := rfl
@[simp] theorem Ccr.nzv0_c {w : Nat} (r : BitVec w) : (cc.nzv0 r).c = cc.c := rfl

@[simp] theorem Ccr.zOnly_s (r : Word) : (cc.zOnly r).s = cc.s := rfl
@[simp] theorem Ccr.zOnly_x (r : Word) : (cc.zOnly r).x = cc.x := rfl
@[simp] theorem Ccr.zOnly_h (r : Word) : (cc.zOnly r).h = cc.h := rfl
@[simp] theorem Ccr.zOnly_i (r : Word) : (cc.zOnly r).i = cc.i := rfl
@[simp] theorem Ccr.zOnly_n (r : Word) : (cc.zOnly r).n = cc.n := rfl
@[simp] theorem Ccr.zOnly_z (r : Word) : (cc.zOnly r).z = (r == 0) := rfl
@[simp] theorem Ccr.zOnly_v (r : Word) : (cc.zOnly r).v = cc.v := rfl
@[simp] theorem Ccr.zOnly_c (r : Word) : (cc.zOnly r).c = cc.c := rfl

@[simp] theorem Ccr.load_s (v : Byte) : (cc.load v).s = v.getLsbD 7 := rfl
@[simp] theorem Ccr.load_x (v : Byte) : (cc.load v).x = (cc.x && v.getLsbD 6) := rfl
@[simp] theorem Ccr.load_h (v : Byte) : (cc.load v).h = v.getLsbD 5 := rfl
@[simp] theorem Ccr.load_i (v : Byte) : (cc.load v).i = v.getLsbD 4 := rfl
@[simp] theorem Ccr.load_n (v : Byte) : (cc.load v).n = v.getLsbD 3 := rfl
@[simp] theorem Ccr.load_z (v : Byte) : (cc.load v).z = v.getLsbD 2 := rfl
@[simp] theorem Ccr.load_v (v : Byte) : (cc.load v).v = v.getLsbD 1 := rfl
@[simp] theorem Ccr.load_c (v : Byte) : (cc.load v).c = v.getLsbD 0 := rfl

/-! ### What depends on the platform and memory alone -/

@[simp] theorem State.kindAt_drawn (addr : Word) : s.drawn.kindAt addr = s.kindAt addr := rfl

theorem State.kindAt_congr {s t : State} (h : t.platform = s.platform) (addr : Word) :
    t.kindAt addr = s.kindAt addr := by
  unfold State.kindAt; rw [h]

end Sys2Proof.Machine
end

