-- ==== Sys2Proof/Laws/Ops.lean ====
section
/-! SUPPORT. What every shared operation can do: `meets` says of a bus operation that it gives a value and a state
with a property, or stops at an address where MEM has nothing; one lemma per operation. -/

namespace Sys2Proof.Machine

/-! ### Sequences -/

theorem Res.bind_eq_ok {α β : Type} {r : Res α} {k : α → State → Res β} {b : β} {t : State} :
    r.bind k = .ok b t ↔ ∃ a u, r = .ok a u ∧ k a u = .ok b t := by
  cases r <;> simp [Res.bind]

theorem Res.bind_eq_stop {α β : Type} {r : Res α} {k : α → State → Res β} {f : Fault} :
    r.bind k = .stop f ↔ r = .stop f ∨ ∃ a u, r = .ok a u ∧ k a u = .stop f := by
  cases r <;> simp [Res.bind]

@[simp] theorem Res.bind_ok {α β : Type} (a : α) (s : State) (k : α → State → Res β) :
    (Res.ok a s).bind k = k a s := rfl

@[simp] theorem Res.complete_ok {α : Type} (a : α) (s : State) (k : α → State → State) :
    (Res.ok a s).complete k = .next (k a s) := rfl

theorem Res.complete_eq_next {α : Type} {r : Res α} {k : α → State → State} {t : State} :
    r.complete k = .next t ↔ ∃ a u, r = .ok a u ∧ t = k a u := by
  cases r <;> simp [Res.complete, eq_comm]

theorem Res.complete_eq_fault {α : Type} {r : Res α} {k : α → State → State} {f : Fault} :
    r.complete k = .fault f ↔ r = .stop f := by
  cases r <;> simp [Res.complete]

theorem Res.complete_ne_refused {α : Type} {r : Res α} {k : α → State → State} {x : Refusal} :
    r.complete k ≠ .refused x := by
  cases r <;> simp [Res.complete]

theorem Res.finish_eq_next {r : Res Unit} {t : State} : r.complete (fun _ s => s) = .next t ↔ r = .ok () t := by
  cases r <;> simp [Res.complete]

/-- The operation gives a value and a state with the property, or stops at an address where the platform has
nothing. -/
def Res.meets {α : Type} (r : Res α) (p : Platform) (good : α → State → Prop) : Prop :=
  (∀ a t, r = .ok a t → good a t) ∧ ∀ f, r = .stop f → f.ofPlatform p

/-- As `Res.meets`, for the outcome of an instruction or a step, which is then no refusal. -/
def Meets (r : Result) (p : Platform) (good : State → Prop) : Prop :=
  (∀ t, r = .next t → good t) ∧ (∀ f, r = .fault f → f.ofPlatform p) ∧ ∀ x, r ≠ .refused x

theorem Res.meets_ok {α : Type} {a : α} {t : State} {p : Platform} {good : α → State → Prop} (h : good a t) :
    (Res.ok a t).meets p good :=
  ⟨fun _ _ e => by cases e; exact h, fun _ e => by cases e⟩

theorem Res.meets_on {α : Type} {r : Res α} {p q : Platform} {good : α → State → Prop} (h : r.meets p good)
    (e : p = q) : r.meets q good := by
  subst e; exact h

theorem Meets.on {r : Result} {p q : Platform} {good : State → Prop} (h : Meets r p good) (e : p = q) :
    Meets r q good := by
  subst e; exact h

theorem Res.meets_bind {α β : Type} {r : Res α} {k : α → State → Res β} {p : Platform}
    {mid : α → State → Prop} {good : β → State → Prop} (hr : r.meets p mid)
    (hk : ∀ a t, mid a t → (k a t).meets p good) : (r.bind k).meets p good := by
  refine ⟨fun b t e => ?_, fun f e => ?_⟩
  · obtain ⟨a, u, h1, h2⟩ := Res.bind_eq_ok.mp e
    exact (hk a u (hr.1 a u h1)).1 b t h2
  · rcases Res.bind_eq_stop.mp e with h1 | ⟨a, u, h1, h2⟩
    · exact hr.2 f h1
    · exact (hk a u (hr.1 a u h1)).2 f h2

theorem Res.meets_mono {α : Type} {r : Res α} {p : Platform} {good good' : α → State → Prop}
    (hr : r.meets p good) (h : ∀ a t, good a t → good' a t) : r.meets p good' :=
  ⟨fun a t e => h a t (hr.1 a t e), hr.2⟩

theorem Res.meets_complete {α : Type} {r : Res α} {k : α → State → State} {p : Platform}
    {mid : α → State → Prop} {good : State → Prop} (hr : r.meets p mid) (hk : ∀ a t, mid a t → good (k a t)) :
    Meets (r.complete k) p good := by
  refine ⟨fun t e => ?_, fun f e => hr.2 f (Res.complete_eq_fault.mp e), fun x => Res.complete_ne_refused⟩
  obtain ⟨a, u, h1, rfl⟩ := Res.complete_eq_next.mp e
  exact hk a u (hr.1 a u h1)

theorem Res.andThen_eq_next {α : Type} {r : Res α} {k : α → State → Result} {t : State} :
    r.andThen k = .next t ↔ ∃ a u, r = .ok a u ∧ k a u = .next t := by
  cases r <;> simp [Res.andThen]

@[simp] theorem Res.andThen_ok {α : Type} (a : α) (s : State) (k : α → State → Result) :
    (Res.ok a s).andThen k = k a s := rfl

theorem Res.meets_andThen {α : Type} {r : Res α} {k : α → State → Result} {p : Platform}
    {mid : α → State → Prop} {good : State → Prop} (hr : r.meets p mid) (hk : ∀ a t, mid a t → Meets (k a t) p good) :
    Meets (r.andThen k) p good := by
  cases r with
  | ok a t => exact hk a t (hr.1 a t rfl)
  | stop f => exact ⟨fun _ e => (nomatch e), fun g e => by cases e; exact hr.2 f rfl, fun _ e => (nomatch e)⟩

theorem Meets.mono {r : Result} {p : Platform} {good good' : State → Prop} (hr : Meets r p good)
    (h : ∀ t, good t → good' t) : Meets r p good' :=
  ⟨fun t e => h t (hr.1 t e), hr.2⟩

/-- Where MEM has something everywhere, the operation gives its value. -/
theorem Res.meets_populated {α : Type} {r : Res α} {p : Platform} {good : α → State → Prop} (hr : r.meets p good)
    (hp : ∀ addr, kindIn p addr ≠ .nothing) : ∃ a t, r = .ok a t ∧ good a t := by
  cases r with
  | ok a t => exact ⟨a, t, rfl, hr.1 a t rfl⟩
  | stop f =>
    obtain ⟨addr, _, h⟩ := hr.2 f rfl
    exact absurd h (hp addr)

/-- Where MEM has something everywhere, the instruction or step answers a next state. -/
theorem Meets.populated {r : Result} {p : Platform} {good : State → Prop} (hr : Meets r p good)
    (hp : ∀ addr, kindIn p addr ≠ .nothing) : ∃ t, r = .next t ∧ good t := by
  cases r with
  | next t => exact ⟨t, rfl, hr.1 t rfl⟩
  | fault f =>
    obtain ⟨addr, _, h⟩ := hr.2.1 f rfl
    exact absurd h (hp addr)
  | refused x => exact absurd rfl (hr.2.2 x)

/-! ### States that differ in what bus accesses change -/

theorem State.afterReads.refl (s : State) : s.afterReads s := rfl

theorem State.afterReads.trans {s t u : State} (h : s.afterReads t) (h' : t.afterReads u) : s.afterReads u := by
  unfold State.afterReads at *
  rw [h', h]

theorem State.afterReads.drawn (s : State) (log : List DeviceAccess) :
    s.afterReads { s.drawn with deviceLog := log } := rfl

theorem State.afterReads.platform {s t : State} (h : s.afterReads t) : t.platform = s.platform := by
  rw [h]

theorem State.afterReads.mem {s t : State} (h : s.afterReads t) : t.mem = s.mem := by
  rw [h]

theorem State.afterReads.afterStores {s t : State} (h : s.afterReads t) (addrs : List Word) :
    s.afterStores addrs t := by
  have hm := h.mem
  refine ⟨?_, fun a _ => ?_, fun a _ => ?_, fun w => ?_⟩
  · unfold State.afterReads at h
    rw [hm]
    exact h
  · unfold State.byteAt; rw [hm]
  · unfold State.byteAt; rw [hm]
  · rw [hm]; exact w

theorem State.afterStores.refl (s : State) (addrs : List Word) : s.afterStores addrs s :=
  (State.afterReads.refl s).afterStores addrs

theorem State.afterStores.platform {s t : State} {addrs : List Word} (h : s.afterStores addrs t) :
    t.platform = s.platform := by
  rw [h.1]

theorem State.afterStores.weaken {s t : State} {addrs more : List Word} (h : s.afterStores addrs t)
    (hs : ∀ a, a ∈ addrs → a ∈ more) : s.afterStores more t :=
  ⟨h.1, fun a ha => h.2.1 a (fun hm => ha (hs a hm)), h.2.2⟩

theorem State.afterStores.trans {s t u : State} {addrs : List Word} (h : s.afterStores addrs t)
    (h' : t.afterStores addrs u) : s.afterStores addrs u := by
  refine ⟨?_, fun a ha => (h'.2.1 a ha).trans (h.2.1 a ha), fun a ha => ?_, fun w => h'.2.2.2 (h.2.2.2 w)⟩
  · rw [h'.1, h.1]
  · have hk : t.kindAt a ≠ .ram := by rw [State.kindAt_congr h.platform]; exact ha
    exact (h'.2.2.1 a hk).trans (h.2.2.1 a ha)

/-! ### Bus accesses -/

/-- What a read of a byte can do. -/
theorem readByte_meets (addr : Word) (s : State) :
    (readByte addr s).meets s.platform fun v t =>
      s.afterReads t ∧ (s.plain addr → v = s.byteAt addr ∧ t = s) := by
  unfold readByte State.plain
  split
  · exact Res.meets_ok ⟨rfl, fun _ => ⟨rfl, rfl⟩⟩
  · exact Res.meets_ok ⟨rfl, fun _ => ⟨rfl, rfl⟩⟩
  · rename_i h
    refine Res.meets_ok ⟨rfl, fun hp => ?_⟩
    rw [h] at hp
    rcases hp with hp | hp <;> cases hp
  · rename_i h
    refine ⟨fun _ _ e => ?_, fun f e => ?_⟩
    · cases e
    · cases e
      exact ⟨addr, rfl, h⟩

/-- A read of RAM or ROM. -/
theorem readByte_plain {addr : Word} {s : State} (h : s.plain addr) :
    readByte addr s = .ok (s.byteAt addr) s := by
  unfold readByte
  rcases h with h | h <;> rw [h] <;> rfl

/-- What a write of a byte can do. -/
theorem writeByte_meets (addr : Word) (v : Byte) (s : State) :
    (writeByte addr v s).meets s.platform fun _ t => s.afterStores [addr] t := by
  unfold writeByte
  split
  · rename_i h
    refine Res.meets_ok ⟨rfl, fun a ha => ?_, fun a ha => ?_, fun w => Memory.wf_write w addr v⟩
    · refine Memory.read_write_other s.mem v (fun e => ha ?_)
      simp [BitVec.eq_of_toNat_eq e]
    · refine Memory.read_write_other s.mem v (fun e => ha ?_)
      rw [← BitVec.eq_of_toNat_eq e]; exact h
  · exact Res.meets_ok (State.afterStores.refl s _)
  · exact Res.meets_ok ⟨rfl, fun _ _ => rfl, fun _ _ => rfl, fun w => w⟩
  · rename_i h
    refine ⟨fun _ _ e => ?_, fun f e => ?_⟩
    · cases e
    · cases e
      exact ⟨addr, rfl, h⟩

/-- A write to RAM. -/
theorem writeByte_ram {addr : Word} {s : State} (v : Byte) (h : s.kindAt addr = .ram) :
    writeByte addr v s = .ok () { s with mem := s.mem.write addr.toNat v } := by
  unfold writeByte; rw [h]

/-- What a read of two bytes can do. -/
theorem readWord_meets (addr : Word) (s : State) :
    (readWord addr s).meets s.platform fun v t =>
      s.afterReads t ∧ (s.plain addr → s.plain (addr + 1) → v = s.wordAt addr ∧ t = s) := by
  refine Res.meets_bind (readByte_meets addr s) fun h u hu => ?_
  have hb := Res.meets_on (readByte_meets (addr + 1) u) hu.1.platform
  refine Res.meets_bind hb fun l t ht => Res.meets_ok ⟨hu.1.trans ht.1, fun h0 h1 => ?_⟩
  obtain ⟨rfl, rfl⟩ := hu.2 h0
  obtain ⟨rfl, rfl⟩ := ht.2 h1
  exact ⟨rfl, rfl⟩

/-- What a write of two bytes can do. -/
theorem writeWord_meets (addr v : Word) (s : State) :
    (writeWord addr v s).meets s.platform fun _ t => s.afterStores [addr, addr + 1] t := by
  refine Res.meets_bind (writeByte_meets addr _ s) fun _ u hu => ?_
  have hb := Res.meets_on (writeByte_meets (addr + 1) (loByte v) u) hu.platform
  refine Res.meets_mono hb fun _ t ht => ?_
  exact (hu.weaken (by simp)).trans (ht.weaken (by simp))

/-- What a value-less read can do. -/
theorem valueless_meets (addr : Word) (s : State) :
    (valueless addr s).meets s.platform fun _ t => s.afterReads t ∧ (s.platform.dummyReads = false → t = s) := by
  unfold valueless
  split
  · rename_i h
    refine Res.meets_bind (readByte_meets addr s) fun _ t ht => Res.meets_ok ⟨ht.1, fun hd => ?_⟩
    rw [h] at hd; cases hd
  · exact Res.meets_ok ⟨rfl, fun _ => rfl⟩

theorem valueless_off {s : State} (h : s.platform.dummyReads = false) (addr : Word) : valueless addr s = .ok () s := by
  unfold valueless; rw [h]; rfl

/-- What internal cycles can do. -/
theorem idle_meets (n : Nat) (s : State) :
    (idle n s).meets s.platform fun _ t => s.afterReads t ∧ (s.platform.dummyReads = false → t = s) := by
  induction n generalizing s with
  | zero => exact Res.meets_ok ⟨rfl, fun _ => rfl⟩
  | succ n ih =>
    refine Res.meets_bind (valueless_meets idleAddress s) fun _ u hu => ?_
    have hb := Res.meets_on (ih u) hu.1.platform
    refine Res.meets_mono hb fun _ t ht => ⟨hu.1.trans ht.1, fun hd => ?_⟩
    rw [ht.2 (by rw [hu.1.platform]; exact hd), hu.2 hd]

theorem idle_off {s : State} (h : s.platform.dummyReads = false) (n : Nat) : idle n s = .ok () s := by
  induction n with
  | zero => rfl
  | succ n ih => simp only [idle, valueless_off h, Res.bind_ok, ih]

theorem lookAhead_meets (s : State) :
    (lookAhead s).meets s.platform fun _ t => s.afterReads t ∧ (s.platform.dummyReads = false → t = s) :=
  valueless_meets s.pc s

theorem lookAhead_off {s : State} (h : s.platform.dummyReads = false) : lookAhead s = .ok () s :=
  valueless_off h s.pc

/-- What the value-less reads after the instruction and at SP can do. -/
theorem stackCycle_meets (s : State) :
    (stackCycle s).meets s.platform fun _ t => s.afterReads t ∧ (s.platform.dummyReads = false → t = s) := by
  refine Res.meets_bind (lookAhead_meets s) fun _ u hu => ?_
  have hb := Res.meets_on (valueless_meets u.sp u) hu.1.platform
  refine Res.meets_mono hb fun _ t ht => ⟨hu.1.trans ht.1, fun hd => ?_⟩
  rw [ht.2 (by rw [hu.1.platform]; exact hd), hu.2 hd]

theorem stackCycle_off {s : State} (h : s.platform.dummyReads = false) : stackCycle s = .ok () s := by
  simp only [stackCycle, lookAhead_off h, Res.bind_ok, valueless_off h]

/-! ### The stack -/

/-- What a push of a byte can do: SP falls by one, the address SP had is stored to (R8). -/
theorem push8_meets (v : Byte) (s : State) :
    (push8 v s).meets s.platform fun _ t => { s with sp := s.sp - 1 }.afterStores [s.sp] t := by
  refine Res.meets_bind (writeByte_meets s.sp v s) fun _ u hu => Res.meets_ok ?_
  refine ⟨?_, fun a ha => hu.2.1 a ha, fun a ha => hu.2.2.1 a ha, hu.2.2.2⟩
  rw [hu.1]

/-- What a pull of a byte can do: SP rises by one (R8). -/
theorem pull8_meets (s : State) :
    (pull8 s).meets s.platform fun v t => { s with sp := s.sp + 1 }.afterReads t ∧
      (s.plain (s.sp + 1) → v = s.byteAt (s.sp + 1) ∧ t = { s with sp := s.sp + 1 }) :=
  readByte_meets (s.sp + 1) { s with sp := s.sp + 1 }

/-- Stores after a change of SP. -/
theorem State.afterStores.push {s t u : State} {addrs : List Word} {p q : Word}
    (h : { s with sp := p }.afterStores addrs t) (h' : { t with sp := q }.afterStores addrs u) :
    { s with sp := q }.afterStores addrs u := by
  refine ⟨?_, fun a ha => (h'.2.1 a ha).trans (h.2.1 a ha), fun a ha => ?_, fun w => h'.2.2.2 (h.2.2.2 w)⟩
  · rw [h'.1, h.1]
  · have hk : t.kindAt a ≠ .ram := by rw [State.kindAt_congr h.platform]; exact ha
    exact (h'.2.2.1 a hk).trans (h.2.2.1 a ha)

/-- Reads after a change of SP. -/
theorem State.afterReads.pull {s t u : State} {p q : Word} (h : { s with sp := p }.afterReads t)
    (h' : { t with sp := q }.afterReads u) : { s with sp := q }.afterReads u := by
  unfold State.afterReads at *
  rw [h', h]

/-- What a push of a word can do. -/
theorem push16_meets (v : Word) (s : State) :
    (push16 v s).meets s.platform fun _ t => { s with sp := s.sp - 2 }.afterStores [s.sp, s.sp - 1] t := by
  refine Res.meets_bind (push8_meets (loByte v) s) fun _ u hu => ?_
  have hp : u.platform = s.platform := hu.platform
  have hs : u.sp = s.sp - 1 := by rw [hu.1]
  have hb := Res.meets_on (push8_meets (hiByte v) u) hp
  refine Res.meets_mono hb fun _ t ht => ?_
  have h2 : u.sp - 1 = s.sp - 2 := by rw [hs, BitVec.sub_sub]; rfl
  rw [h2, hs] at ht
  exact (hu.weaken (by simp)).push (ht.weaken (by simp))

/-- What a pull of a word can do. -/
theorem pull16_meets (s : State) :
    (pull16 s).meets s.platform fun v t => { s with sp := s.sp + 2 }.afterReads t ∧
      (s.plain (s.sp + 1) → s.plain (s.sp + 2) → v = s.wordAt (s.sp + 1) ∧ t = { s with sp := s.sp + 2 }) := by
  have h2 : ∀ x : Word, x + 1 + 1 = x + 2 := fun x => by rw [BitVec.add_assoc]; rfl
  refine Res.meets_bind (pull8_meets s) fun h u hu => ?_
  have hp : u.platform = s.platform := hu.1.platform
  have hs : u.sp = s.sp + 1 := by rw [hu.1]
  have hb := Res.meets_on (pull8_meets u) hp
  refine Res.meets_bind hb fun l t ht => Res.meets_ok ⟨?_, fun h0 h1 => ?_⟩
  · have := hu.1.pull ht.1
    rwa [hs, h2] at this
  · obtain ⟨rfl, rfl⟩ := hu.2 h0
    simp only [h2] at ht
    obtain ⟨rfl, rfl⟩ := ht.2 h1
    refine ⟨?_, rfl⟩
    unfold State.wordAt
    rw [h2]
    rfl

/-- What stacking the frame can do: SP falls by nine, the nine addresses are stored to (R337). -/
theorem stackFrame_meets (ret : Word) (s : State) :
    (stackFrame ret s).meets s.platform fun _ t =>
      { s with sp := s.sp - 9 }.afterStores s.frameAddresses t := by
  have hs2 : ∀ (x : Word) (a b : Nat), x - BitVec.ofNat 16 a - BitVec.ofNat 16 b = x - BitVec.ofNat 16 (a + b) :=
    fun x a b => by rw [BitVec.sub_sub, ← BitVec.ofNat_add]
  have step16 : ∀ (v : Word) (u : State) (k : Nat), k ≤ 7 →
      { s with sp := s.sp - BitVec.ofNat 16 k }.afterStores s.frameAddresses u →
      (push16 v u).meets s.platform fun _ t =>
        { s with sp := s.sp - BitVec.ofNat 16 (k + 2) }.afterStores s.frameAddresses t := by
    intro v u k hk hu
    have hp : u.platform = s.platform := hu.platform
    have hs : u.sp = s.sp - BitVec.ofNat 16 k := by rw [hu.1]
    have hb := Res.meets_on (push16_meets v u) hp
    refine Res.meets_mono hb fun _ t ht => ?_
    rw [hs] at ht
    have e2 : s.sp - BitVec.ofNat 16 k - 2 = s.sp - BitVec.ofNat 16 (k + 2) := hs2 _ _ _
    have e1 : s.sp - BitVec.ofNat 16 k - 1 = s.sp - BitVec.ofNat 16 (k + 1) := hs2 _ _ _
    rw [e2, e1] at ht
    refine hu.push (ht.weaken fun a ha => ?_)
    simp only [List.mem_cons, List.not_mem_nil, or_false] at ha
    rcases ha with rfl | rfl <;> interval_cases k <;> simp [State.frameAddresses]
  have step8 : ∀ (v : Byte) (u : State) (k : Nat), k ≤ 8 →
      { s with sp := s.sp - BitVec.ofNat 16 k }.afterStores s.frameAddresses u →
      (push8 v u).meets s.platform fun _ t =>
        { s with sp := s.sp - BitVec.ofNat 16 (k + 1) }.afterStores s.frameAddresses t := by
    intro v u k hk hu
    have hp : u.platform = s.platform := hu.platform
    have hs : u.sp = s.sp - BitVec.ofNat 16 k := by rw [hu.1]
    have hb := Res.meets_on (push8_meets v u) hp
    refine Res.meets_mono hb fun _ t ht => ?_
    rw [hs] at ht
    have e1 : s.sp - BitVec.ofNat 16 k - 1 = s.sp - BitVec.ofNat 16 (k + 1) := hs2 _ _ _
    rw [e1] at ht
    refine hu.push (ht.weaken fun a ha => ?_)
    simp only [List.mem_cons, List.not_mem_nil, or_false] at ha
    subst ha
    interval_cases k <;> simp [State.frameAddresses]
  have h0 : { s with sp := s.sp - BitVec.ofNat 16 0 }.afterStores s.frameAddresses s := by
    have : s.sp - BitVec.ofNat 16 0 = s.sp := by simp
    rw [this]
    exact State.afterStores.refl s _
  refine Res.meets_bind (step16 ret s 0 (by omega) h0) fun _ u1 h1 => ?_
  refine Res.meets_bind (step16 u1.iy u1 2 (by omega) h1) fun _ u2 h2 => ?_
  refine Res.meets_bind (step16 u2.ix u2 4 (by omega) h2) fun _ u3 h3 => ?_
  refine Res.meets_bind (step8 u3.a u3 6 (by omega) h3) fun _ u4 h4 => ?_
  refine Res.meets_bind (step8 u4.b u4 7 (by omega) h4) fun _ u5 h5 => ?_
  exact step8 u5.ccr.toByte u5 8 (by omega) h5

/-! ### Exceptions -/

/-- What going through a vector can do (R336 to R340). -/
theorem fetchVector_meets (e : Event) (s : State) :
    (fetchVector e s).meets s.platform fun _ t => ∃ handler u, s.afterReads u ∧
      (s.plain (e.vector s.platform) → s.plain (e.vector s.platform + 1) →
        handler = s.wordAt (e.vector s.platform) ∧ u = s) ∧
      t = { u with ccr := { s.ccr with i := true, x := s.ccr.x || e.setsX }, pc := handler,
                   runState := .running, idelay := false, prevColumn45 := false } := by
  refine Res.meets_bind (readWord_meets _ s) fun handler u hu => Res.meets_ok ⟨handler, u, hu.1, hu.2, ?_⟩
  have hc : u.ccr = s.ccr := by rw [hu.1]
  rw [hc]

/-- What taking an exception can do: the frame below SP is stored to, SP falls by nine, I is set, and X for XIRQ, the
PC is a handler's address, the MPU runs, the latches are clear; nothing else changes. -/
theorem takeException_meets (e : Event) (s : State) :
    (takeException e s).meets s.platform fun _ t => ∃ handler u,
      { s with sp := s.sp - 9 }.afterStores s.frameAddresses u ∧
      t = { u with ccr := { s.ccr with i := true, x := s.ccr.x || e.setsX }, pc := handler,
                   runState := .running, idelay := false, prevColumn45 := false } := by
  refine Res.meets_bind (stackFrame_meets _ s) fun _ u hu => ?_
  have hp : u.platform = s.platform := hu.platform
  have hmid : (if e = .swi then rereadCcr u else .ok () u).meets s.platform fun _ v => u.afterReads v := by
    split
    · have hb := Res.meets_on (valueless_meets (u.sp + 1) u) hp
      exact Res.meets_mono hb fun _ _ h => h.1
    · exact Res.meets_ok rfl
  refine Res.meets_bind hmid fun _ v hv => ?_
  have hb := Res.meets_on (fetchVector_meets e v) (hv.platform.trans hp)
  refine Res.meets_mono hb fun _ t ht => ?_
  obtain ⟨handler, w, hw, _, rfl⟩ := ht
  have hall := hu.trans ((hv.trans hw).afterStores _)
  have hc : v.ccr = s.ccr := by rw [hv, hu.1]
  exact ⟨handler, w, hall, by rw [hc]⟩

/-- What a return from an exception can do: SP rises by nine, A, B, IX, IY, PC take any value, X can only fall (R312,
R344). -/
theorem returnFromException_meets (s : State) :
    (returnFromException s).meets s.platform fun _ t => ∃ c b a ix iy pc u,
      { s with sp := s.sp + 9 }.afterReads u ∧
      t = { u with ccr := s.ccr.load c, b := b, a := a, ix := ix, iy := iy, pc := pc } := by
  have hs2 : ∀ (x : Word) (a b : Nat), x + BitVec.ofNat 16 a + BitVec.ofNat 16 b = x + BitVec.ofNat 16 (a + b) :=
    fun x a b => by rw [BitVec.add_assoc, ← BitVec.ofNat_add]
  have step8 : ∀ (u : State) (k : Nat), { s with sp := s.sp + BitVec.ofNat 16 k }.afterReads u →
      (pull8 u).meets s.platform fun _ t => { s with sp := s.sp + BitVec.ofNat 16 (k + 1) }.afterReads t := by
    intro u k hu
    have hs : u.sp = s.sp + BitVec.ofNat 16 k := by rw [hu]
    have hb := Res.meets_on (pull8_meets u) hu.platform
    refine Res.meets_mono hb fun _ t ht => ?_
    have e1 : u.sp + 1 = s.sp + BitVec.ofNat 16 (k + 1) := by rw [hs]; exact hs2 _ _ _
    rw [e1] at ht
    exact hu.pull ht.1
  have step16 : ∀ (u : State) (k : Nat), { s with sp := s.sp + BitVec.ofNat 16 k }.afterReads u →
      (pull16 u).meets s.platform fun _ t => { s with sp := s.sp + BitVec.ofNat 16 (k + 2) }.afterReads t := by
    intro u k hu
    have hs : u.sp = s.sp + BitVec.ofNat 16 k := by rw [hu]
    have hb := Res.meets_on (pull16_meets u) hu.platform
    refine Res.meets_mono hb fun _ t ht => ?_
    have e1 : u.sp + 2 = s.sp + BitVec.ofNat 16 (k + 2) := by rw [hs]; exact hs2 _ _ _
    rw [e1] at ht
    exact hu.pull ht.1
  have h0 : { s with sp := s.sp + BitVec.ofNat 16 0 }.afterReads s := by
    have : s.sp + BitVec.ofNat 16 0 = s.sp := by simp
    rw [this]
    exact State.afterReads.refl s
  refine Res.meets_bind (step8 s 0 h0) fun c u1 h1 => ?_
  refine Res.meets_bind (step8 u1 1 h1) fun b u2 h2 => ?_
  refine Res.meets_bind (step8 u2 2 h2) fun a u3 h3 => ?_
  refine Res.meets_bind (step16 u3 3 h3) fun ix u4 h4 => ?_
  refine Res.meets_bind (step16 u4 5 h4) fun iy u5 h5 => ?_
  refine Res.meets_bind (step16 u5 7 h5) fun pc u6 h6 => Res.meets_ok ⟨c, b, a, ix, iy, pc, u6, h6, ?_⟩
  have hc : u6.ccr = s.ccr := by rw [h6]
  rw [hc]

/-- What the reset event can do (R370, R371). -/
theorem takeReset_meets (s : State) :
    (takeReset s).meets s.platform fun _ t => ∃ start u, s.resetRegisters.afterReads u ∧
      t = { u with pc := start } := by
  have hb := Res.meets_on (readWord_meets s.platform.vecReset s.resetRegisters) (State.resetRegisters_platform s)
  exact Res.meets_bind hb fun start u hu => Res.meets_ok ⟨start, u, hu.1, rfl⟩

end Sys2Proof.Machine
end

