-- ==== Sys2Proof/Laws/Operands.lean ====
section
/-! SUPPORT. What every shape of instruction can do, one lemma per shape. -/

namespace Sys2Proof.Machine

theorem Res.meets_self {α : Type} {r : Res α} {p : Platform} {good : α → State → Prop} (h : r.meets p good) :
    r.meets p fun a t => r = .ok a t ∧ good a t :=
  ⟨fun a t e => ⟨e, h.1 a t e⟩, h.2⟩

/-! ### Operands -/

/-- What the internal cycle of the indexed modes can do. -/
theorem indexCycle_meets (m : Mem) (s : State) :
    (indexCycle m s).meets s.platform fun _ t => s.afterReads t ∧ (s.platform.dummyReads = false → t = s) := by
  cases m with
  | dir dd => exact Res.meets_ok ⟨rfl, fun _ => rfl⟩
  | ext hhll => exact Res.meets_ok ⟨rfl, fun _ => rfl⟩
  | indX ff => exact idle_meets 1 s
  | indY ff => exact idle_meets 1 s

theorem indexCycle_off {s : State} (h : s.platform.dummyReads = false) (m : Mem) : indexCycle m s = .ok () s := by
  cases m <;> simp [indexCycle, idle_off h]

/-- What reading the byte at EA can do. -/
theorem readMem8_meets (m : Mem) (s : State) :
    (readMem8 m s).meets s.platform fun v t =>
      s.afterReads t ∧ (s.plain (s.ea m) → v = s.byteAt (s.ea m) ∧ (s.platform.dummyReads = false → t = s)) := by
  refine Res.meets_bind (indexCycle_meets m s) fun _ u hu => ?_
  have hb := Res.meets_on (readByte_meets (s.ea m) u) hu.1.platform
  refine Res.meets_mono hb fun v t ht => ⟨hu.1.trans ht.1, fun hp => ?_⟩
  have hp' : u.plain (s.ea m) := by
    unfold State.plain; rw [State.kindAt_congr hu.1.platform]; exact hp
  obtain ⟨rfl, rfl⟩ := ht.2 hp'
  exact ⟨by unfold State.byteAt; rw [hu.1.mem], fun hd => hu.2 hd⟩

theorem readMem8_plain {m : Mem} {s : State} (hd : s.platform.dummyReads = false) (hp : s.plain (s.ea m)) :
    readMem8 m s = .ok (s.byteAt (s.ea m)) s := by
  simp only [readMem8, indexCycle_off hd, Res.bind_ok, readByte_plain hp]

/-- What reading an 8-bit source operand can do. -/
theorem operand8_meets (o : Opr8) (s : State) :
    (operand8 o s).meets s.platform fun _ t => s.afterReads t := by
  cases o with
  | imm ii => exact Res.meets_ok rfl
  | mem m => exact Res.meets_mono (readMem8_meets m s) fun _ _ h => h.1

/-- What reading a 16-bit source operand can do. -/
theorem operand16_meets (o : Opr16) (s : State) :
    (operand16 o s).meets s.platform fun _ t => s.afterReads t := by
  cases o with
  | imm jjkk => exact Res.meets_ok rfl
  | mem m =>
    refine Res.meets_bind (indexCycle_meets m s) fun _ u hu => ?_
    have hb := Res.meets_on (readWord_meets (s.ea m) u) hu.1.platform
    exact Res.meets_mono hb fun _ _ ht => hu.1.trans ht.1

/-- What reading a 16-bit operand and the internal cycle after it can do. -/
theorem operateOperand16_meets (o : Opr16) (s : State) :
    (operateOperand16 o s).meets s.platform fun _ t => s.afterReads t := by
  refine Res.meets_bind (operand16_meets o s) fun m u hu => ?_
  refine Res.meets_bind (Res.meets_on (idle_meets 1 u) hu.platform) fun _ t ht => Res.meets_ok (hu.trans ht.1)

/-! ### Inherent instructions -/

theorem inherent_meets (f : State → State) (s : State) :
    Meets (inherent f s) s.platform fun t => ∃ u, s.afterReads u ∧ t = f u :=
  Res.meets_complete (lookAhead_meets s) fun _ u hu => ⟨u, hu.1, rfl⟩

theorem inherentIdle_meets (n : Nat) (f : State → State) (s : State) :
    Meets (inherentIdle n f s) s.platform fun t => ∃ u, s.afterReads u ∧ t = f u := by
  refine Res.meets_complete (mid := fun _ t => s.afterReads t) ?_ fun _ u hu => ⟨u, hu, rfl⟩
  refine Res.meets_bind (lookAhead_meets s) fun _ u hu => ?_
  exact Res.meets_mono (Res.meets_on (idle_meets n u) hu.1.platform) fun _ t ht => hu.1.trans ht.1

theorem inherentStack_meets (f : State → State) (s : State) :
    Meets (inherentStack f s) s.platform fun t => ∃ u, s.afterReads u ∧ t = f u :=
  Res.meets_complete (stackCycle_meets s) fun _ u hu => ⟨u, hu.1, rfl⟩

theorem inherent_off {s : State} (h : s.platform.dummyReads = false) (f : State → State) :
    inherent f s = .next (f s) := by
  simp only [inherent, lookAhead_off h, Res.complete_ok]

theorem inherentIdle_off {s : State} (h : s.platform.dummyReads = false) (n : Nat) (f : State → State) :
    inherentIdle n f s = .next (f s) := by
  simp only [inherentIdle, lookAhead_off h, Res.bind_ok, idle_off h, Res.complete_ok]

theorem inherentStack_off {s : State} (h : s.platform.dummyReads = false) (f : State → State) :
    inherentStack f s = .next (f s) := by
  simp only [inherentStack, stackCycle_off h, Res.complete_ok]

/-! ### A register and an operand -/

theorem accBinary_meets (f : Binary 8) (r : Acc) (o : Opr8) (s : State) :
    Meets (accBinary f r o s) s.platform fun t => ∃ m u, operand8 o s = .ok m u ∧ s.afterReads u ∧
      t = { u.setAcc r (f (u.acc r) m u.ccr).1 with ccr := (f (u.acc r) m u.ccr).2 } :=
  Res.meets_complete (Res.meets_self (operand8_meets o s)) fun m u hu => ⟨m, u, hu.1, hu.2, rfl⟩

theorem accTest_meets (f : Binary 8) (r : Acc) (o : Opr8) (s : State) :
    Meets (accTest f r o s) s.platform fun t => ∃ m u, operand8 o s = .ok m u ∧ s.afterReads u ∧
      t = { u with ccr := (f (u.acc r) m u.ccr).2 } :=
  Res.meets_complete (Res.meets_self (operand8_meets o s)) fun m u hu => ⟨m, u, hu.1, hu.2, rfl⟩

theorem regBinary_meets (f : Binary 16) (r : Reg16) (o : Opr16) (s : State) :
    Meets (regBinary f r o s) s.platform fun t => ∃ m u, operateOperand16 o s = .ok m u ∧ s.afterReads u ∧
      t = { u.setReg r (f (u.reg r) m u.ccr).1 with ccr := (f (u.reg r) m u.ccr).2 } :=
  Res.meets_complete (Res.meets_self (operateOperand16_meets o s)) fun m u hu => ⟨m, u, hu.1, hu.2, rfl⟩

theorem regTest_meets (f : Binary 16) (r : Reg16) (o : Opr16) (s : State) :
    Meets (regTest f r o s) s.platform fun t => ∃ m u, operateOperand16 o s = .ok m u ∧ s.afterReads u ∧
      t = { u with ccr := (f (u.reg r) m u.ccr).2 } :=
  Res.meets_complete (Res.meets_self (operateOperand16_meets o s)) fun m u hu => ⟨m, u, hu.1, hu.2, rfl⟩

theorem loadAcc_meets (r : Acc) (o : Opr8) (s : State) :
    Meets (loadAcc r o s) s.platform fun t => ∃ v u, operand8 o s = .ok v u ∧ s.afterReads u ∧
      t = { u.setAcc r v with ccr := u.ccr.nzv0 v } :=
  Res.meets_complete (Res.meets_self (operand8_meets o s)) fun m u hu => ⟨m, u, hu.1, hu.2, rfl⟩

theorem loadReg_meets (r : Reg16) (o : Opr16) (s : State) :
    Meets (loadReg r o s) s.platform fun t => ∃ v u, operand16 o s = .ok v u ∧ s.afterReads u ∧
      t = { u.setReg r v with ccr := u.ccr.nzv0 v } :=
  Res.meets_complete (Res.meets_self (operand16_meets o s)) fun m u hu => ⟨m, u, hu.1, hu.2, rfl⟩

/-! ### One operand -/

/-- What a read-modify-write can do once its byte is read. -/
theorem memModify_meets (f : Unary 8) (m : Mem) (x : Byte) (s : State) :
    Meets (memModify f m x s) s.platform fun t => ∃ v w, s.afterReads v ∧
      writeByte (s.ea m) (f x s.ccr).1 v = .ok () w ∧ s.afterStores [s.ea m] w ∧
      t = { w with ccr := (f x s.ccr).2 } := by
  refine Res.meets_complete (mid := fun _ w => ∃ v, s.afterReads v ∧
      writeByte (s.ea m) (f x s.ccr).1 v = .ok () w ∧ s.afterStores [s.ea m] w) ?_
    fun _ w ⟨v, h1, h2, h3⟩ => ⟨v, w, h1, h2, h3, rfl⟩
  refine Res.meets_bind (idle_meets 1 s) fun _ v hv => ?_
  exact Res.meets_mono (Res.meets_on (Res.meets_self (writeByte_meets (s.ea m) (f x s.ccr).1 v)) hv.1.platform)
    fun _ w hw => ⟨v, hv.1, hw.1, (hv.1.afterStores _).trans hw.2⟩

/-- What a read and what `memModify` makes of its byte can do: the shape of `memUnary`, `execBset` and `execBclr`. -/
theorem memUnary_meets (f : Unary 8) (m : Mem) (s : State) :
    Meets (memUnary f m s) s.platform fun t => ∃ x u v w, readMem8 m s = .ok x u ∧ s.afterReads v ∧
      writeByte (s.ea m) (f x s.ccr).1 v = .ok () w ∧ s.afterStores [s.ea m] w ∧
      t = { w with ccr := (f x s.ccr).2 } := by
  refine Res.meets_andThen (Res.meets_self (readMem8_meets m s)) fun x u hu => ?_
  have he : u.ea m = s.ea m := by rw [hu.2.1]; cases m <;> rfl
  have hc : u.ccr = s.ccr := by rw [hu.2.1]
  have hm := (memModify_meets f m x u).on hu.2.1.platform
  rw [he, hc] at hm
  exact hm.mono fun t ⟨v, w, h1, h2, h3, h4⟩ =>
    ⟨x, u, v, w, hu.1, hu.2.1.trans h1, h2, (hu.2.1.afterStores _).trans h3, h4⟩

theorem execBset_meets (m : Mem) (mm : Byte) (s : State) :
    Meets (execBset m mm s) s.platform fun t => ∃ x u v w, readMem8 m s = .ok x u ∧ s.afterReads v ∧
      writeByte (s.ea m) (bset8 mm x s.ccr).1 v = .ok () w ∧ s.afterStores [s.ea m] w ∧
      t = { w with ccr := (bset8 mm x s.ccr).2 } := memUnary_meets (bset8 mm) m s

theorem execBclr_meets (m : Mem) (mm : Byte) (s : State) :
    Meets (execBclr m mm s) s.platform fun t => ∃ x u v w, readMem8 m s = .ok x u ∧ s.afterReads v ∧
      writeByte (s.ea m) (bclr8 mm x s.ccr).1 v = .ok () w ∧ s.afterStores [s.ea m] w ∧
      t = { w with ccr := (bclr8 mm x s.ccr).2 } := memUnary_meets (bclr8 mm) m s

theorem memTest_meets (f : Unary 8) (m : Mem) (s : State) :
    Meets (memTest f m s) s.platform fun t => ∃ x u v, readMem8 m s = .ok x u ∧ s.afterReads v ∧
      t = { v with ccr := (f x s.ccr).2 } := by
  refine Res.meets_complete (mid := fun x v => ∃ u, readMem8 m s = .ok x u ∧ s.afterReads v) ?_ ?_
  · refine Res.meets_bind (Res.meets_self (readMem8_meets m s)) fun x u hu => ?_
    refine Res.meets_bind (Res.meets_on (idle_meets 2 u) hu.2.1.platform) fun _ v hv =>
      Res.meets_ok ⟨u, hu.1, hu.2.1.trans hv.1⟩
  · rintro x v ⟨u, h1, h2⟩
    have hc : v.ccr = s.ccr := by rw [h2]
    exact ⟨x, u, v, h1, h2, by rw [hc]⟩

theorem storeAcc_meets (r : Acc) (m : Mem) (s : State) :
    Meets (storeAcc r m s) s.platform fun t => ∃ u w, s.afterReads u ∧
      writeByte (s.ea m) (s.acc r) u = .ok () w ∧ s.afterStores [s.ea m] w ∧
      t = { w with ccr := s.ccr.nzv0 (s.acc r) } := by
  refine Res.meets_complete (mid := fun _ w => ∃ u, s.afterReads u ∧
      writeByte (s.ea m) (s.acc r) u = .ok () w ∧ s.afterStores [s.ea m] w) ?_ ?_
  · refine Res.meets_bind (indexCycle_meets m s) fun _ u hu => ?_
    have hb := Res.meets_on (Res.meets_self (writeByte_meets (s.ea m) (s.acc r) u)) hu.1.platform
    exact Res.meets_mono hb fun _ w hw => ⟨u, hu.1, hw.1, (hu.1.afterStores _).trans hw.2⟩
  · rintro _ w ⟨u, h1, h2, h3⟩
    have hc : w.ccr = s.ccr := by rw [h3.1]
    exact ⟨u, w, h1, h2, h3, by rw [hc]⟩

theorem storeReg_meets (r : Reg16) (m : Mem) (s : State) :
    Meets (storeReg r m s) s.platform fun t => ∃ u w, s.afterReads u ∧
      writeWord (s.ea m) (s.reg r) u = .ok () w ∧ s.afterStores [s.ea m, s.ea m + 1] w ∧
      t = { w with ccr := s.ccr.nzv0 (s.reg r) } := by
  refine Res.meets_complete (mid := fun _ w => ∃ u, s.afterReads u ∧
      writeWord (s.ea m) (s.reg r) u = .ok () w ∧ s.afterStores [s.ea m, s.ea m + 1] w) ?_ ?_
  · refine Res.meets_bind (indexCycle_meets m s) fun _ u hu => ?_
    have hb := Res.meets_on (Res.meets_self (writeWord_meets (s.ea m) (s.reg r) u)) hu.1.platform
    exact Res.meets_mono hb fun _ w hw => ⟨u, hu.1, hw.1, (hu.1.afterStores _).trans hw.2⟩
  · rintro _ w ⟨u, h1, h2, h3⟩
    have hc : w.ccr = s.ccr := by rw [h3.1]
    exact ⟨u, w, h1, h2, h3, by rw [hc]⟩

/-! ### Pushes and pulls -/

/-- A push that starts after value-less reads. -/
theorem State.afterReads.push {s u w : State} {addrs : List Word} {p : Word} (h : s.afterReads u)
    (h' : { u with sp := p }.afterStores addrs w) : { s with sp := p }.afterStores addrs w := by
  have h0 : { s with sp := s.sp }.afterStores addrs u := h.afterStores addrs
  exact h0.push h'

theorem pushAcc_meets (r : Acc) (s : State) :
    Meets (pushAcc r s) s.platform fun t => { s with sp := s.sp - 1 }.afterStores [s.sp] t := by
  refine Res.meets_complete (mid := fun _ t => { s with sp := s.sp - 1 }.afterStores [s.sp] t) ?_ fun _ _ h => h
  refine Res.meets_bind (lookAhead_meets s) fun _ u hu => ?_
  refine Res.meets_mono (Res.meets_on (push8_meets (s.acc r) u) hu.1.platform) fun _ t ht => ?_
  have hs : u.sp = s.sp := by rw [hu.1]
  rw [hs] at ht
  exact hu.1.push ht

theorem pushReg_meets (r : Reg16) (s : State) :
    Meets (pushReg r s) s.platform fun t => { s with sp := s.sp - 2 }.afterStores [s.sp, s.sp - 1] t := by
  refine Res.meets_complete (mid := fun _ t => { s with sp := s.sp - 2 }.afterStores [s.sp, s.sp - 1] t) ?_
    fun _ _ h => h
  refine Res.meets_bind (lookAhead_meets s) fun _ u hu => ?_
  refine Res.meets_mono (Res.meets_on (push16_meets (s.reg r) u) hu.1.platform) fun _ t ht => ?_
  have hs : u.sp = s.sp := by rw [hu.1]
  rw [hs] at ht
  exact hu.1.push ht

theorem pullAcc_meets (r : Acc) (s : State) :
    Meets (pullAcc r s) s.platform fun t => ∃ v u, { s with sp := s.sp + 1 }.afterReads u ∧ t = u.setAcc r v := by
  refine Res.meets_complete (mid := fun _ u => { s with sp := s.sp + 1 }.afterReads u) ?_
    fun v u hu => ⟨v, u, hu, rfl⟩
  refine Res.meets_bind (stackCycle_meets s) fun _ u hu => ?_
  refine Res.meets_mono (Res.meets_on (pull8_meets u) hu.1.platform) fun _ t ht => ?_
  have hs : u.sp = s.sp := by rw [hu.1]
  have h0 : { s with sp := s.sp }.afterReads u := hu.1
  have := h0.pull ht.1
  rwa [hs] at this

theorem pull16_afterReads {s u : State} (hu : s.afterReads u) :
    (pull16 u).meets s.platform fun _ t => { s with sp := s.sp + 2 }.afterReads t := by
  refine Res.meets_mono (Res.meets_on (pull16_meets u) hu.platform) fun _ t ht => ?_
  have hs : u.sp = s.sp := by rw [hu]
  have h0 : { s with sp := s.sp }.afterReads u := hu
  have := h0.pull ht.1
  rwa [hs] at this

theorem pullReg_meets (r : Reg16) (s : State) :
    Meets (pullReg r s) s.platform fun t => ∃ v u, { s with sp := s.sp + 2 }.afterReads u ∧ t = u.setReg r v := by
  refine Res.meets_complete (mid := fun _ u => { s with sp := s.sp + 2 }.afterReads u) ?_
    fun v u hu => ⟨v, u, hu, rfl⟩
  exact Res.meets_bind (stackCycle_meets s) fun _ u hu => pull16_afterReads hu.1

/-! ### Control transfer -/

theorem branchIf_meets (cond : Bool) (rr : Byte) (s : State) :
    Meets (branchIf cond rr s) s.platform fun t => ∃ u, s.afterReads u ∧
      t = { u with pc := if cond then s.target rr else s.pc } := by
  refine Res.meets_complete (idle_meets 1 s) fun _ u hu => ⟨u, hu.1, ?_⟩
  have hp : u.pc = s.pc := by rw [hu.1]
  have ht : u.target rr = s.target rr := by unfold State.target; rw [hp]
  cases cond
  · simp only [Bool.false_eq_true, if_false, ← hp]
  · simp only [if_true, ht]

/-- What a read and a branch on its byte can do: the shape of `execBrset` and `execBrclr`. -/
theorem readThenBranch_meets (cond : Byte → Bool) (m : Mem) (rr : Byte) (s : State) :
    Meets ((readMem8 m s).andThen fun x t => branchIf (cond x) rr t) s.platform fun t => ∃ x u v,
      readMem8 m s = .ok x u ∧ s.afterReads v ∧ t = { v with pc := if cond x then s.target rr else s.pc } := by
  refine Res.meets_andThen (Res.meets_self (readMem8_meets m s)) fun x u hu => ?_
  have hp : u.pc = s.pc := by rw [hu.2.1]
  have ht : u.target rr = s.target rr := by unfold State.target; rw [hp]
  have hm := (branchIf_meets (cond x) rr u).on hu.2.1.platform
  rw [ht, hp] at hm
  exact hm.mono fun t ⟨v, h1, h2⟩ => ⟨x, u, v, hu.1, hu.2.1.trans h1, h2⟩

theorem execBrset_meets (m : Mem) (mm rr : Byte) (s : State) :
    Meets (execBrset m mm rr s) s.platform fun t => ∃ x u v, readMem8 m s = .ok x u ∧ s.afterReads v ∧
      t = { v with pc := if ~~~x &&& mm == 0 then s.target rr else s.pc } :=
  readThenBranch_meets (fun x => ~~~x &&& mm == 0) m rr s

theorem execBrclr_meets (m : Mem) (mm rr : Byte) (s : State) :
    Meets (execBrclr m mm rr s) s.platform fun t => ∃ x u v, readMem8 m s = .ok x u ∧ s.afterReads v ∧
      t = { v with pc := if x &&& mm == 0 then s.target rr else s.pc } :=
  readThenBranch_meets (fun x => x &&& mm == 0) m rr s

/-- What a call can do: the return address is pushed, the PC is the target. -/
theorem callTo_meets (target : Word) (s : State) :
    (callTo target s).meets s.platform fun _ t => ∃ u,
      { s with sp := s.sp - 2 }.afterStores [s.sp, s.sp - 1] u ∧ t = { u with pc := target } := by
  refine Res.meets_bind (valueless_meets target s) fun _ u hu => ?_
  refine Res.meets_bind (Res.meets_on (push16_meets u.pc u) hu.1.platform) fun _ w hw => Res.meets_ok ⟨w, ?_, rfl⟩
  have hs : u.sp = s.sp := by rw [hu.1]
  rw [hs] at hw
  exact hu.1.push hw

/-- A call that starts after value-less reads. -/
theorem callTo_afterReads {s u : State} (hu : s.afterReads u) (target : Word) :
    (callTo target u).meets s.platform fun _ t => ∃ w,
      { s with sp := s.sp - 2 }.afterStores [s.sp, s.sp - 1] w ∧ t = { w with pc := target } := by
  refine Res.meets_mono (Res.meets_on (callTo_meets target u) hu.platform) fun _ t ht => ?_
  obtain ⟨w, hw, rfl⟩ := ht
  have hs : u.sp = s.sp := by rw [hu]
  rw [hs] at hw
  exact ⟨w, hu.push hw, rfl⟩

/-! ### The instructions with a sequence of their own -/

theorem execBsr_meets (rr : Byte) (s : State) :
    Meets (execBsr rr s) s.platform fun t => ∃ w,
      { s with sp := s.sp - 2 }.afterStores [s.sp, s.sp - 1] w ∧ t = { w with pc := s.target rr } := by
  refine Res.meets_complete (mid := fun _ t => ∃ w,
      { s with sp := s.sp - 2 }.afterStores [s.sp, s.sp - 1] w ∧ t = { w with pc := s.target rr }) ?_ fun _ _ h => h
  refine Res.meets_bind (idle_meets 1 s) fun _ u hu => ?_
  have ht : u.target rr = s.target rr := by
    have hp : u.pc = s.pc := by rw [hu.1]
    unfold State.target; rw [hp]
  rw [ht]
  exact callTo_afterReads hu.1 _

theorem execJmp_meets (m : Mem) (s : State) :
    Meets (execJmp m s) s.platform fun t => ∃ u, s.afterReads u ∧ t = { u with pc := s.ea m } :=
  Res.meets_complete (indexCycle_meets m s) fun _ u hu => ⟨u, hu.1, rfl⟩

theorem execJsr_meets (m : Mem) (s : State) :
    Meets (execJsr m s) s.platform fun t => ∃ w,
      { s with sp := s.sp - 2 }.afterStores [s.sp, s.sp - 1] w ∧ t = { w with pc := s.ea m } :=
  Res.meets_complete (Res.meets_bind (indexCycle_meets m s) fun _ _ hu => callTo_afterReads hu.1 _) fun _ _ h => h

theorem execRts_meets (s : State) :
    Meets (execRts s) s.platform fun t => ∃ v u, { s with sp := s.sp + 2 }.afterReads u ∧ t = { u with pc := v } :=
  Res.meets_complete (Res.meets_bind (stackCycle_meets s) fun _ _ hu => pull16_afterReads hu.1)
    fun v u hu => ⟨v, u, hu, rfl⟩

theorem execRti_meets (s : State) :
    Meets (execRti s) s.platform fun t => ∃ c b a ix iy pc u, { s with sp := s.sp + 9 }.afterReads u ∧
      t = { u with ccr := s.ccr.load c, b := b, a := a, ix := ix, iy := iy, pc := pc } := by
  refine Res.meets_complete (mid := fun _ t => ∃ c b a ix iy pc u, { s with sp := s.sp + 9 }.afterReads u ∧
      t = { u with ccr := s.ccr.load c, b := b, a := a, ix := ix, iy := iy, pc := pc }) ?_ fun _ _ h => h
  refine Res.meets_bind (stackCycle_meets s) fun _ u hu => ?_
  refine Res.meets_mono (Res.meets_on (returnFromException_meets u) hu.1.platform) fun _ t ht => ?_
  obtain ⟨c, b, a, ix, iy, pc, w, hw, rfl⟩ := ht
  have hs : u.sp = s.sp := by rw [hu.1]
  have hc : u.ccr = s.ccr := by rw [hu.1]
  have h0 : { s with sp := s.sp }.afterReads u := hu.1
  have := h0.pull hw
  rw [hs] at this
  exact ⟨c, b, a, ix, iy, pc, w, this, by rw [hc]⟩

/-- What SWI can do: the entry of R336. -/
theorem execSwi_meets (s : State) :
    Meets (execSwi s) s.platform fun t => ∃ handler w,
      { s with sp := s.sp - 9 }.afterStores s.frameAddresses w ∧
      t = { w with ccr := { s.ccr with i := true }, pc := handler, runState := .running, idelay := false,
                   prevColumn45 := false } := by
  refine Res.meets_complete (mid := fun _ t => ∃ handler w,
      { s with sp := s.sp - 9 }.afterStores s.frameAddresses w ∧
      t = { w with ccr := { s.ccr with i := true }, pc := handler, runState := .running, idelay := false,
                   prevColumn45 := false }) ?_ fun _ _ h => h
  refine Res.meets_bind (lookAhead_meets s) fun _ u hu => ?_
  refine Res.meets_mono (Res.meets_on (takeException_meets .swi u) hu.1.platform) fun _ t ht => ?_
  obtain ⟨handler, w, hw, rfl⟩ := ht
  have hs : u.sp = s.sp := by rw [hu.1]
  have hc : u.ccr = s.ccr := by rw [hu.1]
  have hf : u.frameAddresses = s.frameAddresses := by unfold State.frameAddresses; rw [hs]
  rw [hs, hf] at hw
  refine ⟨handler, w, hu.1.push hw, ?_⟩
  simp only [Event.setsX, Bool.or_false, hc]

theorem execWai_meets (s : State) :
    Meets (execWai s) s.platform fun t => ∃ w,
      { s with sp := s.sp - 9 }.afterStores s.frameAddresses w ∧ t = { w with runState := .waiting } := by
  refine Res.meets_complete (mid := fun _ w => { s with sp := s.sp - 9 }.afterStores s.frameAddresses w) ?_
    fun _ w hw => ⟨w, hw, rfl⟩
  refine Res.meets_bind (lookAhead_meets s) fun _ u hu => ?_
  refine Res.meets_bind (Res.meets_on (stackFrame_meets u.pc u) hu.1.platform) fun _ w hw => ?_
  have hs : u.sp = s.sp := by rw [hu.1]
  have hf : u.frameAddresses = s.frameAddresses := by unfold State.frameAddresses; rw [hs]
  have hp : w.platform = s.platform := hw.platform.trans hu.1.platform
  rw [hs, hf] at hw
  refine Res.meets_mono (Res.meets_on (valueless_meets (w.sp + 1) w) hp) fun _ t ht => ?_
  exact (hu.1.push hw).trans (ht.1.afterStores _)

/-- What TEST can do in test mode (R316). -/
theorem execTest_meets (s : State) (h : s.platform.testMode = true) :
    Meets (execTest s) s.platform fun t => ∃ u, s.afterReads u ∧ t = u.loopTest := by
  unfold execTest
  rw [h]
  refine Res.meets_complete (mid := fun _ u => s.afterReads u) ?_ fun _ u hu => ⟨u, hu, rfl⟩
  refine Res.meets_bind (lookAhead_meets s) fun _ u hu => ?_
  refine Res.meets_bind (Res.meets_on (valueless_meets (u.pc + 1) u) hu.1.platform) fun _ v hv => ?_
  have huv := hu.1.trans hv.1
  exact Res.meets_mono (Res.meets_on (valueless_meets (v.pc + 2) v) huv.platform) fun _ t ht => huv.trans ht.1

/-- TEST outside test mode is an illegal opcode, its address one before the PC (R98). -/
theorem execTest_illegal (s : State) (h : s.platform.testMode = false) :
    execTest s = illegalOpcode (s.pc - 1) s := by
  unfold execTest
  rw [h]
  rfl

end Sys2Proof.Machine
end

