-- ==== Sys2Proof/Laws/Boundary.lean ====
section
/-! SUPPORT. What a fetch and a step can do. -/

namespace Sys2Proof.Machine

/-- What fetching a byte can do (R9). -/
theorem fetch8_meets (s : State) :
    (fetch8 s).meets s.platform fun b t => ∃ u, s.afterReads u ∧ t = { u with pc := s.pc + 1 } ∧
      (s.plain s.pc → b = s.byteAt s.pc ∧ u = s) := by
  refine Res.meets_bind (readByte_meets s.pc s) fun b u hu => Res.meets_ok ⟨u, hu.1, ?_, hu.2⟩
  have hp : u.pc = s.pc := by rw [hu.1]
  rw [hp]

theorem fetch8_plain {s : State} (h : s.plain s.pc) : fetch8 s = .ok (s.byteAt s.pc) { s with pc := s.pc + 1 } := by
  simp [fetch8, readByte_plain h]

/-- What fetching an instruction can do: reads, and the PC moves past the bytes fetched (R9, R102). -/
theorem fetchMore_meets (n : Nat) (acc : List Byte) (operand : Option Byte) (s : State) :
    (fetchMore n acc operand s).meets s.platform fun _ t =>
      ∃ k u, s.afterReads u ∧ t = { u with pc := s.pc + k } := by
  induction n generalizing acc operand s with
  | zero => exact Res.meets_ok ⟨0, s, rfl, by simp⟩
  | succ n ih =>
    refine Res.meets_bind (fetch8_meets s) fun b t ht => ?_
    obtain ⟨u, hu, rfl, -⟩ := ht
    split
    · exact Res.meets_ok ⟨1, u, hu, rfl⟩
    · exact Res.meets_ok ⟨1, u, hu, rfl⟩
    · have hrest (op : Option Byte) (w : State) (hw : ({ u with pc := s.pc + 1 } : State).afterReads w) :
          (fetchMore n (acc ++ [b]) op w).meets s.platform fun _ t =>
            ∃ k v, s.afterReads v ∧ t = { v with pc := s.pc + k } := by
        refine Res.meets_mono (Res.meets_on (ih (acc ++ [b]) op w) (hw.platform.trans hu.platform)) fun _ t ht => ?_
        obtain ⟨k, v, hv, rfl⟩ := ht
        have hp : w.pc = s.pc + 1 := by rw [hw]
        refine ⟨1 + k, { v with pc := s.pc }, ?_, ?_⟩
        · unfold State.afterReads at hu hv hw ⊢
          rw [hv, hw, hu]
        · show ({ v with pc := w.pc + k } : State) = { v with pc := s.pc + (1 + k) }
          rw [hp, BitVec.add_assoc]
      split
      · rename_i m _
        refine Res.meets_bind (Res.meets_on (readMem8_meets m _) hu.platform) fun x w hw => hrest (some x) w hw.1
      · exact hrest operand _ rfl

theorem fetchInstr_meets (s : State) :
    (fetchInstr s).meets s.platform fun _ t => ∃ k u, s.afterReads u ∧ t = { u with pc := s.pc + k } :=
  fetchMore_meets maxLength [] none s

/-- The meaning of a fetched instruction is `exec`, or one of the four that go on from a byte read before. -/
theorem execFetched_cases (f : Fetched) (s : State) : execFetched f s = exec f.instr s ∨
    ∃ x, f.operand = some x ∧
      ((∃ m mm, f.instr = .bset m mm ∧ execFetched f s = memModify (bset8 mm) m x s) ∨
       (∃ m mm, f.instr = .bclr m mm ∧ execFetched f s = memModify (bclr8 mm) m x s) ∨
       (∃ m mm rr, f.instr = .brset m mm rr ∧ execFetched f s = branchIf (~~~x &&& mm == 0) rr s) ∨
       ∃ m mm rr, f.instr = .brclr m mm rr ∧ execFetched f s = branchIf (x &&& mm == 0) rr s) := by
  obtain ⟨i, op⟩ := f
  cases op with
  | none => exact .inl (by unfold execFetched; rfl)
  | some x =>
    unfold execFetched
    split
    · rename_i h1 h2; cases h1; cases h2; exact .inr ⟨_, rfl, .inl ⟨_, _, rfl, rfl⟩⟩
    · rename_i h1 h2; cases h1; cases h2; exact .inr ⟨_, rfl, .inr (.inl ⟨_, _, rfl, rfl⟩)⟩
    · rename_i h1 h2; cases h1; cases h2; exact .inr ⟨_, rfl, .inr (.inr (.inl ⟨_, _, _, rfl, rfl⟩))⟩
    · rename_i h1 h2; cases h1; cases h2; exact .inr ⟨_, rfl, .inr (.inr (.inr ⟨_, _, _, rfl, rfl⟩))⟩
    · exact .inl rfl

@[simp] theorem execFetched_none (i : Instr) (s : State) : execFetched ⟨i, none⟩ s = exec i s := by
  unfold execFetched; rfl

/-- The outcome of the instruction after a fetch. -/
theorem runInstr_eq_next {f : Fetched} {s t : State} :
    runInstr f s = .next t ↔ ∃ u, execFetched f { s with idelay := false } = .next u ∧ t = u.executed f.instr := by
  unfold runInstr
  split <;> rename_i h <;> simp [h, eq_comm]

/-- Executing gives a next state in one of two ways. -/
theorem executeNext_eq_next {s t : State} : executeNext s = .next t ↔
    (∃ f u v, fetchInstr s = .ok (some f) u ∧ execFetched f { u with idelay := false } = .next v ∧
      t = v.executed f.instr) ∨
    (∃ u, fetchInstr s = .ok none u ∧ illegalOpcode s.pc u = .next t) := by
  unfold executeNext
  split <;> rename_i h <;> simp [h, runInstr_eq_next, and_assoc]

theorem illegalOpcode_eq_next {opa : Word} {s t : State} : illegalOpcode opa s = .next t ↔
    s.platform.illopPolicy = .trap ∧ takeException (.illegal opa) s = .ok () t := by
  unfold illegalOpcode
  split <;> rename_i h
  · simp [h]
  · simp [h, Res.finish_eq_next]

theorem interrupt_eq_next {e : Event} {s t : State} :
    interrupt e s = .next t ↔ takeException e s = .ok () t := by
  simp [interrupt, Res.finish_eq_next]

/-- What a step of a running MPU can do, reset not asserted. -/
theorem runningStep_eq_next {s t : State} (h : runningStep s = .next t) :
    (s.xirqRequest = true ∧ takeException .xirq s = .ok () t) ∨
    (s.xirqRequest = false ∧ s.idelay = false ∧ ∃ src, s.maskableRequest = some src ∧
      takeException (.maskable src) s = .ok () t) ∨
    (s.xirqRequest = false ∧ (s.idelay = true ∨ s.maskableRequest = none) ∧ executeNext s = .next t) := by
  unfold runningStep at h
  split at h
  · rename_i hx; exact .inl ⟨hx, interrupt_eq_next.mp h⟩
  · rename_i hx
    simp only [Bool.not_eq_true] at hx
    split at h
    · rename_i hi; exact .inr (.inr ⟨hx, .inl hi, h⟩)
    · rename_i hi
      simp only [Bool.not_eq_true] at hi
      split at h
      · rename_i src hs; exact .inr (.inl ⟨hx, hi, src, hs, interrupt_eq_next.mp h⟩)
      · rename_i hs; exact .inr (.inr ⟨hx, .inr hs, h⟩)

/-- What a step of a waiting MPU can do, reset not asserted. -/
theorem waitingStep_eq_next {s t : State} (h : waitingStep s = .next t) :
    (s.xirqRequest = true ∧ fetchVector .xirq s = .ok () t) ∨
    (s.xirqRequest = false ∧ ∃ src, s.maskableRequest = some src ∧ fetchVector (.maskable src) s = .ok () t) ∨
    (s.xirqRequest = false ∧ s.maskableRequest = none ∧ rereadCcr s = .ok () t) := by
  unfold waitingStep at h
  split at h
  · rename_i hx; exact .inl ⟨hx, Res.finish_eq_next.mp h⟩
  · rename_i hx
    simp only [Bool.not_eq_true] at hx
    split at h
    · rename_i src hs; exact .inr (.inl ⟨hx, src, hs, Res.finish_eq_next.mp h⟩)
    · rename_i hs; exact .inr (.inr ⟨hx, hs, Res.finish_eq_next.mp h⟩)

/-- What a step of a stopped MPU can do, reset not asserted. -/
theorem stoppedStep_eq_next {s t : State} (h : stoppedStep s = .next t) :
    (s.lines.xirq = true ∧ s.ccr.x = true ∧ t = { s with runState := .running }) ∨
    (s.lines.xirq = true ∧ s.ccr.x = false ∧ takeException .xirq s = .ok () t) ∨
    (s.lines.xirq = false ∧ s.lines.irq = true ∧ s.ccr.i = false ∧ takeException (.maskable .irq) s = .ok () t) ∨
    (s.lines.xirq = false ∧ (s.lines.irq && !s.ccr.i) = false ∧ t = s) := by
  unfold stoppedStep at h
  split at h
  · rename_i hx
    split at h
    · rename_i hc; exact .inl ⟨hx, hc, by simpa [eq_comm] using h⟩
    · rename_i hc; exact .inr (.inl ⟨hx, by simpa using hc, interrupt_eq_next.mp h⟩)
  · rename_i hx
    simp only [Bool.not_eq_true] at hx
    split at h
    · rename_i hi
      simp only [Bool.and_eq_true, Bool.not_eq_true'] at hi
      exact .inr (.inr (.inl ⟨hx, hi.1, hi.2, interrupt_eq_next.mp h⟩))
    · rename_i hi
      exact .inr (.inr (.inr ⟨hx, by simpa using hi, by simpa [eq_comm] using h⟩))

/-- A step that recognises nothing executes the next instruction (R15, R334). -/
theorem step_undisturbed {s : State} (h : s.undisturbed) : step s = executeNext s := by
  obtain ⟨hrun, hscript, hreset, hxirq, hmask⟩ := h
  have hs : s.takeScript = s := by unfold State.takeScript; rw [hscript]
  unfold step oneStep stepWithLines
  simp only [hs, hreset, hrun, Bool.false_eq_true, if_false]
  unfold runningStep
  rcases hmask with h | h <;> cases hi : s.idelay <;> simp_all

/-- What a step can do, by the run-state, once the environment has set the lines. -/
theorem step_eq_next {s t : State} (h : step s = .next t) :
    (s.takeScript.lines.reset = true ∧ takeReset s.takeScript = .ok () t) ∨
    (s.takeScript.lines.reset = false ∧
      ((s.runState = .running ∧ runningStep s.takeScript = .next t) ∨
       (s.runState = .waiting ∧ waitingStep s.takeScript = .next t) ∨
       (s.runState = .stopped ∧ stoppedStep s.takeScript = .next t) ∨
       (s.runState = .testLoop ∧ testLoopStep s.takeScript = .next t))) := by
  unfold step oneStep stepWithLines at h
  split at h
  · rename_i hr; exact .inl ⟨hr, Res.finish_eq_next.mp h⟩
  · rename_i hr
    simp only [Bool.not_eq_true] at hr
    refine .inr ⟨hr, ?_⟩
    simp only [State.takeScript_runState] at h
    split at h <;> rename_i hs
    · exact .inl ⟨hs, h⟩
    · exact .inr (.inl ⟨hs, h⟩)
    · exact .inr (.inr (.inl ⟨hs, h⟩))
    · exact .inr (.inr (.inr ⟨hs, h⟩))

/-! ### The end of a run (R373) -/

/-- The levels a step looks at are among those ahead, and those ahead of it afterwards are too. -/
theorem State.levelsAhead_takeScript (s : State) : s.takeScript.lines ∈ s.levelsAhead ∧
    ∀ l ∈ s.takeScript.levelsAhead, l ∈ s.levelsAhead := by
  unfold State.takeScript State.levelsAhead
  cases hs : s.script with
  | nil => simp [hs]
  | cons now later => cases later <;> simp +contextual

/-- A fetch of `BRA *` (R102). -/
theorem fetchInstr_selfBranch {s : State} (h : s.atSelfBranch) :
    fetchInstr s = .ok (some ⟨.bra 0xFE, none⟩) { s with pc := s.pc + 2 } := by
  obtain ⟨h0, h1, b0, b1⟩ := h
  have d0 : decode [0x20] = .tooShort := by decide
  have e0 : earlyOperand [0x20] = none := by decide
  have d1 : decode [0x20, 0xFE] = .instr (.bra 0xFE) [] := by decide
  have hb : ({ s with pc := s.pc + 1 } : State).byteAt (s.pc + 1) = 0xFE := b1
  show fetchMore 5 [] none s = _
  rw [fetchMore, fetch8_plain h0, b0]
  simp only [Res.bind_ok, List.nil_append, d0, e0]
  rw [fetchMore, fetch8_plain (s := { s with pc := s.pc + 1 }) h1]
  simp only [Res.bind_ok, hb, List.cons_append, List.nil_append, d1]
  have hp : s.pc + 1 + 1 = s.pc + 2 := by rw [BitVec.add_assoc]; rfl
  rw [hp]

/-- `BRA *` does nothing but read (R271, R373). -/
theorem executeNext_selfBranch {s t : State} (h : s.atSelfBranch) (ht : executeNext s = .next t) :
    ({ s with idelay := false, prevColumn45 := false } : State).afterReads t := by
  unfold executeNext at ht
  rw [fetchInstr_selfBranch h] at ht
  obtain ⟨u, hu, rfl⟩ := runInstr_eq_next.mp ht
  rw [execFetched_none] at hu
  obtain ⟨v, hv, rfl⟩ := (branchIf_meets true 0xFE _).1 u hu
  have hp : s.pc + 2 + BitVec.signExtend 16 (0xFE : Byte) = s.pc := by
    rw [BitVec.add_assoc]
    exact BitVec.add_zero s.pc
  unfold State.afterReads at hv ⊢
  rw [hv]
  simp only [State.executed, State.target, if_true, hp]
  rfl

/-- A step that nothing diverts only reads, and clears latches (R314, R315, R334, R373). -/
theorem step_undiverted {s t : State}
    (hrs : s.runState = .stopped ∨ s.runState = .waiting ∨ (s.runState = .running ∧ s.atSelfBranch))
    (hdiv : s.divertedBy s.takeScript.lines = false) (ht : step s = .next t) :
    ∃ d p, ({ s.takeScript with idelay := d, prevColumn45 := p } : State).afterReads t := by
  have hx : ({ s with lines := s.takeScript.lines } : State).xirqRequest = s.takeScript.xirqRequest := by
    unfold State.takeScript; cases s.script <;> rfl
  have hm : ({ s with lines := s.takeScript.lines } : State).maskableRequest = s.takeScript.maskableRequest := by
    unfold State.takeScript; cases s.script <;> rfl
  unfold State.divertedBy at hdiv
  rw [hx, hm] at hdiv
  rcases step_eq_next ht with ⟨h1, _⟩ | ⟨_, ⟨h1, h2⟩ | ⟨h1, h2⟩ | ⟨h1, h2⟩ | ⟨h1, _⟩⟩
  · simp [h1] at hdiv
  · have hsb : s.takeScript.atSelfBranch := by
      rcases hrs with h | h | h
      · simp [h1] at h
      · simp [h1] at h
      · unfold State.takeScript; cases s.script <;> exact h.2
    simp only [h1, Bool.or_eq_false_iff] at hdiv
    rcases runningStep_eq_next h2 with ⟨h3, _⟩ | ⟨_, _, src, h3, _⟩ | ⟨_, _, h3⟩
    · simp [h3] at hdiv
    · simp [h3] at hdiv
    · exact ⟨_, _, executeNext_selfBranch hsb h3⟩
  · simp only [h1, Bool.or_eq_false_iff] at hdiv
    rcases waitingStep_eq_next h2 with ⟨h3, _⟩ | ⟨_, src, h3, _⟩ | ⟨_, _, h3⟩
    · simp [h3] at hdiv
    · simp [h3] at hdiv
    · exact ⟨_, _, ((valueless_meets _ _).1 _ _ h3).1⟩
  · simp only [h1, Bool.or_eq_false_iff] at hdiv
    rcases stoppedStep_eq_next h2 with ⟨h3, _⟩ | ⟨h3, _⟩ | ⟨_, h3, h4, _⟩ | ⟨_, _, rfl⟩
    · simp [h3] at hdiv
    · simp [h3] at hdiv
    · rw [State.takeScript_ccr] at h4
      simp [h3, h4] at hdiv
    · exact ⟨_, _, rfl⟩
  · simp [h1] at hrs

/-- A run that has ended stays so until a reset: but for the test loop's PC, which is any value, no register and no byte
of memory changes (R373). -/
theorem State.ended_stays {s t : State} (h : s.ended) (hr : ∀ l ∈ s.levelsAhead, l.reset = false)
    (ht : step s = .next t) : t.ended ∧ t.mem = s.mem ∧ (∀ r, t.contents r = s.contents r) ∧ t.ccr = s.ccr ∧
      t.runState = s.runState ∧ (s.runState ≠ .testLoop → t.pc = s.pc) := by
  obtain ⟨hnow, hlater⟩ := s.levelsAhead_takeScript
  have hno : s.takeScript.lines.reset = false := hr _ hnow
  rcases h with ⟨f, hf⟩ | hloop | ⟨hrs, hev⟩
  · rw [hf] at ht; exact nomatch ht
  · rcases step_eq_next ht with ⟨h1, _⟩ | ⟨_, ⟨h1, _⟩ | ⟨h1, _⟩ | ⟨h1, _⟩ | ⟨_, h2⟩⟩
    · simp [h1] at hno
    · simp [h1] at hloop
    · simp [h1] at hloop
    · simp [h1] at hloop
    · simp only [testLoopStep, Host.Outcome.next.injEq] at h2
      subst h2
      refine ⟨.inr (.inl ?_), ?_, ?_, ?_, ?_, fun hn => absurd hloop hn⟩ <;>
        unfold State.takeScript State.drawn <;> cases s.script <;>
        first | exact hloop | rfl | (intro r; cases r <;> rfl)
  · have hdiv := hev _ hnow
    have key : ∃ d p, ({ s.takeScript with idelay := d, prevColumn45 := p } : State).afterReads t :=
      step_undiverted hrs hdiv ht
    obtain ⟨l, sc, e⟩ : ∃ l sc, s.takeScript = { s with lines := l, script := sc } := by
      unfold State.takeScript
      cases s.script <;> exact ⟨_, _, rfl⟩
    obtain ⟨d, p, hk⟩ := key
    rw [e] at hk hlater
    unfold State.afterReads at hk
    rw [hk]
    exact ⟨.inr (.inr ⟨hrs, fun l' hl => hev l' (hlater l' hl)⟩), rfl, fun r => by cases r <;> rfl, rfl, rfl, fun _ => rfl⟩

end Sys2Proof.Machine
end

