-- ==== Sys2Proof/Laws/PerInstr.lean ====
section
/-! SUPPORT. Statements for all instructions, one lemma per constructor: the family `Encoding`, the encoding of a
well-formed instruction has one to five bytes (R80). -/

namespace Sys2Proof.Laws

/-- The encoding of the instruction, if it is well-formed, has one to five bytes (R80). -/
def Encoding.Statement (i : Instr) : Prop :=
  i.wellFormed = true → 1 ≤ (encode i).length ∧ (encode i).length ≤ maxLength

theorem twoBytes_length (op rr : Byte) : 1 ≤ ([op] ++ [rr]).length ∧ ([op] ++ [rr]).length ≤ maxLength :=
  ⟨Nat.le_succ 1, by simp [maxLength]⟩

theorem encodeMem_length (dir ext indX indY tail : List Byte) (m : Mem) (hd : dir.length ≤ 2) (he : ext.length ≤ 2)
    (hx : indX.length ≤ 2) (hy : indY.length ≤ 2) (ht : tail.length ≤ 2)
    (h : 1 ≤ tail.length → ext.length = 0) : 1 ≤ (encodeMem dir ext indX indY m ++ tail).length ∧
      (encodeMem dir ext indX indY m ++ tail).length ≤ maxLength := by
  cases m <;> simp only [encodeMem, List.length_append, List.length_cons, List.length_nil, maxLength] <;> omega

theorem encodeMem_length1 (dir ext indX indY : List Byte) (m : Mem) (hd : dir.length ≤ 2) (he : ext.length ≤ 2)
    (hx : indX.length ≤ 2) (hy : indY.length ≤ 2) : 1 ≤ (encodeMem dir ext indX indY m).length ∧
      (encodeMem dir ext indX indY m).length ≤ maxLength := by
  have := encodeMem_length dir ext indX indY [] m hd he hx hy (by decide) (by simp)
  simpa using this

theorem encodeOpr8_length (imm dir ext indX indY : List Byte) (o : Opr8) (hi : imm.length ≤ 2) (hd : dir.length ≤ 2)
    (he : ext.length ≤ 2) (hx : indX.length ≤ 2) (hy : indY.length ≤ 2) :
    1 ≤ (encodeOpr8 imm dir ext indX indY o).length ∧ (encodeOpr8 imm dir ext indX indY o).length ≤ maxLength := by
  cases o with
  | imm ii => simp only [encodeOpr8, List.length_append, List.length_cons, List.length_nil, maxLength]; omega
  | mem m =>
    exact encodeMem_length1 dir ext indX indY m hd he hx hy

theorem encodeOpr16_length (imm dir ext indX indY : List Byte) (o : Opr16) (hi : imm.length ≤ 2) (hd : dir.length ≤ 2)
    (he : ext.length ≤ 2) (hx : indX.length ≤ 2) (hy : indY.length ≤ 2) :
    1 ≤ (encodeOpr16 imm dir ext indX indY o).length ∧ (encodeOpr16 imm dir ext indX indY o).length ≤ maxLength := by
  cases o with
  | imm jjkk => simp only [encodeOpr16, List.length_append, List.length_cons, List.length_nil, maxLength]; omega
  | mem m =>
    exact encodeMem_length1 dir ext indX indY m hd he hx hy

theorem Encoding.ldaa (o : Opr8) : Encoding.Statement (.ldaa o) := fun _ =>
  encodeOpr8_length _ _ _ _ _ o (by decide) (by decide) (by decide) (by decide) (by decide)
theorem Encoding.ldab (o : Opr8) : Encoding.Statement (.ldab o) := fun _ =>
  encodeOpr8_length _ _ _ _ _ o (by decide) (by decide) (by decide) (by decide) (by decide)
theorem Encoding.ldd (o : Opr16) : Encoding.Statement (.ldd o) := fun _ =>
  encodeOpr16_length _ _ _ _ _ o (by decide) (by decide) (by decide) (by decide) (by decide)
theorem Encoding.lds (o : Opr16) : Encoding.Statement (.lds o) := fun _ =>
  encodeOpr16_length _ _ _ _ _ o (by decide) (by decide) (by decide) (by decide) (by decide)
theorem Encoding.ldx (o : Opr16) : Encoding.Statement (.ldx o) := fun _ =>
  encodeOpr16_length _ _ _ _ _ o (by decide) (by decide) (by decide) (by decide) (by decide)
theorem Encoding.ldy (o : Opr16) : Encoding.Statement (.ldy o) := fun _ =>
  encodeOpr16_length _ _ _ _ _ o (by decide) (by decide) (by decide) (by decide) (by decide)
theorem Encoding.staa (m : Mem) : Encoding.Statement (.staa m) := fun _ =>
  encodeMem_length1 _ _ _ _ m (by decide) (by decide) (by decide) (by decide)
theorem Encoding.stab (m : Mem) : Encoding.Statement (.stab m) := fun _ =>
  encodeMem_length1 _ _ _ _ m (by decide) (by decide) (by decide) (by decide)
theorem Encoding.std (m : Mem) : Encoding.Statement (.std m) := fun _ =>
  encodeMem_length1 _ _ _ _ m (by decide) (by decide) (by decide) (by decide)
theorem Encoding.sts (m : Mem) : Encoding.Statement (.sts m) := fun _ =>
  encodeMem_length1 _ _ _ _ m (by decide) (by decide) (by decide) (by decide)
theorem Encoding.stx (m : Mem) : Encoding.Statement (.stx m) := fun _ =>
  encodeMem_length1 _ _ _ _ m (by decide) (by decide) (by decide) (by decide)
theorem Encoding.sty (m : Mem) : Encoding.Statement (.sty m) := fun _ =>
  encodeMem_length1 _ _ _ _ m (by decide) (by decide) (by decide) (by decide)
theorem Encoding.tab : Encoding.Statement .tab := by unfold Encoding.Statement; decide
theorem Encoding.tba : Encoding.Statement .tba := by unfold Encoding.Statement; decide
theorem Encoding.tap : Encoding.Statement .tap := by unfold Encoding.Statement; decide
theorem Encoding.tpa : Encoding.Statement .tpa := by unfold Encoding.Statement; decide
theorem Encoding.tsx : Encoding.Statement .tsx := by unfold Encoding.Statement; decide
theorem Encoding.tsy : Encoding.Statement .tsy := by unfold Encoding.Statement; decide
theorem Encoding.txs : Encoding.Statement .txs := by unfold Encoding.Statement; decide
theorem Encoding.tys : Encoding.Statement .tys := by unfold Encoding.Statement; decide
theorem Encoding.xgdx : Encoding.Statement .xgdx := by unfold Encoding.Statement; decide
theorem Encoding.xgdy : Encoding.Statement .xgdy := by unfold Encoding.Statement; decide
theorem Encoding.psha : Encoding.Statement .psha := by unfold Encoding.Statement; decide
theorem Encoding.pshb : Encoding.Statement .pshb := by unfold Encoding.Statement; decide
theorem Encoding.pshx : Encoding.Statement .pshx := by unfold Encoding.Statement; decide
theorem Encoding.pshy : Encoding.Statement .pshy := by unfold Encoding.Statement; decide
theorem Encoding.pula : Encoding.Statement .pula := by unfold Encoding.Statement; decide
theorem Encoding.pulb : Encoding.Statement .pulb := by unfold Encoding.Statement; decide
theorem Encoding.pulx : Encoding.Statement .pulx := by unfold Encoding.Statement; decide
theorem Encoding.puly : Encoding.Statement .puly := by unfold Encoding.Statement; decide
theorem Encoding.clr (m : Mem) : Encoding.Statement (.clr m) := fun _ =>
  encodeMem_length1 _ _ _ _ m (by decide) (by decide) (by decide) (by decide)
theorem Encoding.clra : Encoding.Statement .clra := by unfold Encoding.Statement; decide
theorem Encoding.clrb : Encoding.Statement .clrb := by unfold Encoding.Statement; decide
theorem Encoding.aba : Encoding.Statement .aba := by unfold Encoding.Statement; decide
theorem Encoding.abx : Encoding.Statement .abx := by unfold Encoding.Statement; decide
theorem Encoding.aby : Encoding.Statement .aby := by unfold Encoding.Statement; decide
theorem Encoding.adca (o : Opr8) : Encoding.Statement (.adca o) := fun _ =>
  encodeOpr8_length _ _ _ _ _ o (by decide) (by decide) (by decide) (by decide) (by decide)
theorem Encoding.adcb (o : Opr8) : Encoding.Statement (.adcb o) := fun _ =>
  encodeOpr8_length _ _ _ _ _ o (by decide) (by decide) (by decide) (by decide) (by decide)
theorem Encoding.adda (o : Opr8) : Encoding.Statement (.adda o) := fun _ =>
  encodeOpr8_length _ _ _ _ _ o (by decide) (by decide) (by decide) (by decide) (by decide)
theorem Encoding.addb (o : Opr8) : Encoding.Statement (.addb o) := fun _ =>
  encodeOpr8_length _ _ _ _ _ o (by decide) (by decide) (by decide) (by decide) (by decide)
theorem Encoding.addd (o : Opr16) : Encoding.Statement (.addd o) := fun _ =>
  encodeOpr16_length _ _ _ _ _ o (by decide) (by decide) (by decide) (by decide) (by decide)
theorem Encoding.cba : Encoding.Statement .cba := by unfold Encoding.Statement; decide
theorem Encoding.cmpa (o : Opr8) : Encoding.Statement (.cmpa o) := fun _ =>
  encodeOpr8_length _ _ _ _ _ o (by decide) (by decide) (by decide) (by decide) (by decide)
theorem Encoding.cmpb (o : Opr8) : Encoding.Statement (.cmpb o) := fun _ =>
  encodeOpr8_length _ _ _ _ _ o (by decide) (by decide) (by decide) (by decide) (by decide)
theorem Encoding.cpd (o : Opr16) : Encoding.Statement (.cpd o) := fun _ =>
  encodeOpr16_length _ _ _ _ _ o (by decide) (by decide) (by decide) (by decide) (by decide)
theorem Encoding.cpx (o : Opr16) : Encoding.Statement (.cpx o) := fun _ =>
  encodeOpr16_length _ _ _ _ _ o (by decide) (by decide) (by decide) (by decide) (by decide)
theorem Encoding.cpy (o : Opr16) : Encoding.Statement (.cpy o) := fun _ =>
  encodeOpr16_length _ _ _ _ _ o (by decide) (by decide) (by decide) (by decide) (by decide)
theorem Encoding.daa : Encoding.Statement .daa := by unfold Encoding.Statement; decide
theorem Encoding.dec (m : Mem) : Encoding.Statement (.dec m) := fun _ =>
  encodeMem_length1 _ _ _ _ m (by decide) (by decide) (by decide) (by decide)
theorem Encoding.deca : Encoding.Statement .deca := by unfold Encoding.Statement; decide
theorem Encoding.decb : Encoding.Statement .decb := by unfold Encoding.Statement; decide
theorem Encoding.des : Encoding.Statement .des := by unfold Encoding.Statement; decide
theorem Encoding.dex : Encoding.Statement .dex := by unfold Encoding.Statement; decide
theorem Encoding.dey : Encoding.Statement .dey := by unfold Encoding.Statement; decide
theorem Encoding.fdiv : Encoding.Statement .fdiv := by unfold Encoding.Statement; decide
theorem Encoding.idiv : Encoding.Statement .idiv := by unfold Encoding.Statement; decide
theorem Encoding.inc (m : Mem) : Encoding.Statement (.inc m) := fun _ =>
  encodeMem_length1 _ _ _ _ m (by decide) (by decide) (by decide) (by decide)
theorem Encoding.inca : Encoding.Statement .inca := by unfold Encoding.Statement; decide
theorem Encoding.incb : Encoding.Statement .incb := by unfold Encoding.Statement; decide
theorem Encoding.ins : Encoding.Statement .ins := by unfold Encoding.Statement; decide
theorem Encoding.inx : Encoding.Statement .inx := by unfold Encoding.Statement; decide
theorem Encoding.iny : Encoding.Statement .iny := by unfold Encoding.Statement; decide
theorem Encoding.mul : Encoding.Statement .mul := by unfold Encoding.Statement; decide
theorem Encoding.neg (m : Mem) : Encoding.Statement (.neg m) := fun _ =>
  encodeMem_length1 _ _ _ _ m (by decide) (by decide) (by decide) (by decide)
theorem Encoding.nega : Encoding.Statement .nega := by unfold Encoding.Statement; decide
theorem Encoding.negb : Encoding.Statement .negb := by unfold Encoding.Statement; decide
theorem Encoding.sba : Encoding.Statement .sba := by unfold Encoding.Statement; decide
theorem Encoding.sbca (o : Opr8) : Encoding.Statement (.sbca o) := fun _ =>
  encodeOpr8_length _ _ _ _ _ o (by decide) (by decide) (by decide) (by decide) (by decide)
theorem Encoding.sbcb (o : Opr8) : Encoding.Statement (.sbcb o) := fun _ =>
  encodeOpr8_length _ _ _ _ _ o (by decide) (by decide) (by decide) (by decide) (by decide)
theorem Encoding.suba (o : Opr8) : Encoding.Statement (.suba o) := fun _ =>
  encodeOpr8_length _ _ _ _ _ o (by decide) (by decide) (by decide) (by decide) (by decide)
theorem Encoding.subb (o : Opr8) : Encoding.Statement (.subb o) := fun _ =>
  encodeOpr8_length _ _ _ _ _ o (by decide) (by decide) (by decide) (by decide) (by decide)
theorem Encoding.subd (o : Opr16) : Encoding.Statement (.subd o) := fun _ =>
  encodeOpr16_length _ _ _ _ _ o (by decide) (by decide) (by decide) (by decide) (by decide)
theorem Encoding.tst (m : Mem) : Encoding.Statement (.tst m) := fun _ =>
  encodeMem_length1 _ _ _ _ m (by decide) (by decide) (by decide) (by decide)
theorem Encoding.tsta : Encoding.Statement .tsta := by unfold Encoding.Statement; decide
theorem Encoding.tstb : Encoding.Statement .tstb := by unfold Encoding.Statement; decide
theorem Encoding.anda (o : Opr8) : Encoding.Statement (.anda o) := fun _ =>
  encodeOpr8_length _ _ _ _ _ o (by decide) (by decide) (by decide) (by decide) (by decide)
theorem Encoding.andb (o : Opr8) : Encoding.Statement (.andb o) := fun _ =>
  encodeOpr8_length _ _ _ _ _ o (by decide) (by decide) (by decide) (by decide) (by decide)
theorem Encoding.bita (o : Opr8) : Encoding.Statement (.bita o) := fun _ =>
  encodeOpr8_length _ _ _ _ _ o (by decide) (by decide) (by decide) (by decide) (by decide)
theorem Encoding.bitb (o : Opr8) : Encoding.Statement (.bitb o) := fun _ =>
  encodeOpr8_length _ _ _ _ _ o (by decide) (by decide) (by decide) (by decide) (by decide)
theorem Encoding.eora (o : Opr8) : Encoding.Statement (.eora o) := fun _ =>
  encodeOpr8_length _ _ _ _ _ o (by decide) (by decide) (by decide) (by decide) (by decide)
theorem Encoding.eorb (o : Opr8) : Encoding.Statement (.eorb o) := fun _ =>
  encodeOpr8_length _ _ _ _ _ o (by decide) (by decide) (by decide) (by decide) (by decide)
theorem Encoding.oraa (o : Opr8) : Encoding.Statement (.oraa o) := fun _ =>
  encodeOpr8_length _ _ _ _ _ o (by decide) (by decide) (by decide) (by decide) (by decide)
theorem Encoding.orab (o : Opr8) : Encoding.Statement (.orab o) := fun _ =>
  encodeOpr8_length _ _ _ _ _ o (by decide) (by decide) (by decide) (by decide) (by decide)
theorem Encoding.com (m : Mem) : Encoding.Statement (.com m) := fun _ =>
  encodeMem_length1 _ _ _ _ m (by decide) (by decide) (by decide) (by decide)
theorem Encoding.coma : Encoding.Statement .coma := by unfold Encoding.Statement; decide
theorem Encoding.comb : Encoding.Statement .comb := by unfold Encoding.Statement; decide
theorem Encoding.asl (m : Mem) : Encoding.Statement (.asl m) := fun _ =>
  encodeMem_length1 _ _ _ _ m (by decide) (by decide) (by decide) (by decide)
theorem Encoding.asla : Encoding.Statement .asla := by unfold Encoding.Statement; decide
theorem Encoding.aslb : Encoding.Statement .aslb := by unfold Encoding.Statement; decide
theorem Encoding.asld : Encoding.Statement .asld := by unfold Encoding.Statement; decide
theorem Encoding.asr (m : Mem) : Encoding.Statement (.asr m) := fun _ =>
  encodeMem_length1 _ _ _ _ m (by decide) (by decide) (by decide) (by decide)
theorem Encoding.asra : Encoding.Statement .asra := by unfold Encoding.Statement; decide
theorem Encoding.asrb : Encoding.Statement .asrb := by unfold Encoding.Statement; decide
theorem Encoding.lsr (m : Mem) : Encoding.Statement (.lsr m) := fun _ =>
  encodeMem_length1 _ _ _ _ m (by decide) (by decide) (by decide) (by decide)
theorem Encoding.lsra : Encoding.Statement .lsra := by unfold Encoding.Statement; decide
theorem Encoding.lsrb : Encoding.Statement .lsrb := by unfold Encoding.Statement; decide
theorem Encoding.lsrd : Encoding.Statement .lsrd := by unfold Encoding.Statement; decide
theorem Encoding.rol (m : Mem) : Encoding.Statement (.rol m) := fun _ =>
  encodeMem_length1 _ _ _ _ m (by decide) (by decide) (by decide) (by decide)
theorem Encoding.rola : Encoding.Statement .rola := by unfold Encoding.Statement; decide
theorem Encoding.rolb : Encoding.Statement .rolb := by unfold Encoding.Statement; decide
theorem Encoding.ror (m : Mem) : Encoding.Statement (.ror m) := fun _ =>
  encodeMem_length1 _ _ _ _ m (by decide) (by decide) (by decide) (by decide)
theorem Encoding.rora : Encoding.Statement .rora := by unfold Encoding.Statement; decide
theorem Encoding.rorb : Encoding.Statement .rorb := by unfold Encoding.Statement; decide
theorem Encoding.bclr (m : Mem) (mm : Byte) : Encoding.Statement (.bclr m mm) := fun _ =>
  encodeMem_length _ _ _ _ _ m (by decide) (by decide) (by decide) (by decide) (by simp) (by simp)
theorem Encoding.bset (m : Mem) (mm : Byte) : Encoding.Statement (.bset m mm) := fun _ =>
  encodeMem_length _ _ _ _ _ m (by decide) (by decide) (by decide) (by decide) (by simp) (by simp)
theorem Encoding.clc : Encoding.Statement .clc := by unfold Encoding.Statement; decide
theorem Encoding.clv : Encoding.Statement .clv := by unfold Encoding.Statement; decide
theorem Encoding.sec : Encoding.Statement .sec := by unfold Encoding.Statement; decide
theorem Encoding.sev : Encoding.Statement .sev := by unfold Encoding.Statement; decide
theorem Encoding.lsl (m : Mem) : Encoding.Statement (.lsl m) := fun _ =>
  encodeMem_length1 _ _ _ _ m (by decide) (by decide) (by decide) (by decide)
theorem Encoding.lsla : Encoding.Statement .lsla := by unfold Encoding.Statement; decide
theorem Encoding.lslb : Encoding.Statement .lslb := by unfold Encoding.Statement; decide
theorem Encoding.lsld : Encoding.Statement .lsld := by unfold Encoding.Statement; decide
theorem Encoding.bcc (rr : Byte) : Encoding.Statement (.bcc rr) := fun _ =>
  twoBytes_length _ rr
theorem Encoding.bcs (rr : Byte) : Encoding.Statement (.bcs rr) := fun _ =>
  twoBytes_length _ rr
theorem Encoding.beq (rr : Byte) : Encoding.Statement (.beq rr) := fun _ =>
  twoBytes_length _ rr
theorem Encoding.bge (rr : Byte) : Encoding.Statement (.bge rr) := fun _ =>
  twoBytes_length _ rr
theorem Encoding.bgt (rr : Byte) : Encoding.Statement (.bgt rr) := fun _ =>
  twoBytes_length _ rr
theorem Encoding.bhi (rr : Byte) : Encoding.Statement (.bhi rr) := fun _ =>
  twoBytes_length _ rr
theorem Encoding.bhs (rr : Byte) : Encoding.Statement (.bhs rr) := fun _ =>
  twoBytes_length _ rr
theorem Encoding.ble (rr : Byte) : Encoding.Statement (.ble rr) := fun _ =>
  twoBytes_length _ rr
theorem Encoding.blo (rr : Byte) : Encoding.Statement (.blo rr) := fun _ =>
  twoBytes_length _ rr
theorem Encoding.bls (rr : Byte) : Encoding.Statement (.bls rr) := fun _ =>
  twoBytes_length _ rr
theorem Encoding.blt (rr : Byte) : Encoding.Statement (.blt rr) := fun _ =>
  twoBytes_length _ rr
theorem Encoding.bmi (rr : Byte) : Encoding.Statement (.bmi rr) := fun _ =>
  twoBytes_length _ rr
theorem Encoding.bne (rr : Byte) : Encoding.Statement (.bne rr) := fun _ =>
  twoBytes_length _ rr
theorem Encoding.bpl (rr : Byte) : Encoding.Statement (.bpl rr) := fun _ =>
  twoBytes_length _ rr
theorem Encoding.bra (rr : Byte) : Encoding.Statement (.bra rr) := fun _ =>
  twoBytes_length _ rr
theorem Encoding.brn (rr : Byte) : Encoding.Statement (.brn rr) := fun _ =>
  twoBytes_length _ rr
theorem Encoding.bvc (rr : Byte) : Encoding.Statement (.bvc rr) := fun _ =>
  twoBytes_length _ rr
theorem Encoding.bvs (rr : Byte) : Encoding.Statement (.bvs rr) := fun _ =>
  twoBytes_length _ rr
theorem Encoding.brclr (m : Mem) (mm rr : Byte) : Encoding.Statement (.brclr m mm rr) := fun _ =>
  encodeMem_length _ _ _ _ _ m (by decide) (by decide) (by decide) (by decide) (by simp) (by simp)
theorem Encoding.brset (m : Mem) (mm rr : Byte) : Encoding.Statement (.brset m mm rr) := fun _ =>
  encodeMem_length _ _ _ _ _ m (by decide) (by decide) (by decide) (by decide) (by simp) (by simp)
theorem Encoding.bsr (rr : Byte) : Encoding.Statement (.bsr rr) := fun _ =>
  twoBytes_length _ rr
theorem Encoding.jmp (m : Mem) : Encoding.Statement (.jmp m) := fun _ =>
  encodeMem_length1 _ _ _ _ m (by decide) (by decide) (by decide) (by decide)
theorem Encoding.jsr (m : Mem) : Encoding.Statement (.jsr m) := fun _ =>
  encodeMem_length1 _ _ _ _ m (by decide) (by decide) (by decide) (by decide)
theorem Encoding.rts : Encoding.Statement .rts := by unfold Encoding.Statement; decide
theorem Encoding.nop : Encoding.Statement .nop := by unfold Encoding.Statement; decide
theorem Encoding.cli : Encoding.Statement .cli := by unfold Encoding.Statement; decide
theorem Encoding.sei : Encoding.Statement .sei := by unfold Encoding.Statement; decide
theorem Encoding.rti : Encoding.Statement .rti := by unfold Encoding.Statement; decide
theorem Encoding.swi : Encoding.Statement .swi := by unfold Encoding.Statement; decide
theorem Encoding.wai : Encoding.Statement .wai := by unfold Encoding.Statement; decide
theorem Encoding.stop : Encoding.Statement .stop := by unfold Encoding.Statement; decide
theorem Encoding.test : Encoding.Statement .test := by unfold Encoding.Statement; decide

end Sys2Proof.Laws
end

