-- ==== Sys2Proof/Tests/Slice0.lean ====
section
/-! SUPPORT. Tests: what WellFormed refuses, words of the spec that decode as they should, single steps of the spec's
test vectors and scenarios (95_test_vectors.md), and a witness for the hypotheses of every statement. -/

namespace Sys2Proof.Tests

open Sys2Proof.Machine

/-! ### WellFormed refuses the modes an instruction lacks -/

theorem test_wellFormed_refuses_direct_operations : ([.neg, .com, .lsr, .ror, .asr, .asl, .lsl, .rol, .dec, .inc, .tst,
    .jmp, .clr] : List (Mem → Instr)).all (fun f => !(f (.dir 0x10)).wellFormed) = true := by decide

theorem test_wellFormed_refuses_extended_bset : (Instr.bset (.ext 0x1000) 0x01).wellFormed = false := by decide

theorem test_wellFormed_refuses_extended_bclr : (Instr.bclr (.ext 0x1000) 0x01).wellFormed = false := by decide

theorem test_wellFormed_refuses_extended_brset : (Instr.brset (.ext 0x1000) 0x01 0x02).wellFormed = false := by decide

theorem test_wellFormed_refuses_extended_brclr : (Instr.brclr (.ext 0x1000) 0x01 0x02).wellFormed = false := by decide

theorem test_wellFormed_accepts_direct_jsr : (Instr.jsr (.dir 0x10)).wellFormed = true := by decide

/-! ### Decoding: words written from the encodings of the instruction rules -/

/-- The bytes decode to the instruction, and no byte is left. -/
def decodesTo (e : List Byte × Instr) : Bool := decode e.1 == .instr e.2 []

theorem test_decode_loads_stores : (
  [([0x86, 0x5A], .ldaa (.imm 0x5A)), ([0x96, 0x42], .ldaa (.mem (.dir 0x42))),
   ([0xB6, 0x12, 0x34], .ldaa (.mem (.ext 0x1234))), ([0xC6, 0x5A], .ldab (.imm 0x5A)),
   ([0xD6, 0x42], .ldab (.mem (.dir 0x42))), ([0xF6, 0x12, 0x34], .ldab (.mem (.ext 0x1234))),
   ([0x97, 0x42], .staa (.dir 0x42)), ([0xB7, 0x12, 0x34], .staa (.ext 0x1234)), ([0xD7, 0x42], .stab (.dir 0x42)),
   ([0xF7, 0x12, 0x34], .stab (.ext 0x1234)), ([0xCC, 0x12, 0x34], .ldd (.imm 0x1234)),
   ([0xDC, 0x42], .ldd (.mem (.dir 0x42))), ([0xFC, 0x12, 0x34], .ldd (.mem (.ext 0x1234))),
   ([0x8E, 0x12, 0x34], .lds (.imm 0x1234)), ([0x9E, 0x42], .lds (.mem (.dir 0x42))),
   ([0xBE, 0x12, 0x34], .lds (.mem (.ext 0x1234))), ([0xCE, 0x12, 0x34], .ldx (.imm 0x1234)),
   ([0xDE, 0x42], .ldx (.mem (.dir 0x42))), ([0xFE, 0x12, 0x34], .ldx (.mem (.ext 0x1234))),
   ([0x18, 0xCE, 0x12, 0x34], .ldy (.imm 0x1234)), ([0x18, 0xDE, 0x42], .ldy (.mem (.dir 0x42))),
   ([0x18, 0xFE, 0x12, 0x34], .ldy (.mem (.ext 0x1234))), ([0xDD, 0x42], .std (.dir 0x42)),
   ([0xFD, 0x12, 0x34], .std (.ext 0x1234)), ([0x9F, 0x42], .sts (.dir 0x42)),
   ([0xBF, 0x12, 0x34], .sts (.ext 0x1234)), ([0xDF, 0x42], .stx (.dir 0x42)),
   ([0xFF, 0x12, 0x34], .stx (.ext 0x1234)), ([0x18, 0xDF, 0x42], .sty (.dir 0x42)),
   ([0x18, 0xFF, 0x12, 0x34], .sty (.ext 0x1234)), ([0x4F], .clra), ([0x5F], .clrb),
   ([0x7F, 0x12, 0x34], .clr (.ext 0x1234)), ([0x36], .psha), ([0x37], .pshb), ([0x3C], .pshx),
   ([0x18, 0x3C], .pshy), ([0x32], .pula), ([0x33], .pulb), ([0x38], .pulx), ([0x18, 0x38], .puly), ([0x16], .tab),
   ([0x06], .tap), ([0x17], .tba), ([0x07], .tpa), ([0x30], .tsx), ([0x18, 0x30], .tsy), ([0x35], .txs),
   ([0x18, 0x35], .tys), ([0x8F], .xgdx), ([0x18, 0x8F], .xgdy)] :
    List (List Byte × Instr)).all decodesTo = true := by decide

theorem test_decode_loads_stores_indexed : (
  [([0xA6, 0x7F], .ldaa (.mem (.indX 0x7F))), ([0x18, 0xA6, 0x80], .ldaa (.mem (.indY 0x80))),
   ([0xE6, 0x7F], .ldab (.mem (.indX 0x7F))), ([0x18, 0xE6, 0x80], .ldab (.mem (.indY 0x80))),
   ([0xA7, 0x7F], .staa (.indX 0x7F)), ([0x18, 0xA7, 0x80], .staa (.indY 0x80)), ([0xE7, 0x7F], .stab (.indX 0x7F)),
   ([0x18, 0xE7, 0x80], .stab (.indY 0x80)), ([0xEC, 0x7F], .ldd (.mem (.indX 0x7F))),
   ([0x18, 0xEC, 0x80], .ldd (.mem (.indY 0x80))), ([0xAE, 0x7F], .lds (.mem (.indX 0x7F))),
   ([0x18, 0xAE, 0x80], .lds (.mem (.indY 0x80))), ([0xEE, 0x7F], .ldx (.mem (.indX 0x7F))),
   ([0xCD, 0xEE, 0x80], .ldx (.mem (.indY 0x80))), ([0x1A, 0xEE, 0x7F], .ldy (.mem (.indX 0x7F))),
   ([0x18, 0xEE, 0x80], .ldy (.mem (.indY 0x80))), ([0xED, 0x7F], .std (.indX 0x7F)),
   ([0x18, 0xED, 0x80], .std (.indY 0x80)), ([0xAF, 0x7F], .sts (.indX 0x7F)),
   ([0x18, 0xAF, 0x80], .sts (.indY 0x80)), ([0xEF, 0x7F], .stx (.indX 0x7F)),
   ([0xCD, 0xEF, 0x80], .stx (.indY 0x80)), ([0x1A, 0xEF, 0x7F], .sty (.indX 0x7F)),
   ([0x18, 0xEF, 0x80], .sty (.indY 0x80)), ([0x6F, 0x7F], .clr (.indX 0x7F)),
   ([0x18, 0x6F, 0x80], .clr (.indY 0x80))] :
    List (List Byte × Instr)).all decodesTo = true := by decide

theorem test_decode_arithmetic_1 : (
  [([0x89, 0x5A], .adca (.imm 0x5A)), ([0x99, 0x42], .adca (.mem (.dir 0x42))),
   ([0xB9, 0x12, 0x34], .adca (.mem (.ext 0x1234))), ([0xC9, 0x5A], .adcb (.imm 0x5A)),
   ([0xD9, 0x42], .adcb (.mem (.dir 0x42))), ([0xF9, 0x12, 0x34], .adcb (.mem (.ext 0x1234))),
   ([0x8B, 0x5A], .adda (.imm 0x5A)), ([0x9B, 0x42], .adda (.mem (.dir 0x42))),
   ([0xBB, 0x12, 0x34], .adda (.mem (.ext 0x1234))), ([0xCB, 0x5A], .addb (.imm 0x5A)),
   ([0xDB, 0x42], .addb (.mem (.dir 0x42))), ([0xFB, 0x12, 0x34], .addb (.mem (.ext 0x1234))),
   ([0x81, 0x5A], .cmpa (.imm 0x5A)), ([0x91, 0x42], .cmpa (.mem (.dir 0x42))),
   ([0xB1, 0x12, 0x34], .cmpa (.mem (.ext 0x1234))), ([0xC1, 0x5A], .cmpb (.imm 0x5A)),
   ([0xD1, 0x42], .cmpb (.mem (.dir 0x42))), ([0xF1, 0x12, 0x34], .cmpb (.mem (.ext 0x1234))),
   ([0x82, 0x5A], .sbca (.imm 0x5A)), ([0x92, 0x42], .sbca (.mem (.dir 0x42))),
   ([0xB2, 0x12, 0x34], .sbca (.mem (.ext 0x1234))), ([0xC2, 0x5A], .sbcb (.imm 0x5A)),
   ([0xD2, 0x42], .sbcb (.mem (.dir 0x42))), ([0xF2, 0x12, 0x34], .sbcb (.mem (.ext 0x1234))),
   ([0x80, 0x5A], .suba (.imm 0x5A)), ([0x90, 0x42], .suba (.mem (.dir 0x42))),
   ([0xB0, 0x12, 0x34], .suba (.mem (.ext 0x1234))), ([0xC0, 0x5A], .subb (.imm 0x5A)),
   ([0xD0, 0x42], .subb (.mem (.dir 0x42))), ([0xF0, 0x12, 0x34], .subb (.mem (.ext 0x1234))),
   ([0xC3, 0x12, 0x34], .addd (.imm 0x1234)), ([0xD3, 0x42], .addd (.mem (.dir 0x42))),
   ([0xF3, 0x12, 0x34], .addd (.mem (.ext 0x1234))), ([0x83, 0x12, 0x34], .subd (.imm 0x1234)),
   ([0x93, 0x42], .subd (.mem (.dir 0x42))), ([0xB3, 0x12, 0x34], .subd (.mem (.ext 0x1234))),
   ([0x1A, 0x83, 0x12, 0x34], .cpd (.imm 0x1234)), ([0x1A, 0x93, 0x42], .cpd (.mem (.dir 0x42))),
   ([0x1A, 0xB3, 0x12, 0x34], .cpd (.mem (.ext 0x1234))), ([0x8C, 0x12, 0x34], .cpx (.imm 0x1234)),
   ([0x9C, 0x42], .cpx (.mem (.dir 0x42))), ([0xBC, 0x12, 0x34], .cpx (.mem (.ext 0x1234))),
   ([0x18, 0x8C, 0x12, 0x34], .cpy (.imm 0x1234)), ([0x18, 0x9C, 0x42], .cpy (.mem (.dir 0x42))),
   ([0x18, 0xBC, 0x12, 0x34], .cpy (.mem (.ext 0x1234))), ([0x40], .nega), ([0x50], .negb),
   ([0x70, 0x12, 0x34], .neg (.ext 0x1234)), ([0x4A], .deca), ([0x5A], .decb),
   ([0x7A, 0x12, 0x34], .dec (.ext 0x1234)), ([0x4C], .inca), ([0x5C], .incb),
   ([0x7C, 0x12, 0x34], .inc (.ext 0x1234)), ([0x4D], .tsta), ([0x5D], .tstb),
   ([0x7D, 0x12, 0x34], .tst (.ext 0x1234)), ([0x1B], .aba), ([0x3A], .abx), ([0x18, 0x3A], .aby)] :
    List (List Byte × Instr)).all decodesTo = true := by decide

theorem test_decode_arithmetic_2 : (
  [([0x11], .cba), ([0x19], .daa), ([0x34], .des), ([0x09], .dex), ([0x18, 0x09], .dey), ([0x03], .fdiv),
   ([0x02], .idiv), ([0x31], .ins), ([0x08], .inx), ([0x18, 0x08], .iny), ([0x3D], .mul), ([0x10], .sba)] :
    List (List Byte × Instr)).all decodesTo = true := by decide

theorem test_decode_arithmetic_indexed : (
  [([0xA9, 0x7F], .adca (.mem (.indX 0x7F))), ([0x18, 0xA9, 0x80], .adca (.mem (.indY 0x80))),
   ([0xE9, 0x7F], .adcb (.mem (.indX 0x7F))), ([0x18, 0xE9, 0x80], .adcb (.mem (.indY 0x80))),
   ([0xAB, 0x7F], .adda (.mem (.indX 0x7F))), ([0x18, 0xAB, 0x80], .adda (.mem (.indY 0x80))),
   ([0xEB, 0x7F], .addb (.mem (.indX 0x7F))), ([0x18, 0xEB, 0x80], .addb (.mem (.indY 0x80))),
   ([0xA1, 0x7F], .cmpa (.mem (.indX 0x7F))), ([0x18, 0xA1, 0x80], .cmpa (.mem (.indY 0x80))),
   ([0xE1, 0x7F], .cmpb (.mem (.indX 0x7F))), ([0x18, 0xE1, 0x80], .cmpb (.mem (.indY 0x80))),
   ([0xA2, 0x7F], .sbca (.mem (.indX 0x7F))), ([0x18, 0xA2, 0x80], .sbca (.mem (.indY 0x80))),
   ([0xE2, 0x7F], .sbcb (.mem (.indX 0x7F))), ([0x18, 0xE2, 0x80], .sbcb (.mem (.indY 0x80))),
   ([0xA0, 0x7F], .suba (.mem (.indX 0x7F))), ([0x18, 0xA0, 0x80], .suba (.mem (.indY 0x80))),
   ([0xE0, 0x7F], .subb (.mem (.indX 0x7F))), ([0x18, 0xE0, 0x80], .subb (.mem (.indY 0x80))),
   ([0xE3, 0x7F], .addd (.mem (.indX 0x7F))), ([0x18, 0xE3, 0x80], .addd (.mem (.indY 0x80))),
   ([0xA3, 0x7F], .subd (.mem (.indX 0x7F))), ([0x18, 0xA3, 0x80], .subd (.mem (.indY 0x80))),
   ([0x1A, 0xA3, 0x7F], .cpd (.mem (.indX 0x7F))), ([0xCD, 0xA3, 0x80], .cpd (.mem (.indY 0x80))),
   ([0xAC, 0x7F], .cpx (.mem (.indX 0x7F))), ([0xCD, 0xAC, 0x80], .cpx (.mem (.indY 0x80))),
   ([0x1A, 0xAC, 0x7F], .cpy (.mem (.indX 0x7F))), ([0x18, 0xAC, 0x80], .cpy (.mem (.indY 0x80))),
   ([0x60, 0x7F], .neg (.indX 0x7F)), ([0x18, 0x60, 0x80], .neg (.indY 0x80)), ([0x6A, 0x7F], .dec (.indX 0x7F)),
   ([0x18, 0x6A, 0x80], .dec (.indY 0x80)), ([0x6C, 0x7F], .inc (.indX 0x7F)),
   ([0x18, 0x6C, 0x80], .inc (.indY 0x80)), ([0x6D, 0x7F], .tst (.indX 0x7F)),
   ([0x18, 0x6D, 0x80], .tst (.indY 0x80))] :
    List (List Byte × Instr)).all decodesTo = true := by decide

theorem test_decode_logic : (
  [([0x84, 0x5A], .anda (.imm 0x5A)), ([0x94, 0x42], .anda (.mem (.dir 0x42))),
   ([0xB4, 0x12, 0x34], .anda (.mem (.ext 0x1234))), ([0xC4, 0x5A], .andb (.imm 0x5A)),
   ([0xD4, 0x42], .andb (.mem (.dir 0x42))), ([0xF4, 0x12, 0x34], .andb (.mem (.ext 0x1234))),
   ([0x85, 0x5A], .bita (.imm 0x5A)), ([0x95, 0x42], .bita (.mem (.dir 0x42))),
   ([0xB5, 0x12, 0x34], .bita (.mem (.ext 0x1234))), ([0xC5, 0x5A], .bitb (.imm 0x5A)),
   ([0xD5, 0x42], .bitb (.mem (.dir 0x42))), ([0xF5, 0x12, 0x34], .bitb (.mem (.ext 0x1234))),
   ([0x88, 0x5A], .eora (.imm 0x5A)), ([0x98, 0x42], .eora (.mem (.dir 0x42))),
   ([0xB8, 0x12, 0x34], .eora (.mem (.ext 0x1234))), ([0xC8, 0x5A], .eorb (.imm 0x5A)),
   ([0xD8, 0x42], .eorb (.mem (.dir 0x42))), ([0xF8, 0x12, 0x34], .eorb (.mem (.ext 0x1234))),
   ([0x8A, 0x5A], .oraa (.imm 0x5A)), ([0x9A, 0x42], .oraa (.mem (.dir 0x42))),
   ([0xBA, 0x12, 0x34], .oraa (.mem (.ext 0x1234))), ([0xCA, 0x5A], .orab (.imm 0x5A)),
   ([0xDA, 0x42], .orab (.mem (.dir 0x42))), ([0xFA, 0x12, 0x34], .orab (.mem (.ext 0x1234))), ([0x43], .coma),
   ([0x53], .comb), ([0x73, 0x12, 0x34], .com (.ext 0x1234)), ([0x44], .lsra), ([0x54], .lsrb),
   ([0x74, 0x12, 0x34], .lsr (.ext 0x1234)), ([0x46], .rora), ([0x56], .rorb),
   ([0x76, 0x12, 0x34], .ror (.ext 0x1234)), ([0x47], .asra), ([0x57], .asrb),
   ([0x77, 0x12, 0x34], .asr (.ext 0x1234)), ([0x48], .asla), ([0x58], .aslb),
   ([0x78, 0x12, 0x34], .asl (.ext 0x1234)), ([0x49], .rola), ([0x59], .rolb),
   ([0x79, 0x12, 0x34], .rol (.ext 0x1234)), ([0x48], .asla), ([0x58], .aslb),
   ([0x78, 0x12, 0x34], .asl (.ext 0x1234)), ([0x05], .asld), ([0x0C], .clc), ([0x0A], .clv), ([0x04], .lsrd),
   ([0x0D], .sec), ([0x0B], .sev), ([0x05], .asld), ([0x14, 0x42, 0x81], .bset (.dir 0x42) 0x81),
   ([0x15, 0x42, 0x81], .bclr (.dir 0x42) 0x81)] :
    List (List Byte × Instr)).all decodesTo = true := by decide

theorem test_decode_logic_indexed : (
  [([0xA4, 0x7F], .anda (.mem (.indX 0x7F))), ([0x18, 0xA4, 0x80], .anda (.mem (.indY 0x80))),
   ([0xE4, 0x7F], .andb (.mem (.indX 0x7F))), ([0x18, 0xE4, 0x80], .andb (.mem (.indY 0x80))),
   ([0xA5, 0x7F], .bita (.mem (.indX 0x7F))), ([0x18, 0xA5, 0x80], .bita (.mem (.indY 0x80))),
   ([0xE5, 0x7F], .bitb (.mem (.indX 0x7F))), ([0x18, 0xE5, 0x80], .bitb (.mem (.indY 0x80))),
   ([0xA8, 0x7F], .eora (.mem (.indX 0x7F))), ([0x18, 0xA8, 0x80], .eora (.mem (.indY 0x80))),
   ([0xE8, 0x7F], .eorb (.mem (.indX 0x7F))), ([0x18, 0xE8, 0x80], .eorb (.mem (.indY 0x80))),
   ([0xAA, 0x7F], .oraa (.mem (.indX 0x7F))), ([0x18, 0xAA, 0x80], .oraa (.mem (.indY 0x80))),
   ([0xEA, 0x7F], .orab (.mem (.indX 0x7F))), ([0x18, 0xEA, 0x80], .orab (.mem (.indY 0x80))),
   ([0x63, 0x7F], .com (.indX 0x7F)), ([0x18, 0x63, 0x80], .com (.indY 0x80)), ([0x64, 0x7F], .lsr (.indX 0x7F)),
   ([0x18, 0x64, 0x80], .lsr (.indY 0x80)), ([0x66, 0x7F], .ror (.indX 0x7F)),
   ([0x18, 0x66, 0x80], .ror (.indY 0x80)), ([0x67, 0x7F], .asr (.indX 0x7F)),
   ([0x18, 0x67, 0x80], .asr (.indY 0x80)), ([0x68, 0x7F], .asl (.indX 0x7F)),
   ([0x18, 0x68, 0x80], .asl (.indY 0x80)), ([0x69, 0x7F], .rol (.indX 0x7F)),
   ([0x18, 0x69, 0x80], .rol (.indY 0x80)), ([0x68, 0x7F], .asl (.indX 0x7F)),
   ([0x18, 0x68, 0x80], .asl (.indY 0x80)), ([0x1C, 0x7F, 0x81], .bset (.indX 0x7F) 0x81),
   ([0x18, 0x1C, 0x80, 0x81], .bset (.indY 0x80) 0x81), ([0x1D, 0x7F, 0x81], .bclr (.indX 0x7F) 0x81),
   ([0x18, 0x1D, 0x80, 0x81], .bclr (.indY 0x80) 0x81)] :
    List (List Byte × Instr)).all decodesTo = true := by decide

theorem test_decode_control : (
  [([0x01], .nop), ([0x39], .rts), ([0x24, 0xFB], .bcc 0xFB), ([0x25, 0xFB], .bcs 0xFB), ([0x27, 0xFB], .beq 0xFB),
   ([0x2C, 0xFB], .bge 0xFB), ([0x2E, 0xFB], .bgt 0xFB), ([0x22, 0xFB], .bhi 0xFB), ([0x2F, 0xFB], .ble 0xFB),
   ([0x23, 0xFB], .bls 0xFB), ([0x2D, 0xFB], .blt 0xFB), ([0x2B, 0xFB], .bmi 0xFB), ([0x26, 0xFB], .bne 0xFB),
   ([0x2A, 0xFB], .bpl 0xFB), ([0x20, 0xFB], .bra 0xFB), ([0x21, 0xFB], .brn 0xFB), ([0x28, 0xFB], .bvc 0xFB),
   ([0x29, 0xFB], .bvs 0xFB), ([0x24, 0xFB], .bcc 0xFB), ([0x25, 0xFB], .bcs 0xFB), ([0x8D, 0xFB], .bsr 0xFB),
   ([0x12, 0x42, 0x81, 0xFB], .brset (.dir 0x42) 0x81 0xFB),
   ([0x13, 0x42, 0x81, 0xFB], .brclr (.dir 0x42) 0x81 0xFB), ([0x7E, 0x12, 0x34], .jmp (.ext 0x1234)),
   ([0x9D, 0x42], .jsr (.dir 0x42)), ([0xBD, 0x12, 0x34], .jsr (.ext 0x1234))] :
    List (List Byte × Instr)).all decodesTo = true := by decide

theorem test_decode_control_indexed : (
  [([0x1E, 0x7F, 0x81, 0xFB], .brset (.indX 0x7F) 0x81 0xFB),
   ([0x18, 0x1E, 0x80, 0x81, 0xFB], .brset (.indY 0x80) 0x81 0xFB),
   ([0x1F, 0x7F, 0x81, 0xFB], .brclr (.indX 0x7F) 0x81 0xFB),
   ([0x18, 0x1F, 0x80, 0x81, 0xFB], .brclr (.indY 0x80) 0x81 0xFB), ([0x6E, 0x7F], .jmp (.indX 0x7F)),
   ([0x18, 0x6E, 0x80], .jmp (.indY 0x80)), ([0xAD, 0x7F], .jsr (.indX 0x7F)),
   ([0x18, 0xAD, 0x80], .jsr (.indY 0x80))] :
    List (List Byte × Instr)).all decodesTo = true := by decide

theorem test_decode_system : (
  [([0x0E], .cli), ([0x3B], .rti), ([0x0F], .sei), ([0xCF], .stop), ([0x3F], .swi), ([0x00], .test), ([0x3E], .wai)] :
    List (List Byte × Instr)).all decodesTo = true := by decide

theorem test_decode_refuses : ([[0x41], [0x87], [0xC7], [0x18, 0x00], [0x18, 0x18, 0x08], [0x1A, 0xCE], [0xCD, 0xAE]] :
    List (List Byte)).all (fun bytes => match decode bytes with | .undefined _ _ => true | _ => false) = true := by
  decide

theorem test_table_word_one_byte : decodeTableWord 8 0x89 = some (.adca (.imm 0x00)) := by decide

theorem test_table_word_two_bytes : decodeTableWord 16 0x183A = some .aby := by decide

theorem test_fetch_word_runs : (match step (State.reset.withFetchWord 8 0x4C) with
    | .next t => t.a == 0x01 && t.pc == 0x0001 | _ => false) = true := by decide

/-! ### Single steps of the spec's test vectors -/

/-- The registers of a test vector. -/
structure Regs where
  a : Byte
  b : Byte
  ix : Word
  iy : Word
  sp : Word
  pc : Word
  ccr : Byte
deriving DecidableEq, Repr

/-- A test vector: the code at the PC, the registers and bytes of memory before, and those after. -/
structure Case where
  code : List Byte
  before : Regs
  data : List (Word × Byte)
  after : Regs
  stored : List (Word × Byte)
deriving DecidableEq, Repr

/-- The state before. -/
def Case.start (e : Case) : State :=
  { State.reset with
    a := e.before.a, b := e.before.b, ix := e.before.ix, iy := e.before.iy, sp := e.before.sp, pc := e.before.pc
    ccr := Ccr.ofByte e.before.ccr
    mem := Memory.load (e.data.foldl (fun (m : Memory) c => Memory.write m c.1.toNat c.2) ([] : Memory)) e.before.pc e.code }

/-- One step leaves the registers and bytes of the vector. -/
def Case.passes (e : Case) : Bool :=
  match step e.start with
  | .next t => (⟨t.a, t.b, t.ix, t.iy, t.sp, t.pc, t.ccr.toByte⟩ : Regs) == e.after &&
      e.stored.all fun c => t.byteAt c.1 == c.2
  | _ => false

/-- V2, V3, V5, V6, V9, V10, V11, V12, V13, V14, V15, V17 of 95_test_vectors.md. -/
theorem test_vectors_loads_stores_1 : ([
   ⟨[0x86, 0x00], ⟨0x55, 0x00, 0x0000, 0x0000, 0x01FF, 0xC000, 0xDB⟩, [], ⟨0x00, 0x00, 0x0000, 0x0000, 0x01FF, 0xC002, 0xD5⟩, []⟩,
   ⟨[0xD6, 0x10], ⟨0x00, 0x00, 0x0000, 0x0000, 0x01FF, 0xC000, 0xD0⟩, [(0x0010, 0x7F)], ⟨0x00, 0x7F, 0x0000, 0x0000, 0x01FF, 0xC002, 0xD0⟩, []⟩,
   ⟨[0xEE, 0x02], ⟨0x00, 0x00, 0xFFFF, 0x0000, 0x01FF, 0xC000, 0xD0⟩, [(0x0001, 0x12), (0x0002, 0x34)], ⟨0x00, 0x00, 0x1234, 0x0000, 0x01FF, 0xC002, 0xD0⟩, []⟩,
   ⟨[0x18, 0xCE, 0x80, 0x00], ⟨0x00, 0x00, 0x0000, 0x0000, 0x01FF, 0xC000, 0xD0⟩, [], ⟨0x00, 0x00, 0x0000, 0x8000, 0x01FF, 0xC004, 0xD8⟩, []⟩,
   ⟨[0x8E, 0x01, 0xFF], ⟨0x00, 0x00, 0x0000, 0x0000, 0x0000, 0xC000, 0xD0⟩, [], ⟨0x00, 0x00, 0x0000, 0x0000, 0x01FF, 0xC003, 0xD0⟩, []⟩,
   ⟨[0xFC, 0xFF, 0xFF], ⟨0x00, 0x00, 0x0000, 0x0000, 0x01FF, 0xC000, 0xD0⟩, [(0xFFFF, 0x12), (0x0000, 0x34)], ⟨0x12, 0x34, 0x0000, 0x0000, 0x01FF, 0xC003, 0xD0⟩, []⟩,
   ⟨[0x97, 0x20], ⟨0x80, 0x00, 0x0000, 0x0000, 0x01FF, 0xC000, 0xD3⟩, [], ⟨0x80, 0x00, 0x0000, 0x0000, 0x01FF, 0xC002, 0xD9⟩, [(0x0020, 0x80)]⟩,
   ⟨[0xF7, 0x20, 0x00], ⟨0x00, 0x00, 0x0000, 0x0000, 0x01FF, 0xC000, 0xD0⟩, [], ⟨0x00, 0x00, 0x0000, 0x0000, 0x01FF, 0xC003, 0xD4⟩, [(0x2000, 0x00)]⟩,
   ⟨[0x18, 0xED, 0x04], ⟨0x12, 0x34, 0x0000, 0x0100, 0x01FF, 0xC000, 0xD0⟩, [], ⟨0x12, 0x34, 0x0000, 0x0100, 0x01FF, 0xC003, 0xD0⟩, [(0x0104, 0x12), (0x0105, 0x34)]⟩,
   ⟨[0xFF, 0xFF, 0xFF], ⟨0x00, 0x00, 0xA55A, 0x0000, 0x01FF, 0xC000, 0xD0⟩, [], ⟨0x00, 0x00, 0xA55A, 0x0000, 0x01FF, 0xC003, 0xD8⟩, [(0xFFFF, 0xA5), (0x0000, 0x5A)]⟩,
   ⟨[0x18, 0xDF, 0x30], ⟨0x00, 0x00, 0x0000, 0x0000, 0x01FF, 0xC000, 0xD0⟩, [], ⟨0x00, 0x00, 0x0000, 0x0000, 0x01FF, 0xC003, 0xD4⟩, [(0x0030, 0x00), (0x0031, 0x00)]⟩,
   ⟨[0x9F, 0x40], ⟨0x00, 0x00, 0x0000, 0x0000, 0x01FF, 0xC000, 0xD0⟩, [], ⟨0x00, 0x00, 0x0000, 0x0000, 0x01FF, 0xC002, 0xD0⟩, [(0x0040, 0x01), (0x0041, 0xFF)]⟩] : List Case).all Case.passes = true := by decide

/-- V18, V19, V21, V22, V24, V25, V26, V27, V28, V29, V30, V31 of 95_test_vectors.md. -/
theorem test_vectors_loads_stores_2 : ([
   ⟨[0x16], ⟨0x80, 0x01, 0x0000, 0x0000, 0x01FF, 0xC000, 0xD0⟩, [], ⟨0x80, 0x80, 0x0000, 0x0000, 0x01FF, 0xC001, 0xD8⟩, []⟩,
   ⟨[0x17], ⟨0x80, 0x00, 0x0000, 0x0000, 0x01FF, 0xC000, 0xD0⟩, [], ⟨0x00, 0x00, 0x0000, 0x0000, 0x01FF, 0xC001, 0xD4⟩, []⟩,
   ⟨[0x06], ⟨0xFF, 0x00, 0x0000, 0x0000, 0x01FF, 0xC000, 0x00⟩, [], ⟨0xFF, 0x00, 0x0000, 0x0000, 0x01FF, 0xC001, 0xBF⟩, []⟩,
   ⟨[0x07], ⟨0x00, 0x00, 0x0000, 0x0000, 0x01FF, 0xC000, 0xD5⟩, [], ⟨0xD5, 0x00, 0x0000, 0x0000, 0x01FF, 0xC001, 0xD5⟩, []⟩,
   ⟨[0x30], ⟨0x00, 0x00, 0x1234, 0x0000, 0xFFFF, 0xC000, 0xD0⟩, [], ⟨0x00, 0x00, 0x0000, 0x0000, 0xFFFF, 0xC001, 0xD0⟩, []⟩,
   ⟨[0x35], ⟨0x00, 0x00, 0x0100, 0x0000, 0x01FF, 0xC000, 0xD0⟩, [], ⟨0x00, 0x00, 0x0100, 0x0000, 0x00FF, 0xC001, 0xD0⟩, []⟩,
   ⟨[0x18, 0x30], ⟨0x00, 0x00, 0x0000, 0x0000, 0x01F0, 0xC000, 0xD0⟩, [], ⟨0x00, 0x00, 0x0000, 0x01F1, 0x01F0, 0xC002, 0xD0⟩, []⟩,
   ⟨[0x18, 0x35], ⟨0x00, 0x00, 0x0000, 0x0000, 0x01FF, 0xC000, 0xD0⟩, [], ⟨0x00, 0x00, 0x0000, 0x0000, 0xFFFF, 0xC002, 0xD0⟩, []⟩,
   ⟨[0x8F], ⟨0x12, 0x34, 0xABCD, 0x0000, 0x01FF, 0xC000, 0xD0⟩, [], ⟨0xAB, 0xCD, 0x1234, 0x0000, 0x01FF, 0xC001, 0xD0⟩, []⟩,
   ⟨[0x18, 0x8F], ⟨0x12, 0x34, 0x0000, 0xABCD, 0x01FF, 0xC000, 0xD0⟩, [], ⟨0xAB, 0xCD, 0x0000, 0x1234, 0x01FF, 0xC002, 0xD0⟩, []⟩,
   ⟨[0x36], ⟨0x5A, 0x00, 0x0000, 0x0000, 0x01FF, 0xC000, 0xD0⟩, [], ⟨0x5A, 0x00, 0x0000, 0x0000, 0x01FE, 0xC001, 0xD0⟩, [(0x01FF, 0x5A)]⟩,
   ⟨[0x37], ⟨0x00, 0xA5, 0x0000, 0x0000, 0x0000, 0xC000, 0xD0⟩, [], ⟨0x00, 0xA5, 0x0000, 0x0000, 0xFFFF, 0xC001, 0xD0⟩, [(0x0000, 0xA5)]⟩] : List Case).all Case.passes = true := by decide

/-- V32, V33, V34, V35, V36, V37, V38, V40, V41 of 95_test_vectors.md. -/
theorem test_vectors_loads_stores_3 : ([
   ⟨[0x3C], ⟨0x00, 0x00, 0x1234, 0x0000, 0x01FF, 0xC000, 0xD0⟩, [], ⟨0x00, 0x00, 0x1234, 0x0000, 0x01FD, 0xC001, 0xD0⟩, [(0x01FF, 0x34), (0x01FE, 0x12)]⟩,
   ⟨[0x18, 0x3C], ⟨0x00, 0x00, 0x0000, 0x1234, 0x01FF, 0xC000, 0xD0⟩, [], ⟨0x00, 0x00, 0x0000, 0x1234, 0x01FD, 0xC002, 0xD0⟩, [(0x01FF, 0x34), (0x01FE, 0x12)]⟩,
   ⟨[0x32], ⟨0x00, 0x00, 0x0000, 0x0000, 0x01FD, 0xC000, 0xD0⟩, [(0x01FE, 0x77)], ⟨0x77, 0x00, 0x0000, 0x0000, 0x01FE, 0xC001, 0xD0⟩, []⟩,
   ⟨[0x33], ⟨0x00, 0x00, 0x0000, 0x0000, 0x01FD, 0xC000, 0xD0⟩, [(0x01FE, 0x00)], ⟨0x00, 0x00, 0x0000, 0x0000, 0x01FE, 0xC001, 0xD0⟩, []⟩,
   ⟨[0x38], ⟨0x00, 0x00, 0x0000, 0x0000, 0x01FD, 0xC000, 0xD0⟩, [(0x01FE, 0x12), (0x01FF, 0x34)], ⟨0x00, 0x00, 0x1234, 0x0000, 0x01FF, 0xC001, 0xD0⟩, []⟩,
   ⟨[0x18, 0x38], ⟨0x00, 0x00, 0x0000, 0x0000, 0x01FD, 0xC000, 0xD0⟩, [(0x01FE, 0x12), (0x01FF, 0x34)], ⟨0x00, 0x00, 0x0000, 0x1234, 0x01FF, 0xC002, 0xD0⟩, []⟩,
   ⟨[0x7F, 0x20, 0x00], ⟨0x00, 0x00, 0x0000, 0x0000, 0x01FF, 0xC000, 0xDB⟩, [(0x2000, 0xFF)], ⟨0x00, 0x00, 0x0000, 0x0000, 0x01FF, 0xC003, 0xD4⟩, [(0x2000, 0x00)]⟩,
   ⟨[0x4F], ⟨0xFF, 0x00, 0x0000, 0x0000, 0x01FF, 0xC000, 0xFB⟩, [], ⟨0x00, 0x00, 0x0000, 0x0000, 0x01FF, 0xC001, 0xF4⟩, []⟩,
   ⟨[0x5F], ⟨0x00, 0x01, 0x0000, 0x0000, 0x01FF, 0xC000, 0xD0⟩, [], ⟨0x00, 0x00, 0x0000, 0x0000, 0x01FF, 0xC001, 0xD4⟩, []⟩] : List Case).all Case.passes = true := by decide

/-- V42, V44, V45, V46, V47, V48, V49, V51, V53, V54, V55, V57 of 95_test_vectors.md. -/
theorem test_vectors_arithmetic_1 : ([
   ⟨[0x1B], ⟨0x0F, 0x01, 0x0000, 0x0000, 0x01FF, 0xC000, 0xD0⟩, [], ⟨0x10, 0x01, 0x0000, 0x0000, 0x01FF, 0xC001, 0xF0⟩, []⟩,
   ⟨[0x3A], ⟨0x00, 0xFF, 0xFF01, 0x0000, 0x01FF, 0xC000, 0xD0⟩, [], ⟨0x00, 0xFF, 0x0000, 0x0000, 0x01FF, 0xC001, 0xD0⟩, []⟩,
   ⟨[0x18, 0x3A], ⟨0x00, 0x80, 0x0000, 0x0080, 0x01FF, 0xC000, 0xD0⟩, [], ⟨0x00, 0x80, 0x0000, 0x0100, 0x01FF, 0xC002, 0xD0⟩, []⟩,
   ⟨[0x89, 0x00], ⟨0xFF, 0x00, 0x0000, 0x0000, 0x01FF, 0xC000, 0xD1⟩, [], ⟨0x00, 0x00, 0x0000, 0x0000, 0x01FF, 0xC002, 0xF5⟩, []⟩,
   ⟨[0xD9, 0x10], ⟨0x00, 0x7F, 0x0000, 0x0000, 0x01FF, 0xC000, 0xD1⟩, [(0x0010, 0x00)], ⟨0x00, 0x80, 0x0000, 0x0000, 0x01FF, 0xC002, 0xFA⟩, []⟩,
   ⟨[0x8B, 0x01], ⟨0x7F, 0x00, 0x0000, 0x0000, 0x01FF, 0xC000, 0xD0⟩, [], ⟨0x80, 0x00, 0x0000, 0x0000, 0x01FF, 0xC002, 0xFA⟩, []⟩,
   ⟨[0xCB, 0x01], ⟨0x00, 0xFF, 0x0000, 0x0000, 0x01FF, 0xC000, 0xD0⟩, [], ⟨0x00, 0x00, 0x0000, 0x0000, 0x01FF, 0xC002, 0xF5⟩, []⟩,
   ⟨[0xC3, 0x00, 0x01], ⟨0xFF, 0xFF, 0x0000, 0x0000, 0x01FF, 0xC000, 0xD0⟩, [], ⟨0x00, 0x00, 0x0000, 0x0000, 0x01FF, 0xC003, 0xD5⟩, []⟩,
   ⟨[0x11], ⟨0x01, 0x02, 0x0000, 0x0000, 0x01FF, 0xC000, 0xD0⟩, [], ⟨0x01, 0x02, 0x0000, 0x0000, 0x01FF, 0xC001, 0xD9⟩, []⟩,
   ⟨[0x81, 0x01], ⟨0x80, 0x00, 0x0000, 0x0000, 0x01FF, 0xC000, 0xD0⟩, [], ⟨0x80, 0x00, 0x0000, 0x0000, 0x01FF, 0xC002, 0xD2⟩, []⟩,
   ⟨[0xC1, 0xFF], ⟨0x00, 0x00, 0x0000, 0x0000, 0x01FF, 0xC000, 0xD0⟩, [], ⟨0x00, 0x00, 0x0000, 0x0000, 0x01FF, 0xC002, 0xD1⟩, []⟩,
   ⟨[0x1A, 0x83, 0x12, 0x34], ⟨0x12, 0x34, 0x0000, 0x0000, 0x01FF, 0xC000, 0xD0⟩, [], ⟨0x12, 0x34, 0x0000, 0x0000, 0x01FF, 0xC004, 0xD4⟩, []⟩] : List Case).all Case.passes = true := by decide

/-- V59, V61, V74, V75, V76, V77, V78, V80, V81, V87, V91, V92 of 95_test_vectors.md. -/
theorem test_vectors_arithmetic_2 : ([
   ⟨[0x8C, 0x80, 0x00], ⟨0x00, 0x00, 0x7FFF, 0x0000, 0x01FF, 0xC000, 0xD0⟩, [], ⟨0x00, 0x00, 0x7FFF, 0x0000, 0x01FF, 0xC003, 0xDB⟩, []⟩,
   ⟨[0x18, 0x8C, 0x00, 0x01], ⟨0x00, 0x00, 0x0000, 0x0002, 0x01FF, 0xC000, 0xD0⟩, [], ⟨0x00, 0x00, 0x0000, 0x0002, 0x01FF, 0xC004, 0xD0⟩, []⟩,
   ⟨[0x7A, 0x20, 0x00], ⟨0x00, 0x00, 0x0000, 0x0000, 0x01FF, 0xC000, 0xD1⟩, [(0x2000, 0x80)], ⟨0x00, 0x00, 0x0000, 0x0000, 0x01FF, 0xC003, 0xD3⟩, [(0x2000, 0x7F)]⟩,
   ⟨[0x4A], ⟨0x01, 0x00, 0x0000, 0x0000, 0x01FF, 0xC000, 0xD0⟩, [], ⟨0x00, 0x00, 0x0000, 0x0000, 0x01FF, 0xC001, 0xD4⟩, []⟩,
   ⟨[0x5A], ⟨0x00, 0x00, 0x0000, 0x0000, 0x01FF, 0xC000, 0xD0⟩, [], ⟨0x00, 0xFF, 0x0000, 0x0000, 0x01FF, 0xC001, 0xD8⟩, []⟩,
   ⟨[0x34], ⟨0x00, 0x00, 0x0000, 0x0000, 0x0000, 0xC000, 0xD0⟩, [], ⟨0x00, 0x00, 0x0000, 0x0000, 0xFFFF, 0xC001, 0xD0⟩, []⟩,
   ⟨[0x09], ⟨0x00, 0x00, 0x0001, 0x0000, 0x01FF, 0xC000, 0xD0⟩, [], ⟨0x00, 0x00, 0x0000, 0x0000, 0x01FF, 0xC001, 0xD4⟩, []⟩,
   ⟨[0x18, 0x09], ⟨0x00, 0x00, 0x0000, 0x0000, 0x01FF, 0xC000, 0xD0⟩, [], ⟨0x00, 0x00, 0x0000, 0xFFFF, 0x01FF, 0xC002, 0xD0⟩, []⟩,
   ⟨[0x03], ⟨0x00, 0x01, 0x0002, 0x0000, 0x01FF, 0xC000, 0xD0⟩, [], ⟨0x00, 0x00, 0x8000, 0x0000, 0x01FF, 0xC001, 0xD0⟩, []⟩,
   ⟨[0x02], ⟨0x00, 0x64, 0x0007, 0x0000, 0x01FF, 0xC000, 0xD0⟩, [], ⟨0x00, 0x02, 0x000E, 0x0000, 0x01FF, 0xC001, 0xD0⟩, []⟩,
   ⟨[0x7C, 0x20, 0x00], ⟨0x00, 0x00, 0x0000, 0x0000, 0x01FF, 0xC000, 0xD0⟩, [(0x2000, 0x7F)], ⟨0x00, 0x00, 0x0000, 0x0000, 0x01FF, 0xC003, 0xDA⟩, [(0x2000, 0x80)]⟩,
   ⟨[0x4C], ⟨0xFF, 0x00, 0x0000, 0x0000, 0x01FF, 0xC000, 0xD0⟩, [], ⟨0x00, 0x00, 0x0000, 0x0000, 0x01FF, 0xC001, 0xD4⟩, []⟩] : List Case).all Case.passes = true := by decide

/-- V93, V94, V95, V96, V97, V100, V101, V102, V103, V104, V105, V106 of 95_test_vectors.md. -/
theorem test_vectors_arithmetic_3 : ([
   ⟨[0x5C], ⟨0x00, 0x00, 0x0000, 0x0000, 0x01FF, 0xC000, 0xD0⟩, [], ⟨0x00, 0x01, 0x0000, 0x0000, 0x01FF, 0xC001, 0xD0⟩, []⟩,
   ⟨[0x31], ⟨0x00, 0x00, 0x0000, 0x0000, 0xFFFF, 0xC000, 0xD0⟩, [], ⟨0x00, 0x00, 0x0000, 0x0000, 0x0000, 0xC001, 0xD0⟩, []⟩,
   ⟨[0x08], ⟨0x00, 0x00, 0xFFFF, 0x0000, 0x01FF, 0xC000, 0xD0⟩, [], ⟨0x00, 0x00, 0x0000, 0x0000, 0x01FF, 0xC001, 0xD4⟩, []⟩,
   ⟨[0x18, 0x08], ⟨0x00, 0x00, 0x0000, 0x00FF, 0x01FF, 0xC000, 0xD0⟩, [], ⟨0x00, 0x00, 0x0000, 0x0100, 0x01FF, 0xC002, 0xD0⟩, []⟩,
   ⟨[0x3D], ⟨0xFF, 0xFF, 0x0000, 0x0000, 0x01FF, 0xC000, 0xD0⟩, [], ⟨0xFE, 0x01, 0x0000, 0x0000, 0x01FF, 0xC001, 0xD0⟩, []⟩,
   ⟨[0x70, 0x20, 0x00], ⟨0x00, 0x00, 0x0000, 0x0000, 0x01FF, 0xC000, 0xD0⟩, [(0x2000, 0x80)], ⟨0x00, 0x00, 0x0000, 0x0000, 0x01FF, 0xC003, 0xDB⟩, [(0x2000, 0x80)]⟩,
   ⟨[0x40], ⟨0x00, 0x00, 0x0000, 0x0000, 0x01FF, 0xC000, 0xD1⟩, [], ⟨0x00, 0x00, 0x0000, 0x0000, 0x01FF, 0xC001, 0xD4⟩, []⟩,
   ⟨[0x50], ⟨0x00, 0x01, 0x0000, 0x0000, 0x01FF, 0xC000, 0xD0⟩, [], ⟨0x00, 0xFF, 0x0000, 0x0000, 0x01FF, 0xC001, 0xD9⟩, []⟩,
   ⟨[0x10], ⟨0x80, 0x01, 0x0000, 0x0000, 0x01FF, 0xC000, 0xD0⟩, [], ⟨0x7F, 0x01, 0x0000, 0x0000, 0x01FF, 0xC001, 0xD2⟩, []⟩,
   ⟨[0x82, 0x00], ⟨0x00, 0x00, 0x0000, 0x0000, 0x01FF, 0xC000, 0xD1⟩, [], ⟨0xFF, 0x00, 0x0000, 0x0000, 0x01FF, 0xC002, 0xD9⟩, []⟩,
   ⟨[0xC2, 0xFF], ⟨0x00, 0x00, 0x0000, 0x0000, 0x01FF, 0xC000, 0xD1⟩, [], ⟨0x00, 0x00, 0x0000, 0x0000, 0x01FF, 0xC002, 0xD5⟩, []⟩,
   ⟨[0x80, 0x01], ⟨0x00, 0x00, 0x0000, 0x0000, 0x01FF, 0xC000, 0xD0⟩, [], ⟨0xFF, 0x00, 0x0000, 0x0000, 0x01FF, 0xC002, 0xD9⟩, []⟩] : List Case).all Case.passes = true := by decide

/-- V107, V108, V110, V111, V112 of 95_test_vectors.md. -/
theorem test_vectors_arithmetic_4 : ([
   ⟨[0xD0, 0x10], ⟨0x00, 0x50, 0x0000, 0x0000, 0x01FF, 0xC000, 0xD0⟩, [(0x0010, 0x50)], ⟨0x00, 0x00, 0x0000, 0x0000, 0x01FF, 0xC002, 0xD4⟩, []⟩,
   ⟨[0x83, 0x00, 0x01], ⟨0x80, 0x00, 0x0000, 0x0000, 0x01FF, 0xC000, 0xD0⟩, [], ⟨0x7F, 0xFF, 0x0000, 0x0000, 0x01FF, 0xC003, 0xD2⟩, []⟩,
   ⟨[0x7D, 0x20, 0x00], ⟨0x00, 0x00, 0x0000, 0x0000, 0x01FF, 0xC000, 0xD3⟩, [(0x2000, 0x80)], ⟨0x00, 0x00, 0x0000, 0x0000, 0x01FF, 0xC003, 0xD8⟩, []⟩,
   ⟨[0x4D], ⟨0x00, 0x00, 0x0000, 0x0000, 0x01FF, 0xC000, 0xD3⟩, [], ⟨0x00, 0x00, 0x0000, 0x0000, 0x01FF, 0xC001, 0xD4⟩, []⟩,
   ⟨[0x5D], ⟨0x00, 0x7F, 0x0000, 0x0000, 0x01FF, 0xC000, 0xD0⟩, [], ⟨0x00, 0x7F, 0x0000, 0x0000, 0x01FF, 0xC001, 0xD0⟩, []⟩] : List Case).all Case.passes = true := by decide

/-- V113, V114, V115, V116, V117, V118, V119, V120, V121, V122, V123, V124 of 95_test_vectors.md. -/
theorem test_vectors_logic_1 : ([
   ⟨[0x84, 0x0F], ⟨0xF0, 0x00, 0x0000, 0x0000, 0x01FF, 0xC000, 0xD3⟩, [], ⟨0x00, 0x00, 0x0000, 0x0000, 0x01FF, 0xC002, 0xD5⟩, []⟩,
   ⟨[0x18, 0xE4, 0x00], ⟨0x00, 0xFF, 0x0000, 0x0040, 0x01FF, 0xC000, 0xD0⟩, [(0x0040, 0x80)], ⟨0x00, 0x80, 0x0000, 0x0040, 0x01FF, 0xC003, 0xD8⟩, []⟩,
   ⟨[0x85, 0x80], ⟨0x80, 0x00, 0x0000, 0x0000, 0x01FF, 0xC000, 0xD0⟩, [], ⟨0x80, 0x00, 0x0000, 0x0000, 0x01FF, 0xC002, 0xD8⟩, []⟩,
   ⟨[0xD5, 0x10], ⟨0x00, 0x0F, 0x0000, 0x0000, 0x01FF, 0xC000, 0xD0⟩, [(0x0010, 0xF0)], ⟨0x00, 0x0F, 0x0000, 0x0000, 0x01FF, 0xC002, 0xD4⟩, []⟩,
   ⟨[0x88, 0xFF], ⟨0x55, 0x00, 0x0000, 0x0000, 0x01FF, 0xC000, 0xD0⟩, [], ⟨0xAA, 0x00, 0x0000, 0x0000, 0x01FF, 0xC002, 0xD8⟩, []⟩,
   ⟨[0xC8, 0xAA], ⟨0x00, 0xAA, 0x0000, 0x0000, 0x01FF, 0xC000, 0xD0⟩, [], ⟨0x00, 0x00, 0x0000, 0x0000, 0x01FF, 0xC002, 0xD4⟩, []⟩,
   ⟨[0x8A, 0x80], ⟨0x01, 0x00, 0x0000, 0x0000, 0x01FF, 0xC000, 0xD0⟩, [], ⟨0x81, 0x00, 0x0000, 0x0000, 0x01FF, 0xC002, 0xD8⟩, []⟩,
   ⟨[0xFA, 0x20, 0x00], ⟨0x00, 0x00, 0x0000, 0x0000, 0x01FF, 0xC000, 0xD0⟩, [(0x2000, 0x00)], ⟨0x00, 0x00, 0x0000, 0x0000, 0x01FF, 0xC003, 0xD4⟩, []⟩,
   ⟨[0x43], ⟨0x00, 0x00, 0x0000, 0x0000, 0x01FF, 0xC000, 0xD0⟩, [], ⟨0xFF, 0x00, 0x0000, 0x0000, 0x01FF, 0xC001, 0xD9⟩, []⟩,
   ⟨[0x53], ⟨0x00, 0xFF, 0x0000, 0x0000, 0x01FF, 0xC000, 0xD0⟩, [], ⟨0x00, 0x00, 0x0000, 0x0000, 0x01FF, 0xC001, 0xD5⟩, []⟩,
   ⟨[0x63, 0x00], ⟨0x00, 0x00, 0x2000, 0x0000, 0x01FF, 0xC000, 0xD0⟩, [(0x2000, 0x55)], ⟨0x00, 0x00, 0x2000, 0x0000, 0x01FF, 0xC002, 0xD9⟩, [(0x2000, 0xAA)]⟩,
   ⟨[0x48], ⟨0xC0, 0x00, 0x0000, 0x0000, 0x01FF, 0xC000, 0xD0⟩, [], ⟨0x80, 0x00, 0x0000, 0x0000, 0x01FF, 0xC001, 0xD9⟩, []⟩] : List Case).all Case.passes = true := by decide

/-- V125, V126, V127, V129, V130, V131, V132, V133, V134, V135, V137, V138 of 95_test_vectors.md. -/
theorem test_vectors_logic_2 : ([
   ⟨[0x58], ⟨0x00, 0x40, 0x0000, 0x0000, 0x01FF, 0xC000, 0xD0⟩, [], ⟨0x00, 0x80, 0x0000, 0x0000, 0x01FF, 0xC001, 0xDA⟩, []⟩,
   ⟨[0x78, 0x20, 0x00], ⟨0x00, 0x00, 0x0000, 0x0000, 0x01FF, 0xC000, 0xD0⟩, [(0x2000, 0x80)], ⟨0x00, 0x00, 0x0000, 0x0000, 0x01FF, 0xC003, 0xD7⟩, [(0x2000, 0x00)]⟩,
   ⟨[0x05], ⟨0x40, 0x80, 0x0000, 0x0000, 0x01FF, 0xC000, 0xD0⟩, [], ⟨0x81, 0x00, 0x0000, 0x0000, 0x01FF, 0xC001, 0xDA⟩, []⟩,
   ⟨[0x47], ⟨0x81, 0x00, 0x0000, 0x0000, 0x01FF, 0xC000, 0xD0⟩, [], ⟨0xC0, 0x00, 0x0000, 0x0000, 0x01FF, 0xC001, 0xD9⟩, []⟩,
   ⟨[0x57], ⟨0x00, 0x01, 0x0000, 0x0000, 0x01FF, 0xC000, 0xD0⟩, [], ⟨0x00, 0x00, 0x0000, 0x0000, 0x01FF, 0xC001, 0xD7⟩, []⟩,
   ⟨[0x18, 0x67, 0x00], ⟨0x00, 0x00, 0x0000, 0x2000, 0x01FF, 0xC000, 0xD0⟩, [(0x2000, 0xFE)], ⟨0x00, 0x00, 0x0000, 0x2000, 0x01FF, 0xC003, 0xDA⟩, [(0x2000, 0xFF)]⟩,
   ⟨[0x44], ⟨0x01, 0x00, 0x0000, 0x0000, 0x01FF, 0xC000, 0xD0⟩, [], ⟨0x00, 0x00, 0x0000, 0x0000, 0x01FF, 0xC001, 0xD7⟩, []⟩,
   ⟨[0x54], ⟨0x00, 0x80, 0x0000, 0x0000, 0x01FF, 0xC000, 0xD0⟩, [], ⟨0x00, 0x40, 0x0000, 0x0000, 0x01FF, 0xC001, 0xD0⟩, []⟩,
   ⟨[0x74, 0x20, 0x00], ⟨0x00, 0x00, 0x0000, 0x0000, 0x01FF, 0xC000, 0xD0⟩, [(0x2000, 0xFF)], ⟨0x00, 0x00, 0x0000, 0x0000, 0x01FF, 0xC003, 0xD3⟩, [(0x2000, 0x7F)]⟩,
   ⟨[0x04], ⟨0x01, 0x01, 0x0000, 0x0000, 0x01FF, 0xC000, 0xD0⟩, [], ⟨0x00, 0x80, 0x0000, 0x0000, 0x01FF, 0xC001, 0xD3⟩, []⟩,
   ⟨[0x49], ⟨0x80, 0x00, 0x0000, 0x0000, 0x01FF, 0xC000, 0xD1⟩, [], ⟨0x01, 0x00, 0x0000, 0x0000, 0x01FF, 0xC001, 0xD3⟩, []⟩,
   ⟨[0x59], ⟨0x00, 0x40, 0x0000, 0x0000, 0x01FF, 0xC000, 0xD0⟩, [], ⟨0x00, 0x80, 0x0000, 0x0000, 0x01FF, 0xC001, 0xDA⟩, []⟩] : List Case).all Case.passes = true := by decide

/-- V139, V140, V141, V142, V143, V146, V149, V150, V151, V152, V217, V218 of 95_test_vectors.md. -/
theorem test_vectors_logic_3 : ([
   ⟨[0x69, 0x00], ⟨0x00, 0x00, 0x2000, 0x0000, 0x01FF, 0xC000, 0xD1⟩, [(0x2000, 0x00)], ⟨0x00, 0x00, 0x2000, 0x0000, 0x01FF, 0xC002, 0xD0⟩, [(0x2000, 0x01)]⟩,
   ⟨[0x46], ⟨0x01, 0x00, 0x0000, 0x0000, 0x01FF, 0xC000, 0xD1⟩, [], ⟨0x80, 0x00, 0x0000, 0x0000, 0x01FF, 0xC001, 0xD9⟩, []⟩,
   ⟨[0x56], ⟨0x00, 0x01, 0x0000, 0x0000, 0x01FF, 0xC000, 0xD0⟩, [], ⟨0x00, 0x00, 0x0000, 0x0000, 0x01FF, 0xC001, 0xD7⟩, []⟩,
   ⟨[0x76, 0x20, 0x00], ⟨0x00, 0x00, 0x0000, 0x0000, 0x01FF, 0xC000, 0xD1⟩, [(0x2000, 0x00)], ⟨0x00, 0x00, 0x0000, 0x0000, 0x01FF, 0xC003, 0xDA⟩, [(0x2000, 0x80)]⟩,
   ⟨[0x15, 0x10, 0x0F], ⟨0x00, 0x00, 0x0000, 0x0000, 0x01FF, 0xC000, 0xD0⟩, [(0x0010, 0xFF)], ⟨0x00, 0x00, 0x0000, 0x0000, 0x01FF, 0xC003, 0xD8⟩, [(0x0010, 0xF0)]⟩,
   ⟨[0x14, 0x10, 0x80], ⟨0x00, 0x00, 0x0000, 0x0000, 0x01FF, 0xC000, 0xD0⟩, [(0x0010, 0x01)], ⟨0x00, 0x00, 0x0000, 0x0000, 0x01FF, 0xC003, 0xD8⟩, [(0x0010, 0x81)]⟩,
   ⟨[0x0C], ⟨0x00, 0x00, 0x0000, 0x0000, 0x01FF, 0xC000, 0xFF⟩, [], ⟨0x00, 0x00, 0x0000, 0x0000, 0x01FF, 0xC001, 0xFE⟩, []⟩,
   ⟨[0x0D], ⟨0x00, 0x00, 0x0000, 0x0000, 0x01FF, 0xC000, 0xD0⟩, [], ⟨0x00, 0x00, 0x0000, 0x0000, 0x01FF, 0xC001, 0xD1⟩, []⟩,
   ⟨[0x0A], ⟨0x00, 0x00, 0x0000, 0x0000, 0x01FF, 0xC000, 0xFF⟩, [], ⟨0x00, 0x00, 0x0000, 0x0000, 0x01FF, 0xC001, 0xFD⟩, []⟩,
   ⟨[0x0B], ⟨0x00, 0x00, 0x0000, 0x0000, 0x01FF, 0xC000, 0xC0⟩, [], ⟨0x00, 0x00, 0x0000, 0x0000, 0x01FF, 0xC001, 0xC2⟩, []⟩,
   ⟨[0x48], ⟨0x40, 0x00, 0x0000, 0x0000, 0x01FF, 0xC000, 0xD0⟩, [], ⟨0x80, 0x00, 0x0000, 0x0000, 0x01FF, 0xC001, 0xDA⟩, []⟩,
   ⟨[0x58], ⟨0x00, 0xC0, 0x0000, 0x0000, 0x01FF, 0xC000, 0xD0⟩, [], ⟨0x00, 0x80, 0x0000, 0x0000, 0x01FF, 0xC001, 0xD9⟩, []⟩] : List Case).all Case.passes = true := by decide

/-- V219, V220 of 95_test_vectors.md. -/
theorem test_vectors_logic_4 : ([
   ⟨[0x05], ⟨0x40, 0x80, 0x0000, 0x0000, 0x01FF, 0xC000, 0xD0⟩, [], ⟨0x81, 0x00, 0x0000, 0x0000, 0x01FF, 0xC001, 0xDA⟩, []⟩,
   ⟨[0x78, 0x00, 0x40], ⟨0x00, 0x00, 0x0000, 0x0000, 0x01FF, 0xC000, 0xD0⟩, [(0x0040, 0x80)], ⟨0x00, 0x00, 0x0000, 0x0000, 0x01FF, 0xC003, 0xD7⟩, [(0x0040, 0x00)]⟩] : List Case).all Case.passes = true := by decide

/-- V153, V155, V157, V159, V161, V163, V165, V167, V169, V171, V173, V175 of 95_test_vectors.md. -/
theorem test_vectors_control_1 : ([
   ⟨[0x24, 0x10], ⟨0x00, 0x00, 0x0000, 0x0000, 0x01FF, 0xC000, 0xD0⟩, [], ⟨0x00, 0x00, 0x0000, 0x0000, 0x01FF, 0xC012, 0xD0⟩, []⟩,
   ⟨[0x25, 0x10], ⟨0x00, 0x00, 0x0000, 0x0000, 0x01FF, 0xC000, 0xD1⟩, [], ⟨0x00, 0x00, 0x0000, 0x0000, 0x01FF, 0xC012, 0xD1⟩, []⟩,
   ⟨[0x27, 0x10], ⟨0x00, 0x00, 0x0000, 0x0000, 0x01FF, 0xC000, 0xD4⟩, [], ⟨0x00, 0x00, 0x0000, 0x0000, 0x01FF, 0xC012, 0xD4⟩, []⟩,
   ⟨[0x26, 0x10], ⟨0x00, 0x00, 0x0000, 0x0000, 0x01FF, 0xC000, 0xD0⟩, [], ⟨0x00, 0x00, 0x0000, 0x0000, 0x01FF, 0xC012, 0xD0⟩, []⟩,
   ⟨[0x2B, 0x10], ⟨0x00, 0x00, 0x0000, 0x0000, 0x01FF, 0xC000, 0xD8⟩, [], ⟨0x00, 0x00, 0x0000, 0x0000, 0x01FF, 0xC012, 0xD8⟩, []⟩,
   ⟨[0x2A, 0x10], ⟨0x00, 0x00, 0x0000, 0x0000, 0x01FF, 0xC000, 0xD0⟩, [], ⟨0x00, 0x00, 0x0000, 0x0000, 0x01FF, 0xC012, 0xD0⟩, []⟩,
   ⟨[0x29, 0x10], ⟨0x00, 0x00, 0x0000, 0x0000, 0x01FF, 0xC000, 0xD2⟩, [], ⟨0x00, 0x00, 0x0000, 0x0000, 0x01FF, 0xC012, 0xD2⟩, []⟩,
   ⟨[0x28, 0x10], ⟨0x00, 0x00, 0x0000, 0x0000, 0x01FF, 0xC000, 0xD0⟩, [], ⟨0x00, 0x00, 0x0000, 0x0000, 0x01FF, 0xC012, 0xD0⟩, []⟩,
   ⟨[0x22, 0x10], ⟨0x00, 0x00, 0x0000, 0x0000, 0x01FF, 0xC000, 0xD0⟩, [], ⟨0x00, 0x00, 0x0000, 0x0000, 0x01FF, 0xC012, 0xD0⟩, []⟩,
   ⟨[0x23, 0x10], ⟨0x00, 0x00, 0x0000, 0x0000, 0x01FF, 0xC000, 0xD1⟩, [], ⟨0x00, 0x00, 0x0000, 0x0000, 0x01FF, 0xC012, 0xD1⟩, []⟩,
   ⟨[0x2C, 0x10], ⟨0x00, 0x00, 0x0000, 0x0000, 0x01FF, 0xC000, 0xDA⟩, [], ⟨0x00, 0x00, 0x0000, 0x0000, 0x01FF, 0xC012, 0xDA⟩, []⟩,
   ⟨[0x2D, 0x10], ⟨0x00, 0x00, 0x0000, 0x0000, 0x01FF, 0xC000, 0xD8⟩, [], ⟨0x00, 0x00, 0x0000, 0x0000, 0x01FF, 0xC012, 0xD8⟩, []⟩] : List Case).all Case.passes = true := by decide

/-- V179, V183, V184, V187, V188, V192, V196, V200, V201, V205, V206, V221 of 95_test_vectors.md. -/
theorem test_vectors_control_2 : ([
   ⟨[0x2F, 0x10], ⟨0x00, 0x00, 0x0000, 0x0000, 0x01FF, 0xC000, 0xD4⟩, [], ⟨0x00, 0x00, 0x0000, 0x0000, 0x01FF, 0xC012, 0xD4⟩, []⟩,
   ⟨[0x2E, 0x10], ⟨0x00, 0x00, 0x0000, 0x0000, 0x01FF, 0xC000, 0xDA⟩, [], ⟨0x00, 0x00, 0x0000, 0x0000, 0x01FF, 0xC012, 0xDA⟩, []⟩,
   ⟨[0x20, 0x80], ⟨0x00, 0x00, 0x0000, 0x0000, 0x01FF, 0xC000, 0xD0⟩, [], ⟨0x00, 0x00, 0x0000, 0x0000, 0x01FF, 0xBF82, 0xD0⟩, []⟩,
   ⟨[0x21, 0x7F], ⟨0x00, 0x00, 0x0000, 0x0000, 0x01FF, 0xC000, 0xD0⟩, [], ⟨0x00, 0x00, 0x0000, 0x0000, 0x01FF, 0xC002, 0xD0⟩, []⟩,
   ⟨[0x13, 0x10, 0x0C, 0x05], ⟨0x00, 0x00, 0x0000, 0x0000, 0x01FF, 0xC000, 0xD0⟩, [(0x0010, 0xF0)], ⟨0x00, 0x00, 0x0000, 0x0000, 0x01FF, 0xC009, 0xD0⟩, []⟩,
   ⟨[0x12, 0x10, 0xC0, 0x05], ⟨0x00, 0x00, 0x0000, 0x0000, 0x01FF, 0xC000, 0xD0⟩, [(0x0010, 0xF0)], ⟨0x00, 0x00, 0x0000, 0x0000, 0x01FF, 0xC009, 0xD0⟩, []⟩,
   ⟨[0x8D, 0x20], ⟨0x00, 0x00, 0x0000, 0x0000, 0x01FF, 0xC000, 0xD0⟩, [], ⟨0x00, 0x00, 0x0000, 0x0000, 0x01FD, 0xC022, 0xD0⟩, [(0x01FF, 0x02), (0x01FE, 0xC0)]⟩,
   ⟨[0x18, 0x6E, 0xFF], ⟨0x00, 0x00, 0x0000, 0xFF80, 0x01FF, 0xC000, 0xD0⟩, [], ⟨0x00, 0x00, 0x0000, 0xFF80, 0x01FF, 0x007F, 0xD0⟩, []⟩,
   ⟨[0x9D, 0x40], ⟨0x00, 0x00, 0x0000, 0x0000, 0x01FF, 0xC000, 0xD0⟩, [], ⟨0x00, 0x00, 0x0000, 0x0000, 0x01FD, 0x0040, 0xD0⟩, [(0x01FF, 0x02), (0x01FE, 0xC0)]⟩,
   ⟨[0x39], ⟨0x00, 0x00, 0x0000, 0x0000, 0x01FD, 0xC000, 0xD0⟩, [(0x01FE, 0xC0), (0x01FF, 0x03)], ⟨0x00, 0x00, 0x0000, 0x0000, 0x01FF, 0xC003, 0xD0⟩, []⟩,
   ⟨[0x01], ⟨0x00, 0x00, 0x0000, 0x0000, 0x01FF, 0xC000, 0xD0⟩, [], ⟨0x00, 0x00, 0x0000, 0x0000, 0x01FF, 0xC001, 0xD0⟩, []⟩,
   ⟨[0x24, 0x10], ⟨0x00, 0x00, 0x0000, 0x0000, 0x01FF, 0xC000, 0xD0⟩, [], ⟨0x00, 0x00, 0x0000, 0x0000, 0x01FF, 0xC012, 0xD0⟩, []⟩] : List Case).all Case.passes = true := by decide

/-- V222 of 95_test_vectors.md. -/
theorem test_vectors_control_3 : ([
   ⟨[0x25, 0x10], ⟨0x00, 0x00, 0x0000, 0x0000, 0x01FF, 0xC000, 0xD0⟩, [], ⟨0x00, 0x00, 0x0000, 0x0000, 0x01FF, 0xC002, 0xD0⟩, []⟩] : List Case).all Case.passes = true := by decide

/-- V208, V209, V210, V211, V215 of 95_test_vectors.md. -/
theorem test_vectors_system_1 : ([
   ⟨[0x0E], ⟨0x00, 0x00, 0x0000, 0x0000, 0x01FF, 0xC000, 0xC0⟩, [], ⟨0x00, 0x00, 0x0000, 0x0000, 0x01FF, 0xC001, 0xC0⟩, []⟩,
   ⟨[0x0F], ⟨0x00, 0x00, 0x0000, 0x0000, 0x01FF, 0xC000, 0xC0⟩, [], ⟨0x00, 0x00, 0x0000, 0x0000, 0x01FF, 0xC001, 0xD0⟩, []⟩,
   ⟨[0x3F], ⟨0x11, 0x22, 0x3344, 0x5566, 0x00FF, 0xC000, 0xC0⟩, [(0xFFF6, 0xD0), (0xFFF7, 0x00)], ⟨0x11, 0x22, 0x3344, 0x5566, 0x00F6, 0xD000, 0xD0⟩, [(0x00FF, 0x01), (0x00FE, 0xC0), (0x00FD, 0x66), (0x00FC, 0x55), (0x00FB, 0x44), (0x00FA, 0x33), (0x00F9, 0x11), (0x00F8, 0x22), (0x00F7, 0xC0)]⟩,
   ⟨[0x3B], ⟨0x00, 0x00, 0x0000, 0x0000, 0x00F6, 0xD000, 0xD0⟩, [(0x00F7, 0xC0), (0x00F8, 0x22), (0x00F9, 0x11), (0x00FA, 0x33), (0x00FB, 0x44), (0x00FC, 0x55), (0x00FD, 0x66), (0x00FE, 0xC0), (0x00FF, 0x01)], ⟨0x11, 0x22, 0x3344, 0x5566, 0x00FF, 0xC001, 0xC0⟩, []⟩,
   ⟨[0xCF], ⟨0x00, 0x00, 0x0000, 0x0000, 0x01FF, 0xC000, 0xD0⟩, [], ⟨0x00, 0x00, 0x0000, 0x0000, 0x01FF, 0xC001, 0xD0⟩, []⟩] : List Case).all Case.passes = true := by decide

/-! ### Single steps of the spec's scenarios (95_test_vectors.md, part 4) -/

/-- RAM everywhere, the scenarios' vectors, and this code at $C000. -/
def scene (code : List Byte) (ccr : Byte) : State :=
  { State.reset with
    a := 0x11, b := 0x22, ix := 0x3344, iy := 0x5566, sp := 0x01FF, pc := 0xC000, ccr := Ccr.ofByte ccr
    mem := Memory.load (Memory.load ([] : Memory) 0xC000 code) 0xFFF2
      [0xE0, 0x00, 0xE1, 0x00, 0xE3, 0x00, 0xE2, 0x00] }

/-- The PC and the CCR, SP and bytes of the stack a step leaves. -/
def State.leaves (s : State) (pc : Word) (ccr : Byte) (sp : Word) (stack : List (Word × Byte)) : Bool :=
  match step s with
  | .next t => t.pc == pc && t.ccr.toByte == ccr && t.sp == sp && stack.all fun e => t.byteAt e.1 == e.2
  | _ => false

/-- S1: CLI arms the latch, and the request waits. -/
theorem test_scene_cli : State.leaves { scene [0x0E, 0x01] 0xD0 with lines := { Lines.quiet with irq := true } }
    0xC001 0xC0 0x01FF [] = true := by decide

/-- S1: the instruction after CLI executes though IRQ requests. -/
theorem test_scene_after_cli : State.leaves
    { scene [0x01, 0x01] 0xC0 with idelay := true, lines := { Lines.quiet with irq := true } }
    0xC001 0xC0 0x01FF [] = true := by decide

/-- S2, R338: the frame of an XIRQ, and X set by the entry but not in the stacked CCR. -/
theorem test_scene_xirq : State.leaves { scene [0x01] 0x90 with lines := { Lines.quiet with xirq := true } }
    0xE100 0xD0 0x01F6 [(0x01FF, 0x00), (0x01FE, 0xC0), (0x01FD, 0x66), (0x01FC, 0x55), (0x01FB, 0x44), (0x01FA, 0x33),
      (0x01F9, 0x11), (0x01F8, 0x22), (0x01F7, 0x90)] = true := by decide

/-- S8: an illegal opcode under the trap policy stacks the address of its first byte. -/
theorem test_scene_illegal_trap : State.leaves
    { scene [0x18, 0x00] 0xC0 with platform := { Platform.standard with illopPolicy := .trap } }
    0xE200 0xD0 0x01F6 [(0x01FF, 0x00), (0x01FE, 0xC0), (0x01FD, 0x66), (0x01F7, 0xC0)] = true := by decide

/-- S8: under the fault policy the run stops there. -/
theorem test_scene_illegal_fault : step (scene [0x18, 0x18, 0x08] 0xC0) = .fault (.illegalOpcode 0xC000) :=
  rfl

/-- R314: the wait ends without stacking again. -/
theorem test_scene_wait : State.leaves
    { scene [] 0xC0 with runState := .waiting, lines := { Lines.quiet with irq := true } }
    0xE000 0xD0 0x01FF [] = true := by decide

/-- R315: a masked XIRQ ends STOP without an entry. -/
theorem test_scene_stop : State.leaves
    { scene [] 0x50 with runState := .stopped, lines := { Lines.quiet with xirq := true } }
    0xC000 0x50 0x01FF [] = true := by decide

/-- R374: the part with the erratum skips the byte after STOP. -/
theorem test_scene_stop_erratum : State.leaves
    { scene [0xCF, 0x01] 0x50 with prevColumn45 := true, platform := { Platform.standard with stopErratum := true } }
    0xC002 0x50 0x01FF [] = true := by decide

/-! ### Witnesses: for every statement with hypotheses, states and operands that meet them -/

/-- A state after reset on a platform with the same thing at every address. -/
def everywhere (k : MemKind) : State :=
  { State.reset with platform := { Platform.standard with elsewhere := k } }

theorem kindAt_elsewhere {s : State} (h : s.platform.regions = []) (a : Word) :
    s.kindAt a = s.platform.elsewhere := by
  unfold State.kindAt kindIn
  rw [h]
  rfl

theorem populated_ram {s : State} (h : s.platform.regions = []) (h' : s.platform.elsewhere = .ram) : s.populated := by
  intro a
  rw [kindAt_elsewhere h, h']
  decide

theorem populated_device {s : State} (h : s.platform.regions = []) (h' : s.platform.elsewhere = .device) :
    s.populated := by
  intro a
  rw [kindAt_elsewhere h, h']
  decide

theorem codePlain_ram {s : State} (h : s.platform.regions = []) (h' : s.platform.elsewhere = .ram) (n : Nat) :
    s.codePlain n :=
  fun _ _ => .inl ((kindAt_elsewhere h _).trans h')

theorem witness_DecodeReadsWhatEncodeWrites :
    (Instr.brset (.indY 0xFF) 0x81 0x80).wellFormed = true ∧ (Instr.lsld).wellFormed = true := by decide

theorem witness_DecodedBytesAreItsEncoding :
    decode [0x18, 0x1E, 0xFF, 0x81, 0x80, 0x18] = .instr (.brset (.indY 0xFF) 0x81 0x80) [0x18] := by decide

theorem witness_UndefinedOpcodesAreTheListed :
    decode [0x41] = .undefined .one 0x41 ∧ decode [0xC7] = .undefined .one 0xC7 ∧
    decode [0x18, 0x18] = .undefined .two 0x18 ∧ decode [0x1A, 0xFF] = .undefined .three 0xFF ∧
    decode [0xCD, 0x00] = .undefined .four 0x00 := by decide

theorem witness_StepRunsDecodedInstruction :
    let s := { State.reset with pc := 0xFFFE, mem := Memory.load ([] : Memory) 0xFFFE [0x18, 0x1E, 0xFF, 0x81, 0x80] }
    s.undisturbed ∧ s.codePlain 5 ∧ decode (s.codeBytes 5) = .instr (.brset (.indY 0xFF) 0x81 0x80) [] :=
  ⟨⟨rfl, rfl, rfl, rfl, .inr rfl⟩, codePlain_ram rfl rfl 5, by decide⟩

theorem witness_StepRunsDecodedInstruction_delayed :
    let s := { State.reset with
      ccr := Ccr.ofByte 0xC0, idelay := true, lines := { Lines.quiet with irq := true }, mem := [(0, 0x01)] }
    s.undisturbed ∧ s.codePlain 1 ∧ decode (s.codeBytes 1) = .instr .nop [] :=
  ⟨⟨rfl, rfl, rfl, rfl, .inl rfl⟩, codePlain_ram rfl rfl 1, by decide⟩

theorem witness_UndefinedOpcodeStopsOrTraps_stops :
    let s := { State.reset with mem := [(0, 0x41)] }
    s.undisturbed ∧ s.codePlain 1 ∧ decode (s.codeBytes 1) = .undefined .one 0x41 ∧ s.platform.illopPolicy = .fault :=
  ⟨⟨rfl, rfl, rfl, rfl, .inr rfl⟩, codePlain_ram rfl rfl 1, by decide, rfl⟩

theorem witness_UndefinedOpcodeStopsOrTraps_traps :
    let s := { scene [0x18, 0x18] 0xC0 with platform := { Platform.standard with illopPolicy := .trap } }
    s.undisturbed ∧ s.codePlain 2 ∧ decode (s.codeBytes 2) = .undefined .two 0x18 ∧
      s.platform.illopPolicy = .trap ∧ s.populated ∧ s.mem.wf = true :=
  ⟨⟨rfl, rfl, rfl, rfl, .inr rfl⟩, codePlain_ram rfl rfl 2, by decide, rfl, populated_ram rfl rfl, by decide⟩

theorem witness_ReadReturnsLatestWrite :
    State.reset.mem.wf = true ∧ State.reset.kindAt 0xFFFF = .ram ∧ State.reset.kindAt 0x0000 = .ram := by decide

theorem witness_AccessFollowsTheMemoryMap :
    (everywhere .rom).kindAt 0xFFFF = .rom ∧ (everywhere .device).kindAt 0x0000 = .device ∧
    (everywhere .nothing).kindAt 0xFFFF = .nothing := by decide

theorem witness_WordsMoveInTheOrderOfTheTables :
    (State.reset.plain 0xFFFF ∧ State.reset.plain (0xFFFF + 1)) ∧ ((everywhere .rom).plain 0x00FF ∧
      (everywhere .rom).plain (0x00FF + 1)) ∧
    (State.reset.mem.wf = true ∧ State.reset.kindAt 0xFFFF = .ram ∧ State.reset.kindAt (0xFFFF + 1) = .ram) ∧
    ((everywhere .device).kindAt 0xFFFF = .device ∧ (everywhere .device).kindAt (0xFFFF + 1) = .device) ∧
    ((everywhere .device).kindAt (everywhere .device).sp = .device ∧
      (everywhere .device).kindAt ((everywhere .device).sp - 1) = .device) ∧
    (everywhere .device).kindAt ((everywhere .device).sp + 1) = .device ∧
      (everywhere .device).kindAt ((everywhere .device).sp + 2) = .device :=
  ⟨⟨.inl (by decide), .inl (by decide)⟩, ⟨.inr (by decide), .inr (by decide)⟩, by decide, by decide, by decide,
    by decide⟩

/-- SP is $0000, so that SP - 1 is $FFFF. -/
theorem witness_PullReturnsWhatWasPushed : State.reset.mem.wf = true ∧ State.reset.kindAt State.reset.sp = .ram ∧
    State.reset.kindAt (State.reset.sp - 1) = .ram := by decide

/-- What these statements need of the state: LoadsTakeTheirOperand, StoresPutTheirRegister, TransfersMoveRegisters,
TapAndTpaMoveTheCcr, PushesAndPullsUseTheStack, TwoOperandInstructionsCompute, InherentArithmeticComputes,
WordInstructionsCompute, AccumulatorInstructionsCompute, MemoryInstructionsCompute, BitInstructionsSetAndClear,
PointerStepsComplete, WordShiftsCompute, MulGivesTheProduct, FlagInstructionsComplete, BranchesFollowTheBooleanColumn,
BitBranchesTestTheMask, JumpsCallsAndReturns, SwiEntersThroughItsVector, RtiRestoresFromTheFrame, WaiStacksAndWaits. -/
theorem witness_populated : State.reset.populated ∧ State.reset.mem.wf = true ∧ (everywhere .rom).populated ∧
    (everywhere .device).populated :=
  ⟨populated_ram rfl rfl, rfl, fun a => by rw [kindAt_elsewhere rfl]; decide, populated_device rfl rfl⟩

theorem witness_EveryInstructionCompletes :
    (State.reset.populated ∧ State.reset.legal .swi) ∧
    ({ State.reset with platform := { Platform.standard with testMode := true } } : State).populated ∧
    ({ State.reset with platform := { Platform.standard with testMode := true } } : State).legal .test :=
  ⟨⟨populated_ram rfl rfl, (fun h => nomatch h)⟩, populated_ram rfl rfl, fun _ => rfl⟩

theorem witness_RunsStopOnlyWhereSaid :
    exec .test State.reset = .fault (.illegalOpcode 0xFFFF) ∧
    exec (.ldaa (.mem (.ext 0xFFFF))) (everywhere .nothing) = .fault (.unpopulated 0xFFFF) ∧
    step State.reset = .fault (.illegalOpcode 0x0000) ∧
    step (everywhere .nothing) = .fault (.unpopulated 0x0000) :=
  ⟨rfl, rfl, rfl, rfl⟩

theorem witness_InstructionsStoreNowhereElse :
    State.reset.legal .swi ∧ (∃ t, exec .swi State.reset = .next t) ∧ (0x0001 : Word) ∉ storedAddresses State.reset .swi ∧
    State.reset.legal (.std (.ext 0xFFFF)) ∧ (∃ t, exec (.std (.ext 0xFFFF)) State.reset = .next t) ∧
    (0x0001 : Word) ∉ storedAddresses State.reset (.std (.ext 0xFFFF)) :=
  ⟨(fun h => nomatch h), ⟨_, rfl⟩, by decide, (fun h => nomatch h), ⟨_, rfl⟩, by decide⟩

theorem witness_InstructionsChangeNoOtherRegister :
    State.reset.legal .pulx ∧ (∃ t, exec .pulx State.reset = .next t) ∧ RegName.iy ∉ registersWritten .pulx ∧
    canTransfer .pulx = false :=
  ⟨(fun h => nomatch h), ⟨_, rfl⟩, by decide, rfl⟩

theorem witness_FlagsFollowTheActivityTable :
    State.reset.legal .rti ∧ (∃ t, exec .rti State.reset = .next t) ∧
    State.reset.legal (.com (.ext 0xFFFF)) ∧ ∃ t, exec (.com (.ext 0xFFFF)) State.reset = .next t :=
  ⟨(fun h => nomatch h), ⟨_, rfl⟩, (fun h => nomatch h), ⟨_, rfl⟩⟩

theorem witness_HiddenStateChangesOnlyWhereSaid :
    State.reset.legal .daa ∧ (∃ t, exec .daa State.reset = .next t) ∧ (∀ a, State.reset.kindAt a ≠ .device) ∧
    Instr.daa ∉ [.cli, .tap, .swi] ∧ Instr.daa ∉ [.wai, .stop, .test, .swi] ∧ Instr.daa ≠ .swi ∧
    State.reset.legal .nop ∧ (∃ t, exec .nop State.reset = .next t) ∧ Instr.nop ∉ [.daa, .idiv, .fdiv, .test] :=
  ⟨(fun h => nomatch h), ⟨_, rfl⟩, fun a => by rw [kindAt_elsewhere rfl]; decide, by decide, by decide, by decide,
    (fun h => nomatch h), ⟨_, rfl⟩, by decide⟩

theorem witness_BusAccessesMatchTheCycleTables :
    let s := { State.reset with platform := { Platform.standard with elsewhere := .device, dummyReads := true } }
    (∀ a, s.kindAt a = .device) ∧ s.platform.dummyReads = true ∧ Instr.rts.wellFormed = true ∧
    Instr.rts.cycles = some 5 ∧ (∃ t, exec .rts s = .next t) ∧ Instr.wai.wellFormed = true ∧
    Instr.wai.cycles = some 14 ∧ ∃ t, exec .wai s = .next t :=
  ⟨fun a => kindAt_elsewhere rfl a, rfl, rfl, rfl, ⟨_, rfl⟩, rfl, rfl, ⟨_, rfl⟩⟩

/-- Code at $C000 in RAM, device locations after it and in the first page. -/
def beforeDevices (code : List Byte) : State :=
  { State.reset with
    iy := 0xFFF0, pc := 0xC000, mem := Memory.load ([] : Memory) 0xC000 code
    platform := { Platform.standard with
      regions := [⟨0xC000 + BitVec.ofNat 16 code.length, 0xC00F, .device⟩, ⟨0x0000, 0x00FF, .device⟩] } }

/-- R380: BSET IND,Y reads the operand, then fetches the mask, then writes. -/
theorem test_bset_order : ∃ x mm t, step (beforeDevices [0x18, 0x1C, 0x20]) = .next t ∧
    t.deviceLog = [.write 0x0010 (x ||| mm), .read 0xC003 mm, .read 0x0010 x] := ⟨_, _, _, rfl, rfl⟩

/-- R289: BRCLR DIR reads the operand before the mask is fetched. -/
theorem test_brclr_order : earlyOperand [0x13, 0x10] = some (.dir 0x10) ∧ earlyOperand [0x13] = none ∧
    earlyOperand [0x13, 0x10, 0x0F] = none ∧ earlyOperand [0x96, 0x10] = none := by decide

/-- R373: `BRA *` with IRQ asserted and masked is the end of a run. -/
theorem test_ended_selfBranch :
    ({ State.reset with mem := [(0, 0x20), (1, 0xFE)], lines := { Lines.quiet with irq := true } } : State).ended :=
  .inr (.inr ⟨.inr (.inr ⟨rfl, .inl (by decide), .inl (by decide), rfl, rfl⟩), by decide⟩)

/-- R373: a stopped MPU whose script asserts IRQ later, I clear, has not ended. -/
theorem test_not_ended_script : ({ State.reset with
    runState := .stopped, ccr := Ccr.ofByte 0x40, script := [Lines.quiet, { Lines.quiet with irq := true }] } :
    State).divertedBy { Lines.quiet with irq := true } = true := by decide

/-- The clause on a mask that is a device location, of BitInstructionsSetAndClear. -/
theorem witness_BitInstructionsSetAndClear_order :
    let s := beforeDevices [0x18, 0x1C, 0x20]
    s.undisturbed ∧ s.platform.dummyReads = false ∧ s.codePlain 3 ∧ s.kindAt (s.pc + BitVec.ofNat 16 3) = .device ∧
    s.kindAt (s.ea (.indY 0x20)) = .device ∧ (Instr.bset (.indY 0x20) 0).wellFormed = true ∧
    s.codeBytes 3 = (encode (.bset (.indY 0x20) 0)).dropLast :=
  ⟨⟨rfl, rfl, rfl, rfl, .inr rfl⟩, rfl, by unfold State.codePlain State.plain; decide, by decide, by decide, rfl,
    by decide⟩

/-- The clause on a mask and an offset that are device locations, of BitBranchesTestTheMask. -/
theorem witness_BitBranchesTestTheMask_order :
    let s := beforeDevices [0x13, 0xFF]
    s.undisturbed ∧ s.platform.dummyReads = false ∧ s.codePlain 2 ∧ s.kindAt (s.pc + BitVec.ofNat 16 2) = .device ∧
    s.kindAt (s.pc + BitVec.ofNat 16 (2 + 1)) = .device ∧ s.kindAt (s.ea (.dir 0xFF)) = .device ∧
    (Instr.brclr (.dir 0xFF) 0 0).wellFormed = true ∧ s.codeBytes 2 = (encode (.brclr (.dir 0xFF) 0 0)).take 2 ∧
    2 + 2 = (Instr.brclr (.dir 0xFF) 0 0).length :=
  ⟨⟨rfl, rfl, rfl, rfl, .inr rfl⟩, rfl, by unfold State.codePlain State.plain; decide, by decide, by decide, by decide,
    rfl, by decide, by decide⟩

theorem witness_ByteSubtractionSetsTheFlags :
    subtracts .cba = true ∧ (∃ t, exec .cba State.reset = .next t) ∧ subtracts (.tst (.ext 0xFFFF)) = true ∧
    ∃ t, exec (.tst (.ext 0xFFFF)) State.reset = .next t :=
  ⟨rfl, ⟨_, rfl⟩, rfl, ⟨_, rfl⟩⟩

/-- The clause on devices of MemoryInstructionsCompute and BitInstructionsSetAndClear. -/
theorem witness_memoryInstructions_device :
    (everywhere .device).populated ∧ (everywhere .device).mem.wf = true ∧
    (everywhere .device).kindAt ((everywhere .device).ea (.ext 0xFFFF)) = .device ∧
    (everywhere .device).platform.dummyReads = false :=
  ⟨populated_device rfl rfl, rfl, by decide, rfl⟩

/-- Divisors zero, one, and that of the last quotient below 1; a dividend equal to its divisor and one just below. -/
theorem witness_DividesGiveQuotientAndRemainder :
    (∀ d : Word, ({ State.reset with ix := d } : State).populated) ∧
    ({ State.reset with ix := 0x0001 } : State).ix ≠ 0 ∧ State.reset.ix = 0 ∧
    (let below := ({ State.reset with a := 0xFF, b := 0xFE, ix := 0xFFFF } : State)
     (joinBytes below.a below.b).toNat < below.ix.toNat) ∧
    (let equal := ({ State.reset with a := 0xFF, b := 0xFF, ix := 0xFFFF } : State)
     equal.ix.toNat ≤ (joinBytes equal.a equal.b).toNat) :=
  ⟨fun _ => populated_ram rfl rfl, by decide, rfl, by decide, by decide⟩

theorem witness_DaaMakesADecimalSum :
    let cc := Ccr.ofByte 0xD1
    let s := { State.reset with a := (add8 true 0x99 0x99 cc).1, ccr := (add8 true 0x99 0x99 cc).2 }
    s.populated ∧ isBcd 0x99 ∧ isBcd 0x99 ∧ s.a = (add8 true 0x99 0x99 cc).1 ∧ s.ccr = (add8 true 0x99 0x99 cc).2 :=
  ⟨populated_ram rfl rfl, by unfold isBcd; decide, by unfold isBcd; decide, rfl, rfl⟩

theorem witness_DaaCompletesOnAnyInput :
    State.reset.populated ∧ (∃ row ∈ daaTable, row.applies State.reset.a State.reset.ccr = true) ∧
    ({ State.reset with ccr := Ccr.ofByte 0xF0, a := 0x0F } : State).populated ∧
    ∀ row ∈ daaTable, row.applies 0x0F (Ccr.ofByte 0xF0) = false :=
  ⟨populated_ram rfl rfl, by decide, populated_ram rfl rfl, by decide⟩

/-- $80 against $7F: below as signed numbers, above as unsigned ones. -/
theorem witness_BranchesAfterACompareReadTheOrder :
    (let s := { State.reset with ccr := Ccr.afterSub8 (Ccr.ofByte 0xD0) 0x80 0x7F false }
     s.populated ∧ s.ccr = Ccr.afterSub8 (Ccr.ofByte 0xD0) 0x80 0x7F false) ∧
    (let s := { State.reset with ccr := Ccr.afterSub16 (Ccr.ofByte 0xD0) 0x8000 0x7FFF }
     s.populated ∧ s.ccr = Ccr.afterSub16 (Ccr.ofByte 0xD0) 0x8000 0x7FFF) :=
  ⟨⟨populated_ram rfl rfl, rfl⟩, populated_ram rfl rfl, rfl⟩

/-- SP is $0000, so that SP - 1 is $FFFF. -/
theorem witness_ReturnFollowsTheCall :
    State.reset.populated ∧ State.reset.mem.wf = true ∧ State.reset.kindAt State.reset.sp = .ram ∧
    State.reset.kindAt (State.reset.sp - 1) = .ram ∧ (∃ m, Instr.jsr (.dir 0xFF) = .jsr m) ∧
    ∃ rr, Instr.bsr 0x80 = .bsr rr :=
  ⟨populated_ram rfl rfl, rfl, by decide, by decide, ⟨_, rfl⟩, ⟨_, rfl⟩⟩

/-- A state before an entry. -/
def entryBefore : State := { State.reset with sp := 0x0003, iy := 0xAA00, ccr := Ccr.ofByte 0x00 }

/-- The state the XIRQ entry from there leaves. -/
def entryAfter : State :=
  { State.reset with sp := 0xFFFA, iy := 0xAA00, ccr := Ccr.ofByte 0x50, pc := 0x0000, mem := [(0x0000, 0xAA)] }

/-- An entry from SP = $0003, whose frame reaches from $0003 down to $FFFB, IY = $AA00. -/
theorem witness_RtiUndoesAnEntry :
    entryAfter.populated ∧ entryBefore.mem.wf = true ∧ (∀ a ∈ entryBefore.frameAddresses, entryBefore.kindAt a = .ram) ∧
    entryBefore.entered entryAfter 0x0000 0xFFF4 true := by
  have ram : ∀ a, entryBefore.kindAt a = .ram := fun a => kindAt_elsewhere rfl a
  have all : ((entryBefore.frameAddresses.zip (entryBefore.frameBytes 0x0000)).all fun e =>
    entryAfter.byteAt e.1 == e.2) = true := by decide
  refine ⟨populated_ram rfl rfl, rfl, fun a _ => ram a, ?_, ⟨rfl, ?_, ?_, fun _ => by decide⟩, ?_, ?_⟩
  · intro e he
    unfold State.stored
    rw [ram]
    exact eq_of_beq (List.all_eq_true.mp all e he)
  · intro a ha
    have h0 : a ≠ 0x0000 := fun h => ha (h ▸ by decide)
    have h1 : ¬ 0 = a.toNat := fun h => h0 (BitVec.eq_of_toNat_eq h.symm)
    simp [entryBefore, entryAfter, State.byteAt, Memory.read, State.reset, h1]
  · intro a ha
    exact absurd (ram a) ha
  · unfold State.fetchedLast
    rw [ram]
    decide
  · unfold State.fetchedLast
    rw [ram]
    decide

theorem witness_StopHaltsUnlessDisabled :
    (State.reset.populated ∧ State.reset.ccr.s = true) ∧
    (let s := { State.reset with ccr := Ccr.ofByte 0x50, prevColumn45 := true }
     s.populated ∧ s.ccr.s = false ∧ s.platform.stopErratum = false) ∧
    (let s := { State.reset with
      ccr := Ccr.ofByte 0x50, platform := { Platform.standard with stopErratum := true } }
     s.populated ∧ s.ccr.s = false ∧ s.prevColumn45 = false) ∧
    (let s := { State.reset with
      ccr := Ccr.ofByte 0x50, prevColumn45 := true, platform := { Platform.standard with stopErratum := true } }
     s.populated ∧ s.ccr.s = false ∧ s.platform.stopErratum = true ∧ s.prevColumn45 = true) :=
  ⟨⟨populated_ram rfl rfl, rfl⟩, ⟨populated_ram rfl rfl, rfl, rfl⟩, ⟨populated_ram rfl rfl, rfl, rfl⟩,
    populated_ram rfl rfl, rfl, rfl, rfl⟩

theorem witness_TestLoopsOrIsIllegal :
    (let s := { State.reset with platform := { Platform.standard with testMode := true } }
     s.populated ∧ s.platform.testMode = true) ∧
    (let s := { State.reset with runState := .testLoop }
     s.populated ∧ s.runState = .testLoop ∧ s.script = [] ∧ s.lines.reset = false) ∧
    (State.reset.platform.testMode = false ∧ State.reset.platform.illopPolicy = .fault) ∧
    (let s := { State.reset with platform := { Platform.standard with illopPolicy := .trap } }
     s.populated ∧ s.platform.testMode = false ∧ s.platform.illopPolicy = .trap ∧ s.mem.wf = true) :=
  ⟨⟨populated_ram rfl rfl, rfl⟩, ⟨populated_ram rfl rfl, rfl, rfl, rfl⟩, ⟨rfl, rfl⟩, populated_ram rfl rfl, rfl, rfl,
    rfl⟩

/-- A platform of two maskable sources; the second requests. -/
def twoSources : State :=
  { State.reset with
    ccr := Ccr.ofByte 0xC0, lines := { Lines.quiet with others := [7] }
    platform := { Platform.standard with priority := [.irq, .other 7 0xFFD6] } }

theorem witness_MaskableSourceIsTheHighest :
    twoSources.maskableRequest = some (.other 7 0xFFD6) ∧
    ({ twoSources with lines := { reset := false, xirq := false, irq := true, others := [7] } } : State).maskableRequest
      = some .irq ∧
    ({ twoSources with ccr := Ccr.ofByte 0xD0 } : State).maskableRequest = none := by decide

theorem witness_InterruptsEnterThroughTheirVectors :
    (let s := { State.reset with ccr := Ccr.ofByte 0x90, lines := { Lines.quiet with xirq := true } }
     s.populated ∧ s.mem.wf = true ∧ s.runState = .running ∧ s.script = [] ∧ s.lines.reset = false ∧
       s.lines.xirq = true ∧ s.ccr.x = false) ∧
    (twoSources.populated ∧ twoSources.mem.wf = true ∧ twoSources.runState = .running ∧ twoSources.script = [] ∧
      twoSources.lines.reset = false ∧ twoSources.lines.xirq = false ∧ twoSources.idelay = false ∧
      twoSources.maskableRequest = some (.other 7 0xFFD6)) ∧
    (let s := { State.reset with ccr := Ccr.ofByte 0x40, lines := ⟨false, true, true, []⟩ }
     s.populated ∧ s.ccr.x = true ∧ s.idelay = false ∧ s.maskableRequest = some .irq) :=
  ⟨⟨populated_ram rfl rfl, rfl, rfl, rfl, rfl, rfl, rfl⟩, ⟨populated_ram rfl rfl, rfl, rfl, rfl, rfl, rfl, rfl, rfl⟩,
    populated_ram rfl rfl, rfl, rfl, rfl⟩

theorem witness_WaitingEndsWithoutStacking :
    (let s := { State.reset with
      runState := .waiting, ccr := Ccr.ofByte 0x90, lines := { Lines.quiet with xirq := true } }
     s.populated ∧ s.runState = .waiting ∧ s.script = [] ∧ s.lines.reset = false ∧ s.lines.xirq = true ∧
       s.ccr.x = false) ∧
    (let s := { twoSources with runState := .waiting }
     s.populated ∧ s.runState = .waiting ∧ s.script = [] ∧ s.lines.reset = false ∧ s.lines.xirq = false ∧
       s.maskableRequest = some (.other 7 0xFFD6)) ∧
    (let s := { State.reset with runState := .waiting, lines := ⟨false, true, true, []⟩ }
     s.populated ∧ s.runState = .waiting ∧ s.script = [] ∧ s.lines.reset = false ∧ s.ccr.x = true ∧
       s.maskableRequest = none ∧ s.platform.dummyReads = false) :=
  ⟨⟨populated_ram rfl rfl, rfl, rfl, rfl, rfl, rfl⟩, ⟨populated_ram rfl rfl, rfl, rfl, rfl, rfl, rfl⟩,
    populated_ram rfl rfl, rfl, rfl, rfl, rfl, rfl, rfl⟩

/-- A stopped MPU, with a CCR and lines. -/
def stopped (ccr : Byte) (lines : Lines) : State :=
  { State.reset with runState := .stopped, ccr := Ccr.ofByte ccr, lines := lines }

theorem stopped_premises (ccr : Byte) (xirq irq : Bool) (others : List Nat) :
    let s := stopped ccr ⟨false, xirq, irq, others⟩
    s.populated ∧ s.mem.wf = true ∧ s.runState = .stopped ∧ s.script = [] ∧ s.lines.reset = false :=
  ⟨populated_ram rfl rfl, rfl, rfl, rfl, rfl⟩

theorem witness_StoppedWakesForXirqOrIrq :
    (let s := stopped 0x10 ⟨false, true, true, []⟩
     s.lines.xirq = true ∧ s.ccr.x = false) ∧
    (let s := stopped 0x50 ⟨false, true, true, []⟩
     s.lines.xirq = true ∧ s.ccr.x = true) ∧
    (let s := stopped 0x40 ⟨false, false, true, []⟩
     s.lines.xirq = false ∧ s.lines.irq = true ∧ s.ccr.i = false) ∧
    (let s := stopped 0x40 ⟨false, false, false, [7]⟩
     s.lines.xirq = false ∧ s.lines.irq = false) ∧
    (let s := stopped 0x50 ⟨false, false, true, []⟩
     s.lines.xirq = false ∧ s.ccr.i = true) := by decide

theorem witness_ResetStartsAtItsVector :
    let s := { stopped 0x00 ⟨true, true, true, []⟩ with mem := [(0xFFFE, 0xC0)] }
    s.populated ∧ s.script = [] ∧ s.lines.reset = true :=
  ⟨populated_ram rfl rfl, rfl, rfl⟩

theorem witness_CliDelaysOneInstruction :
    (let s := { State.reset with mem := [(0, 0x0E)], lines := { Lines.quiet with irq := true } }
     s.undisturbed ∧ s.populated ∧ s.ccr.i = true ∧ s.plain s.pc ∧ s.byteAt s.pc = 0x0E) ∧
    Instr.nop ≠ .cli ∧ Instr.nop ≠ .tap ∧ State.reset.legal .nop ∧ ∃ t, runInstr ⟨.nop, none⟩ State.reset = .next t :=
  ⟨⟨⟨rfl, rfl, rfl, rfl, .inr rfl⟩, populated_ram rfl rfl, rfl, .inl (by decide), by decide⟩, by decide, by decide,
    (fun h => nomatch h), ⟨_, rfl⟩⟩

/-- The latch is set before the step, and the step is that of a NOP. -/
theorem witness_StepKeepsTheInvariant :
    let s := { State.reset with mem := [(0, 0x01)], idelay := true, ccr := Ccr.ofByte 0xC0 }
    s.Inv ∧ ∃ t, step s = .next t :=
  ⟨⟨rfl, fun _ => ⟨rfl, rfl⟩⟩, ⟨_, rfl⟩⟩

/-- An XIRQ that X does not mask. -/
theorem witness_XMaskIsSetOnlyByResetOrXirq :
    let s := { State.reset with ccr := Ccr.ofByte 0x90, lines := { Lines.quiet with xirq := true } }
    s.ccr.x = false ∧ ∃ t, step s = .next t ∧ t.ccr.x = true :=
  ⟨rfl, ⟨_, rfl, rfl⟩⟩

/-- A store to ROM. -/
theorem witness_PlatformAndRomNeverChange :
    let s := { everywhere .rom with mem := [(0, 0x97), (1, 0x40)] }
    (∃ t, step s = .next t) ∧ ∀ a, s.kindAt a ≠ .ram :=
  ⟨⟨_, rfl⟩, fun a => by rw [kindAt_elsewhere rfl]; decide⟩

end Sys2Proof.Tests
end

section
/-! PROOFS. The flags of additions and subtractions (R11 to R13): the Boolean formulas say what the numbers say. -/

namespace Sys2Proof.Machine

/-! ### The flags of an addition and of a subtraction, at every width -/

theorem bitValue_toNat (w : Nat) (c : Bool) : (bitValue (w + 1) c).toNat = c.toNat := by
  cases c <;> simp [bitValue]

/-- The most significant bit says which half of the range a number is in. -/
theorem msb_eq_decide_half {w : Nat} (x : BitVec (w + 1)) : x.msb = decide (2 ^ w ≤ x.toNat) := by
  simp [BitVec.msb_eq_decide]

/-- The signed reading of a number, by its most significant bit. -/
theorem toInt_eq_half {w : Nat} (x : BitVec (w + 1)) :
    x.toInt = if 2 ^ w ≤ x.toNat then (x.toNat : Int) - 2 * (2 ^ w : Nat) else x.toNat := by
  have h : 2 ^ (w + 1) = 2 * 2 ^ w := by rw [Nat.pow_succ, Nat.mul_comm]
  rw [BitVec.toInt_eq_toNat_cond, h]
  split <;> split <;> omega

theorem toNat_lt_twice {w : Nat} (x : BitVec (w + 1)) : x.toNat < 2 * 2 ^ w := by
  have := x.isLt
  rwa [Nat.pow_succ, Nat.mul_comm] at this

/-- A sum with a carry-in, as a number: it wraps at most once. -/
theorem sum_toNat {w : Nat} (x m : BitVec (w + 1)) (c : Bool) :
    (x + m + bitValue (w + 1) c).toNat =
      if x.toNat + m.toNat + c.toNat < 2 * 2 ^ w then x.toNat + m.toNat + c.toNat
      else x.toNat + m.toNat + c.toNat - 2 * 2 ^ w := by
  have hx := toNat_lt_twice x
  have hm := toNat_lt_twice m
  have hc : c.toNat ≤ 1 := c.toNat_le
  rw [BitVec.toNat_add, BitVec.toNat_add, Nat.mod_add_mod, bitValue_toNat, Nat.pow_succ, Nat.mul_comm]
  split
  · next h => exact Nat.mod_eq_of_lt h
  · next h => rw [Nat.mod_eq_sub_mod (by omega), Nat.mod_eq_of_lt (by omega)]

/-- A difference with a borrow-in, as a number: it wraps at most once. -/
theorem difference_toNat {w : Nat} (x m : BitVec (w + 1)) (c : Bool) :
    (x - m - bitValue (w + 1) c).toNat =
      if m.toNat + c.toNat ≤ x.toNat then x.toNat - m.toNat - c.toNat
      else x.toNat + 2 * 2 ^ w - m.toNat - c.toNat := by
  have hx := toNat_lt_twice x
  have hm := toNat_lt_twice m
  have hc : c.toNat ≤ 1 := c.toNat_le
  have hp : 0 < 2 ^ w := Nat.two_pow_pos w
  rw [BitVec.toNat_sub, BitVec.toNat_sub, Nat.add_mod_mod, bitValue_toNat, Nat.pow_succ, Nat.mul_comm]
  split
  · next h =>
    have hv : 2 * 2 ^ w - c.toNat + (2 * 2 ^ w - m.toNat + x.toNat) =
        x.toNat - m.toNat - c.toNat + 2 * (2 * 2 ^ w) := by omega
    rw [hv, Nat.add_mul_mod_self_right, Nat.mod_eq_of_lt (by omega)]
  · next h =>
    have hv : 2 * 2 ^ w - c.toNat + (2 * 2 ^ w - m.toNat + x.toNat) =
        x.toNat + 2 * 2 ^ w - m.toNat - c.toNat + 2 * 2 ^ w := by omega
    rw [hv, Nat.add_mod_right, Nat.mod_eq_of_lt (by omega)]

/-- The carry formula of R11 and R13 says that the sum exceeds the width. -/
theorem addCarry_sum {w : Nat} (x m : BitVec (w + 1)) (c : Bool) :
    addCarry x m (x + m + bitValue (w + 1) c) = decide (2 * 2 ^ w ≤ x.toNat + m.toNat + c.toNat) := by
  have hx := toNat_lt_twice x
  have hm := toNat_lt_twice m
  have hc : c.toNat ≤ 1 := c.toNat_le
  rw [Bool.eq_iff_iff]
  simp only [addCarry, msb_eq_decide_half, sum_toNat, Bool.or_eq_true, Bool.and_eq_true, Bool.not_eq_true',
    decide_eq_true_eq, decide_eq_false_iff_not]
  split <;> omega

/-- The overflow formula of R11 and R13 says that the signed sum is out of the signed range. -/
theorem addOverflow_sum {w : Nat} (x m : BitVec (w + 1)) (c : Bool) :
    addOverflow x m (x + m + bitValue (w + 1) c) =
      decide (x.toInt + m.toInt + c.toNat < -(2 ^ w : Nat) ∨ x.toInt + m.toInt + c.toNat ≥ (2 ^ w : Nat)) := by
  have hx := toNat_lt_twice x
  have hm := toNat_lt_twice m
  have hc : c.toNat ≤ 1 := c.toNat_le
  rw [Bool.eq_iff_iff]
  simp only [addOverflow, msb_eq_decide_half, sum_toNat, toInt_eq_half, Bool.or_eq_true, Bool.and_eq_true,
    Bool.not_eq_true', decide_eq_true_eq, decide_eq_false_iff_not]
  split <;> split <;> split <;> omega

/-- The borrow formula of R12 and R13 says that what is subtracted is the larger. -/
theorem subBorrow_difference {w : Nat} (x m : BitVec (w + 1)) (c : Bool) :
    subBorrow x m (x - m - bitValue (w + 1) c) = decide (x.toNat < m.toNat + c.toNat) := by
  have hx := toNat_lt_twice x
  have hm := toNat_lt_twice m
  have hc : c.toNat ≤ 1 := c.toNat_le
  rw [Bool.eq_iff_iff]
  simp only [subBorrow, msb_eq_decide_half, difference_toNat, Bool.or_eq_true, Bool.and_eq_true, Bool.not_eq_true',
    decide_eq_true_eq, decide_eq_false_iff_not]
  split <;> omega

/-- The overflow formula of R12 and R13 says that the signed difference is out of the signed range. -/
theorem subOverflow_difference {w : Nat} (x m : BitVec (w + 1)) (c : Bool) :
    subOverflow x m (x - m - bitValue (w + 1) c) =
      decide (x.toInt - m.toInt - c.toNat < -(2 ^ w : Nat) ∨ x.toInt - m.toInt - c.toNat ≥ (2 ^ w : Nat)) := by
  have hx := toNat_lt_twice x
  have hm := toNat_lt_twice m
  have hc : c.toNat ≤ 1 := c.toNat_le
  rw [Bool.eq_iff_iff]
  simp only [subOverflow, msb_eq_decide_half, difference_toNat, toInt_eq_half, Bool.or_eq_true, Bool.and_eq_true,
    Bool.not_eq_true', decide_eq_true_eq, decide_eq_false_iff_not]
  split <;> split <;> split <;> omega

/-- The half carry of R11 is the carry out of the sum of the low digits. -/
theorem halfCarry_eq_addCarry (x m r : Byte) :
    halfCarry x m r = addCarry (x.setWidth 4) (m.setWidth 4) (r.setWidth 4) := by
  simp [halfCarry, addCarry, BitVec.msb_setWidth]

theorem halfCarry_sum (x m : Byte) (c : Bool) :
    halfCarry x m (x + m + bitValue 8 c) = decide (x.toNat % 16 + m.toNat % 16 + c.toNat > 15) := by
  have hb : (bitValue 8 c).setWidth 4 = bitValue (3 + 1) c := by cases c <;> rfl
  have hs : (x + m + bitValue 8 c).setWidth 4 = x.setWidth 4 + m.setWidth 4 + bitValue (3 + 1) c := by
    rw [BitVec.setWidth_add _ _ (by omega), BitVec.setWidth_add _ _ (by omega), hb]
  rw [halfCarry_eq_addCarry, hs, addCarry_sum]
  simp only [BitVec.toNat_setWidth]
  rw [Bool.eq_iff_iff]
  simp only [decide_eq_true_eq]
  omega

/-- N and Z of a result, by its number. -/
theorem nz_of_toNat {w n : Nat} (cc : Ccr) {r : BitVec (w + 1)} (h : r.toNat = n) :
    cc.nz r = { cc with n := decide (2 ^ w ≤ n), z := decide (n = 0) } := by
  subst h
  have hz : (r == 0) = decide (r.toNat = 0) := by
    rw [Bool.eq_iff_iff]
    simp [BitVec.toNat_eq]
  rw [Ccr.nz, msb_eq_decide_half, hz]

/-! ### Add8, Sub8, Add16, Sub16 -/

theorem add8_toNat (x m : Byte) (c : Bool) : (x + m + bitValue 8 c).toNat = (x.toNat + m.toNat + c.toNat) % 256 := by
  rw [BitVec.toNat_add, BitVec.toNat_add, Nat.mod_add_mod, bitValue_toNat]

theorem sub8_toNat (x m : Byte) (c : Bool) :
    (x - m - bitValue 8 c).toNat = (x.toNat + 512 - m.toNat - c.toNat) % 256 := by
  have hc : c.toNat ≤ 1 := c.toNat_le
  rw [BitVec.toNat_sub, BitVec.toNat_sub, Nat.add_mod_mod, bitValue_toNat]
  congr 1
  omega

/-- The CCR after Add8 is the arithmetic reading R11 gives. -/
theorem add8_ccr (c : Bool) (x m : Byte) (cc : Ccr) : (add8 c x m cc).2 = cc.afterAdd8 x m c := by
  have hc : addCarry x m (x + m + bitValue 8 c) = decide (x.toNat + m.toNat + c.toNat > 255) :=
    addCarry_sum x m c
  have hv : addOverflow x m (x + m + bitValue 8 c) =
      decide (x.toInt + m.toInt + c.toNat < -128 ∨ x.toInt + m.toInt + c.toNat > 127) :=
    (addOverflow_sum x m c).trans (decide_eq_decide.mpr (by omega))
  simp only [add8, Ccr.afterAdd8, nz_of_toNat cc (add8_toNat x m c), halfCarry_sum, hc, hv]
  rfl

/-- The CCR after Sub8 is the arithmetic reading of R12. -/
theorem sub8_ccr (c : Bool) (x m : Byte) (cc : Ccr) : (sub8 c x m cc).2 = cc.afterSub8 x m c := by
  have hc : subBorrow x m (x - m - bitValue 8 c) = decide (m.toNat + c.toNat > x.toNat) :=
    subBorrow_difference x m c
  have hv : subOverflow x m (x - m - bitValue 8 c) =
      decide (x.toInt - m.toInt - c.toNat < -128 ∨ x.toInt - m.toInt - c.toNat > 127) :=
    (subOverflow_difference x m c).trans (decide_eq_decide.mpr (by omega))
  simp only [sub8, Ccr.afterSub8, nz_of_toNat cc (sub8_toNat x m c), hc, hv]
  rfl

/-- A sum without carry-in is one with the carry-in clear. -/
theorem add_bitValue_false {w : Nat} (x m : BitVec w) : x + m + bitValue w false = x + m := by
  simp [bitValue]

theorem sub_bitValue_false {w : Nat} (x m : BitVec w) : x - m - bitValue w false = x - m := by
  simp [bitValue]

theorem sub16_toNat (x m : Word) : (x - m).toNat = (x.toNat + 65536 - m.toNat) % 65536 := by
  rw [BitVec.toNat_sub]
  congr 1
  omega

/-- The CCR after Add16 is the arithmetic reading of R13. -/
theorem add16_ccr (x m : Word) (cc : Ccr) : (add16 x m cc).2 = cc.afterAdd16 x m := by
  have hc : addCarry x m (x + m) = decide (x.toNat + m.toNat > 65535) := by
    rw [← add_bitValue_false]
    exact addCarry_sum x m false
  have hv : addOverflow x m (x + m) = decide (x.toInt + m.toInt < -32768 ∨ x.toInt + m.toInt > 32767) := by
    rw [← add_bitValue_false]
    exact (addOverflow_sum x m false).trans (decide_eq_decide.mpr (by simp only [Bool.toNat_false]; omega))
  simp only [add16, Ccr.afterAdd16, nz_of_toNat cc (BitVec.toNat_add x m), hc, hv]
  rfl

/-- The CCR after Sub16 is the arithmetic reading of R13. -/
theorem sub16_ccr (x m : Word) (cc : Ccr) : (sub16 x m cc).2 = cc.afterSub16 x m := by
  have hc : subBorrow x m (x - m) = decide (m.toNat > x.toNat) := by
    rw [← sub_bitValue_false]
    exact subBorrow_difference x m false
  have hv : subOverflow x m (x - m) = decide (x.toInt - m.toInt < -32768 ∨ x.toInt - m.toInt > 32767) := by
    rw [← sub_bitValue_false]
    exact (subOverflow_difference x m false).trans (decide_eq_decide.mpr (by simp only [Bool.toNat_false]; omega))
  have hz : decide ((x.toNat + 65536 - m.toNat) % 65536 = 0) = decide (x = m) := by
    rw [decide_eq_decide, BitVec.toNat_eq]
    omega
  simp only [sub16, Ccr.afterSub16, nz_of_toNat cc (sub16_toNat x m), hc, hv, hz]
  rfl

end Sys2Proof.Machine

end

section
/-! PROOFS. What an operation does to the CCR, its instruction does; the instructions that leave H alone (R12). -/

namespace Sys2Proof.Machine

/-! ### What an operation does to the CCR, its instruction does -/

section Ccr

variable {R : Ccr → Ccr → Prop}

theorem State.afterReads.ccr {s t : State} (h : s.afterReads t) : t.ccr = s.ccr := by
  rw [h]

theorem accBinary_ccr {f : Binary 8} (hf : ∀ x m cc, R cc (f x m cc).2) (r : Acc) (o : Opr8) (s : State) :
    Meets (accBinary f r o s) s.platform fun t => R s.ccr t.ccr := by
  refine (accBinary_meets f r o s).mono ?_
  rintro _ ⟨m, u, _, hu, rfl⟩
  exact hu.ccr ▸ hf _ m u.ccr

theorem accTest_ccr {f : Binary 8} (hf : ∀ x m cc, R cc (f x m cc).2) (r : Acc) (o : Opr8) (s : State) :
    Meets (accTest f r o s) s.platform fun t => R s.ccr t.ccr := by
  refine (accTest_meets f r o s).mono ?_
  rintro _ ⟨m, u, _, hu, rfl⟩
  exact hu.ccr ▸ hf _ m u.ccr

theorem regBinary_ccr {f : Binary 16} (hf : ∀ x m cc, R cc (f x m cc).2) (r : Reg16) (o : Opr16) (s : State) :
    Meets (regBinary f r o s) s.platform fun t => R s.ccr t.ccr := by
  refine (regBinary_meets f r o s).mono ?_
  rintro _ ⟨m, u, _, hu, rfl⟩
  exact hu.ccr ▸ hf _ m u.ccr

theorem regTest_ccr {f : Binary 16} (hf : ∀ x m cc, R cc (f x m cc).2) (r : Reg16) (o : Opr16) (s : State) :
    Meets (regTest f r o s) s.platform fun t => R s.ccr t.ccr := by
  refine (regTest_meets f r o s).mono ?_
  rintro _ ⟨m, u, _, hu, rfl⟩
  exact hu.ccr ▸ hf _ m u.ccr

theorem inherent_ccr {f : State → State} (hf : ∀ u, R u.ccr (f u).ccr) (s : State) :
    Meets (inherent f s) s.platform fun t => R s.ccr t.ccr := by
  refine (inherent_meets f s).mono ?_
  rintro _ ⟨u, hu, rfl⟩
  exact hu.ccr ▸ hf u

theorem accUnary_ccr {f : Unary 8} (hf : ∀ x cc, R cc (f x cc).2) (r : Acc) (s : State) :
    Meets (accUnary f r s) s.platform fun t => R s.ccr t.ccr :=
  inherent_ccr (fun u => hf (u.acc r) u.ccr) s

theorem memUnary_ccr {f : Unary 8} (hf : ∀ x cc, R cc (f x cc).2) (m : Mem) (s : State) :
    Meets (memUnary f m s) s.platform fun t => R s.ccr t.ccr := by
  refine (memUnary_meets f m s).mono ?_
  rintro _ ⟨x, u, v, w, _, _, _, _, rfl⟩
  exact hf x s.ccr

theorem memTest_ccr {f : Unary 8} (hf : ∀ x cc, R cc (f x cc).2) (m : Mem) (s : State) :
    Meets (memTest f m s) s.platform fun t => R s.ccr t.ccr := by
  refine (memTest_meets f m s).mono ?_
  rintro _ ⟨x, u, v, _, _, rfl⟩
  exact hf x s.ccr

end Ccr

/-- The H bit of the second CCR is that of the first. -/
def Ccr.keepsH (before after : Ccr) : Prop := after.h = before.h

theorem sub8_keepsH (c : Bool) (x m : Byte) (cc : Ccr) : cc.keepsH (sub8 c x m cc).2 := rfl
theorem sbc8_keepsH (x m : Byte) (cc : Ccr) : cc.keepsH (sbc8 x m cc).2 := rfl
theorem sub16_keepsH (x m : Word) (cc : Ccr) : cc.keepsH (sub16 x m cc).2 := rfl
theorem neg8_keepsH (x : Byte) (cc : Ccr) : cc.keepsH (neg8 x cc).2 := rfl
theorem tst8_keepsH (x : Byte) (cc : Ccr) : cc.keepsH (tst8 x cc).2 := rfl

/-- No subtract, compare, negate or test instruction writes H (R12). -/
theorem exec_keepsH_of_subtracts {i : Instr} (hi : subtracts i = true) (s : State) :
    Meets (exec i s) s.platform fun t => s.ccr.keepsH t.ccr := by
  cases i with
  | suba o | subb o => exact accBinary_ccr (sub8_keepsH false) _ o s
  | sbca o | sbcb o => exact accBinary_ccr sbc8_keepsH _ o s
  | cmpa o | cmpb o => exact accTest_ccr (sub8_keepsH false) _ o s
  | subd o => exact regBinary_ccr sub16_keepsH _ o s
  | cpd o | cpx o | cpy o => exact regTest_ccr sub16_keepsH _ o s
  | sba | cba =>
    refine inherent_ccr (R := Ccr.keepsH) ?_ s
    exact fun u => sub8_keepsH false u.a u.b u.ccr
  | nega | negb => exact accUnary_ccr neg8_keepsH _ s
  | tsta | tstb => exact accUnary_ccr tst8_keepsH _ s
  | neg m => exact memUnary_ccr neg8_keepsH m s
  | tst m => exact memTest_ccr tst8_keepsH m s
  | _ => cases hi

end Sys2Proof.Machine

end

section
/-! PROOFS. The stack in memory (R8). -/

namespace Sys2Proof.Machine

/-! ### A push, then a pull, in RAM (R8) -/

/-- A push to a stack in RAM. -/
theorem push8_ram {s : State} (v : Byte) (h : s.kindAt s.sp = .ram) :
    push8 v s = .ok () { s with mem := s.mem.write s.sp.toNat v, sp := s.sp - 1 } := by
  simp only [push8, writeByte_ram v h, Res.bind_ok]

/-- A pull from a stack in RAM or ROM, `a` being the address above SP and `v` the byte there. -/
theorem pull8_plain {s : State} {a : Word} {v : Byte} (ha : s.sp + 1 = a) (h : s.plain a) (hv : s.byteAt a = v) :
    pull8 s = .ok v { s with sp := a } := by
  subst ha hv
  exact readByte_plain (s := { s with sp := s.sp + 1 }) h

/-- A push of a word to a stack in RAM. -/
theorem push16_ram {s : State} (v : Word) (h0 : s.kindAt s.sp = .ram) (h1 : s.kindAt (s.sp - 1) = .ram) :
    push16 v s = .ok () { s with mem := (s.mem.write s.sp.toNat (loByte v)).write (s.sp - 1).toNat (hiByte v),
                                 sp := s.sp - 2 } := by
  have h2 : s.sp - 1 - 1 = s.sp - 2 := by rw [BitVec.sub_sub]; rfl
  rw [push16, push8_ram _ h0, Res.bind_ok, push8_ram _ h1, h2]

/-- A pull of a word from a stack in RAM or ROM, `a` and `b` being the addresses above SP. -/
theorem pull16_plain {s : State} {a b v : Word} (ha : s.sp + 1 = a) (hb : a + 1 = b) (h1 : s.plain a) (h2 : s.plain b)
    (hh : s.byteAt a = hiByte v) (hl : s.byteAt b = loByte v) : pull16 s = .ok v { s with sp := b } := by
  rw [pull16, pull8_plain ha h1 hh, Res.bind_ok, pull8_plain (s := { s with sp := a }) hb h2 hl, Res.bind_ok,
    joinBytes_hiByte_loByte]

/-- A byte pushed to RAM is the byte pulled. -/
theorem push8_pull8 {s : State} (v : Byte) (hm : s.mem.wf = true) (h : s.kindAt s.sp = .ram) :
    ∃ t, push8 v s = .ok () t ∧ t.sp = s.sp - 1 ∧ pull8 t = .ok v { t with sp := s.sp } :=
  ⟨_, push8_ram v h, rfl, pull8_plain (BitVec.sub_add_cancel s.sp 1) (.inl h) (Memory.read_write_same hm _ v)⟩

/-- A word pushed to RAM is the word pulled. -/
theorem push16_pull16 {s : State} (v : Word) (hm : s.mem.wf = true) (h0 : s.kindAt s.sp = .ram)
    (h1 : s.kindAt (s.sp - 1) = .ram) :
    ∃ t, push16 v s = .ok () t ∧ t.sp = s.sp - 2 ∧ pull16 t = .ok v { t with sp := s.sp } := by
  have hsp : s.sp - 2 + 1 = s.sp - 1 := by bv_omega
  have hne : (s.sp - 1).toNat ≠ s.sp.toNat := by bv_omega
  have hlo := (Memory.read_write_other (s.mem.write s.sp.toNat (loByte v)) (hiByte v) hne).trans
    (Memory.read_write_same hm s.sp.toNat (loByte v))
  have hhi := Memory.read_write_same (Memory.wf_write hm s.sp (loByte v)) (s.sp - 1).toNat (hiByte v)
  exact ⟨_, push16_ram v h0 h1, rfl, pull16_plain hsp (BitVec.sub_add_cancel s.sp 1) (.inl h1) (.inl h0) hhi hlo⟩

end Sys2Proof.Machine

end

section
/-! PROOFS. What every instruction and every step leave unchanged: the parameters, the lines, the bytes nothing is
stored to, and every address that is not RAM (R3, R41, R61, R62). -/

namespace Sys2Proof.Machine

/-! ### What no instruction changes but where it stores -/

/-- `t` has the parameters, the lines and the script of `s`, and the bytes of `s` but at these addresses, and there
too where MEM has no RAM; memory stays canonical. Registers, latches and the model's own counters are free. -/
structure State.Frame (s : State) (addrs : List Word) (t : State) : Prop where
  platform : t.platform = s.platform
  lines : t.lines = s.lines
  script : t.script = s.script
  elsewhere : ∀ a, a ∉ addrs → t.byteAt a = s.byteAt a
  notRam : ∀ a, s.kindAt a ≠ .ram → t.byteAt a = s.byteAt a
  wf : s.mem.wf = true → t.mem.wf = true

/-- An update of registers, latches and counters alone. -/
theorem State.Frame.of_mem_eq {s t : State} {addrs : List Word} (hp : t.platform = s.platform)
    (hl : t.lines = s.lines) (hs : t.script = s.script) (hm : t.mem = s.mem) : s.Frame addrs t :=
  ⟨hp, hl, hs, fun a _ => by rw [State.byteAt, hm, State.byteAt], fun a _ => by rw [State.byteAt, hm, State.byteAt],
    fun w => hm ▸ w⟩

theorem State.Frame.trans {s t u : State} {addrs : List Word} (h : s.Frame addrs t) (h' : t.Frame addrs u) :
    s.Frame addrs u where
  platform := h'.platform.trans h.platform
  lines := h'.lines.trans h.lines
  script := h'.script.trans h.script
  elsewhere a ha := (h'.elsewhere a ha).trans (h.elsewhere a ha)
  notRam a ha := (h'.notRam a (by rwa [State.kindAt_congr h.platform])).trans (h.notRam a ha)
  wf w := h'.wf (h.wf w)

theorem State.afterStores.frame {s t : State} {addrs : List Word} (h : s.afterStores addrs t) : s.Frame addrs t := by
  obtain ⟨heq, helse, hrom, hwf⟩ := h
  exact ⟨by rw [heq], by rw [heq], by rw [heq], helse, hrom, hwf⟩

theorem State.afterReads.frame {s t : State} (h : s.afterReads t) (addrs : List Word) : s.Frame addrs t :=
  (h.afterStores addrs).frame

/-- A frame that starts after a change of SP. -/
theorem State.Frame.of_sp {s t : State} {p : Word} {addrs : List Word} (h : { s with sp := p }.Frame addrs t) :
    s.Frame addrs t :=
  (State.Frame.of_mem_eq (s := s) (t := { s with sp := p }) rfl rfl rfl rfl).trans h

/-- A frame that ends with an update of registers, latches and counters alone. -/
theorem State.Frame.update {s t u : State} {addrs : List Word} (h : s.Frame addrs t) (hp : u.platform = t.platform)
    (hl : u.lines = t.lines) (hs : u.script = t.script) (hm : u.mem = t.mem) : s.Frame addrs u :=
  h.trans (.of_mem_eq hp hl hs hm)

/-! ### The shapes of instruction -/

theorem State.setAcc_frame (s : State) (r : Acc) (v : Byte) (addrs : List Word) : s.Frame addrs (s.setAcc r v) := by
  cases r <;> exact .of_mem_eq rfl rfl rfl rfl

theorem State.setReg_frame (s : State) (r : Reg16) (v : Word) (addrs : List Word) : s.Frame addrs (s.setReg r v) := by
  cases r <;> exact .of_mem_eq rfl rfl rfl rfl

section Shapes

variable (s : State)

theorem inherent_frame {f : State → State} (hf : ∀ u : State, u.Frame [] (f u)) :
    Meets (inherent f s) s.platform (s.Frame []) := by
  refine (inherent_meets f s).mono ?_
  rintro _ ⟨u, hu, rfl⟩
  exact (hu.frame []).trans (hf u)

theorem inherentIdle_frame {n : Nat} {f : State → State} (hf : ∀ u : State, u.Frame [] (f u)) :
    Meets (inherentIdle n f s) s.platform (s.Frame []) := by
  refine (inherentIdle_meets n f s).mono ?_
  rintro _ ⟨u, hu, rfl⟩
  exact (hu.frame []).trans (hf u)

theorem inherentStack_frame {f : State → State} (hf : ∀ u : State, u.Frame [] (f u)) :
    Meets (inherentStack f s) s.platform (s.Frame []) := by
  refine (inherentStack_meets f s).mono ?_
  rintro _ ⟨u, hu, rfl⟩
  exact (hu.frame []).trans (hf u)

theorem accBinary_frame (f : Binary 8) (r : Acc) (o : Opr8) : Meets (accBinary f r o s) s.platform (s.Frame []) := by
  refine (accBinary_meets f r o s).mono ?_
  rintro _ ⟨m, u, _, hu, rfl⟩
  exact ((hu.frame []).trans (u.setAcc_frame r _ [])).update rfl rfl rfl rfl

theorem accTest_frame (f : Binary 8) (r : Acc) (o : Opr8) : Meets (accTest f r o s) s.platform (s.Frame []) := by
  refine (accTest_meets f r o s).mono ?_
  rintro _ ⟨m, u, _, hu, rfl⟩
  exact (hu.frame []).update rfl rfl rfl rfl

theorem regBinary_frame (f : Binary 16) (r : Reg16) (o : Opr16) :
    Meets (regBinary f r o s) s.platform (s.Frame []) := by
  refine (regBinary_meets f r o s).mono ?_
  rintro _ ⟨m, u, _, hu, rfl⟩
  exact ((hu.frame []).trans (u.setReg_frame r _ [])).update rfl rfl rfl rfl

theorem regTest_frame (f : Binary 16) (r : Reg16) (o : Opr16) : Meets (regTest f r o s) s.platform (s.Frame []) := by
  refine (regTest_meets f r o s).mono ?_
  rintro _ ⟨m, u, _, hu, rfl⟩
  exact (hu.frame []).update rfl rfl rfl rfl

theorem accUnary_frame (f : Unary 8) (r : Acc) : Meets (accUnary f r s) s.platform (s.Frame []) :=
  inherent_frame s fun u => (u.setAcc_frame r _ []).update rfl rfl rfl rfl

theorem dUnary_frame (f : Unary 16) : Meets (dUnary f s) s.platform (s.Frame []) :=
  inherentIdle_frame s fun _ => .of_mem_eq rfl rfl rfl rfl

theorem memModify_frame (f : Unary 8) (m : Mem) (x : Byte) :
    Meets (memModify f m x s) s.platform (s.Frame [s.ea m]) := by
  refine (memModify_meets f m x s).mono ?_
  rintro _ ⟨v, w, _, _, hw, rfl⟩
  exact hw.frame.update rfl rfl rfl rfl

theorem memUnary_frame (f : Unary 8) (m : Mem) : Meets (memUnary f m s) s.platform (s.Frame [s.ea m]) := by
  refine (memUnary_meets f m s).mono ?_
  rintro _ ⟨x, u, v, w, _, _, _, hw, rfl⟩
  exact hw.frame.update rfl rfl rfl rfl

theorem memTest_frame (f : Unary 8) (m : Mem) : Meets (memTest f m s) s.platform (s.Frame []) := by
  refine (memTest_meets f m s).mono ?_
  rintro _ ⟨x, u, v, _, hv, rfl⟩
  exact (hv.frame []).update rfl rfl rfl rfl

theorem loadAcc_frame (r : Acc) (o : Opr8) : Meets (loadAcc r o s) s.platform (s.Frame []) := by
  refine (loadAcc_meets r o s).mono ?_
  rintro _ ⟨v, u, _, hu, rfl⟩
  exact ((hu.frame []).trans (u.setAcc_frame r v [])).update rfl rfl rfl rfl

theorem loadReg_frame (r : Reg16) (o : Opr16) : Meets (loadReg r o s) s.platform (s.Frame []) := by
  refine (loadReg_meets r o s).mono ?_
  rintro _ ⟨v, u, _, hu, rfl⟩
  exact ((hu.frame []).trans (u.setReg_frame r v [])).update rfl rfl rfl rfl

theorem storeAcc_frame (r : Acc) (m : Mem) : Meets (storeAcc r m s) s.platform (s.Frame [s.ea m]) := by
  refine (storeAcc_meets r m s).mono ?_
  rintro _ ⟨u, w, _, _, hw, rfl⟩
  exact hw.frame.update rfl rfl rfl rfl

theorem storeReg_frame (r : Reg16) (m : Mem) :
    Meets (storeReg r m s) s.platform (s.Frame [s.ea m, s.ea m + 1]) := by
  refine (storeReg_meets r m s).mono ?_
  rintro _ ⟨u, w, _, _, hw, rfl⟩
  exact hw.frame.update rfl rfl rfl rfl

theorem pushAcc_frame (r : Acc) : Meets (pushAcc r s) s.platform (s.Frame [s.sp]) :=
  (pushAcc_meets r s).mono fun _ ht => ht.frame.of_sp

theorem pushReg_frame (r : Reg16) : Meets (pushReg r s) s.platform (s.Frame [s.sp, s.sp - 1]) :=
  (pushReg_meets r s).mono fun _ ht => ht.frame.of_sp

theorem pullAcc_frame (r : Acc) : Meets (pullAcc r s) s.platform (s.Frame []) := by
  refine (pullAcc_meets r s).mono ?_
  rintro _ ⟨v, u, hu, rfl⟩
  exact (hu.frame []).of_sp.trans (u.setAcc_frame r v [])

theorem pullReg_frame (r : Reg16) : Meets (pullReg r s) s.platform (s.Frame []) := by
  refine (pullReg_meets r s).mono ?_
  rintro _ ⟨v, u, hu, rfl⟩
  exact (hu.frame []).of_sp.trans (u.setReg_frame r v [])

theorem branchIf_frame (cond : Bool) (rr : Byte) : Meets (branchIf cond rr s) s.platform (s.Frame []) := by
  refine (branchIf_meets cond rr s).mono ?_
  rintro _ ⟨u, hu, rfl⟩
  exact (hu.frame []).update rfl rfl rfl rfl

/-! ### The instructions with a sequence of their own -/

theorem execBrset_frame (m : Mem) (mm rr : Byte) : Meets (execBrset m mm rr s) s.platform (s.Frame []) := by
  refine (execBrset_meets m mm rr s).mono ?_
  rintro _ ⟨x, u, v, _, hv, rfl⟩
  exact (hv.frame []).update rfl rfl rfl rfl

theorem execBrclr_frame (m : Mem) (mm rr : Byte) : Meets (execBrclr m mm rr s) s.platform (s.Frame []) := by
  refine (execBrclr_meets m mm rr s).mono ?_
  rintro _ ⟨x, u, v, _, hv, rfl⟩
  exact (hv.frame []).update rfl rfl rfl rfl

theorem execBsr_frame (rr : Byte) : Meets (execBsr rr s) s.platform (s.Frame [s.sp, s.sp - 1]) := by
  refine (execBsr_meets rr s).mono ?_
  rintro _ ⟨w, hw, rfl⟩
  exact hw.frame.of_sp.update rfl rfl rfl rfl

theorem execJmp_frame (m : Mem) : Meets (execJmp m s) s.platform (s.Frame []) := by
  refine (execJmp_meets m s).mono ?_
  rintro _ ⟨u, hu, rfl⟩
  exact (hu.frame []).update rfl rfl rfl rfl

theorem execJsr_frame (m : Mem) : Meets (execJsr m s) s.platform (s.Frame [s.sp, s.sp - 1]) := by
  refine (execJsr_meets m s).mono ?_
  rintro _ ⟨w, hw, rfl⟩
  exact hw.frame.of_sp.update rfl rfl rfl rfl

theorem execRts_frame : Meets (execRts s) s.platform (s.Frame []) := by
  refine (execRts_meets s).mono ?_
  rintro _ ⟨v, u, hu, rfl⟩
  exact (hu.frame []).of_sp.update rfl rfl rfl rfl

theorem execRti_frame : Meets (execRti s) s.platform (s.Frame []) := by
  refine (execRti_meets s).mono ?_
  rintro _ ⟨c, b, a, ix, iy, pc, u, hu, rfl⟩
  exact (hu.frame []).of_sp.update rfl rfl rfl rfl

theorem execSwi_frame : Meets (execSwi s) s.platform (s.Frame s.frameAddresses) := by
  refine (execSwi_meets s).mono ?_
  rintro _ ⟨handler, w, hw, rfl⟩
  exact hw.frame.of_sp.update rfl rfl rfl rfl

theorem execWai_frame : Meets (execWai s) s.platform (s.Frame s.frameAddresses) := by
  refine (execWai_meets s).mono ?_
  rintro _ ⟨w, hw, rfl⟩
  exact hw.frame.of_sp.update rfl rfl rfl rfl

theorem execTest_frame (h : s.platform.testMode = true) : Meets (execTest s) s.platform (s.Frame []) := by
  refine (execTest_meets s h).mono ?_
  rintro _ ⟨u, hu, rfl⟩
  exact (hu.frame []).update rfl rfl rfl rfl

theorem decimalAdjust_frame : s.Frame [] (decimalAdjust s) := by
  unfold decimalAdjust
  split <;> exact .of_mem_eq rfl rfl rfl rfl

theorem integerDivide_frame : s.Frame [] (integerDivide s) := by
  unfold integerDivide
  split <;> exact .of_mem_eq rfl rfl rfl rfl

theorem fractionalDivide_frame : s.Frame [] (fractionalDivide s) := by
  unfold fractionalDivide
  split
  · exact .of_mem_eq rfl rfl rfl rfl
  · split <;> exact .of_mem_eq rfl rfl rfl rfl

theorem stopProcessing_frame : s.Frame [] (stopProcessing s) := by
  unfold stopProcessing
  split
  · exact .of_mem_eq rfl rfl rfl rfl
  · split <;> exact .of_mem_eq rfl rfl rfl rfl

end Shapes

/-- What an instruction can do: it stops at an address where MEM has nothing, or changes no parameter, no line and no
byte but those it stores to, of RAM alone (R61, R62, R332). -/
theorem exec_frame (i : Instr) (s : State) (hi : s.legal i) :
    Meets (exec i s) s.platform (s.Frame (storedAddresses s i)) := by
  cases i with
  | ldaa o | ldab o => exact loadAcc_frame s _ o
  | ldd o | lds o | ldx o | ldy o => exact loadReg_frame s _ o
  | staa m | stab m => exact storeAcc_frame s _ m
  | std m | sts m | stx m | sty m => exact storeReg_frame s _ m
  | tab | tba | tap | tpa | aba | cba | sba | clc | clv | sec | sev | nop | cli | sei =>
    exact inherent_frame s fun _ => .of_mem_eq rfl rfl rfl rfl
  | tsx | tsy | des | ins => exact inherentStack_frame s fun _ => .of_mem_eq rfl rfl rfl rfl
  | txs | tys | xgdx | xgdy | abx | aby | dex | dey | inx | iny | mul =>
    exact inherentIdle_frame s fun _ => .of_mem_eq rfl rfl rfl rfl
  | daa => exact inherent_frame s decimalAdjust_frame
  | fdiv => exact inherentIdle_frame s fractionalDivide_frame
  | idiv => exact inherentIdle_frame s integerDivide_frame
  | stop => exact inherent_frame s stopProcessing_frame
  | psha | pshb => exact pushAcc_frame s _
  | pshx | pshy => exact pushReg_frame s _
  | pula | pulb => exact pullAcc_frame s _
  | pulx | puly => exact pullReg_frame s _
  | clr m | dec m | inc m | neg m | com m | asl m | asr m | lsr m | rol m | ror m | lsl m =>
    exact memUnary_frame s _ m
  | bclr m mm | bset m mm => exact memUnary_frame s _ m
  | tst m => exact memTest_frame s _ m
  | clra | clrb | deca | decb | inca | incb | nega | negb | tsta | tstb | coma | comb | asla | aslb | asra | asrb
  | lsra | lsrb | rola | rolb | rora | rorb | lsla | lslb => exact accUnary_frame s _ _
  | asld | lsrd | lsld => exact dUnary_frame s _
  | adca o | adcb o | adda o | addb o | sbca o | sbcb o | suba o | subb o | anda o | andb o | eora o | eorb o
  | oraa o | orab o => exact accBinary_frame s _ _ o
  | cmpa o | cmpb o | bita o | bitb o => exact accTest_frame s _ _ o
  | addd o | subd o => exact regBinary_frame s _ _ o
  | cpd o | cpx o | cpy o => exact regTest_frame s _ _ o
  | bcc rr | bcs rr | beq rr | bge rr | bgt rr | bhi rr | bhs rr | ble rr | blo rr | bls rr | blt rr | bmi rr
  | bne rr | bpl rr | bra rr | brn rr | bvc rr | bvs rr => exact branchIf_frame s _ rr
  | brclr m mm rr => exact execBrclr_frame s m mm rr
  | brset m mm rr => exact execBrset_frame s m mm rr
  | bsr rr => exact execBsr_frame s rr
  | jmp m => exact execJmp_frame s m
  | jsr m => exact execJsr_frame s m
  | rts => exact execRts_frame s
  | rti => exact execRti_frame s
  | swi => exact execSwi_frame s
  | wai => exact execWai_frame s
  | test => exact execTest_frame s (hi rfl)

/-! ### What no step changes -/

/-- `t` has the parameters of `s`, and its bytes where MEM has no RAM. -/
def State.sameRom (s t : State) : Prop :=
  t.platform = s.platform ∧ ∀ a, s.kindAt a ≠ .ram → t.byteAt a = s.byteAt a

theorem State.sameRom.trans {s t u : State} (h : s.sameRom t) (h' : t.sameRom u) : s.sameRom u :=
  ⟨h'.1.trans h.1, fun a ha => (h'.2 a (by rwa [State.kindAt_congr h.1])).trans (h.2 a ha)⟩

theorem State.Frame.sameRom {s t : State} {addrs : List Word} (h : s.Frame addrs t) : s.sameRom t :=
  ⟨h.platform, h.notRam⟩

theorem State.takeScript_sameRom (s : State) : s.sameRom s.takeScript :=
  ⟨s.takeScript_platform, fun _ _ => by rw [State.byteAt, s.takeScript_mem, State.byteAt]⟩

theorem takeException_sameRom {e : Event} {s t : State} (h : takeException e s = .ok () t) : s.sameRom t := by
  obtain ⟨handler, u, hu, rfl⟩ := (takeException_meets e s).1 () t h
  exact (hu.frame.of_sp.update rfl rfl rfl rfl).sameRom

theorem fetchVector_sameRom {e : Event} {s t : State} (h : fetchVector e s = .ok () t) : s.sameRom t := by
  obtain ⟨handler, u, hu, _, rfl⟩ := (fetchVector_meets e s).1 () t h
  exact ((hu.frame []).update rfl rfl rfl rfl).sameRom

theorem takeReset_sameRom {s t : State} (h : takeReset s = .ok () t) : s.sameRom t := by
  obtain ⟨start, u, hu, rfl⟩ := (takeReset_meets s).1 () t h
  have hr : s.Frame [] s.resetRegisters := .of_mem_eq rfl rfl rfl rfl
  exact ((hr.trans (hu.frame [])).update rfl rfl rfl rfl).sameRom

theorem illegalOpcode_sameRom {opa : Word} {s t : State} (h : illegalOpcode opa s = .next t) : s.sameRom t :=
  takeException_sameRom (illegalOpcode_eq_next.mp h).2

/-- Any instruction, TEST outside test mode, which takes the entry of an illegal opcode, included (R98). -/
theorem exec_sameRom {i : Instr} {s t : State} (h : exec i s = .next t) : s.sameRom t := by
  by_cases hi : s.legal i
  · exact ((exec_frame i s hi).1 t h).sameRom
  · simp only [State.legal, Classical.not_imp, Bool.not_eq_true] at hi
    obtain ⟨rfl, htest⟩ := hi
    exact illegalOpcode_sameRom ((execTest_illegal s htest).symm.trans h)

theorem execFetched_sameRom {f : Fetched} {s t : State} (h : execFetched f s = .next t) : s.sameRom t := by
  rcases execFetched_cases f s with he | ⟨x, _, hbit⟩
  · exact exec_sameRom (he.symm.trans h)
  · rcases hbit with ⟨m, mm, _, he⟩ | ⟨m, mm, _, he⟩ | ⟨m, mm, rr, _, he⟩ | ⟨m, mm, rr, _, he⟩ <;> rw [he] at h
    · exact ((memModify_frame s _ m x).1 t h).sameRom
    · exact ((memModify_frame s _ m x).1 t h).sameRom
    · exact ((branchIf_frame s _ rr).1 t h).sameRom
    · exact ((branchIf_frame s _ rr).1 t h).sameRom

theorem fetchInstr_sameRom {f : Option Fetched} {s t : State} (h : fetchInstr s = .ok f t) : s.sameRom t := by
  obtain ⟨k, u, hu, rfl⟩ := (fetchInstr_meets s).1 f t h
  exact ((hu.frame []).update rfl rfl rfl rfl).sameRom

theorem executeNext_sameRom {s t : State} (h : executeNext s = .next t) : s.sameRom t := by
  rcases executeNext_eq_next.mp h with ⟨f, u, v, hfetch, hexec, rfl⟩ | ⟨u, hfetch, hill⟩
  · have huv : u.sameRom v := execFetched_sameRom (s := { u with idelay := false }) hexec
    exact (fetchInstr_sameRom hfetch).trans huv
  · exact (fetchInstr_sameRom hfetch).trans (illegalOpcode_sameRom hill)

theorem runningStep_sameRom {s t : State} (h : runningStep s = .next t) : s.sameRom t := by
  rcases runningStep_eq_next h with ⟨_, h⟩ | ⟨_, _, src, _, h⟩ | ⟨_, _, h⟩
  · exact takeException_sameRom h
  · exact takeException_sameRom h
  · exact executeNext_sameRom h

theorem waitingStep_sameRom {s t : State} (h : waitingStep s = .next t) : s.sameRom t := by
  rcases waitingStep_eq_next h with ⟨_, h⟩ | ⟨_, src, _, h⟩ | ⟨_, _, h⟩
  · exact fetchVector_sameRom h
  · exact fetchVector_sameRom h
  · exact (((valueless_meets _ s).1 () t h).1.frame []).sameRom

theorem stoppedStep_sameRom {s t : State} (h : stoppedStep s = .next t) : s.sameRom t := by
  rcases stoppedStep_eq_next h with ⟨_, _, rfl⟩ | ⟨_, _, h⟩ | ⟨_, _, _, h⟩ | ⟨_, _, rfl⟩
  · exact ⟨rfl, fun _ _ => rfl⟩
  · exact takeException_sameRom h
  · exact takeException_sameRom h
  · exact ⟨rfl, fun _ _ => rfl⟩

theorem testLoopStep_sameRom {s t : State} (h : testLoopStep s = .next t) : s.sameRom t := by
  cases h
  exact ⟨rfl, fun _ _ => rfl⟩

/-- No step changes a parameter, or a byte where MEM has no RAM (R3, R41, R61). -/
theorem step_sameRom {s t : State} (h : step s = .next t) : s.sameRom t := by
  refine s.takeScript_sameRom.trans ?_
  rcases step_eq_next h with ⟨_, h⟩ | ⟨_, ⟨_, h⟩ | ⟨_, h⟩ | ⟨_, h⟩ | ⟨_, h⟩⟩
  · exact takeReset_sameRom h
  · exact runningStep_sameRom h
  · exact waitingStep_sameRom h
  · exact stoppedStep_sameRom h
  · exact testLoopStep_sameRom h

end Sys2Proof.Machine

end

section
/-! PROOFS. The bytes of an instruction one after the other: before the last of them the decoder wants more (R80, R91,
R102), and where the fetch reads the operand of the bit instructions (R380). -/

namespace Sys2Proof

/-! ### The instructions whose operand the fetch reads -/

/-- The operand of BSET, BCLR, BRSET and BRCLR, whose byte is read before their mask is fetched (R380). -/
def Instr.earlyMem : Instr → Option Mem
  | .bset m _ | .bclr m _ | .brset m _ _ | .brclr m _ _ => some m
  | _ => none

/-! ### How many bytes an entry of the opcode maps takes -/

/-- The mode takes one byte (R85, R87, R88). -/
def takesOne (mode : MemMode) : Prop :=
  mode [] = none ∧ ∃ g : Byte → Mem, ∀ b rest, mode (b :: rest) = some (g b, rest)

/-- The mode takes two bytes (R86). -/
def takesTwo (mode : MemMode) : Prop :=
  mode [] = none ∧ (∀ b, mode [b] = none) ∧ ∃ g : Byte → Byte → Mem, ∀ b c rest, mode (b :: c :: rest) = some (g b c, rest)

theorem dirMode_takesOne : takesOne dirMode := ⟨rfl, .dir, fun _ _ => rfl⟩
theorem indXMode_takesOne : takesOne indXMode := ⟨rfl, .indX, fun _ _ => rfl⟩
theorem indYMode_takesOne : takesOne indYMode := ⟨rfl, .indY, fun _ _ => rfl⟩
theorem extMode_takesTwo : takesTwo extMode := ⟨rfl, fun _ => rfl, fun h l => .ext (joinBytes h l), fun _ _ _ => rfl⟩

/-- What the opcode maps of R92 to R95 have in common: only the formats with a mask make instructions that read
early, and their address takes one byte (R90). -/
def Slot.regular : Slot → Prop
  | .undefined | .prebyte _ => True
  | .inh i => i.earlyMem = none
  | .imm8 f => ∀ o, (f o).earlyMem = none
  | .imm16 f => ∀ o, (f o).earlyMem = none
  | .opr8 mode f => (takesOne mode ∨ takesTwo mode) ∧ ∀ o, (f o).earlyMem = none
  | .opr16 mode f => (takesOne mode ∨ takesTwo mode) ∧ ∀ o, (f o).earlyMem = none
  | .mem mode f => (takesOne mode ∨ takesTwo mode) ∧ ∀ m, (f m).earlyMem = none
  | .rel f => ∀ rr, (f rr).earlyMem = none
  | .mask mode f => takesOne mode ∧ ∀ m mm, (f m mm).earlyMem = some m
  | .maskRel mode f => takesOne mode ∧ ∀ m mm rr, (f m mm rr).earlyMem = some m

theorem Slot.regular_undefined : Slot.undefined.regular := trivial

/-- Page 1, entry by entry: of its modes with a mask none is EXT (R90, R92). -/
theorem page1_regular : ∀ row ∈ page1Rows, ∀ slot ∈ row, slot.regular := by
  simp [page1Rows, page1Row0, page1Row1, page1Row2, page1Row3, page1Row4, page1Row5, page1Row6, page1Row7, page1Row8,
    page1Row9, page1RowA, page1RowB, page1RowC, page1RowD, page1RowE, page1RowF, Slot.regular, Instr.earlyMem,
    dirMode_takesOne, indXMode_takesOne, extMode_takesTwo]

theorem page2_regular : ∀ e ∈ page2Opcodes, e.2.regular := by
  simp [page2Opcodes, Slot.regular, Instr.earlyMem, dirMode_takesOne, indYMode_takesOne, extMode_takesTwo]

theorem page3_regular : ∀ e ∈ page3Opcodes, e.2.regular := by
  simp [page3Opcodes, Slot.regular, Instr.earlyMem, dirMode_takesOne, indXMode_takesOne, extMode_takesTwo]

theorem page4_regular : ∀ e ∈ page4Opcodes, e.2.regular := by
  simp [page4Opcodes, Slot.regular, Instr.earlyMem, indYMode_takesOne]

theorem lookupOpcode_regular {opcodes : List (Nat × Slot)} (h : ∀ e ∈ opcodes, e.2.regular) (op : Byte) :
    (lookupOpcode opcodes op).regular := by
  unfold lookupOpcode
  split
  · next e he => exact h e (List.mem_of_find?_eq_some he)
  · trivial

theorem getD_of_forall_mem {α : Type} {p : α → Prop} {l : List α} {d : α} (h : ∀ x ∈ l, p x) (hd : p d) (n : Nat) :
    p (l.getD n d) := by
  rw [List.getD_eq_getElem?_getD]
  cases hn : l[n]? with
  | none => exact hd
  | some x => exact h x (List.mem_of_getElem? hn)

theorem opcodeMap_regular (p : Page) (op : Byte) : (opcodeMap p op).regular := by
  cases p with
  | one =>
    have hrow : ∀ slot ∈ page1Rows.getD (op.toNat / 16) [], slot.regular :=
      getD_of_forall_mem (p := fun row : List Slot => ∀ slot ∈ row, slot.regular) page1_regular (by simp) _
    exact getD_of_forall_mem hrow Slot.regular_undefined _
  | two => exact lookupOpcode_regular page2_regular op
  | three => exact lookupOpcode_regular page3_regular op
  | four => exact lookupOpcode_regular page4_regular op

/-! ### The operand bytes of an entry, one after the other -/

/-- `l` are the operand bytes of the instruction `i` in a slot: before the last of them the decoder wants more, and
after the first the fetch reads the byte of an early operand. -/
structure Slot.Takes (slot : Slot) (l : List Byte) (i : Instr) : Prop where
  length_le : l.length ≤ 3
  early_lt : i.earlyMem ≠ none → 1 < l.length
  tooShort : ∀ p op, ∀ k < l.length, slot.operands p op (l.take k) = .tooShort
  early : ∀ k < l.length, slot.earlyOperand (l.take k) = if k = 1 then i.earlyMem else none

/-- The operand bytes of a slot without a mask. -/
theorem Slot.Takes.of_no_early {slot : Slot} {l : List Byte} {i : Instr} (hl : l.length ≤ 3)
    (hi : i.earlyMem = none) (hs : ∀ q, slot.earlyOperand q = none)
    (ht : ∀ p op, ∀ k < l.length, slot.operands p op (l.take k) = .tooShort) : slot.Takes l i where
  length_le := hl
  early_lt h := absurd hi h
  tooShort := ht
  early k _ := by rw [hs, hi, ite_self]

/-- An address that is the last operand of its instruction. -/
theorem withMem_takes {mode : MemMode} (hmode : takesOne mode ∨ takesTwo mode) {f : Mem → Instr} {l : List Byte}
    {i : Instr} (h : withMem mode l (fun m rest => .instr (f m) rest) = .instr i []) :
    l.length ≤ 3 ∧ (∃ m, i = f m) ∧
      ∀ k < l.length, withMem mode (l.take k) (fun m rest => .instr (f m) rest) = .tooShort := by
  unfold withMem at h
  rcases hmode with ⟨h0, g, h1⟩ | ⟨h0, h1, g, h2⟩
  · cases l with
    | nil => simp [h0] at h
    | cons b rest =>
      simp only [h1, Decoded.instr.injEq] at h
      obtain ⟨rfl, rfl⟩ := h
      refine ⟨by simp, ⟨_, rfl⟩, fun k hk => ?_⟩
      have hk0 : k = 0 := by simpa using hk
      simp [withMem, hk0, h0]
  · match l with
    | [] => simp [h0] at h
    | [b] => simp [h1] at h
    | b :: c :: rest =>
      simp only [h2, Decoded.instr.injEq] at h
      obtain ⟨rfl, rfl⟩ := h
      refine ⟨by simp, ⟨_, rfl⟩, fun k hk => ?_⟩
      have hk2 : k = 0 ∨ k = 1 := by simp at hk; omega
      rcases hk2 with rfl | rfl <;> simp [withMem, h0, h1]

/-- The bytes that a slot of the maps makes an instruction of, to the last of them. -/
theorem Slot.takes_of_operands {slot : Slot} (hreg : slot.regular) {p : Page} {op : Byte} {l : List Byte} {i : Instr}
    (h : slot.operands p op l = .instr i []) : slot.Takes l i := by
  cases slot with
  | undefined | prebyte _ => simp [operands] at h
  | inh j =>
    simp only [operands, Decoded.instr.injEq] at h
    obtain ⟨rfl, rfl⟩ := h
    exact .of_no_early (by simp) hreg (fun _ => rfl) (by simp)
  | imm8 f =>
    match l with
    | [] => simp [operands] at h
    | ii :: rest =>
      simp only [operands, Decoded.instr.injEq] at h
      obtain ⟨rfl, rfl⟩ := h
      exact .of_no_early (by simp) (hreg _) (fun _ => rfl) (by simp [operands])
  | imm16 f =>
    match l with
    | [] => simp [operands] at h
    | [_] => simp [operands] at h
    | jj :: kk :: rest =>
      simp only [operands, Decoded.instr.injEq] at h
      obtain ⟨rfl, rfl⟩ := h
      refine .of_no_early (by simp) (hreg _) (fun _ => rfl) fun p op k hk => ?_
      have hk2 : k = 0 ∨ k = 1 := by simp at hk; omega
      rcases hk2 with rfl | rfl <;> rfl
  | opr8 mode f =>
    obtain ⟨hl, ⟨m, rfl⟩, ht⟩ := withMem_takes hreg.1 h
    exact .of_no_early hl (hreg.2 _) (fun _ => rfl) fun _ _ => ht
  | opr16 mode f =>
    obtain ⟨hl, ⟨m, rfl⟩, ht⟩ := withMem_takes hreg.1 h
    exact .of_no_early hl (hreg.2 _) (fun _ => rfl) fun _ _ => ht
  | mem mode f =>
    obtain ⟨hl, ⟨m, rfl⟩, ht⟩ := withMem_takes hreg.1 h
    exact .of_no_early hl (hreg.2 _) (fun _ => rfl) fun _ _ => ht
  | rel f =>
    match l with
    | [] => simp [operands] at h
    | rr :: rest =>
      simp only [operands, Decoded.instr.injEq] at h
      obtain ⟨rfl, rfl⟩ := h
      exact .of_no_early (by simp) (hreg _) (fun _ => rfl) (by simp [operands])
  | mask mode f =>
    obtain ⟨⟨h0, g, h1⟩, hearly⟩ := hreg
    match l with
    | [] => simp [operands, withMem, h0] at h
    | [b] => simp [operands, withMem, h1] at h
    | b :: mm :: rest =>
      simp only [operands, withMem, h1, Decoded.instr.injEq] at h
      obtain ⟨rfl, rfl⟩ := h
      refine ⟨by simp, fun _ => by simp, fun p op k hk => ?_, fun k hk => ?_⟩
      all_goals have hk2 : k = 0 ∨ k = 1 := by simp at hk; omega
      · rcases hk2 with rfl | rfl <;> simp [operands, withMem, h0, h1]
      · rcases hk2 with rfl | rfl <;> simp [earlyOperand, earlyOperand.earlyMem, h0, h1, hearly]
  | maskRel mode f =>
    obtain ⟨⟨h0, g, h1⟩, hearly⟩ := hreg
    match l with
    | [] => simp [operands, withMem, h0] at h
    | [b] => simp [operands, withMem, h1] at h
    | [b, mm] => simp [operands, withMem, h1] at h
    | b :: mm :: rr :: rest =>
      simp only [operands, withMem, h1, Decoded.instr.injEq] at h
      obtain ⟨rfl, rfl⟩ := h
      refine ⟨by simp, fun _ => by simp, fun p op k hk => ?_, fun k hk => ?_⟩
      all_goals have hk3 : k = 0 ∨ k = 1 ∨ k = 2 := by simp at hk; omega
      · rcases hk3 with rfl | rfl | rfl <;> simp [operands, withMem, h0, h1]
      · rcases hk3 with rfl | rfl | rfl <;> simp [earlyOperand, earlyOperand.earlyMem, h0, h1, hearly]

/-! ### The bytes of an instruction, one after the other -/

/-- `bytes` are those of the instruction `i`: before the last of them the decoder wants more, and after the first `e` of
them the fetch reads the byte of an early operand. -/
structure Fetches (bytes : List Byte) (i : Instr) (e : Nat) : Prop where
  length_le : bytes.length ≤ maxLength
  early_pos : 0 < e
  early_lt : i.earlyMem ≠ none → e < bytes.length
  decode_eq : decode bytes = .instr i []
  tooShort : ∀ k, 0 < k → k < bytes.length → decode (bytes.take k) = .tooShort
  early : ∀ k, 0 < k → k < bytes.length → earlyOperand (bytes.take k) = if k = e then i.earlyMem else none

theorem decode_of_prebyte {b0 : Byte} {p : Page} (h : opcodeMap .one b0 = .prebyte p) (op : Byte) (l : List Byte) :
    decode (b0 :: op :: l) = (opcodeMap p op).operands p op l := by
  simp only [decode, h]

theorem earlyOperand_of_prebyte {b0 : Byte} {p : Page} (h : opcodeMap .one b0 = .prebyte p) (op : Byte)
    (l : List Byte) : earlyOperand (b0 :: op :: l) = (opcodeMap p op).earlyOperand l := by
  simp only [earlyOperand, h]

theorem decode_of_opcode {b0 : Byte} (h : ∀ p, opcodeMap .one b0 ≠ .prebyte p) (l : List Byte) :
    decode (b0 :: l) = (opcodeMap .one b0).operands .one b0 l := by
  rw [decode]
  split
  · next p hp => exact absurd hp (h p)
  · rfl

theorem earlyOperand_of_opcode {b0 : Byte} (h : ∀ p, opcodeMap .one b0 ≠ .prebyte p) (l : List Byte) :
    earlyOperand (b0 :: l) = (opcodeMap .one b0).earlyOperand l := by
  rw [earlyOperand]
  split
  · next p hp => exact absurd hp (h p)
  · rfl

theorem fetches_of_decode {bytes : List Byte} {i : Instr} (h : decode bytes = .instr i []) :
    ∃ e, Fetches bytes i e := by
  match bytes with
  | [] => simp [decode] at h
  | b0 :: rest =>
    by_cases hpre : ∃ p, opcodeMap .one b0 = .prebyte p
    · obtain ⟨p, hp⟩ := hpre
      match rest with
      | [] => simp [decode, hp] at h
      | op :: l =>
        have ht := Slot.takes_of_operands (opcodeMap_regular p op) ((decode_of_prebyte hp op l).symm.trans h)
        refine ⟨3, ?_, by omega, fun he => ?_, h, fun k hk0 hk => ?_, fun k hk0 hk => ?_⟩
        · have := ht.length_le
          simp only [List.length_cons, maxLength]
          omega
        · have := ht.early_lt he
          simp only [List.length_cons]
          omega
        · match k with
          | 1 => simp [decode, hp]
          | k + 2 =>
            rw [List.take_succ_cons, List.take_succ_cons, decode_of_prebyte hp]
            exact ht.tooShort p op k (by simpa using hk)
        · match k with
          | 1 => simp [earlyOperand, hp]
          | k + 2 =>
            rw [List.take_succ_cons, List.take_succ_cons, earlyOperand_of_prebyte hp, ht.early k (by simpa using hk)]
            simp
    · have hp : ∀ p, opcodeMap .one b0 ≠ .prebyte p := fun p hp => hpre ⟨p, hp⟩
      have ht := Slot.takes_of_operands (opcodeMap_regular .one b0) ((decode_of_opcode hp rest).symm.trans h)
      refine ⟨2, ?_, by omega, fun he => ?_, h, fun k hk0 hk => ?_, fun k hk0 hk => ?_⟩
      · have := ht.length_le
        simp only [List.length_cons, maxLength]
        omega
      · have := ht.early_lt he
        simp only [List.length_cons]
        omega
      · match k with
        | k + 1 =>
          rw [List.take_succ_cons, decode_of_opcode hp]
          exact ht.tooShort .one b0 k (by simpa using hk)
      · match k with
        | k + 1 =>
          rw [List.take_succ_cons, earlyOperand_of_opcode hp, ht.early k (by simpa using hk)]
          simp

end Sys2Proof

end

section
/-! PROOFS. Fetching the bytes of an instruction from RAM or ROM (R9, R102, R380). -/

namespace Sys2Proof.Machine

/-- An instruction with an early operand reads the byte at its EA, and goes on from it. -/
theorem exec_of_earlyMem {i : Instr} {m : Mem} (h : i.earlyMem = some m) (s : State) :
    exec i s = (readMem8 m s).andThen fun x t => execFetched ⟨i, some x⟩ t := by
  cases i with
  | bset m mm | bclr m mm => cases h; rfl
  | brset m mm rr | brclr m mm rr => cases h; rfl
  | _ => cases h

/-! ### Reads of data do not look at the PC or the I-delay latch -/

/-- The state with another PC and I-delay latch. -/
def State.moved (s : State) (pc : Word) (idelay : Bool) : State := { s with pc := pc, idelay := idelay }

/-- The operation's value, with another PC and I-delay latch in the state after it. -/
def Res.moved {α : Type} (r : Res α) (pc : Word) (idelay : Bool) : Res α :=
  r.bind fun v t => .ok v (t.moved pc idelay)

/-- Operations that do not look at the PC or the latch, in sequence. -/
theorem Res.bind_moved {α β : Type} (r : Res α) {k k' : α → State → Res β} (pc : Word) (d : Bool)
    (hk : ∀ a t, k a (t.moved pc d) = (k' a t).moved pc d) : (r.moved pc d).bind k = (r.bind k').moved pc d := by
  cases r with
  | ok a t => exact hk a t
  | stop f => rfl

theorem readByte_moved (addr : Word) (s : State) (pc : Word) (d : Bool) :
    readByte addr (s.moved pc d) = (readByte addr s).moved pc d := by
  have hk : (s.moved pc d).kindAt addr = s.kindAt addr := rfl
  unfold readByte
  rw [hk]
  split <;> rfl

theorem valueless_moved (addr : Word) (s : State) (pc : Word) (d : Bool) :
    valueless addr (s.moved pc d) = (valueless addr s).moved pc d := by
  have hp : (s.moved pc d).platform = s.platform := rfl
  unfold valueless
  rw [hp]
  split
  · rw [readByte_moved]
    exact Res.bind_moved _ pc d fun _ _ => rfl
  · rfl

theorem idle_moved (n : Nat) (s : State) (pc : Word) (d : Bool) : idle n (s.moved pc d) = (idle n s).moved pc d := by
  induction n generalizing s with
  | zero => rfl
  | succ n ih =>
    rw [idle, valueless_moved]
    exact Res.bind_moved _ pc d fun _ t => ih t

theorem indexCycle_moved (m : Mem) (s : State) (pc : Word) (d : Bool) :
    indexCycle m (s.moved pc d) = (indexCycle m s).moved pc d := by
  cases m with
  | dir _ | ext _ => rfl
  | indX _ | indY _ => exact idle_moved 1 s pc d

/-- The byte at EA, whatever the PC and the latch are. -/
theorem readMem8_moved (m : Mem) (s : State) (pc : Word) (d : Bool) :
    readMem8 m (s.moved pc d) = (readMem8 m s).moved pc d := by
  have hea : (s.moved pc d).ea m = s.ea m := by cases m <;> rfl
  rw [readMem8, hea, indexCycle_moved]
  exact Res.bind_moved _ pc d fun _ t => readByte_moved (s.ea m) t pc d

/-! ### Fetching the bytes of an instruction from RAM or ROM -/

/-- RAM or ROM holds these bytes from an address on. -/
def State.hasCode (s : State) (start : Word) (bytes : List Byte) : Prop :=
  ∀ k b, bytes[k]? = some b →
    s.plain (start + BitVec.ofNat 16 k) ∧ s.byteAt (start + BitVec.ofNat 16 k) = b

theorem State.hasCode_codeBytes {s : State} {n : Nat} (h : s.codePlain n) : s.hasCode s.pc (s.codeBytes n) := by
  intro k b hb
  obtain ⟨hk, rfl⟩ := List.getElem?_eq_some_iff.mp hb
  exact ⟨h k (by simpa [State.codeBytes] using hk), by simp [State.codeBytes]⟩

theorem State.length_codeBytes (s : State) (n : Nat) : (s.codeBytes n).length = n := by
  simp [State.codeBytes]

/-- Reads leave the code as it is. -/
theorem State.hasCode.afterReads {s t : State} {start : Word} {bytes : List Byte} (h : s.hasCode start bytes)
    (ht : s.afterReads t) : t.hasCode start bytes := by
  intro k b hb
  obtain ⟨hp, hv⟩ := h k b hb
  unfold State.plain State.byteAt at *
  rw [State.kindAt_congr ht.platform, ht.mem]
  exact ⟨hp, hv⟩

section Fetch

variable {s : State} {start : Word} {bytes : List Byte} {i : Instr} {e k fuel : Nat}

/-- `s` while `k` bytes of the instruction at `start` are fetched. -/
def State.fetchedTo (s : State) (start : Word) (k : Nat) : State := { s with pc := start + BitVec.ofNat 16 k }

theorem fetch8_code (hc : s.hasCode start bytes) {b : Byte} (hb : bytes[k]? = some b) :
    fetch8 (s.fetchedTo start k) = .ok b (s.fetchedTo start (k + 1)) := by
  obtain ⟨hp, hv⟩ := hc k b hb
  have hf := fetch8_plain (s := s.fetchedTo start k) hp
  have hpc : (s.fetchedTo start k).pc + 1 = start + BitVec.ofNat 16 (k + 1) := by
    rw [BitVec.ofNat_add, ← BitVec.add_assoc]; rfl
  rw [hpc] at hf
  exact hf.trans (congrArg (Res.ok · _) hv)

/-- A byte after which the fetch goes on. -/
theorem fetchMore_more (hc : s.hasCode start bytes) (hk : k < bytes.length) (op : Option Byte)
    (hd : decode (bytes.take (k + 1)) = .tooShort) (he : earlyOperand (bytes.take (k + 1)) = none) :
    fetchMore (fuel + 1) (bytes.take k) op (s.fetchedTo start k) =
      fetchMore fuel (bytes.take (k + 1)) op (s.fetchedTo start (k + 1)) := by
  have hb := List.getElem?_eq_getElem hk
  have ht : bytes.take k ++ [bytes[k]] = bytes.take (k + 1) := List.take_append_getElem hk
  rw [fetchMore, fetch8_code hc hb, Res.bind_ok]
  simp only [ht, hd, he]

/-- A byte after which the fetch reads the byte at EA. -/
theorem fetchMore_early (hc : s.hasCode start bytes) (hk : k < bytes.length) (op : Option Byte) {m : Mem}
    (hd : decode (bytes.take (k + 1)) = .tooShort) (he : earlyOperand (bytes.take (k + 1)) = some m) :
    fetchMore (fuel + 1) (bytes.take k) op (s.fetchedTo start k) =
      (readMem8 m (s.fetchedTo start (k + 1))).bind fun x t => fetchMore fuel (bytes.take (k + 1)) (some x) t := by
  have hb := List.getElem?_eq_getElem hk
  have ht : bytes.take k ++ [bytes[k]] = bytes.take (k + 1) := List.take_append_getElem hk
  rw [fetchMore, fetch8_code hc hb, Res.bind_ok]
  simp only [ht, hd, he]

/-- The last byte. -/
theorem fetchMore_last (hc : s.hasCode start bytes) (hk : bytes.length = k + 1) (op : Option Byte)
    (hd : decode bytes = .instr i []) :
    fetchMore (fuel + 1) (bytes.take k) op (s.fetchedTo start k) =
      .ok (some ⟨i, op⟩) (s.fetchedTo start bytes.length) := by
  have hb := List.getElem?_eq_getElem (l := bytes) (i := k) (by omega)
  have ht : bytes.take k ++ [bytes[k]] = bytes := by
    rw [List.take_append_getElem, ← hk, List.take_length]
  rw [fetchMore, fetch8_code hc hb, Res.bind_ok]
  simp only [ht, hd, hk]

/-- No early operand is ahead: the fetch goes on to the end of the instruction. -/
theorem fetchMore_rest (hf : Fetches bytes i e) (hc : s.hasCode start bytes) (op : Option Byte)
    (hno : i.earlyMem = none ∨ e ≤ k) (hk : k < bytes.length) (hfuel : bytes.length ≤ fuel + k) :
    fetchMore fuel (bytes.take k) op (s.fetchedTo start k) =
      .ok (some ⟨i, op⟩) (s.fetchedTo start bytes.length) := by
  induction fuel generalizing k with
  | zero => omega
  | succ fuel ih =>
    by_cases hlast : bytes.length = k + 1
    · exact fetchMore_last hc hlast op hf.decode_eq
    · have he : earlyOperand (bytes.take (k + 1)) = none := by
        rw [hf.early (k + 1) (by omega) (by omega)]
        rcases hno with hi | hek
        · rw [hi, ite_self]
        · rw [if_neg (by omega)]
      rw [fetchMore_more hc hk op (hf.tooShort (k + 1) (by omega) (by omega)) he]
      exact ih (hno.imp_right (by omega)) (by omega) (by omega)

/-- The early operand is ahead: its byte is read on the way to the end of the instruction. -/
theorem fetchMore_toEarly (hf : Fetches bytes i e) (hc : s.hasCode start bytes) {m : Mem} (hi : i.earlyMem = some m)
    (op : Option Byte) (hk : k < e) (hfuel : bytes.length ≤ fuel + k) :
    fetchMore fuel (bytes.take k) op (s.fetchedTo start k) =
      (readMem8 m s).bind fun x t => .ok (some ⟨i, some x⟩) (t.fetchedTo start bytes.length) := by
  have hlen : e < bytes.length := hf.early_lt (by simp [hi])
  induction fuel generalizing k with
  | zero => omega
  | succ fuel ih =>
    have hd := hf.tooShort (k + 1) (by omega) (by omega)
    have he := hf.early (k + 1) (by omega) (by omega)
    by_cases hlast : k + 1 = e
    · rw [if_pos hlast, hi] at he
      rw [fetchMore_early hc (by omega) op hd he]
      show (readMem8 m (s.moved _ s.idelay)).bind _ = _
      rw [readMem8_moved]
      have hread := (readMem8_meets m s).1
      cases hr : readMem8 m s with
      | stop f => rfl
      | ok x t =>
        have hst := (hread x t hr).1
        have hid : t.moved (start + BitVec.ofNat 16 (k + 1)) s.idelay = t.fetchedTo start (k + 1) := by
          have : t.idelay = s.idelay := by rw [hst]
          rw [← this]; rfl
        show fetchMore fuel (bytes.take (k + 1)) (some x) (t.moved _ s.idelay) = _
        rw [hid]
        exact fetchMore_rest hf (hc.afterReads hst) (some x) (.inr (by omega)) (by omega) (by omega)
    · rw [if_neg hlast] at he
      rw [fetchMore_more hc (by omega) op hd he]
      exact ih (by omega) (by omega)

end Fetch

/-! ### A step of an MPU that nothing disturbs -/

/-- What the step remembers of the instruction `i` it executed (R374). -/
def Result.remembering (r : Result) (i : Instr) : Result :=
  match r with
  | .next t => .next (t.executed i)
  | .fault f => .fault f
  | .refused x => .refused x

theorem runInstr_eq (f : Fetched) (s : State) :
    runInstr f s = Result.remembering (execFetched f (s.moved s.pc false)) f.instr := rfl

/-- Executing from RAM or ROM is the instruction's meaning with the PC past its bytes (R15, R103). -/
theorem executeNext_code {s : State} {bytes : List Byte} {i : Instr} (hc : s.hasCode s.pc bytes)
    (hd : decode bytes = .instr i []) :
    executeNext s =
      Result.remembering (exec i (s.moved (s.pc + BitVec.ofNat 16 bytes.length) false)) i := by
  obtain ⟨e, hf⟩ := fetches_of_decode hd
  have hpos : 0 < bytes.length := List.length_pos_of_ne_nil fun h => by simp [h, decode] at hd
  have hs : s.fetchedTo s.pc 0 = s := by simp [State.fetchedTo]
  have hlen : bytes.length ≤ maxLength + 0 := hf.length_le
  cases hi : i.earlyMem with
  | none =>
    have hfetch := fetchMore_rest hf hc none (.inl hi) hpos hlen
    rw [List.take_zero, hs] at hfetch
    rw [executeNext, fetchInstr, hfetch]
    show runInstr _ _ = _
    rw [runInstr_eq, execFetched_none]
    rfl
  | some m =>
    have hfetch := fetchMore_toEarly hf hc hi none hf.early_pos hlen
    rw [List.take_zero, hs] at hfetch
    rw [executeNext, fetchInstr, hfetch, exec_of_earlyMem hi, readMem8_moved]
    cases readMem8 m s with
    | ok x t => rfl
    | stop f => rfl

end Sys2Proof.Machine

end

section
/-! PROOFS. The obligations of 00_scope.md. -/

namespace Sys2Proof.Machine

/-- Settles O5: the fetch of the decoded bytes reads nothing but code and the early operand of the bit instructions,
and that read does not look at the PC. -/
theorem stepRunsDecodedInstruction : Obligations.StepRunsDecodedInstruction := by
  intro s i n hu hp hd
  rw [step_undisturbed hu, executeNext_code (State.hasCode_codeBytes hp) hd, State.length_codeBytes]
  rfl

/-- Settles O10: a byte and a word pushed to RAM are pulled back. -/
theorem pullReturnsWhatWasPushed : Obligations.PullReturnsWhatWasPushed :=
  fun _ v hm h0 h1 => ⟨push16_pull16 v hm h0 h1, push8_pull8 (loByte v) hm h0⟩

/-- Settles O12: an instruction stops only at an address where MEM has nothing. -/
theorem everyInstructionCompletes : Obligations.EveryInstructionCompletes := by
  intro i s hp hi
  obtain ⟨t, ht, _⟩ := (exec_frame i s hi).populated hp
  exact ⟨t, ht⟩

/-- Settles O24: the Boolean formulas are those of `add8`, and agree with the arithmetic reading. -/
theorem byteAdditionSetsTheFlags : Obligations.ByteAdditionSetsTheFlags :=
  fun x m c cc => ⟨add8_toNat x m c, rfl, add8_ccr c x m cc⟩

/-- Settles O25: as O24 for `sub8`; the instructions that subtract keep H. -/
theorem byteSubtractionSetsTheFlags : Obligations.ByteSubtractionSetsTheFlags :=
  ⟨fun x m c cc => ⟨sub8_toNat x m c, rfl, sub8_ccr c x m cc⟩,
    fun _ s t hi ht => (exec_keepsH_of_subtracts hi s).1 t ht⟩

/-- Settles O26: as O24 for `add16` and `sub16`. -/
theorem wordArithmeticSetsTheFlags : Obligations.WordArithmeticSetsTheFlags :=
  fun x m cc => ⟨BitVec.toNat_add x m, sub16_toNat x m, rfl, rfl, add16_ccr x m cc, sub16_ccr x m cc⟩

/-- Settles O60: every way a step can go keeps the parameters and what is not RAM. -/
theorem platformAndRomNeverChange : Obligations.PlatformAndRomNeverChange :=
  fun _ _ h => step_sameRom h

end Sys2Proof.Machine

end

section
/-! PROOFS. What the bus accesses of an instruction leave unchanged: the registers but SP, the flags, the latches and,
where MEM has no device location, the model's own log and counter (R21 to R28, R38 to R41). -/

namespace Sys2Proof.Machine

/-! ### What an instruction may change -/

/-- MEM has no device location. -/
def State.noDevice (s : State) : Prop := ∀ a, s.kindAt a ≠ .device

/-- From `s` to `t` nothing changes that the instruction `i` may not change of the registers, the PC, the latches, the
run-state, the device log and the draws (R21 to R27, R38 to R41). -/
structure State.Keeps (i : Instr) (s t : State) : Prop where
  platform : t.platform = s.platform
  registers : ∀ r, r ∉ registersWritten i → t.contents r = s.contents r
  pc : canTransfer i = false → t.pc = s.pc
  idelay : i ∉ [.cli, .tap, .swi] → t.idelay = s.idelay
  runState : i ∉ [.wai, .stop, .test, .swi] → t.runState = s.runState
  prevColumn45 : i ≠ .swi → t.prevColumn45 = s.prevColumn45
  deviceLog : s.noDevice → t.deviceLog = s.deviceLog
  draws : s.noDevice → i ∉ [.daa, .idiv, .fdiv, .test] → t.draws = s.draws

/-- As `Keeps`, and the flags stay: what the bus accesses of `i` can do. -/
structure State.Accesses (i : Instr) (s t : State) : Prop extends State.Keeps i s t where
  ccr : t.ccr = s.ccr

/-- As `Keeps`, and the flags change as the CCR row of `i` says: what `i` as a whole can do (R37). -/
structure State.Effect (i : Instr) (s t : State) : Prop extends State.Keeps i s t where
  flags : (activityOf i).allows s.ccr t.ccr

section Accesses

variable {i : Instr}

theorem State.noDevice.congr {s t : State} (h : s.noDevice) (hp : t.platform = s.platform) : t.noDevice :=
  fun a => by rw [State.kindAt_congr hp]; exact h a

theorem State.Keeps.trans {s t u : State} (h : s.Keeps i t) (h' : t.Keeps i u) : s.Keeps i u where
  platform := h'.platform.trans h.platform
  registers r hr := (h'.registers r hr).trans (h.registers r hr)
  pc hi := (h'.pc hi).trans (h.pc hi)
  idelay hi := (h'.idelay hi).trans (h.idelay hi)
  runState hi := (h'.runState hi).trans (h.runState hi)
  prevColumn45 hi := (h'.prevColumn45 hi).trans (h.prevColumn45 hi)
  deviceLog hd := (h'.deviceLog (hd.congr h.platform)).trans (h.deviceLog hd)
  draws hd hi := (h'.draws (hd.congr h.platform) hi).trans (h.draws hd hi)

theorem State.Accesses.refl (s : State) : s.Accesses i s :=
  ⟨⟨rfl, fun _ _ => rfl, fun _ => rfl, fun _ => rfl, fun _ => rfl, fun _ => rfl, fun _ => rfl, fun _ _ => rfl⟩, rfl⟩

theorem State.Accesses.trans {s t u : State} (h : s.Accesses i t) (h' : t.Accesses i u) : s.Accesses i u :=
  ⟨h.toKeeps.trans h'.toKeeps, h'.ccr.trans h.ccr⟩

/-- Bus accesses, then the rest of the instruction. -/
theorem State.Accesses.effect {s t u : State} (h : s.Accesses i t) (h' : t.Effect i u) : s.Effect i u :=
  ⟨h.toKeeps.trans h'.toKeeps, h.ccr ▸ h'.flags⟩

/-- A move of SP. -/
theorem State.Accesses.of_sp (hsp : .sp ∈ registersWritten i) (s : State) (p : Word) :
    s.Accesses i { s with sp := p } where
  __ := State.Accesses.refl s
  registers r hr := by cases r with
    | sp => exact absurd hsp hr
    | a | b | ix | iy => rfl

/-! ### Bus operations -/

/-- Every state the operation gives has the property. -/
def Res.All {α : Type} (r : Res α) (P : State → Prop) : Prop := ∀ a t, r = .ok a t → P t

theorem Res.All.ok {α : Type} {a : α} {s : State} {P : State → Prop} (h : P s) : (Res.ok a s).All P := by
  rintro _ _ ⟨⟩
  exact h

/-- Bus accesses, then what the rest of the operation can do. -/
theorem Res.All.bind {α β : Type} {r : Res α} {k : α → State → Res β} {s : State} {P : State → Prop}
    (hr : r.All (s.Accesses i)) (hk : ∀ a u, s.Accesses i u → (k a u).All P) : (r.bind k).All P := by
  intro b t h
  obtain ⟨a, u, hau, hbt⟩ := Res.bind_eq_ok.mp h
  exact hk a u (hr a u hau) b t hbt

theorem Res.All.bind_accesses {α β : Type} {r : Res α} {k : α → State → Res β} {s : State}
    (hr : r.All (s.Accesses i)) (hk : ∀ a u, (k a u).All (u.Accesses i)) : (r.bind k).All (s.Accesses i) :=
  hr.bind fun a u hu b t h => hu.trans (hk a u b t h)

variable (s : State)

theorem readByte_accesses (addr : Word) : (readByte addr s).All (s.Accesses i) := by
  unfold readByte
  split
  · exact .ok (.refl s)
  · exact .ok (.refl s)
  · next hdev => exact .ok { State.Accesses.refl s with
      deviceLog := fun hd => absurd hdev (hd addr), draws := fun hd => absurd hdev (hd addr) }
  · rintro _ _ ⟨⟩

theorem writeByte_accesses (addr : Word) (v : Byte) : (writeByte addr v s).All (s.Accesses i) := by
  unfold writeByte
  split
  · exact .ok { State.Accesses.refl s with registers := fun r _ => by cases r <;> rfl }
  · exact .ok (.refl s)
  · next hdev => exact .ok { State.Accesses.refl s with deviceLog := fun hd => absurd hdev (hd addr) }
  · rintro _ _ ⟨⟩

theorem readWord_accesses (addr : Word) : (readWord addr s).All (s.Accesses i) :=
  (readByte_accesses s addr).bind_accesses fun _ u =>
    (readByte_accesses u (addr + 1)).bind_accesses fun _ v => .ok (.refl v)

theorem writeWord_accesses (addr v : Word) : (writeWord addr v s).All (s.Accesses i) :=
  (writeByte_accesses s addr _).bind_accesses fun _ u => writeByte_accesses u (addr + 1) _

theorem valueless_accesses (addr : Word) : (valueless addr s).All (s.Accesses i) := by
  unfold valueless
  split
  · exact (readByte_accesses s addr).bind_accesses fun _ u => .ok (.refl u)
  · exact .ok (.refl s)

theorem idle_accesses (n : Nat) : (idle n s).All (s.Accesses i) := by
  induction n generalizing s with
  | zero => exact .ok (.refl s)
  | succ n ih => exact (valueless_accesses s idleAddress).bind_accesses fun _ u => ih u

theorem lookAhead_accesses : (lookAhead s).All (s.Accesses i) := valueless_accesses s s.pc

theorem stackCycle_accesses : (stackCycle s).All (s.Accesses i) :=
  (lookAhead_accesses s).bind_accesses fun _ u => valueless_accesses u u.sp

theorem indexCycle_accesses (m : Mem) : (indexCycle m s).All (s.Accesses i) := by
  cases m with
  | dir _ | ext _ => exact .ok (.refl s)
  | indX _ | indY _ => exact idle_accesses s 1

theorem readMem8_accesses (m : Mem) : (readMem8 m s).All (s.Accesses i) :=
  (indexCycle_accesses s m).bind_accesses fun _ u => readByte_accesses u (s.ea m)

theorem operand8_accesses (o : Opr8) : (operand8 o s).All (s.Accesses i) := by
  cases o with
  | imm _ => exact .ok (.refl s)
  | mem m => exact readMem8_accesses s m

theorem operand16_accesses (o : Opr16) : (operand16 o s).All (s.Accesses i) := by
  cases o with
  | imm _ => exact .ok (.refl s)
  | mem m => exact (indexCycle_accesses s m).bind_accesses fun _ u => readWord_accesses u (s.ea m)

theorem operateOperand16_accesses (o : Opr16) : (operateOperand16 o s).All (s.Accesses i) :=
  (operand16_accesses s o).bind_accesses fun _ u => (idle_accesses u 1).bind_accesses fun _ v => .ok (.refl v)

theorem testCycles_accesses : (testCycles s).All (s.Accesses i) :=
  (lookAhead_accesses s).bind_accesses fun _ u =>
    (valueless_accesses u (u.pc + 1)).bind_accesses fun _ v => valueless_accesses v (v.pc + 2)

/-! ### The stack -/

variable (hsp : .sp ∈ registersWritten i)
include hsp

theorem push8_accesses (v : Byte) : (push8 v s).All (s.Accesses i) :=
  (writeByte_accesses s s.sp v).bind_accesses fun _ u => .ok (.of_sp hsp u _)

theorem pull8_accesses : (pull8 s).All (s.Accesses i) :=
  fun a t h => (State.Accesses.of_sp hsp s _).trans (readByte_accesses _ _ a t h)

theorem push16_accesses (v : Word) : (push16 v s).All (s.Accesses i) :=
  (push8_accesses s hsp _).bind_accesses fun _ u => push8_accesses u hsp _

theorem pull16_accesses : (pull16 s).All (s.Accesses i) :=
  (pull8_accesses s hsp).bind_accesses fun _ u => (pull8_accesses u hsp).bind_accesses fun _ v => .ok (.refl v)

theorem stackFrame_accesses (ret : Word) : (stackFrame ret s).All (s.Accesses i) :=
  (push16_accesses s hsp ret).bind_accesses fun _ s₁ => (push16_accesses s₁ hsp _).bind_accesses fun _ s₂ =>
  (push16_accesses s₂ hsp _).bind_accesses fun _ s₃ => (push8_accesses s₃ hsp _).bind_accesses fun _ s₄ =>
  (push8_accesses s₄ hsp _).bind_accesses fun _ s₅ => push8_accesses s₅ hsp _

end Accesses

end Sys2Proof.Machine

end

section
/-! PROOFS. What every instruction changes, in the order of the shapes of instruction: registers, flags, PC, latches,
run-state and counters (R21 to R28, R37 to R41). -/

namespace Sys2Proof.Machine

/-! ### The flags of the operations, by the rows of the CCR table -/

/-- The rows of the additions of bytes. -/
theorem add8_allowed (c : Bool) (x m : Byte) (cc : Ccr) : (activityOf .aba).allows cc (add8 c x m cc).2 :=
  ⟨rfl, rfl, trivial, rfl, trivial, trivial, trivial, trivial⟩

/-- A row that leaves N, Z, V, C to the result. -/
theorem allows_of_keeps_shxi {before after : Ccr} (hs : after.s = before.s) (hx : after.x = before.x)
    (hh : after.h = before.h) (hi : after.i = before.i) :
    (nzvc .byResult .byResult .byResult .byResult).allows before after :=
  ⟨hs, hx, hh, hi, trivial, trivial, trivial, trivial⟩

theorem sub8_allowed (c : Bool) (x m : Byte) (cc : Ccr) : (activityOf .sba).allows cc (sub8 c x m cc).2 :=
  allows_of_keeps_shxi rfl rfl rfl rfl

theorem shifted_allowed {w : Nat} (cc : Ccr) (r : BitVec w) (out : Bool) :
    (activityOf .asla).allows cc (shifted cc r out).2 :=
  allows_of_keeps_shxi rfl rfl rfl rfl

theorem lsr_allowed {w : Nat} (x : BitVec w) (cc : Ccr) : (activityOf .lsra).allows cc (lsr x cc).2 :=
  ⟨rfl, rfl, rfl, rfl, rfl, trivial, trivial, trivial⟩

/-- The row of the loads, the stores and the logic. -/
theorem nzv0_allowed {w : Nat} (r : BitVec w) (cc : Ccr) : (activityOf .tab).allows cc (cc.nzv0 r) :=
  ⟨rfl, rfl, rfl, rfl, trivial, trivial, rfl, rfl⟩

theorem clr8_allowed (x : Byte) (cc : Ccr) : (activityOf .clra).allows cc (clr8 x cc).2 :=
  ⟨rfl, rfl, rfl, rfl, rfl, rfl, rfl, rfl⟩

theorem com8_allowed (x : Byte) (cc : Ccr) : (activityOf .coma).allows cc (com8 x cc).2 :=
  ⟨rfl, rfl, rfl, rfl, trivial, trivial, rfl, rfl⟩

theorem tst8_allowed (x : Byte) (cc : Ccr) : (activityOf .tsta).allows cc (tst8 x cc).2 :=
  ⟨rfl, rfl, rfl, rfl, trivial, trivial, rfl, rfl⟩

theorem inc8_allowed (x : Byte) (cc : Ccr) : (activityOf .inca).allows cc (inc8 x cc).2 :=
  ⟨rfl, rfl, rfl, rfl, trivial, trivial, trivial, rfl⟩

theorem dec8_allowed (x : Byte) (cc : Ccr) : (activityOf .deca).allows cc (dec8 x cc).2 :=
  ⟨rfl, rfl, rfl, rfl, trivial, trivial, trivial, rfl⟩

/-- TAP and RTI: X can only fall (R30). -/
theorem load_allowed (cc : Ccr) (v : Byte) : (activityOf .tap).allows cc (cc.load v) :=
  ⟨trivial, fun h => (Bool.and_eq_true_iff.mp h).1, trivial, trivial, trivial, trivial, trivial, trivial⟩

/-- A row of `-` alone. -/
theorem allows_self {i : Instr} (hrow : activityOf i = activityOf .nop) (cc : Ccr) : (activityOf i).allows cc cc := by
  rw [hrow]
  exact ⟨rfl, rfl, rfl, rfl, rfl, rfl, rfl, rfl⟩

/-! ### The updates an instruction ends with -/

/-- The register an accumulator is. -/
def Acc.name : Acc → RegName
  | .a => .a
  | .b => .b

/-- The registers a 16-bit register is made of (R23). -/
def Reg16.names : Reg16 → List RegName
  | .d => [.a, .b]
  | .x => [.ix]
  | .y => [.iy]
  | .s => [.sp]

theorem State.setAcc_contents (s : State) {q : RegName} {r : Acc} (v : Byte) (h : q ≠ r.name) :
    (s.setAcc r v).contents q = s.contents q := by
  cases r <;> cases q <;> simp_all [Acc.name, State.contents]

theorem State.setReg_contents (s : State) {q : RegName} {r : Reg16} (v : Word) (h : q ∉ r.names) :
    (s.setReg r v).contents q = s.contents q := by
  cases r <;> cases q <;> simp_all [Reg16.names, State.contents]

section Updates

variable {i : Instr} {s : State}

/-- An update of registers, flags and draws alone. -/
theorem State.Effect.of_update {t : State}
    (hrest : t = { s with a := t.a, b := t.b, ix := t.ix, iy := t.iy, sp := t.sp, ccr := t.ccr, draws := t.draws })
    (hregs : ∀ r, r ∉ registersWritten i → t.contents r = s.contents r)
    (hdraws : i ∉ [.daa, .idiv, .fdiv, .test] → t.draws = s.draws) (hflags : (activityOf i).allows s.ccr t.ccr) :
    s.Effect i t where
  platform := by rw [hrest]
  registers := hregs
  pc _ := by rw [hrest]
  idelay _ := by rw [hrest]
  runState _ := by rw [hrest]
  prevColumn45 _ := by rw [hrest]
  deviceLog _ := by rw [hrest]
  draws _ := hdraws
  flags := hflags

theorem State.Effect.of_ccr {cc : Ccr} (hf : (activityOf i).allows s.ccr cc) : s.Effect i { s with ccr := cc } :=
  .of_update rfl (fun r _ => by cases r <;> rfl) (fun _ => rfl) hf

theorem State.Effect.of_setAcc {r : Acc} {v : Byte} {cc : Ccr} (hr : r.name ∈ registersWritten i)
    (hf : (activityOf i).allows s.ccr cc) : s.Effect i { s.setAcc r v with ccr := cc } :=
  .of_update (by cases r <;> rfl)
    (fun _ hq => State.setAcc_contents s v (ne_of_mem_of_not_mem hr hq).symm) (fun _ => by cases r <;> rfl) hf

theorem State.Effect.of_setReg {r : Reg16} {v : Word} {cc : Ccr} (hr : r.names ⊆ registersWritten i)
    (hf : (activityOf i).allows s.ccr cc) : s.Effect i { s.setReg r v with ccr := cc } :=
  .of_update (by cases r <;> rfl)
    (fun _ hq => State.setReg_contents s v fun e => hq (hr e)) (fun _ => by cases r <;> rfl) hf

/-- A transfer of control. -/
theorem State.Effect.of_pc (p : Word) (hpc : canTransfer i = true) (hrow : activityOf i = activityOf .nop) :
    s.Effect i { s with pc := p } where
  __ := State.Accesses.refl s
  registers r _ := by cases r <;> rfl
  pc h := by rw [hpc] at h; cases h
  flags := allows_self hrow s.ccr

theorem State.Accesses.keepsFlags {t : State} (h : s.Accesses i t) (hrow : activityOf i = activityOf .nop) :
    s.Effect i t :=
  ⟨h.toKeeps, by rw [h.ccr]; exact allows_self hrow s.ccr⟩

end Updates

/-! ### The shapes of instruction -/

/-- Every next state is what `i` can make of `s`. -/
def HasEffect (i : Instr) (s : State) (r : Result) : Prop := ∀ t, r = .next t → s.Effect i t

section Shapes

variable {i : Instr} (s : State)

theorem Res.All.complete {α : Type} {r : Res α} {k : α → State → State} {s : State} (hr : r.All (s.Accesses i))
    (hk : ∀ a u, s.Accesses i u → u.Effect i (k a u)) : HasEffect i s (r.complete k) := by
  intro t h
  obtain ⟨a, u, hau, rfl⟩ := Res.complete_eq_next.mp h
  exact (hr a u hau).effect (hk a u (hr a u hau))

/-- An operation that is all of the instruction. -/
theorem Res.All.finish {r : Res Unit} {s : State} (hr : r.All (s.Effect i)) :
    HasEffect i s (r.complete fun _ t => t) :=
  fun t h => hr () t (Res.finish_eq_next.mp h)

theorem Res.All.andThen {α : Type} {r : Res α} {k : α → State → Result} {s : State} (hr : r.All (s.Accesses i))
    (hk : ∀ a u, s.Accesses i u → HasEffect i u (k a u)) : HasEffect i s (r.andThen k) := by
  intro t h
  obtain ⟨a, u, hau, hut⟩ := Res.andThen_eq_next.mp h
  exact (hr a u hau).effect (hk a u (hr a u hau) t hut)

theorem Res.All.bind_effect {α β : Type} {r : Res α} {k : α → State → Res β} {s : State}
    (hr : r.All (s.Accesses i)) (hk : ∀ a u, (k a u).All (u.Effect i)) : (r.bind k).All (s.Effect i) :=
  hr.bind fun a u hu b t h => hu.effect (hk a u b t h)

theorem inherent_effect {f : State → State} (hf : ∀ u : State, u.Effect i (f u)) : HasEffect i s (inherent f s) :=
  (lookAhead_accesses s).complete fun _ u _ => hf u

theorem inherentIdle_effect {n : Nat} {f : State → State} (hf : ∀ u : State, u.Effect i (f u)) :
    HasEffect i s (inherentIdle n f s) :=
  ((lookAhead_accesses s).bind_accesses fun _ u => idle_accesses u n).complete fun _ u _ => hf u

theorem inherentStack_effect {f : State → State} (hf : ∀ u : State, u.Effect i (f u)) :
    HasEffect i s (inherentStack f s) :=
  (stackCycle_accesses s).complete fun _ u _ => hf u

theorem accBinary_effect {f : Binary 8} {r : Acc} (o : Opr8) (hr : r.name ∈ registersWritten i)
    (hf : ∀ x m cc, (activityOf i).allows cc (f x m cc).2) : HasEffect i s (accBinary f r o s) :=
  (operand8_accesses s o).complete fun m u _ => .of_setAcc hr (hf _ m u.ccr)

theorem accTest_effect {f : Binary 8} {r : Acc} (o : Opr8) (hf : ∀ x m cc, (activityOf i).allows cc (f x m cc).2) :
    HasEffect i s (accTest f r o s) :=
  (operand8_accesses s o).complete fun m u _ => .of_ccr (hf _ m u.ccr)

theorem regBinary_effect {f : Binary 16} {r : Reg16} (o : Opr16) (hr : r.names ⊆ registersWritten i)
    (hf : ∀ x m cc, (activityOf i).allows cc (f x m cc).2) : HasEffect i s (regBinary f r o s) :=
  (operateOperand16_accesses s o).complete fun m u _ => .of_setReg hr (hf _ m u.ccr)

theorem regTest_effect {f : Binary 16} {r : Reg16} (o : Opr16)
    (hf : ∀ x m cc, (activityOf i).allows cc (f x m cc).2) :
    HasEffect i s (regTest f r o s) :=
  (operateOperand16_accesses s o).complete fun m u _ => .of_ccr (hf _ m u.ccr)

theorem accUnary_effect {f : Unary 8} {r : Acc} (hr : r.name ∈ registersWritten i)
    (hf : ∀ x cc, (activityOf i).allows cc (f x cc).2) : HasEffect i s (accUnary f r s) :=
  inherent_effect s fun u => .of_setAcc hr (hf _ u.ccr)

/-- TSTA and TSTB write their accumulator back as it is. -/
theorem accUnary_tst8_effect {r : Acc} (hf : ∀ x cc, (activityOf i).allows cc (tst8 x cc).2) :
    HasEffect i s (accUnary tst8 r s) := by
  refine inherent_effect s fun u => ?_
  have hself : u.setAcc r (u.acc r) = u := by cases r <;> rfl
  show u.Effect i { u.setAcc r (u.acc r) with ccr := _ }
  rw [hself]
  exact .of_ccr (hf _ u.ccr)

theorem dUnary_effect {f : Unary 16} (hr : Reg16.d.names ⊆ registersWritten i)
    (hf : ∀ x cc, (activityOf i).allows cc (f x cc).2) : HasEffect i s (dUnary f s) :=
  inherentIdle_effect s fun u => .of_setReg (r := .d) hr (hf _ u.ccr)

theorem memModify_effect {f : Unary 8} (m : Mem) (x : Byte) (hf : ∀ x cc, (activityOf i).allows cc (f x cc).2) :
    HasEffect i s (memModify f m x s) :=
  ((idle_accesses s 1).bind_accesses fun _ u => writeByte_accesses u (s.ea m) _).complete fun _ _ hu =>
    .of_ccr (hu.ccr ▸ hf x s.ccr)

theorem memUnary_effect {f : Unary 8} (m : Mem) (hf : ∀ x cc, (activityOf i).allows cc (f x cc).2) :
    HasEffect i s (memUnary f m s) :=
  (readMem8_accesses s m).andThen fun x u _ => memModify_effect u m x hf

theorem memTest_effect {f : Unary 8} (m : Mem) (hf : ∀ x cc, (activityOf i).allows cc (f x cc).2) :
    HasEffect i s (memTest f m s) :=
  ((readMem8_accesses s m).bind_accesses fun _ u => (idle_accesses u 2).bind_accesses fun _ v => .ok (.refl v)).complete
    fun x u _ => .of_ccr (hf x u.ccr)

theorem loadAcc_effect {r : Acc} (o : Opr8) (hr : r.name ∈ registersWritten i) (hnzv0 : activityOf i = activityOf .tab) :
    HasEffect i s (loadAcc r o s) :=
  (operand8_accesses s o).complete fun v u _ => .of_setAcc hr (hnzv0 ▸ nzv0_allowed v u.ccr)

theorem loadReg_effect {r : Reg16} (o : Opr16) (hr : r.names ⊆ registersWritten i) (hnzv0 : activityOf i = activityOf .tab) :
    HasEffect i s (loadReg r o s) :=
  (operand16_accesses s o).complete fun v u _ => .of_setReg hr (hnzv0 ▸ nzv0_allowed v u.ccr)

theorem storeAcc_effect {r : Acc} (m : Mem) (hnzv0 : activityOf i = activityOf .tab) :
    HasEffect i s (storeAcc r m s) :=
  ((indexCycle_accesses s m).bind_accesses fun _ u => writeByte_accesses u (s.ea m) _).complete fun _ u _ =>
    .of_ccr (hnzv0 ▸ nzv0_allowed _ u.ccr)

theorem storeReg_effect {r : Reg16} (m : Mem) (hnzv0 : activityOf i = activityOf .tab) :
    HasEffect i s (storeReg r m s) :=
  ((indexCycle_accesses s m).bind_accesses fun _ u => writeWord_accesses u (s.ea m) _).complete fun _ u _ =>
    .of_ccr (hnzv0 ▸ nzv0_allowed _ u.ccr)

theorem pushAcc_effect {r : Acc} (hsp : .sp ∈ registersWritten i) (hrow : activityOf i = activityOf .nop) :
    HasEffect i s (pushAcc r s) :=
  ((lookAhead_accesses s).bind_accesses fun _ u => push8_accesses u hsp _).complete fun _ u _ =>
    (State.Accesses.refl u).keepsFlags hrow

theorem pushReg_effect {r : Reg16} (hsp : .sp ∈ registersWritten i) (hrow : activityOf i = activityOf .nop) :
    HasEffect i s (pushReg r s) :=
  ((lookAhead_accesses s).bind_accesses fun _ u => push16_accesses u hsp _).complete fun _ u _ =>
    (State.Accesses.refl u).keepsFlags hrow

theorem pullAcc_effect {r : Acc} (hsp : .sp ∈ registersWritten i) (hr : r.name ∈ registersWritten i)
    (hrow : activityOf i = activityOf .nop) :
    HasEffect i s (pullAcc r s) := by
  refine ((stackCycle_accesses s).bind_accesses fun _ u => pull8_accesses u hsp).complete fun v u _ => ?_
  have h : u.Effect i { u.setAcc r v with ccr := u.ccr } := .of_setAcc hr (allows_self hrow u.ccr)
  cases r <;> exact h

theorem pullReg_effect {r : Reg16} (hsp : .sp ∈ registersWritten i) (hr : r.names ⊆ registersWritten i)
    (hrow : activityOf i = activityOf .nop) :
    HasEffect i s (pullReg r s) := by
  refine ((stackCycle_accesses s).bind_accesses fun _ u => pull16_accesses u hsp).complete fun v u _ => ?_
  have h : u.Effect i { u.setReg r v with ccr := u.ccr } := .of_setReg hr (allows_self hrow u.ccr)
  cases r <;> exact h

theorem branchIf_effect {cond : Bool} (rr : Byte) (hpc : cond = true → canTransfer i = true)
    (hrow : activityOf i = activityOf .nop) : HasEffect i s (branchIf cond rr s) := by
  refine (idle_accesses s 1).complete fun _ u _ => ?_
  split
  · next hc => exact .of_pc _ (hpc hc) hrow
  · exact (State.Accesses.refl u).keepsFlags hrow

theorem callTo_effect (target : Word) (hsp : .sp ∈ registersWritten i) (hpc : canTransfer i = true)
    (hrow : activityOf i = activityOf .nop) : (callTo target s).All (s.Effect i) :=
  (valueless_accesses s target).bind_effect fun _ u => (push16_accesses u hsp _).bind_effect fun _ _ =>
    .ok (.of_pc target hpc hrow)

end Shapes

end Sys2Proof.Machine

end

section
/-! PROOFS. What every instruction can change, all 145 of them (R21 to R28, R37 to R41). -/

namespace Sys2Proof.Machine

/-! ### The instructions with an effect of their own -/

section Own

variable (s : State)

theorem decimalAdjust_effect : s.Effect .daa (decimalAdjust s) := by
  unfold decimalAdjust
  split <;>
  · refine .of_update rfl (fun r hr => ?_) (fun h => absurd h (by decide))
      ⟨rfl, rfl, rfl, rfl, trivial, trivial, trivial, trivial⟩
    cases r with
    | a => exact absurd hr (by decide)
    | b | ix | iy | sp => rfl

/-- The divides write A, B and IX, draw a free value at most, and keep S, X, H, I, N. -/
theorem divide_effect {i : Instr} (hi : i = .idiv ∨ i = .fdiv) {t : State}
    (hrest : t = { s with a := t.a, b := t.b, ix := t.ix, ccr := t.ccr, draws := t.draws })
    (hflags : (activityOf i).allows s.ccr t.ccr) : s.Effect i t := by
  have hregs : registersWritten i = [.a, .b, .ix] := by rcases hi with rfl | rfl <;> rfl
  refine .of_update (by rw [hrest]) (fun r hr => ?_) (fun h => absurd h ?_) hflags
  · rw [hregs] at hr
    cases r with
    | a | b | ix => exact absurd hr (by decide)
    | iy | sp => rw [hrest]; rfl
  · rcases hi with rfl | rfl <;> decide

theorem integerDivide_effect : s.Effect .idiv (integerDivide s) := by
  unfold integerDivide
  split <;> exact divide_effect s (.inl rfl) rfl ⟨rfl, rfl, rfl, rfl, rfl, trivial, rfl, trivial⟩

theorem fractionalDivide_effect : s.Effect .fdiv (fractionalDivide s) := by
  have hflags (t : State) (z v c : Bool) (h : t.ccr = { s.ccr with z := z, v := v, c := c }) :
      (activityOf .fdiv).allows s.ccr t.ccr := by
    rw [h]
    exact ⟨rfl, rfl, rfl, rfl, rfl, trivial, trivial, trivial⟩
  unfold fractionalDivide
  split
  · exact divide_effect s (.inr rfl) rfl (hflags _ _ _ _ rfl)
  · split <;> exact divide_effect s (.inr rfl) rfl (hflags _ _ _ _ rfl)

/-- CLI and TAP: the flags and the I-delay latch. -/
theorem armIdelay_effect {i : Instr} (hi : i = .cli ∨ i = .tap) {cc : Ccr} (hf : (activityOf i).allows s.ccr cc) :
    s.Effect i ({ s with ccr := cc }.armIdelay s.ccr) where
  __ := State.Accesses.refl s
  registers r _ := by cases r <;> rfl
  idelay h := absurd h (by rcases hi with rfl | rfl <;> decide)
  flags := hf

theorem stopProcessing_effect : s.Effect .stop (stopProcessing s) := by
  have hstop (p : Word) : s.Effect .stop { s with runState := .stopped, pc := p } :=
    { State.Accesses.refl s with
      registers := fun r _ => by cases r <;> rfl
      pc := nofun
      runState := fun h => absurd h (by decide)
      flags := allows_self rfl s.ccr }
  unfold stopProcessing
  split
  · exact (State.Accesses.refl s).keepsFlags rfl
  · split <;> exact hstop _

theorem execBrset_effect (m : Mem) (mm rr : Byte) : HasEffect (.brset m mm rr) s (execBrset m mm rr s) :=
  (readMem8_accesses s m).andThen fun _ u _ => branchIf_effect u rr (fun _ => rfl) rfl

theorem execBrclr_effect (m : Mem) (mm rr : Byte) : HasEffect (.brclr m mm rr) s (execBrclr m mm rr s) :=
  (readMem8_accesses s m).andThen fun _ u _ => branchIf_effect u rr (fun _ => rfl) rfl

theorem execBsr_effect (rr : Byte) : HasEffect (.bsr rr) s (execBsr rr s) :=
  ((idle_accesses s 1).bind_effect fun _ u => callTo_effect (i := .bsr rr) u _ (.head _) rfl rfl).finish

theorem execJsr_effect (m : Mem) : HasEffect (.jsr m) s (execJsr m s) :=
  ((indexCycle_accesses s m).bind_effect fun _ u => callTo_effect (i := .jsr m) u _ (.head _) rfl rfl).finish

theorem execJmp_effect (m : Mem) : HasEffect (.jmp m) s (execJmp m s) :=
  (indexCycle_accesses s m).complete fun _ _ _ => .of_pc _ rfl rfl

theorem execRts_effect : HasEffect .rts s (execRts s) :=
  ((stackCycle_accesses s).bind_accesses fun _ u => pull16_accesses u (.head _)).complete fun _ _ _ => .of_pc _ rfl rfl

theorem execRti_effect : HasEffect .rti s (execRti s) := by
  have hsp : .sp ∈ registersWritten .rti := by decide
  refine ((stackCycle_accesses s).bind_effect fun _ s₀ => ?_).finish
  refine (pull8_accesses s₀ hsp).bind_effect fun c s₁ => (pull8_accesses s₁ hsp).bind_effect fun b s₂ =>
    (pull8_accesses s₂ hsp).bind_effect fun a s₃ => (pull16_accesses s₃ hsp).bind_effect fun ix s₄ =>
    (pull16_accesses s₄ hsp).bind_effect fun iy s₅ => (pull16_accesses s₅ hsp).bind_effect fun pc s₆ => .ok ?_
  exact { State.Accesses.refl s₆ with
    registers := fun r hr => absurd (by cases r <;> decide) hr
    pc := nofun
    flags := load_allowed s₆.ccr c }

theorem fetchVector_swi_effect : (fetchVector .swi s).All (s.Effect .swi) :=
  (readWord_accesses s _).bind_effect fun _ u => .ok
    { State.Accesses.refl u with
      registers := fun r _ => by cases r <;> rfl
      pc := nofun
      idelay := fun h => absurd h (by decide)
      runState := fun h => absurd h (by decide)
      prevColumn45 := fun h => absurd rfl h
      flags := ⟨rfl, Bool.or_false _, rfl, rfl, rfl, rfl, rfl, rfl⟩ }

theorem execSwi_effect : HasEffect .swi s (execSwi s) :=
  ((lookAhead_accesses s).bind_effect fun _ u => (stackFrame_accesses u (.head _) _).bind_effect fun _ v =>
    (valueless_accesses v _).bind_effect fun _ w => fetchVector_swi_effect w).finish

theorem execWai_effect : HasEffect .wai s (execWai s) := by
  refine ((lookAhead_accesses s).bind_accesses fun _ u => (stackFrame_accesses u (.head _) _).bind_accesses fun _ v =>
    valueless_accesses v _).complete fun _ w _ => ?_
  exact { State.Accesses.refl w with
    registers := fun r _ => by cases r <;> rfl
    runState := fun h => absurd h (by decide)
    flags := allows_self rfl w.ccr }

theorem execTest_effect (h : s.platform.testMode = true) : HasEffect .test s (execTest s) := by
  unfold execTest
  rw [h]
  refine (testCycles_accesses s).complete fun _ u _ => ?_
  exact { State.Accesses.refl u with
    registers := fun r _ => by cases r <;> rfl
    pc := nofun
    runState := fun h => absurd h (by decide)
    draws := fun _ h => absurd h (by decide)
    flags := allows_self rfl u.ccr }

end Own

/-! ### Every instruction -/

/-- What an instruction can do to the registers, the flags and the hidden state: no more than the tables of
Safety.lean allow it (R21 to R28, R37 to R41). -/
theorem exec_effect (i : Instr) (s : State) (hi : s.legal i) : HasEffect i s (exec i s) := by
  cases i with
  | ldaa o | ldab o => exact loadAcc_effect s o (.head _) rfl
  | ldd o | lds o | ldx o | ldy o => exact loadReg_effect s o (List.Subset.refl _) rfl
  | staa m | stab m => exact storeAcc_effect s m rfl
  | std m | sts m | stx m | sty m => exact storeReg_effect s m rfl
  | tab | tba | tpa | aba | cba | sba | clc | clv | sec | sev | nop | sei =>
    refine inherent_effect s fun u => .of_update rfl (fun r hr => ?_) (fun _ => rfl) ?_
    · cases r <;> simp_all [registersWritten, State.contents]
    · simp [activityOf, nzvc, Activity.allows, Act.allows, add8, sub8]
  | tsx | tsy | des | ins =>
    refine inherentStack_effect s fun u => .of_update rfl (fun r hr => ?_) (fun _ => rfl) (allows_self rfl u.ccr)
    cases r <;> simp_all [registersWritten, State.contents]
  | txs | tys | xgdx | xgdy | abx | aby | dex | dey | inx | iny | mul =>
    refine inherentIdle_effect s fun u => .of_update rfl (fun r hr => ?_) (fun _ => rfl) ?_
    · cases r <;> simp_all [registersWritten, State.contents, multiply]
    · simp [activityOf, nzvc, Activity.allows, Act.allows, multiply]
  | cli => exact inherent_effect s fun u => armIdelay_effect u (.inl rfl) ⟨rfl, rfl, rfl, rfl, rfl, rfl, rfl, rfl⟩
  | tap => exact inherent_effect s fun u => armIdelay_effect u (.inr rfl) (load_allowed u.ccr u.a)
  | daa => exact inherent_effect s decimalAdjust_effect
  | fdiv => exact inherentIdle_effect s fractionalDivide_effect
  | idiv => exact inherentIdle_effect s integerDivide_effect
  | stop => exact inherent_effect s stopProcessing_effect
  | psha | pshb => exact pushAcc_effect s (.head _) rfl
  | pshx | pshy => exact pushReg_effect s (.head _) rfl
  | pula | pulb => exact pullAcc_effect s (.tail _ (.head _)) (.head _) rfl
  | pulx | puly => exact pullReg_effect s (.tail _ (.head _)) (List.subset_append_left [_] _) rfl
  | adca o | adcb o => exact accBinary_effect s o (.head _) (fun x m cc => add8_allowed cc.c x m cc)
  | adda o | addb o => exact accBinary_effect s o (.head _) (add8_allowed false)
  | sbca o | sbcb o => exact accBinary_effect s o (.head _) (fun x m cc => sub8_allowed cc.c x m cc)
  | suba o | subb o => exact accBinary_effect s o (.head _) (sub8_allowed false)
  | anda o | andb o | eora o | eorb o | oraa o | orab o =>
    exact accBinary_effect s o (.head _) (fun _ _ cc => nzv0_allowed _ cc)
  | cmpa o | cmpb o => exact accTest_effect s o (sub8_allowed false)
  | bita o | bitb o => exact accTest_effect s o (fun _ _ cc => nzv0_allowed _ cc)
  | addd o | subd o => exact regBinary_effect s o (List.Subset.refl _) (fun _ _ _ => allows_of_keeps_shxi rfl rfl rfl rfl)
  | cpd o | cpx o | cpy o => exact regTest_effect s o (fun _ _ _ => allows_of_keeps_shxi rfl rfl rfl rfl)
  | clra | clrb => exact accUnary_effect s (.head _) clr8_allowed
  | coma | comb => exact accUnary_effect s (.head _) com8_allowed
  | inca | incb => exact accUnary_effect s (.head _) inc8_allowed
  | deca | decb => exact accUnary_effect s (.head _) dec8_allowed
  | nega | negb => exact accUnary_effect s (.head _) fun _ _ => allows_of_keeps_shxi rfl rfl rfl rfl
  | asla | aslb | lsla | lslb | asra | asrb | rola | rolb | rora | rorb =>
    exact accUnary_effect s (.head _) fun _ cc => shifted_allowed cc _ _
  | lsra | lsrb => exact accUnary_effect s (.head _) lsr_allowed
  | tsta | tstb => exact accUnary_tst8_effect s tst8_allowed
  | asld | lsld => exact dUnary_effect s (List.Subset.refl _) fun _ cc => shifted_allowed cc _ _
  | lsrd => exact dUnary_effect s (List.Subset.refl _) lsr_allowed
  | clr m => exact memUnary_effect s m clr8_allowed
  | com m => exact memUnary_effect s m com8_allowed
  | inc m => exact memUnary_effect s m inc8_allowed
  | dec m => exact memUnary_effect s m dec8_allowed
  | neg m => exact memUnary_effect s m (fun _ _ => allows_of_keeps_shxi rfl rfl rfl rfl)
  | asl m | lsl m | asr m | rol m | ror m => exact memUnary_effect s m (fun _ cc => shifted_allowed cc _ _)
  | lsr m => exact memUnary_effect s m lsr_allowed
  | bclr m mm | bset m mm => exact memUnary_effect s m (fun _ cc => nzv0_allowed _ cc)
  | tst m => exact memTest_effect s m tst8_allowed
  | bcc rr | bcs rr | beq rr | bge rr | bgt rr | bhi rr | bhs rr | ble rr | blo rr | bls rr | blt rr | bmi rr
  | bne rr | bpl rr | bra rr | bvc rr | bvs rr => exact branchIf_effect s rr (fun _ => rfl) rfl
  | brn rr => exact branchIf_effect s rr nofun rfl
  | brclr m mm rr => exact execBrclr_effect s m mm rr
  | brset m mm rr => exact execBrset_effect s m mm rr
  | bsr rr => exact execBsr_effect s rr
  | jmp m => exact execJmp_effect s m
  | jsr m => exact execJsr_effect s m
  | rts => exact execRts_effect s
  | rti => exact execRti_effect s
  | swi => exact execSwi_effect s
  | wai => exact execWai_effect s
  | test => exact execTest_effect s (hi rfl)

end Sys2Proof.Machine

end

section
/-! PROOFS. What every step keeps: the invariant (R38, R40, R50), and an X bit that is clear, but for a reset and an XIRQ
(R30, R333). -/

namespace Sys2Proof.Machine

/-! ### A fetched instruction -/

/-- What a fetched instruction can do: what its `exec` can, or it is TEST outside test mode, which takes the entry of an
illegal opcode (R98). -/
theorem execFetched_eq_next {f : Fetched} {s t : State} (h : execFetched f s = .next t) :
    (s.Effect f.instr t ∧ ∃ addrs, s.Frame addrs t) ∨ takeException (.illegal (s.pc - 1)) s = .ok () t := by
  rcases execFetched_cases f s with he | ⟨x, _, hbit⟩
  · rw [he] at h
    by_cases hi : s.legal f.instr
    · exact .inl ⟨exec_effect f.instr s hi t h, _, (exec_frame f.instr s hi).1 t h⟩
    · simp only [State.legal, Classical.not_imp, Bool.not_eq_true] at hi
      obtain ⟨htest, hmode⟩ := hi
      rw [htest] at h
      exact .inr (illegalOpcode_eq_next.mp ((execTest_illegal s hmode).symm.trans h)).2
  · refine .inl ?_
    rcases hbit with ⟨m, mm, hi, he⟩ | ⟨m, mm, hi, he⟩ | ⟨m, mm, rr, hi, he⟩ | ⟨m, mm, rr, hi, he⟩ <;>
      rw [he] at h <;> rw [hi]
    · exact ⟨memModify_effect s m x (fun _ cc => nzv0_allowed _ cc) t h, _, (memModify_frame s _ m x).1 t h⟩
    · exact ⟨memModify_effect s m x (fun _ cc => nzv0_allowed _ cc) t h, _, (memModify_frame s _ m x).1 t h⟩
    · exact ⟨branchIf_effect (i := .brset m mm rr) s rr (fun _ => rfl) rfl t h, _, (branchIf_frame s _ rr).1 t h⟩
    · exact ⟨branchIf_effect (i := .brclr m mm rr) s rr (fun _ => rfl) rfl t h, _, (branchIf_frame s _ rr).1 t h⟩

/-- What executing the next instruction can do, `u` being the state at the end of the fetch. -/
theorem executeNext_cases {s t : State} (h : executeNext s = .next t) :
    ∃ k v, s.afterReads v ∧
      ((∃ f w, execFetched f { v with pc := s.pc + k, idelay := false } = .next w ∧ t = w.executed f.instr) ∨
       takeException (.illegal s.pc) { v with pc := s.pc + k } = .ok () t) := by
  rcases executeNext_eq_next.mp h with ⟨f, u, w, hfetch, hexec, rfl⟩ | ⟨u, hfetch, hill⟩ <;>
    obtain ⟨k, v, hv, rfl⟩ := (fetchInstr_meets s).1 _ u hfetch
  · exact ⟨k, v, hv, .inl ⟨f, w, hexec, rfl⟩⟩
  · exact ⟨k, v, hv, .inr (illegalOpcode_eq_next.mp hill).2⟩

/-! ### The invariant -/

/-- The instructions that write the latch have no operand the fetch reads. -/
theorem execFetched_of_latch {f : Fetched} (hi : f.instr ∈ [.cli, .tap, .swi]) (s : State) :
    execFetched f s = exec f.instr s := by
  rcases execFetched_cases f s with he | ⟨x, _, hbit⟩
  · exact he
  · rcases hbit with ⟨_, _, he, _⟩ | ⟨_, _, he, _⟩ | ⟨_, _, _, he, _⟩ | ⟨_, _, _, he, _⟩ <;> simp [he] at hi

/-- The latch is armed only where I is then clear (R38). -/
theorem armIdelay_clears {s : State} {before : Ccr} (hs : s.idelay = false)
    (h : (s.armIdelay before).idelay = true) : (s.armIdelay before).ccr.i = false := by
  simp only [State.armIdelay_idelay, hs, Bool.false_or, Bool.and_eq_true, Bool.not_eq_true'] at h
  exact h.2

/-- CLI and TAP set the latch only where they clear I, and the MPU goes on running; SWI clears it (R38, R310, R134). -/
theorem exec_latch {i : Instr} {s t : State} (h : exec i s = .next t) (hi : i ∈ [.cli, .tap, .swi])
    (hs : s.idelay = false) (ht : t.idelay = true) : t.runState = s.runState ∧ t.ccr.i = false := by
  simp only [List.mem_cons, List.not_mem_nil, or_false] at hi
  rcases hi with rfl | rfl | rfl
  case inr.inr =>
    obtain ⟨_, _, _, rfl⟩ := (execSwi_meets s).1 t h
    cases ht
  all_goals
    obtain ⟨u, hu, rfl⟩ := (inherent_meets _ s).1 t h
    have hlatch : u.idelay = false := by rw [hu]; exact hs
    have hrun : u.runState = s.runState := by rw [hu]
    exact ⟨hrun, armIdelay_clears hlatch ht⟩

section Inv

variable {s t : State}

theorem State.Inv.afterReads (h : s.Inv) (ht : s.afterReads t) : t.Inv := by
  rw [ht]
  exact h

theorem State.Inv.takeScript (h : s.Inv) : s.takeScript.Inv := by
  rw [State.Inv, s.takeScript_mem, s.takeScript_idelay, s.takeScript_runState, s.takeScript_ccr]
  exact h

/-- Where the MPU does not run, the latch is clear. -/
theorem State.Inv.idelay_of_not_running (h : s.Inv) (hrun : s.runState ≠ .running) : s.idelay ≠ true :=
  fun hd => hrun (h.2 hd).1

theorem takeException_inv {e : Event} (hwf : s.mem.wf = true) (h : takeException e s = .ok () t) : t.Inv := by
  obtain ⟨handler, u, hu, rfl⟩ := (takeException_meets e s).1 () t h
  exact ⟨hu.frame.of_sp.wf hwf, nofun⟩

theorem fetchVector_inv {e : Event} (hwf : s.mem.wf = true) (h : fetchVector e s = .ok () t) : t.Inv := by
  obtain ⟨handler, u, hu, _, rfl⟩ := (fetchVector_meets e s).1 () t h
  exact ⟨(hu.frame []).wf hwf, nofun⟩

theorem takeReset_inv (hwf : s.mem.wf = true) (h : takeReset s = .ok () t) : t.Inv := by
  obtain ⟨start, u, hu, rfl⟩ := (takeReset_meets s).1 () t h
  have hidle : u.idelay = false := by rw [hu]; rfl
  exact ⟨(hu.frame []).wf hwf, fun hd => absurd (hidle.symm.trans hd) nofun⟩

/-- A fetched instruction of a running MPU, the latch being clear as a fetch leaves it. -/
theorem execFetched_inv {f : Fetched} (hwf : s.mem.wf = true) (hs : s.idelay = false)
    (hrun : s.runState = .running) (h : execFetched f s = .next t) : t.Inv := by
  rcases execFetched_eq_next h with ⟨he, addrs, hframe⟩ | hexc
  · refine ⟨hframe.wf hwf, fun ht => ?_⟩
    have hi : f.instr ∈ [.cli, .tap, .swi] := by
      by_contra hi
      rw [he.idelay hi, hs] at ht
      cases ht
    rw [← hrun]
    exact exec_latch (execFetched_of_latch hi s ▸ h) hi hs ht
  · exact takeException_inv hwf hexc

theorem executeNext_inv (hwf : s.mem.wf = true) (hrun : s.runState = .running) (h : executeNext s = .next t) :
    t.Inv := by
  obtain ⟨k, v, hv, ⟨f, w, hexec, rfl⟩ | hill⟩ := executeNext_cases h
  · have hvrun : v.runState = .running := by rw [hv]; exact hrun
    exact (execFetched_inv (s := { v with pc := s.pc + k, idelay := false }) ((hv.frame []).wf hwf) rfl hvrun hexec :)
  · exact takeException_inv (s := { v with pc := s.pc + k }) ((hv.frame []).wf hwf) hill

theorem runningStep_inv (hwf : s.mem.wf = true) (hrun : s.runState = .running) (h : runningStep s = .next t) :
    t.Inv := by
  rcases runningStep_eq_next h with ⟨_, h⟩ | ⟨_, _, src, _, h⟩ | ⟨_, _, h⟩
  · exact takeException_inv hwf h
  · exact takeException_inv hwf h
  · exact executeNext_inv hwf hrun h

theorem waitingStep_inv (hs : s.Inv) (h : waitingStep s = .next t) : t.Inv := by
  rcases waitingStep_eq_next h with ⟨_, h⟩ | ⟨_, src, _, h⟩ | ⟨_, _, h⟩
  · exact fetchVector_inv hs.1 h
  · exact fetchVector_inv hs.1 h
  · exact hs.afterReads ((valueless_meets _ s).1 () t h).1

theorem stoppedStep_inv (hs : s.Inv) (hrun : s.runState = .stopped) (h : stoppedStep s = .next t) : t.Inv := by
  rcases stoppedStep_eq_next h with ⟨_, _, rfl⟩ | ⟨_, _, h⟩ | ⟨_, _, _, h⟩ | ⟨_, _, rfl⟩
  · exact ⟨hs.1, fun hd => absurd hd (hs.idelay_of_not_running (by rw [hrun]; nofun))⟩
  · exact takeException_inv hs.1 h
  · exact takeException_inv hs.1 h
  · exact hs

theorem testLoopStep_inv (hs : s.Inv) (h : testLoopStep s = .next t) : t.Inv := by
  cases h
  exact hs

/-- Every step keeps the invariant (R38, R40). -/
theorem step_inv (hs : s.Inv) (h : step s = .next t) : t.Inv := by
  have hs' := hs.takeScript
  rcases step_eq_next h with ⟨_, h⟩ | ⟨_, ⟨hrun, h⟩ | ⟨_, h⟩ | ⟨hrun, h⟩ | ⟨_, h⟩⟩
  · exact takeReset_inv hs'.1 h
  · exact runningStep_inv hs'.1 (s.takeScript_runState.trans hrun) h
  · exact waitingStep_inv hs' h
  · exact stoppedStep_inv hs' (s.takeScript_runState.trans hrun) h
  · exact testLoopStep_inv hs' h

end Inv

/-! ### The X bit -/

/-- Where X is clear in `s`, it is clear in `t`. -/
def State.keepsXClear (s t : State) : Prop := s.ccr.x = false → t.ccr.x = false

/-- No row of the CCR table lets an instruction set X (R30). -/
theorem activityOf_x (i : Instr) : (activityOf i).x = .keeps ∨ (activityOf i).x = .falls := by
  cases i with
  | tap | rti => exact .inr rfl
  | _ => exact .inl rfl

section X

variable {s t : State}

theorem State.Effect.keepsXClear {i : Instr} (h : s.Effect i t) : s.keepsXClear t := by
  intro hs
  obtain ⟨_, hx, _⟩ := h.flags
  rcases activityOf_x i with hrow | hrow <;> rw [hrow] at hx
  · exact Eq.trans hx hs
  · exact Bool.eq_false_iff.mpr fun ht => Bool.eq_false_iff.mp hs (hx ht)

/-- An entry but that of XIRQ (R338). -/
theorem takeException_keepsXClear {e : Event} (h : takeException e s = .ok () t) (he : e.setsX = false) :
    s.keepsXClear t := by
  obtain ⟨handler, u, _, rfl⟩ := (takeException_meets e s).1 () t h
  exact fun hs => by simp [hs, he]

theorem fetchVector_keepsXClear {e : Event} (h : fetchVector e s = .ok () t) (he : e.setsX = false) :
    s.keepsXClear t := by
  obtain ⟨handler, u, _, _, rfl⟩ := (fetchVector_meets e s).1 () t h
  exact fun hs => by simp [hs, he]

theorem executeNext_keepsXClear (h : executeNext s = .next t) : s.keepsXClear t := by
  intro hs
  obtain ⟨k, v, hv, ⟨f, w, hexec, rfl⟩ | hill⟩ := executeNext_cases h
  · have hvx : v.ccr.x = false := by rw [hv.ccr]; exact hs
    have hw : State.keepsXClear { v with pc := s.pc + k, idelay := false } w := by
      rcases execFetched_eq_next hexec with ⟨he, _⟩ | hexc
      · exact he.keepsXClear
      · exact takeException_keepsXClear hexc rfl
    exact hw hvx
  · exact takeException_keepsXClear hill rfl (hv.ccr ▸ hs)

theorem runningStep_keepsXClear (hline : s.lines.xirq = false) (h : runningStep s = .next t) : s.keepsXClear t := by
  rcases runningStep_eq_next h with ⟨hx, _⟩ | ⟨_, _, src, _, h⟩ | ⟨_, _, h⟩
  · simp [State.xirqRequest, hline] at hx
  · exact takeException_keepsXClear h rfl
  · exact executeNext_keepsXClear h

theorem waitingStep_keepsXClear (hline : s.lines.xirq = false) (h : waitingStep s = .next t) : s.keepsXClear t := by
  rcases waitingStep_eq_next h with ⟨hx, _⟩ | ⟨_, src, _, h⟩ | ⟨_, _, h⟩
  · simp [State.xirqRequest, hline] at hx
  · exact fetchVector_keepsXClear h rfl
  · exact fun hs => ((valueless_meets _ s).1 () t h).1.ccr ▸ hs

theorem stoppedStep_keepsXClear (hline : s.lines.xirq = false) (h : stoppedStep s = .next t) : s.keepsXClear t := by
  rcases stoppedStep_eq_next h with ⟨hx, _⟩ | ⟨hx, _⟩ | ⟨_, _, _, h⟩ | ⟨_, _, rfl⟩
  · simp [hline] at hx
  · simp [hline] at hx
  · exact takeException_keepsXClear h rfl
  · exact id

/-- A step with neither RESET nor XIRQ asserted (R30, R333). -/
theorem step_keepsXClear (hreset : s.takeScript.lines.reset = false) (hxirq : s.takeScript.lines.xirq = false)
    (h : step s = .next t) : s.keepsXClear t := by
  unfold State.keepsXClear
  rw [← s.takeScript_ccr]
  rcases step_eq_next h with ⟨hr, _⟩ | ⟨_, ⟨_, h⟩ | ⟨_, h⟩ | ⟨_, h⟩ | ⟨_, h⟩⟩
  · simp [hreset] at hr
  · exact runningStep_keepsXClear hxirq h
  · exact waitingStep_keepsXClear hxirq h
  · exact stoppedStep_keepsXClear hxirq h
  · cases h
    exact id

end X

end Sys2Proof.Machine

end

section
/-! PROOFS. The obligations of 10_state.md. -/

namespace Sys2Proof.Machine

/-- Settles O57: every way a step can go keeps the invariant. -/
theorem stepKeepsTheInvariant : Obligations.StepKeepsTheInvariant :=
  fun _ _ hs h => step_inv hs h

/-- Settles O59: without a reset or an XIRQ a step leaves a clear X clear. -/
theorem xMaskIsSetOnlyByResetOrXirq : Obligations.XMaskIsSetOnlyByResetOrXirq := by
  intro s t hs h ht
  by_contra hlines
  simp only [not_or, Bool.not_eq_true] at hlines
  obtain ⟨hreset, hxirq⟩ := hlines
  exact Bool.eq_false_iff.mp (step_keepsXClear hreset hxirq h hs) ht

/-- Settles O15, by the effect of every instruction. -/
theorem instructionsChangeNoOtherRegister : Obligations.InstructionsChangeNoOtherRegister := by
  intro i s t hi h
  have he := exec_effect i s hi t h
  exact ⟨he.registers, he.pc⟩

/-- Settles O16, by the effect of every instruction. -/
theorem flagsFollowTheActivityTable : Obligations.FlagsFollowTheActivityTable :=
  fun i s t hi h => (exec_effect i s hi t h).flags

/-- Settles O17, by the frame and the effect of every instruction. -/
theorem hiddenStateChangesOnlyWhereSaid : Obligations.HiddenStateChangesOnlyWhereSaid := by
  intro i s t hi h
  have hf := (exec_frame i s hi).1 t h
  have he := exec_effect i s hi t h
  exact ⟨hf.platform, hf.lines, hf.script, he.idelay, he.runState, he.prevColumn45,
    fun hd => ⟨he.deviceLog hd, he.draws hd⟩⟩

/-- Settles O58: memory is blank and the latch clear. -/
theorem resetSatisfiesTheInvariant : Obligations.ResetSatisfiesTheInvariant := ⟨Memory.wf_reset, nofun⟩

end Sys2Proof.Machine

end

section
/-! PROOFS. The bus accesses by what MEM has at the address (R52, R53, R61, R66). -/

namespace Sys2Proof.Machine

/-! ### One byte -/

section OneByte

variable {s : State} {addr : Word}

theorem writeByte_rom (v : Byte) (h : s.kindAt addr = .rom) : writeByte addr v s = .ok () s := by
  unfold writeByte; rw [h]

/-- A device location is written to (R69). -/
def State.deviceWritten (s : State) (addr : Word) (v : Byte) : State :=
  { s with deviceLog := .write addr v :: s.deviceLog }

theorem writeByte_device (v : Byte) (h : s.kindAt addr = .device) :
    writeByte addr v s = .ok () (s.deviceWritten addr v) := by
  unfold writeByte; rw [h]; rfl

theorem writeByte_nothing (v : Byte) (h : s.kindAt addr = .nothing) :
    writeByte addr v s = .stop (.unpopulated addr) := by
  unfold writeByte; rw [h]

/-- What a device location answers now (R69). -/
def State.deviceAnswer (s : State) (addr : Word) : Byte := Config.deviceByte s.draws addr

/-- A device location is read (R69). -/
def State.deviceRead (s : State) (addr : Word) : State :=
  { s.drawn with deviceLog := .read addr (s.deviceAnswer addr) :: s.deviceLog }

theorem readByte_device (h : s.kindAt addr = .device) :
    readByte addr s = .ok (s.deviceAnswer addr) (s.deviceRead addr) := by
  unfold readByte; rw [h]; rfl

theorem readByte_nothing (h : s.kindAt addr = .nothing) : readByte addr s = .stop (.unpopulated addr) := by
  unfold readByte; rw [h]

/-- A write to RAM: the byte is there, and every other byte as before. -/
theorem writeByte_ram_holds (v : Byte) (hm : s.mem.wf = true) (h : s.kindAt addr = .ram) :
    ∃ t, writeByte addr v s = .ok () t ∧ s.afterStores [addr] t ∧ t.byteAt addr = v :=
  ⟨_, writeByte_ram v h, (writeByte_meets addr v s).1 () _ (writeByte_ram v h), Memory.read_write_same hm _ v⟩

end OneByte

/-! ### Two bytes -/

section TwoBytes

variable {s : State}

theorem readWord_plain {addr : Word} (h0 : s.plain addr) (h1 : s.plain (addr + 1)) :
    readWord addr s = .ok (joinBytes (s.byteAt addr) (s.byteAt (addr + 1))) s := by
  rw [readWord, readByte_plain h0, Res.bind_ok, readByte_plain h1, Res.bind_ok]

/-- A word in RAM: the high-order byte at the lower address (R52). -/
theorem writeWord_ram_holds {addr : Word} (v : Word) (hm : s.mem.wf = true) (h0 : s.kindAt addr = .ram)
    (h1 : s.kindAt (addr + 1) = .ram) :
    ∃ t, writeWord addr v s = .ok () t ∧ s.afterStores [addr, addr + 1] t ∧
      t.byteAt addr = hiByte v ∧ t.byteAt (addr + 1) = loByte v := by
  obtain ⟨u, hwu, hu, hhi⟩ := writeByte_ram_holds (hiByte v) hm h0
  have hk : u.kindAt (addr + 1) = .ram := by rwa [State.kindAt_congr hu.platform]
  obtain ⟨t, hwt, ht, hlo⟩ := writeByte_ram_holds (loByte v) (hu.frame.wf hm) hk
  have hne : addr ∉ [addr + 1] := by
    rw [List.mem_singleton]; bv_omega
  have hw : writeWord addr v s = .ok () t := by rw [writeWord, hwu, Res.bind_ok, hwt]
  exact ⟨t, hw, (writeWord_meets addr v s).1 () t hw, (ht.frame.elsewhere addr hne).trans hhi, hlo⟩

/-- A device sees the high-order byte read first (R53). -/
theorem readWord_device {addr : Word} (h0 : s.kindAt addr = .device) (h1 : s.kindAt (addr + 1) = .device) :
    ∃ h l t, readWord addr s = .ok (joinBytes h l) t ∧
      t.deviceLog = .read (addr + 1) l :: .read addr h :: s.deviceLog := by
  refine ⟨_, _, (s.deviceRead addr).deviceRead (addr + 1), ?_, rfl⟩
  rw [readWord, readByte_device h0, Res.bind_ok, readByte_device (s := s.deviceRead addr) h1, Res.bind_ok]

/-- A device sees the high-order byte written first (R53). -/
theorem writeWord_device {addr : Word} (v : Word) (h0 : s.kindAt addr = .device) (h1 : s.kindAt (addr + 1) = .device) :
    ∃ t, writeWord addr v s = .ok () t ∧
      t.deviceLog = .write (addr + 1) (loByte v) :: .write addr (hiByte v) :: s.deviceLog := by
  refine ⟨(s.deviceWritten addr _).deviceWritten (addr + 1) _, ?_, rfl⟩
  rw [writeWord, writeByte_device _ h0, Res.bind_ok, writeByte_device (s := s.deviceWritten addr _) _ h1]

/-- A byte is pushed to a device location (R8, R69). -/
def State.devicePushed (s : State) (v : Byte) : State := { s.deviceWritten s.sp v with sp := s.sp - 1 }

/-- A byte is pulled from a device location (R8, R69). -/
def State.devicePulled (s : State) : State := { s.deviceRead (s.sp + 1) with sp := s.sp + 1 }

theorem push8_device (v : Byte) (h : s.kindAt s.sp = .device) : push8 v s = .ok () (s.devicePushed v) := by
  rw [push8, writeByte_device v h]; rfl

theorem pull8_device (h : s.kindAt (s.sp + 1) = .device) :
    pull8 s = .ok (s.deviceAnswer (s.sp + 1)) s.devicePulled :=
  readByte_device (s := { s with sp := s.sp + 1 }) h

/-- A push writes the low-order byte first, at the higher address (R53). -/
theorem push16_device (v : Word) (h0 : s.kindAt s.sp = .device) (h1 : s.kindAt (s.sp - 1) = .device) :
    ∃ t, push16 v s = .ok () t ∧
      t.deviceLog = .write (s.sp - 1) (hiByte v) :: .write s.sp (loByte v) :: s.deviceLog := by
  refine ⟨(s.devicePushed _).devicePushed _, ?_, rfl⟩
  rw [push16, push8_device _ h0, Res.bind_ok, push8_device (s := s.devicePushed _) _ h1]

/-- A pull reads the high-order byte first (R53). -/
theorem pull16_device (h1 : s.kindAt (s.sp + 1) = .device) (h2 : s.kindAt (s.sp + 2) = .device) :
    ∃ h l t, pull16 s = .ok (joinBytes h l) t ∧
      t.deviceLog = .read (s.sp + 2) l :: .read (s.sp + 1) h :: s.deviceLog := by
  have hsp : s.sp + 2 = s.sp + 1 + 1 := (BitVec.add_assoc s.sp 1 1).symm
  rw [hsp] at h2 ⊢
  refine ⟨_, _, s.devicePulled.devicePulled, ?_, rfl⟩
  rw [pull16, pull8_device h1, Res.bind_ok, pull8_device (s := s.devicePulled) h2, Res.bind_ok]

end TwoBytes

end Sys2Proof.Machine

end

section
/-! PROOFS. Where a run stops (R61, R97, R98, R332). -/

namespace Sys2Proof.Machine

/-- The outcome is no refusal, and a fault only where MEM has nothing or, under ILLOP_POLICY `fault`, at an illegal
opcode (R61, R97). -/
structure StopsOnlyWhereSaid (r : Result) (p : Platform) : Prop where
  not_refused : ∀ x, r ≠ .refused x
  fault : ∀ f, r = .fault f → f.ofPlatform p ∨ (p.illopPolicy = .fault ∧ ∃ opa, f = .illegalOpcode opa)

theorem Meets.stops {r : Result} {p : Platform} {good : State → Prop} (h : Meets r p good) : StopsOnlyWhereSaid r p :=
  ⟨h.2.2, fun f hf => .inl (h.2.1 f hf)⟩

/-- A bus operation as a whole step. -/
theorem Res.meets.stops {α : Type} {r : Res α} {p : Platform} {good : α → State → Prop} (h : r.meets p good)
    (k : α → State → State) : StopsOnlyWhereSaid (r.complete k) p :=
  (Res.meets_complete (good := fun _ => True) h fun _ _ _ => trivial).stops

theorem StopsOnlyWhereSaid.next (t : State) (p : Platform) : StopsOnlyWhereSaid (.next t) p :=
  ⟨nofun, nofun⟩

/-! ### The illegal-opcode event (R97, R340) -/

theorem illegalOpcode_eq_fault {opa : Word} {s : State} {f : Fault} : illegalOpcode opa s = .fault f ↔
    (s.platform.illopPolicy = .fault ∧ f = .illegalOpcode opa) ∨
    (s.platform.illopPolicy = .trap ∧ takeException (.illegal opa) s = .stop f) := by
  unfold illegalOpcode
  split <;> next h => simp [h, Res.complete_eq_fault, eq_comm (b := f)]

theorem illegalOpcode_ne_refused (opa : Word) (s : State) (x : Refusal) : illegalOpcode opa s ≠ .refused x := by
  unfold illegalOpcode
  split
  · nofun
  · exact Res.complete_ne_refused

theorem illegalOpcode_stops (opa : Word) (s : State) : StopsOnlyWhereSaid (illegalOpcode opa s) s.platform := by
  refine ⟨illegalOpcode_ne_refused opa s, fun f hf => ?_⟩
  rcases illegalOpcode_eq_fault.mp hf with ⟨hpolicy, rfl⟩ | ⟨_, hstop⟩
  · exact .inr ⟨hpolicy, opa, rfl⟩
  · exact .inl ((takeException_meets _ s).2 f hstop)

/-! ### Every instruction -/

/-- An instruction that is not legal is TEST outside test mode, an illegal opcode (R98). -/
theorem exec_not_legal {i : Instr} {s : State} (hi : ¬ s.legal i) :
    i = .test ∧ s.platform.testMode = false ∧ exec i s = illegalOpcode (s.pc - 1) s := by
  simp only [State.legal, Classical.not_imp, Bool.not_eq_true] at hi
  obtain ⟨rfl, hmode⟩ := hi
  exact ⟨rfl, hmode, execTest_illegal s hmode⟩

theorem exec_ne_refused (i : Instr) (s : State) (x : Refusal) : exec i s ≠ .refused x := by
  by_cases hi : s.legal i
  · exact (exec_frame i s hi).2.2 x
  · rw [(exec_not_legal hi).2.2]
    exact illegalOpcode_ne_refused _ s x

/-- Where an instruction stops the run (R61, R98, R332). -/
theorem exec_eq_fault {i : Instr} {s : State} {f : Fault} (h : exec i s = .fault f) :
    f.ofPlatform s.platform ∨ (i = .test ∧ s.platform.testMode = false ∧ s.platform.illopPolicy = .fault ∧
      f = .illegalOpcode (s.pc - 1)) := by
  by_cases hi : s.legal i
  · exact .inl ((exec_frame i s hi).2.1 f h)
  · obtain ⟨htest, hmode, he⟩ := exec_not_legal hi
    rcases illegalOpcode_eq_fault.mp (he.symm.trans h) with ⟨hpolicy, hf⟩ | ⟨_, hstop⟩
    · exact .inr ⟨htest, hmode, hpolicy, hf⟩
    · exact .inl ((takeException_meets _ s).2 f hstop)

theorem exec_stops (i : Instr) (s : State) : StopsOnlyWhereSaid (exec i s) s.platform :=
  ⟨exec_ne_refused i s, fun _ hf => (exec_eq_fault hf).imp_right fun ⟨_, _, hpolicy, he⟩ => ⟨hpolicy, _, he⟩⟩

/-! ### Every step -/

theorem execFetched_stops (f : Fetched) (s : State) : StopsOnlyWhereSaid (execFetched f s) s.platform := by
  rcases execFetched_cases f s with he | ⟨x, _, hbit⟩
  · rw [he]
    exact exec_stops f.instr s
  · rcases hbit with ⟨m, _, _, he⟩ | ⟨m, _, _, he⟩ | ⟨_, _, rr, _, he⟩ | ⟨_, _, rr, _, he⟩ <;> rw [he]
    · exact (memModify_frame s _ m x).stops
    · exact (memModify_frame s _ m x).stops
    · exact (branchIf_frame s _ rr).stops
    · exact (branchIf_frame s _ rr).stops

theorem StopsOnlyWhereSaid.remembering {r : Result} {p : Platform} (h : StopsOnlyWhereSaid r p) (i : Instr) :
    StopsOnlyWhereSaid (r.remembering i) p := by
  cases r with
  | next t => exact .next _ p
  | fault _ | refused _ => exact h

theorem runInstr_stops (f : Fetched) (s : State) : StopsOnlyWhereSaid (runInstr f s) s.platform := by
  rw [runInstr_eq]
  exact (execFetched_stops f (s.moved s.pc false)).remembering f.instr

theorem executeNext_stops (s : State) : StopsOnlyWhereSaid (executeNext s) s.platform := by
  have hfetch := fetchInstr_meets s
  have hplatform {f : Option Fetched} {t : State} (ht : fetchInstr s = .ok f t) : t.platform = s.platform := by
    obtain ⟨_, _, hu, rfl⟩ := hfetch.1 f t ht
    exact hu.platform
  unfold executeNext
  split
  · next f t ht => exact hplatform ht ▸ runInstr_stops f t
  · next t ht => exact hplatform ht ▸ illegalOpcode_stops s.pc t
  · next f hf => exact ⟨nofun, fun g hg => by cases hg; exact .inl (hfetch.2 f hf)⟩

theorem interrupt_stops (e : Event) (s : State) : StopsOnlyWhereSaid (interrupt e s) s.platform :=
  (takeException_meets e s).stops _

theorem runningStep_stops (s : State) : StopsOnlyWhereSaid (runningStep s) s.platform := by
  unfold runningStep
  split
  · exact interrupt_stops _ s
  · split
    · exact executeNext_stops s
    · split
      · exact interrupt_stops _ s
      · exact executeNext_stops s

theorem waitingStep_stops (s : State) : StopsOnlyWhereSaid (waitingStep s) s.platform := by
  unfold waitingStep
  split
  · exact (fetchVector_meets _ s).stops _
  · split
    · exact (fetchVector_meets _ s).stops _
    · exact (valueless_meets _ s).stops _

theorem stoppedStep_stops (s : State) : StopsOnlyWhereSaid (stoppedStep s) s.platform := by
  unfold stoppedStep
  split
  · split
    · exact .next _ _
    · exact interrupt_stops _ s
  · split
    · exact interrupt_stops _ s
    · exact .next _ _

/-- Every step, whatever the lines and the run-state (R61, R97). -/
theorem step_stops (s : State) : StopsOnlyWhereSaid (step s) s.platform := by
  rw [← s.takeScript_platform]
  unfold step oneStep stepWithLines
  split
  · exact (takeReset_meets _).stops _
  · split
    · exact runningStep_stops _
    · exact waitingStep_stops _
    · exact stoppedStep_stops _
    · exact .next _ _

end Sys2Proof.Machine

end

section
/-! PROOFS. What an instruction of one 8-bit operand makes of it, in numbers (R150 to R152, R175 to R177, R183 to R185,
R190 to R192, R228 to R247, R254 to R256). -/

namespace Sys2Proof.Machine

/-! ### Bits as numbers -/

theorem shiftLeft_one_eq {w : Nat} (x : BitVec w) : x <<< 1 = BitVec.ofNat w (2 * x.toNat) := by
  apply BitVec.eq_of_toNat_eq
  rw [BitVec.toNat_shiftLeft, BitVec.toNat_ofNat, Nat.shiftLeft_eq, Nat.pow_one, Nat.mul_comm]

theorem ushiftRight_one_eq {w : Nat} (x : BitVec w) : x >>> 1 = BitVec.ofNat w (x.toNat / 2) := by
  apply BitVec.eq_of_toNat_eq
  rw [BitVec.toNat_ushiftRight, BitVec.toNat_ofNat, Nat.shiftRight_eq_div_pow, Nat.pow_one,
    Nat.mod_eq_of_lt (Nat.lt_of_le_of_lt (Nat.div_le_self _ _) x.isLt)]

theorem lowBit_eq {w : Nat} (x : BitVec w) : x.getLsbD 0 = decide (x.toNat % 2 = 1) :=
  Nat.testBit_zero x.toNat

theorem beq_eq_decide_toNat {w : Nat} (x k : BitVec w) : (x == k) = decide (x.toNat = k.toNat) := by
  rw [Bool.eq_iff_iff, beq_iff_eq, decide_eq_true_eq, BitVec.toNat_eq]

/-- The bit a rotate brings in at the low end is free after the shift. -/
theorem rotateLeft_eq (x : Byte) (c : Bool) :
    x <<< 1 ||| bitValue 8 c = BitVec.ofNat 8 (2 * x.toNat + c.toNat) := by
  have hfree : x <<< 1 &&& bitValue 8 c = 0#8 := by
    ext i hi
    interval_cases i <;> cases c <;> simp [bitValue]
  rw [← BitVec.add_eq_or_of_and_eq_zero _ _ hfree, shiftLeft_one_eq, BitVec.ofNat_add]
  cases c <;> rfl

/-- The bit a rotate brings in at the high end is free after the shift. -/
theorem rotateRight_eq (x : Byte) (c : Bool) :
    x >>> 1 ||| bitValue 8 c <<< 7 = BitVec.ofNat 8 (x.toNat / 2 + 128 * c.toNat) := by
  have hfree : x >>> 1 &&& bitValue 8 c <<< 7 = 0#8 := by
    ext i hi
    interval_cases i <;> cases c <;> simp [bitValue]
  rw [← BitVec.add_eq_or_of_and_eq_zero _ _ hfree, ushiftRight_one_eq, BitVec.ofNat_add]
  cases c <;> rfl

/-- A shift that holds bit 7 is the signed half, rounded down (R235). -/
theorem arithmeticHalf_eq (x : Byte) : x >>> 1 ||| x &&& 0x80 = BitVec.ofInt 8 (x.toInt / 2) := by
  have hshift : x >>> 1 ||| x &&& 0x80 = x.sshiftRight 1 := by
    ext i hi
    interval_cases i <;> simp [BitVec.getElem_sshiftRight, BitVec.msb_eq_getLsbD_last]
  have hhalf : (x.sshiftRight 1).toInt = x.toInt / 2 := by
    rw [BitVec.toInt_sshiftRight, Int.shiftRight_eq_div_pow]; rfl
  rw [hshift, ← hhalf, BitVec.ofInt_toInt]

theorem neg_eq_ofNat (x : Byte) : 0 - x = BitVec.ofNat 8 (256 - x.toNat) := by
  bv_omega

theorem complement_eq_ofNat (x : Byte) : x ^^^ 0xFF = BitVec.ofNat 8 (255 - x.toNat) := by
  have h : x ^^^ 0xFF = ~~~x := BitVec.xor_allOnes
  rw [h]
  bv_omega

theorem increment_eq_ofNat (x : Byte) : x + 1 = BitVec.ofNat 8 (x.toNat + 1) := by
  bv_omega

theorem decrement_eq_ofNat (x : Byte) : x - 1 = BitVec.ofNat 8 (x.toNat + 255) := by
  bv_omega

/-! ### The operations -/

theorem msb_eq_decide_128 (x : Byte) : x.msb = decide (x.toNat ≥ 128) := msb_eq_decide_half x

theorem neg8_eq (x : Byte) (cc : Ccr) : neg8 x cc =
    (0 - x, { cc with n := (0 - x).msb, z := 0 - x == 0, v := decide (x.toNat = 128), c := decide (x.toNat ≠ 0) }) := by
  have hv : (0 - x == 0x80) = decide (x.toNat = 128) := by
    rw [beq_eq_decide_toNat, decide_eq_decide]; bv_omega
  have hc : (0 - x != 0) = decide (x.toNat ≠ 0) := by
    rw [bne, beq_eq_decide_toNat, ← decide_not, decide_eq_decide]; bv_omega
  rw [neg8, hv, hc]
  rfl

theorem inc8_eq (x : Byte) (cc : Ccr) : inc8 x cc =
    (x + 1, { cc with n := (x + 1).msb, z := x + 1 == 0, v := decide (x.toNat = 127) }) := by
  rw [inc8, beq_eq_decide_toNat x]
  rfl

theorem dec8_eq (x : Byte) (cc : Ccr) : dec8 x cc =
    (x - 1, { cc with n := (x - 1).msb, z := x - 1 == 0, v := decide (x.toNat = 128) }) := by
  rw [dec8, beq_eq_decide_toNat x]
  rfl

theorem lsr_eq_afterShift (x : Byte) (cc : Ccr) :
    lsr x cc = (x >>> 1, cc.afterShift (x >>> 1) (x.getLsbD 0)) := by
  have hn : (x >>> 1).msb = false := by simp [BitVec.msb_ushiftRight]
  simp only [lsr, Ccr.afterShift, hn, Bool.false_bne]

/-! ### The rows of the table -/

/-- The row's instructions apply `f`, in memory and on each accumulator, and `f` gives the row's result and CCR. -/
structure OneOperand.Applies (row : OneOperand) (f : Unary 8) (x : Byte) (cc : Ccr) : Prop where
  onMem : ∀ m s, exec (row.onMem m) s = memUnary f m s
  onA : ∀ s, exec row.onA s = accUnary f .a s
  onB : ∀ s, exec row.onB s = accUnary f .b s
  gives : f x cc = (row.result, row.ccr)

/-- Every row is that of one operation of the model. -/
theorem oneOperandRows_applies {x : Byte} {cc : Ccr} {row : OneOperand} (h : row ∈ oneOperandRows x cc) :
    ∃ f, row.Applies f x cc := by
  simp only [oneOperandRows, ← neg_eq_ofNat, ← complement_eq_ofNat, ← increment_eq_ofNat, ← decrement_eq_ofNat,
    ← shiftLeft_one_eq, ← ushiftRight_one_eq, ← rotateLeft_eq, ← rotateRight_eq, ← arithmeticHalf_eq,
    ← msb_eq_decide_128, ← lowBit_eq, List.mem_cons, List.not_mem_nil, or_false] at h
  rcases h with rfl | rfl | rfl | rfl | rfl | rfl | rfl | rfl | rfl | rfl | rfl
  · exact ⟨clr8, fun _ _ => rfl, fun _ => rfl, fun _ => rfl, rfl⟩
  · exact ⟨neg8, fun _ _ => rfl, fun _ => rfl, fun _ => rfl, neg8_eq x cc⟩
  · exact ⟨com8, fun _ _ => rfl, fun _ => rfl, fun _ => rfl, rfl⟩
  · exact ⟨inc8, fun _ _ => rfl, fun _ => rfl, fun _ => rfl, inc8_eq x cc⟩
  · exact ⟨dec8, fun _ _ => rfl, fun _ => rfl, fun _ => rfl, dec8_eq x cc⟩
  · exact ⟨asl, fun _ _ => rfl, fun _ => rfl, fun _ => rfl, rfl⟩
  · exact ⟨asl, fun _ _ => rfl, fun _ => rfl, fun _ => rfl, rfl⟩
  · exact ⟨asr8, fun _ _ => rfl, fun _ => rfl, fun _ => rfl, rfl⟩
  · exact ⟨lsr, fun _ _ => rfl, fun _ => rfl, fun _ => rfl, lsr_eq_afterShift x cc⟩
  · exact ⟨rol8, fun _ _ => rfl, fun _ => rfl, fun _ => rfl, rfl⟩
  · exact ⟨ror8, fun _ _ => rfl, fun _ => rfl, fun _ => rfl, rfl⟩

end Sys2Proof.Machine

end

section
/-! PROOFS. What device locations see between two states, and what was fetched and stored (R61, R69). -/

namespace Sys2Proof.Machine

/-! ### The device log grows -/

/-- The device log of `t` is that of `s` with later accesses on top. -/
def State.logGrows (s t : State) : Prop := s.deviceLog <:+ t.deviceLog

section Log

variable {s t u : State}

theorem State.logGrows.trans (h : s.logGrows t) (h' : t.logGrows u) : s.logGrows u := List.IsSuffix.trans h h'

theorem State.accessesSince_of_append {accs : List DeviceAccess} (h : t.deviceLog = accs ++ s.deviceLog) :
    s.accessesSince t = accs := by
  simp [State.accessesSince, h]

theorem State.accessesSince_subset_later (h : t.logGrows u) : s.accessesSince t ⊆ s.accessesSince u := by
  obtain ⟨later, hu⟩ := h
  intro e he
  rw [State.accessesSince, ← hu, List.take_append, List.mem_append]
  have hlen : t.deviceLog.length - s.deviceLog.length ≤
      (later ++ t.deviceLog).length - s.deviceLog.length - later.length := by
    rw [List.length_append]; omega
  exact .inr (List.take_subset_take_left _ hlen he)

theorem State.accessesSince_subset_earlier (h : s.logGrows t) : t.accessesSince u ⊆ s.accessesSince u :=
  List.take_subset_take_left _ (Nat.sub_le_sub_left h.length_le _)

/-- What was fetched depends on what MEM has at the address, on the byte there and on the accesses alone. -/
theorem State.fetched.mono {s' t' : State} {addr : Word} {v : Byte} (h : s.fetched t addr v)
    (hk : s'.kindAt addr = s.kindAt addr) (hb : s'.byteAt addr = s.byteAt addr)
    (ha : s.accessesSince t ⊆ s'.accessesSince t') : s'.fetched t' addr v := by
  unfold State.fetched at *
  rw [hk, hb]
  revert h
  cases s.kindAt addr with
  | device => exact fun h => ha h
  | ram | rom | nothing => exact id

/-- A byte fetched stays so, whatever is accessed later. -/
theorem State.fetched.later {addr : Word} {v : Byte} (h : s.fetched t addr v) (ht : t.logGrows u) :
    s.fetched u addr v :=
  h.mono rfl rfl (State.accessesSince_subset_later ht)

/-- Reads leave the bytes of memory as they are. -/
theorem State.afterReads.byteAt (h : s.afterReads t) (addr : Word) : t.byteAt addr = s.byteAt addr :=
  (h.frame []).elsewhere addr List.not_mem_nil

/-- A byte fetched after reads. -/
theorem State.fetched.earlier {addr : Word} {v : Byte} (h : t.fetched u addr v) (hst : s.afterReads t)
    (hlog : s.logGrows t) : s.fetched u addr v :=
  h.mono (State.kindAt_congr hst.platform addr).symm (hst.byteAt addr).symm (State.accessesSince_subset_earlier hlog)

/-- A byte stored after reads. -/
theorem State.stored.earlier {addr : Word} {v : Byte} (h : t.stored u addr v) (hst : s.afterReads t)
    (hlog : s.logGrows t) : s.stored u addr v := by
  unfold State.stored at *
  rw [State.kindAt_congr hst.platform, hst.byteAt] at h
  revert h
  cases s.kindAt addr with
  | device => exact fun h => State.accessesSince_subset_earlier hlog h
  | ram | rom | nothing => exact id

end Log

/-! ### One access -/

section Access

variable {s t : State} {addr : Word} {v : Byte}

theorem readByte_logGrows (h : readByte addr s = .ok v t) : s.logGrows t := by
  unfold readByte at h
  split at h <;> cases h
  · exact List.suffix_rfl
  · exact List.suffix_rfl
  · exact List.suffix_cons _ _

theorem writeByte_logGrows (h : writeByte addr v s = .ok () t) : s.logGrows t := by
  unfold writeByte at h
  split at h <;> cases h
  · exact List.suffix_rfl
  · exact List.suffix_rfl
  · exact List.suffix_cons _ _

/-- A read gives what `fetched` says. -/
theorem readByte_fetched (h : readByte addr s = .ok v t) : s.fetched t addr v := by
  unfold State.fetched
  cases hk : s.kindAt addr with
  | ram => rw [readByte_plain (.inl hk)] at h; cases h; rfl
  | rom => rw [readByte_plain (.inr hk)] at h; cases h; rfl
  | device =>
    rw [readByte_device hk] at h
    cases h
    rw [State.accessesSince_of_append (accs := [.read addr (s.deviceAnswer addr)]) rfl]
    exact List.mem_singleton_self _
  | nothing => rw [readByte_nothing hk] at h; cases h

/-- A write leaves what `stored` says. -/
theorem writeByte_stored (hm : s.mem.wf = true) (h : writeByte addr v s = .ok () t) : s.stored t addr v := by
  unfold State.stored
  cases hk : s.kindAt addr with
  | ram => rw [writeByte_ram v hk] at h; cases h; exact Memory.read_write_same hm _ v
  | rom => rw [writeByte_rom v hk] at h; cases h; rfl
  | device =>
    rw [writeByte_device v hk] at h
    cases h
    rw [State.accessesSince_of_append (accs := [.write addr v]) rfl]
    exact List.mem_singleton_self _
  | nothing => rw [writeByte_nothing v hk] at h; cases h

end Access

/-! ### Accesses in sequence -/

section Sequence

variable (s : State)

theorem Res.All.bind_logGrows {s : State} {α β : Type} {r : Res α} {k : α → State → Res β}
    (hr : r.All s.logGrows) (hk : ∀ a u, (k a u).All u.logGrows) : (r.bind k).All s.logGrows := by
  intro b t h
  obtain ⟨a, u, hau, hbt⟩ := Res.bind_eq_ok.mp h
  exact (hr a u hau).trans (hk a u b t hbt)

theorem valueless_logGrows (addr : Word) : (valueless addr s).All s.logGrows := by
  unfold valueless
  split
  · exact Res.All.bind_logGrows (fun _ _ => readByte_logGrows) fun _ _ => .ok List.suffix_rfl
  · exact .ok List.suffix_rfl

theorem idle_logGrows (n : Nat) : (idle n s).All s.logGrows := by
  induction n generalizing s with
  | zero => exact .ok List.suffix_rfl
  | succ n ih => exact (valueless_logGrows s idleAddress).bind_logGrows fun _ u => ih u

theorem indexCycle_logGrows (m : Mem) : (indexCycle m s).All s.logGrows := by
  cases m with
  | dir _ | ext _ => exact .ok List.suffix_rfl
  | indX _ | indY _ => exact idle_logGrows s 1

theorem readMem8_logGrows (m : Mem) : (readMem8 m s).All s.logGrows :=
  (indexCycle_logGrows s m).bind_logGrows fun _ _ _ _ => readByte_logGrows

end Sequence

/-- The byte at EA is fetched. -/
theorem readMem8_fetched {m : Mem} {s t : State} {x : Byte} (h : readMem8 m s = .ok x t) :
    s.fetched t (s.ea m) x := by
  obtain ⟨_, u, hu, hx⟩ := Res.bind_eq_ok.mp h
  exact (readByte_fetched hx).earlier ((indexCycle_meets m s).1 _ u hu).1 (indexCycle_logGrows s m _ u hu)

end Sys2Proof.Machine

end

section
/-! PROOFS. Read-modify-write and test of a byte of memory (R63, R64, R199). -/

namespace Sys2Proof.Machine

/-- EA after reads. -/
theorem State.afterReads.ea {s t : State} (h : s.afterReads t) (m : Mem) : t.ea m = s.ea m := by
  rw [h]
  cases m <;> rfl

theorem State.afterReads.wf {s t : State} (h : s.afterReads t) (hm : s.mem.wf = true) : t.mem.wf = true :=
  (h.frame []).wf hm

theorem State.populated.afterReads {s t : State} (hp : s.populated) (h : s.afterReads t) : t.populated :=
  fun a => by rw [State.kindAt_congr h.platform]; exact hp a

/-- Stores, then new flags. -/
theorem State.afterStores.withCcr {s t : State} {addrs : List Word} (h : s.afterStores addrs t) (cc : Ccr) :
    { s with ccr := cc }.afterStores addrs { t with ccr := cc } := by
  obtain ⟨heq, helse, hrom, hwf⟩ := h
  refine ⟨?_, helse, hrom, hwf⟩
  rw [heq]

section Memory

variable {s : State} {m : Mem} {x : Byte} {u : State}

/-- Where MEM has something everywhere, the byte at EA can be read. -/
theorem readMem8_populated (hp : s.populated) (m : Mem) : ∃ x u, readMem8 m s = .ok x u := by
  obtain ⟨x, u, hread, _⟩ := Res.meets_populated (readMem8_meets m s) hp
  exact ⟨x, u, hread⟩

/-- From the byte read on: the result is stored at EA. -/
theorem memModify_stores (hp : s.populated) (hm : s.mem.wf = true) (f : Unary 8) (m : Mem) (x : Byte) :
    ∃ t, memModify f m x s = .next { t with ccr := (f x s.ccr).2 } ∧ s.logGrows t ∧
      s.stored t (s.ea m) (f x s.ccr).1 ∧ s.afterStores [s.ea m] t := by
  obtain ⟨_, v, hidle, hv, _⟩ := Res.meets_populated (idle_meets 1 s) hp
  obtain ⟨_, w, hwrite, hw⟩ := Res.meets_populated (writeByte_meets (s.ea m) (f x s.ccr).1 v) (hp.afterReads hv)
  have hlog := idle_logGrows s 1 _ v hidle
  refine ⟨w, ?_, hlog.trans (writeByte_logGrows hwrite), ?_, (hv.afterStores _).trans hw⟩
  · rw [memModify, hidle, Res.bind_ok, hwrite, Res.complete_ok]
  · exact (writeByte_stored (hv.wf hm) hwrite).earlier hv hlog

/-- A read-modify-write of the byte `x` at EA, where MEM has something everywhere (R63, R64). -/
theorem memUnary_computes (hp : s.populated) (hm : s.mem.wf = true) (f : Unary 8) (hread : readMem8 m s = .ok x u) :
    ∃ t, memUnary f m s = .next { t with ccr := (f x s.ccr).2 } ∧ s.fetched t (s.ea m) x ∧
      s.stored t (s.ea m) (f x s.ccr).1 ∧ s.afterStores [s.ea m] t := by
  have hu := ((readMem8_meets m s).1 x u hread).1
  have hlog := readMem8_logGrows s m x u hread
  obtain ⟨t, hexec, hut, hstored, ht⟩ := memModify_stores (hp.afterReads hu) (hu.wf hm) f m x
  rw [hu.ccr, hu.ea] at hstored
  rw [hu.ea] at ht
  rw [hu.ccr] at hexec
  refine ⟨t, ?_, (readMem8_fetched hread).later hut, hstored.earlier hu hlog, (hu.afterStores _).trans ht⟩
  rw [memUnary, hread, Res.andThen_ok, hexec]

/-- A device location sees one read and then one write, where no value-less read is performed (R63, R64). -/
theorem memUnary_device (f : Unary 8) (hd : s.platform.dummyReads = false) (hk : s.kindAt (s.ea m) = .device)
    (hread : readMem8 m s = .ok x u) {t : State} (ht : memUnary f m s = .next t) :
    s.accessesSince t = [.write (s.ea m) (f x s.ccr).1, .read (s.ea m) x] := by
  rw [memUnary, hread, Res.andThen_ok] at ht
  rw [readMem8, indexCycle_off hd, Res.bind_ok, readByte_device hk] at hread
  cases hread
  have hu : s.afterReads (s.deviceRead (s.ea m)) := rfl
  rw [memModify, idle_off (s := s.deviceRead _) hd, Res.bind_ok, hu.ea, writeByte_device (s := s.deviceRead _) _ hk,
    Res.complete_ok] at ht
  cases ht
  exact State.accessesSince_of_append rfl

/-- A test of the byte `x` at EA, where MEM has something everywhere (R199). -/
theorem memTest_computes (hp : s.populated) (f : Unary 8) (hread : readMem8 m s = .ok x u) :
    ∃ t, memTest f m s = .next { t with ccr := (f x s.ccr).2 } ∧ s.afterReads t ∧ s.fetched t (s.ea m) x := by
  have hu := ((readMem8_meets m s).1 x u hread).1
  obtain ⟨_, t, hidle, ht, _⟩ := Res.meets_populated (idle_meets 2 u) (hp.afterReads hu)
  have hst := hu.trans ht
  refine ⟨t, ?_, hst, (readMem8_fetched hread).later (idle_logGrows u 2 _ t hidle)⟩
  rw [memTest, hread, Res.bind_ok, hidle, Res.bind_ok, Res.complete_ok, hst.ccr]

end Memory

end Sys2Proof.Machine

end

section
/-! PROOFS. The obligations of 20_memory.md. -/

namespace Sys2Proof.Machine

/-- Settles O7: RAM keeps the byte written, and the write is the only store. -/
theorem readReturnsLatestWrite : Obligations.ReadReturnsLatestWrite := by
  intro s addr v hm h
  obtain ⟨t, hwrite, ht, hv⟩ := writeByte_ram_holds v hm h
  have hram : t.plain addr := .inl ((State.kindAt_congr ht.platform addr).trans h)
  refine ⟨t, hwrite, hv ▸ readByte_plain hram, fun other hne => ?_⟩
  exact ht.frame.elsewhere other (List.not_mem_cons_of_ne_of_not_mem hne List.not_mem_nil)

/-- Settles O8, by what MEM has at the address. -/
theorem accessFollowsTheMemoryMap : Obligations.AccessFollowsTheMemoryMap :=
  fun _ _ v => ⟨fun h => ⟨writeByte_rom v h, readByte_plain (.inr h)⟩,
    fun h => ⟨writeByte_device v h, _, readByte_device h⟩,
    fun h => ⟨writeByte_nothing v h, readByte_nothing h⟩⟩

/-- Settles O9: words in memory, then the order of the accesses to device locations. -/
theorem wordsMoveInTheOrderOfTheTables : Obligations.WordsMoveInTheOrderOfTheTables := by
  refine ⟨fun _ _ => readWord_plain, fun s addr v hm h0 h1 => ?_,
    fun _ _ v h0 h1 => ⟨readWord_device h0 h1, writeWord_device v h0 h1⟩,
    fun _ v => push16_device v, fun _ => pull16_device⟩
  obtain ⟨t, hwrite, ht, hhi, hlo⟩ := writeWord_ram_holds v hm h0 h1
  exact ⟨t, hwrite, hhi, hlo, fun a hne0 hne1 => ht.frame.elsewhere a <|
    List.not_mem_cons_of_ne_of_not_mem hne0 (List.not_mem_cons_of_ne_of_not_mem hne1 List.not_mem_nil)⟩

/-- Settles O13: an instruction stops where `exec_eq_fault` says, a step where every way it can go does. -/
theorem runsStopOnlyWhereSaid : Obligations.RunsStopOnlyWhereSaid :=
  ⟨fun i s => ⟨exec_ne_refused i s, fun _ => exec_eq_fault⟩,
    fun s => ⟨(step_stops s).not_refused, (step_stops s).fault⟩⟩

/-- Settles O14, by the frame of every instruction. -/
theorem instructionsStoreNowhereElse : Obligations.InstructionsStoreNowhereElse :=
  fun i s t hi h => ((exec_frame i s hi).1 t h).elsewhere

/-- Settles O31: every row of the table is one operation, applied to the byte read at EA. -/
theorem memoryInstructionsCompute : Obligations.MemoryInstructionsCompute := by
  intro s m hp hm
  obtain ⟨x, u, hread⟩ := readMem8_populated hp m
  refine ⟨x, fun row hrow => ?_, ?_⟩
  · obtain ⟨f, hf⟩ := oneOperandRows_applies hrow
    obtain ⟨t, hexec, hfetched, hstored, ht⟩ := memUnary_computes hp hm f hread
    have hdevice := fun hk hd => memUnary_device f hd hk hread hexec
    rw [← hf.onMem, hf.gives] at hexec
    rw [hf.gives] at hstored hdevice
    exact ⟨_, hexec, hfetched, hstored, ht.withCcr row.ccr, hdevice⟩
  · obtain ⟨t, hexec, ht, hfetched⟩ := memTest_computes hp tst8 hread
    exact ⟨t, ht, hfetched, hexec⟩

end Sys2Proof.Machine

end

section
/-! PROOFS. Every entry of the opcode maps makes instructions of their encodings (R80, R91 to R95). -/

namespace Sys2Proof

/-- `bytes` are the encoding of `i`, which is well-formed and not a second name of another instruction (R99). -/
structure Instr.EncodedAs (i : Instr) (bytes : List Byte) : Prop where
  wellFormed : i.wellFormed = true
  primary : i.primary = i
  encode_eq : encode i = bytes

/-! ### The addressing modes -/

/-- The bytes of an address operand, without the opcode (R85 to R88). -/
def Mem.operandBytes (m : Mem) : List Byte := encodeMem [] [] [] [] m

/-- The mode takes the bytes of the address it makes and leaves those after them, and that address is as `P` says. -/
def Makes (mode : MemMode) (P : Mem → Prop) : Prop :=
  ∀ bytes m rest, mode bytes = some (m, rest) → bytes = m.operandBytes ++ rest ∧ P m

section Modes

variable {P : Mem → Prop}

/-- A mode that takes one byte. -/
theorem makes_iff_of_byte {mode : MemMode} {g : Byte → Mem} (h0 : mode [] = none)
    (h1 : ∀ b rest, mode (b :: rest) = some (g b, rest)) (hg : ∀ b, (g b).operandBytes = [b]) :
    Makes mode P ↔ ∀ b, P (g b) := by
  refine ⟨fun h b => (h [b] _ [] (h1 b [])).2, fun h bytes m rest hm => ?_⟩
  cases bytes with
  | nil => simp [h0] at hm
  | cons b l =>
    cases (h1 b l).symm.trans hm
    exact ⟨by rw [hg]; rfl, h b⟩

theorem makes_dirMode : Makes dirMode P ↔ ∀ dd, P (.dir dd) :=
  makes_iff_of_byte rfl (fun _ _ => rfl) fun _ => rfl

theorem makes_extMode : Makes extMode P ↔ ∀ hhll, P (.ext hhll) := by
  refine ⟨fun h hhll => ?_, fun h => ?_⟩
  · exact (h [hiByte hhll, loByte hhll] _ [] (by simp only [extMode, joinBytes_hiByte_loByte])).2
  · rintro (_ | ⟨hh, _ | ⟨ll, l⟩⟩) m rest hm <;> cases hm
    exact ⟨by simp [Mem.operandBytes, encodeMem], h _⟩

theorem makes_indXMode : Makes indXMode P ↔ ∀ ff, P (.indX ff) :=
  makes_iff_of_byte rfl (fun _ _ => rfl) fun _ => rfl

theorem makes_indYMode : Makes indYMode P ↔ ∀ ff, P (.indY ff) :=
  makes_iff_of_byte rfl (fun _ _ => rfl) fun _ => rfl

end Modes

/-- An address operand, and an instruction made of what follows it. -/
theorem Makes.of_withMem {mode : MemMode} {P : Mem → Prop} (hm : Makes mode P) {bytes rest : List Byte}
    {k : Mem → List Byte → Decoded} {i : Instr} (h : withMem mode bytes k = .instr i rest) :
    ∃ m l, bytes = m.operandBytes ++ l ∧ P m ∧ k m l = .instr i rest := by
  unfold withMem at h
  split at h
  · next m l hmode =>
    obtain ⟨hbytes, hP⟩ := hm bytes m l hmode
    exact ⟨m, l, hbytes, hP, h⟩
  · cases h

/-! ### The entries of the opcode maps -/

/-- The opcode bytes that select an entry of a page (R81). -/
def Page.opcodeBytes (op : Byte) : Page → List Byte
  | .one => [op]
  | .two => [0x18, op]
  | .three => [0x1A, op]
  | .four => [0xCD, op]

/-- The instructions a slot makes have these opcode bytes, and after them the operand bytes in the order of the slot's
format (R91); a prebyte is the first of the opcode bytes of its page. -/
def Slot.EncodedAt (opcode : List Byte) : Slot → Prop
  | .undefined => True
  | .prebyte p => ∀ op, p.opcodeBytes op = opcode ++ [op]
  | .inh i => i.EncodedAs (opcode ++ [])
  | .imm8 f => ∀ ii, (f (.imm ii)).EncodedAs (opcode ++ [ii])
  | .imm16 f => ∀ jjkk, (f (.imm jjkk)).EncodedAs (opcode ++ [hiByte jjkk, loByte jjkk])
  | .opr8 mode f | .opr16 mode f => Makes mode fun m => (f (.mem m)).EncodedAs (opcode ++ m.operandBytes)
  | .mem mode f => Makes mode fun m => (f m).EncodedAs (opcode ++ m.operandBytes)
  | .rel f => ∀ rr, (f rr).EncodedAs (opcode ++ [rr])
  | .mask mode f => Makes mode fun m => ∀ mm, (f m mm).EncodedAs (opcode ++ (m.operandBytes ++ [mm]))
  | .maskRel mode f => Makes mode fun m => ∀ mm rr, (f m mm rr).EncodedAs (opcode ++ (m.operandBytes ++ [mm, rr]))

/-- The bytes a slot takes are the operand bytes of the instruction it makes of them. -/
theorem Slot.EncodedAt.of_operands {opcode : List Byte} {slot : Slot} (hs : slot.EncodedAt opcode) {p : Page}
    {op : Byte} {bytes rest : List Byte} {i : Instr} (h : slot.operands p op bytes = .instr i rest) :
    ∃ l, bytes = l ++ rest ∧ i.EncodedAs (opcode ++ l) := by
  cases slot with
  | undefined | prebyte _ => cases h
  | inh j =>
    cases h
    exact ⟨[], rfl, hs⟩
  | imm8 f | rel f =>
    match bytes with
    | [] => cases h
    | b :: l =>
      cases h
      exact ⟨[b], rfl, hs b⟩
  | imm16 f =>
    match bytes with
    | [] | [_] => cases h
    | jj :: kk :: l =>
      cases h
      have hjk := hs (joinBytes jj kk)
      rw [hiByte_joinBytes, loByte_joinBytes] at hjk
      exact ⟨[jj, kk], rfl, hjk⟩
  | opr8 mode f | opr16 mode f | mem mode f =>
    obtain ⟨m, l, rfl, hm, hk⟩ := Makes.of_withMem hs h
    cases hk
    exact ⟨m.operandBytes, rfl, hm⟩
  | mask mode f =>
    obtain ⟨m, l, rfl, hm, hk⟩ := Makes.of_withMem hs h
    match l with
    | [] => cases hk
    | mm :: l =>
      cases hk
      exact ⟨m.operandBytes ++ [mm], by simp, hm mm⟩
  | maskRel mode f =>
    obtain ⟨m, l, rfl, hm, hk⟩ := Makes.of_withMem hs h
    match l with
    | [] | [_] => cases hk
    | mm :: rr :: l =>
      cases hk
      exact ⟨m.operandBytes ++ [mm, rr], by simp, hm mm rr⟩

/-! ### The opcode maps -/

/-- The entries of a row of page 1 are those of the opcodes from `base` on (R92). -/
def RowEncodedFrom (base : Nat) (row : List Slot) : Prop :=
  ∀ e ∈ row.zipIdx base, e.1.EncodedAt (Page.one.opcodeBytes (BitVec.ofNat 8 e.2))

/-- Page 1, row by row (R92). -/
theorem page1_encodedAt : ∀ row ∈ page1Rows.zipIdx, RowEncodedFrom (16 * row.2) row.1 := by
  simp only [RowEncodedFrom, page1Rows, List.zipIdx_cons, List.zipIdx_nil, List.forall_mem_cons, List.not_mem_nil,
    false_implies, implies_true, and_true]
  simp only [page1Row0, page1Row1, page1Row2, page1Row3, page1Row4, page1Row5, page1Row6, page1Row7, page1Row8,
    page1Row9, page1RowA, page1RowB, page1RowC, page1RowD, page1RowE, page1RowF, List.zipIdx_cons, List.zipIdx_nil,
    List.forall_mem_cons, List.not_mem_nil, false_implies, implies_true, and_true]
  simp only [Slot.EncodedAt, makes_dirMode, makes_extMode, makes_indXMode, true_and]
  and_intros <;> intros <;> constructor <;> rfl

theorem page2_encodedAt : ∀ e ∈ page2Opcodes, e.2.EncodedAt (Page.two.opcodeBytes (BitVec.ofNat 8 e.1)) := by
  simp only [page2Opcodes, List.forall_mem_cons, List.not_mem_nil, false_implies, implies_true, and_true]
  simp only [Slot.EncodedAt, makes_dirMode, makes_extMode, makes_indYMode]
  and_intros <;> intros <;> constructor <;> rfl

theorem page3_encodedAt : ∀ e ∈ page3Opcodes, e.2.EncodedAt (Page.three.opcodeBytes (BitVec.ofNat 8 e.1)) := by
  simp only [page3Opcodes, List.forall_mem_cons, List.not_mem_nil, false_implies, implies_true, and_true]
  simp only [Slot.EncodedAt, makes_dirMode, makes_extMode, makes_indXMode]
  and_intros <;> intros <;> constructor <;> rfl

theorem page4_encodedAt : ∀ e ∈ page4Opcodes, e.2.EncodedAt (Page.four.opcodeBytes (BitVec.ofNat 8 e.1)) := by
  simp only [page4Opcodes, List.forall_mem_cons, List.not_mem_nil, false_implies, implies_true, and_true]
  simp only [Slot.EncodedAt, makes_indYMode]
  and_intros <;> intros <;> constructor <;> rfl

theorem lookupOpcode_encodedAt {opcodes : List (Nat × Slot)} {p : Page}
    (h : ∀ e ∈ opcodes, e.2.EncodedAt (p.opcodeBytes (BitVec.ofNat 8 e.1))) (op : Byte) :
    (lookupOpcode opcodes op).EncodedAt (p.opcodeBytes op) := by
  unfold lookupOpcode
  split
  · next e he =>
    have hop : e.1 = op.toNat := by simpa using List.find?_some he
    simpa [hop] using h e (List.mem_of_find?_eq_some he)
  · trivial

/-- What holds of every member of a list and its place there. -/
theorem getD_of_forall_mem_zipIdx {α : Type} {q : α → Nat → Prop} {l : List α} {k : Nat} {d : α}
    (h : ∀ e ∈ l.zipIdx k, q e.1 e.2) (hd : ∀ n, q d n) (n : Nat) : q (l.getD n d) (k + n) := by
  rw [List.getD_eq_getElem?_getD]
  cases hn : l[n]? with
  | none => exact hd _
  | some x => exact h (x, k + n) (List.mem_zipIdx_iff_le_and_getElem?_sub.mpr ⟨by simp, by simpa using hn⟩)

/-- An entry of the maps makes instructions of the encodings that start with its opcode bytes (R91 to R95). -/
theorem opcodeMap_encodedAt (p : Page) (op : Byte) : (opcodeMap p op).EncodedAt (p.opcodeBytes op) := by
  cases p with
  | one =>
    have hrow := getD_of_forall_mem_zipIdx (d := [])
      (q := fun row k => RowEncodedFrom (16 * k) row) page1_encodedAt (fun _ => nofun) (op.toNat / 16)
    have hslot := getD_of_forall_mem_zipIdx (d := Slot.undefined)
      (q := fun slot n => Slot.EncodedAt (Page.one.opcodeBytes (BitVec.ofNat 8 n)) slot) hrow (fun _ => trivial)
      (op.toNat % 16)
    rw [Nat.zero_add, Nat.div_add_mod, BitVec.ofNat_toNat, BitVec.setWidth_eq] at hslot
    exact hslot
  | two => exact lookupOpcode_encodedAt page2_encodedAt op
  | three => exact lookupOpcode_encodedAt page3_encodedAt op
  | four => exact lookupOpcode_encodedAt page4_encodedAt op

/-- Only page 1 has prebytes (R81, R102). -/
theorem eq_one_of_prebyte {p q : Page} {op : Byte} (h : opcodeMap p op = .prebyte q) : p = .one := by
  have hq := opcodeMap_encodedAt p op
  rw [h] at hq
  have hlen := congrArg List.length (hq op)
  cases p <;> cases q <;> cases hlen <;> rfl

theorem opcodeBytes_of_prebyte {b : Byte} {q : Page} (h : opcodeMap .one b = .prebyte q) (op : Byte) :
    q.opcodeBytes op = [b, op] := by
  have hq := opcodeMap_encodedAt .one b
  rw [h] at hq
  exact hq op

/-! ### The opcode bytes select the entry -/

/-- Opcode bytes and what follows them. -/
theorem decode_opcodeBytes {p : Page} {op : Byte} (h : ∀ q, opcodeMap p op ≠ .prebyte q) (l : List Byte) :
    decode (p.opcodeBytes op ++ l) = (opcodeMap p op).operands p op l := by
  cases p with
  | one => exact decode_of_opcode h l
  | two | three | four => exact decode_of_prebyte rfl op l

/-- All bytes that are not too short start with opcode bytes, a lone prebyte not being such (R102). -/
theorem exists_opcodeBytes {bytes : List Byte} (h : decode bytes ≠ .tooShort) :
    ∃ p op l, bytes = p.opcodeBytes op ++ l ∧ ∀ q, opcodeMap p op ≠ .prebyte q := by
  match bytes with
  | [] => exact absurd rfl h
  | b0 :: rest =>
    by_cases hpre : ∃ p, opcodeMap .one b0 = .prebyte p
    · obtain ⟨p, hp⟩ := hpre
      have hbytes := opcodeBytes_of_prebyte hp
      match rest with
      | [] => exact absurd (by simp only [decode, hp]) h
      | op :: l =>
        refine ⟨p, op, l, by rw [hbytes]; rfl, fun q hq => ?_⟩
        cases eq_one_of_prebyte hq
        cases hbytes op
    · exact ⟨.one, b0, rest, rfl, fun q hq => hpre ⟨q, hq⟩⟩

theorem operands_eq_undefined {slot : Slot} (h : ∀ q, slot ≠ .prebyte q) {p p' : Page} {op op' : Byte}
    {l : List Byte} : slot.operands p op l = .undefined p' op' ↔ slot = .undefined ∧ p = p' ∧ op = op' := by
  cases slot with
  | undefined => simp [Slot.operands]
  | prebyte q => exact absurd rfl (h q)
  | inh j => simp [Slot.operands]
  | imm8 f | rel f | imm16 f =>
    simp only [Slot.operands, reduceCtorEq, false_and, iff_false]
    split <;> simp
  | opr8 mode f | opr16 mode f | mem mode f =>
    simp only [Slot.operands, reduceCtorEq, false_and, iff_false, withMem]
    split <;> simp
  | mask mode f | maskRel mode f =>
    simp only [Slot.operands, reduceCtorEq, false_and, iff_false, withMem]
    split
    · split <;> simp
    · simp

/-- Bytes that select no instruction are the opcode bytes of an undefined opcode and what follows them (R96, R102). -/
theorem decode_eq_undefined {bytes : List Byte} {p : Page} {op : Byte} :
    decode bytes = .undefined p op ↔ opcodeMap p op = .undefined ∧ ∃ l, bytes = p.opcodeBytes op ++ l := by
  constructor
  · intro h
    obtain ⟨p', op', l, rfl, hpre⟩ := exists_opcodeBytes (bytes := bytes) (by simp [h])
    rw [decode_opcodeBytes hpre, operands_eq_undefined hpre] at h
    obtain ⟨hslot, rfl, rfl⟩ := h
    exact ⟨hslot, l, rfl⟩
  · rintro ⟨hslot, l, rfl⟩
    rw [decode_opcodeBytes (by simp [hslot]), hslot]
    rfl

theorem decode_opcodeBytes_undefined {p : Page} {op : Byte} (l : List Byte) :
    decode (p.opcodeBytes op ++ l) = .undefined p op ↔ opcodeMap p op = .undefined :=
  decode_eq_undefined.trans (and_iff_left ⟨l, rfl⟩)

/-- Bytes that decode to an instruction are its encoding and what follows it. -/
theorem encodedAs_of_decode {bytes rest : List Byte} {i : Instr} (h : decode bytes = .instr i rest) :
    ∃ l, bytes = l ++ rest ∧ i.EncodedAs l := by
  obtain ⟨p, op, l, rfl, hpre⟩ := exists_opcodeBytes (bytes := bytes) (by simp [h])
  rw [decode_opcodeBytes hpre] at h
  obtain ⟨l', rfl, hi⟩ := (opcodeMap_encodedAt p op).of_operands h
  exact ⟨p.opcodeBytes op ++ l', (List.append_assoc _ _ _).symm, hi⟩

end Sys2Proof

end

section
/-! PROOFS. The undefined opcodes of the four pages (R96). -/

namespace Sys2Proof

open Machine

/-- An entry of the maps that is undefined (R96). -/
def Slot.isUndefined : Slot → Bool
  | .undefined => true
  | _ => false

theorem Slot.isUndefined_iff {slot : Slot} : slot.isUndefined = true ↔ slot = .undefined := by
  cases slot <;> simp [isUndefined]

/-- Page 1, opcode by opcode. -/
theorem page1_isUndefined : ∀ b : Byte, (opcodeMap .one b).isUndefined = decide (b ∈ undefinedOnPage1) := by
  decide

theorem page1_undefined_iff {b : Byte} : opcodeMap .one b = .undefined ↔ b ∈ undefinedOnPage1 := by
  rw [← Slot.isUndefined_iff, page1_isUndefined, decide_eq_true_iff]

theorem toNat_mem_map {op : Byte} {l : List Byte} : op.toNat ∈ l.map BitVec.toNat ↔ op ∈ l :=
  List.mem_map_of_injective fun _ _ => BitVec.eq_of_toNat_eq

/-- A page after a prebyte has nothing at the opcodes its table does not list. -/
theorem lookupOpcode_eq_undefined {opcodes : List (Nat × Slot)} (h : ∀ e ∈ opcodes, e.2 ≠ .undefined)
    {listed : List Byte} (hl : opcodes.map Prod.fst = listed.map BitVec.toNat) {op : Byte} :
    lookupOpcode opcodes op = .undefined ↔ op ∉ listed := by
  rw [← toNat_mem_map, ← hl]
  unfold lookupOpcode
  split
  · next e he =>
    have hmem := List.mem_of_find?_eq_some he
    have hop : e.1 = op.toNat := by simpa using List.find?_some he
    exact iff_of_false (h e hmem) (not_not.mpr (hop ▸ List.mem_map_of_mem hmem))
  · next hnone =>
    refine iff_of_true rfl fun hmem => ?_
    obtain ⟨e, he, hop⟩ := List.mem_map.mp hmem
    exact List.find?_eq_none.mp hnone e he (by simpa using hop)

theorem page2_undefined_iff {op : Byte} : opcodeMap .two op = .undefined ↔ op ∉ definedOnPage2 := by
  have hdefined : ∀ e ∈ page2Opcodes, e.2 ≠ .undefined := by
    simp only [page2Opcodes, List.forall_mem_cons, List.not_mem_nil, false_implies, implies_true, ne_eq, reduceCtorEq,
      not_false_eq_true, and_self]
  exact lookupOpcode_eq_undefined hdefined rfl

theorem page3_undefined_iff {op : Byte} : opcodeMap .three op = .undefined ↔ op ∉ definedOnPage3 :=
  lookupOpcode_eq_undefined (by simp [page3Opcodes]) rfl

theorem page4_undefined_iff {op : Byte} : opcodeMap .four op = .undefined ↔ op ∉ definedOnPage4 :=
  lookupOpcode_eq_undefined (by simp [page4Opcodes]) rfl

end Sys2Proof

end

section
/-! PROOFS. The encoder's bytes decode (R99, R102). -/

namespace Sys2Proof

open Machine

/-- A second name has the encoding of the primary instruction (R99). -/
theorem encode_primary (i : Instr) : encode i.primary = encode i := by
  cases i <;> rfl

/-- A second name does what the primary instruction does (R99). -/
theorem exec_primary (i : Instr) (s : State) : exec i.primary s = exec i s := by
  cases i <;> rfl

/-- The decoder puts a word together from the two bytes the encoder takes it apart into (R84, R86). -/
theorem eq_of_joinBytes {α : Type} {x : α} {f : Word → α} (w : Word) (h : x = f (joinBytes (hiByte w) (loByte w))) :
    x = f w := by
  rwa [joinBytes_hiByte_loByte] at h

/-- The decoder reads a well-formed instruction back from its encoding, form by form; what follows it is left. -/
theorem decode_encode {i : Instr} (hi : i.wellFormed = true) (rest : List Byte) :
    decode (encode i ++ rest) = .instr i.primary rest := by
  cases i with
  | ldaa o | ldab o | adca o | adcb o | adda o | addb o | cmpa o | cmpb o | sbca o | sbcb o | suba o | subb o | anda o
  | andb o | bita o | bitb o | eora o | eorb o | oraa o | orab o => cases o with
    | imm _ => rfl
    | mem m => cases m with
      | ext hhll => apply eq_of_joinBytes hhll; rfl
      | dir _ | indX _ | indY _ => rfl
  | ldd o | lds o | ldx o | ldy o | addd o | cpd o | cpx o | cpy o | subd o => cases o with
    | imm jjkk => apply eq_of_joinBytes jjkk; rfl
    | mem m => cases m with
      | ext hhll => apply eq_of_joinBytes hhll; rfl
      | dir _ | indX _ | indY _ => rfl
  | staa m | stab m | std m | sts m | stx m | sty m | jsr m => cases m with
    | ext hhll => apply eq_of_joinBytes hhll; rfl
    | dir _ | indX _ | indY _ => rfl
  | neg m | com m | lsr m | ror m | asr m | asl m | lsl m | rol m | dec m | inc m | tst m | jmp m
  | clr m => cases m with
    | ext hhll => apply eq_of_joinBytes hhll; rfl
    | indX _ | indY _ => rfl
    | dir _ => cases hi
  | bset m _ | bclr m _ | brset m _ _ | brclr m _ _ => cases m with
    | dir _ | indX _ | indY _ => rfl
    | ext _ => cases hi
  | _ => rfl

end Sys2Proof

end

section
/-! PROOFS. Taking an exception: the frame on the stack and the vector (R336 to R340, R342). -/

namespace Sys2Proof.Machine

/-! ### Bytes stored and fetched, seen from an earlier and from a later state -/

section Log

variable {s t u : State} {addr : Word} {x : Byte}

/-- A byte stored stays so while its address is not stored to. -/
theorem State.stored.later (h : s.stored t addr x) (hb : u.byteAt addr = t.byteAt addr) (ht : t.logGrows u) :
    s.stored u addr x := by
  unfold State.stored at *
  rw [hb]
  revert h
  cases s.kindAt addr with
  | device => exact fun h => State.accessesSince_subset_later ht h
  | ram | rom | nothing => exact id

/-- A byte stored, seen from a state before it. -/
theorem State.stored.since (h : t.stored u addr x) (hst : s.sameRom t) (hlog : s.logGrows t) :
    s.stored u addr x := by
  obtain ⟨hplatform, hrom⟩ := hst
  unfold State.stored at *
  rw [State.kindAt_congr hplatform] at h
  cases hk : s.kindAt addr with
  | ram => simpa only [hk] using h
  | rom => simpa only [hk, hrom addr (by simp [hk])] using h
  | device => simp only [hk] at h ⊢; exact State.accessesSince_subset_earlier hlog h
  | nothing => simp only [hk] at h

/-- A byte fetched after the last store, seen from a state before the stores. -/
theorem State.fetched.last (h : t.fetched u addr x) (hst : s.sameRom t) (hb : u.byteAt addr = t.byteAt addr)
    (hlog : s.logGrows t) : s.fetchedLast u addr x := by
  unfold State.fetched at h
  unfold State.fetchedLast
  rw [State.kindAt_congr hst.1] at h
  rw [hb]
  revert h
  cases s.kindAt addr with
  | device => exact fun h => State.accessesSince_subset_earlier hlog h
  | ram | rom | nothing => exact id

/-- The two bytes of a word are fetched, the high-order byte at the lower address (R52). -/
theorem readWord_fetched {w : Word} (h : readWord addr s = .ok w t) :
    s.logGrows t ∧ s.fetched t addr (hiByte w) ∧ s.fetched t (addr + 1) (loByte w) := by
  obtain ⟨hi, u, hu, h⟩ := Res.bind_eq_ok.mp h
  obtain ⟨lo, v, hv, h⟩ := Res.bind_eq_ok.mp h
  cases h
  have hsu := ((readByte_meets addr s).1 hi u hu).1
  have hlog := readByte_logGrows hv
  rw [hiByte_joinBytes, loByte_joinBytes]
  exact ⟨(readByte_logGrows hu).trans hlog, (readByte_fetched hu).later hlog,
    (readByte_fetched hv).earlier hsu (readByte_logGrows hu)⟩

end Log

/-! ### The frame (R337) -/

/-- `t` is `s` with these bytes pushed, the first of them at the address SP had. -/
structure State.Pushed (s : State) (bytes : List Byte) (t : State) : Prop where
  registers : t = { s with sp := s.sp - BitVec.ofNat 16 bytes.length, mem := t.mem, draws := t.draws,
                           deviceLog := t.deviceLog }
  sameRom : s.sameRom t
  wf : t.mem.wf = true
  logGrows : s.logGrows t
  stored : ∀ (k : Nat) (hk : k < bytes.length), s.stored t (s.sp - BitVec.ofNat 16 k) bytes[k]

section Stack

variable {s t u : State} {bytes : List Byte}

theorem State.Pushed.refl (hm : s.mem.wf = true) : s.Pushed [] s where
  registers := by simp
  sameRom := ⟨rfl, fun _ _ => rfl⟩
  wf := hm
  logGrows := List.suffix_rfl
  stored _ hk := absurd hk (Nat.not_lt_zero _)

theorem push8_stored {x : Byte} (hm : t.mem.wf = true) (h : push8 x t = .ok () u) :
    t.logGrows u ∧ t.stored u t.sp x := by
  obtain ⟨⟨⟩, w, hw, hwu⟩ := Res.bind_eq_ok.mp h
  cases hwu
  exact ⟨(writeByte_logGrows hw : t.logGrows w), (writeByte_stored hm hw : t.stored w t.sp x)⟩

/-- The addresses of fewer than 2^16 bytes pushed one after the other are different. -/
theorem pushed_ne {sp : Word} {k n : Nat} (hk : k < n) (hn : n < 65536) :
    sp - BitVec.ofNat 16 k ≠ sp - BitVec.ofNat 16 n := by
  intro h
  have hmod := congrArg BitVec.toNat ((BitVec.sub_right_inj sp).mp h)
  simp only [BitVec.toNat_ofNat] at hmod
  omega

theorem push8_pushed (h : s.Pushed bytes t) (hlen : bytes.length < 65536) {x : Byte} (hp : push8 x t = .ok () u) :
    s.Pushed (bytes ++ [x]) u := by
  have hsp : t.sp = s.sp - BitVec.ofNat 16 bytes.length := by rw [h.registers]
  have hu := (push8_meets x t).1 () u hp
  obtain ⟨hlog, hstored⟩ := push8_stored h.wf hp
  have hframe := hu.frame.of_sp
  refine ⟨?_, h.sameRom.trans hframe.sameRom, hframe.wf h.wf, h.logGrows.trans hlog, fun k hk => ?_⟩
  · have hsp' : s.sp - BitVec.ofNat 16 (bytes ++ [x]).length = t.sp - 1 := by
      rw [hsp, BitVec.sub_sub, List.length_append, BitVec.ofNat_add]; rfl
    rw [hsp', hu.1, h.registers]
  · rw [List.length_append, List.length_singleton, Nat.lt_succ_iff_lt_or_eq] at hk
    rcases hk with hlt | rfl
    · have hne := pushed_ne (sp := s.sp) hlt hlen
      rw [← hsp] at hne
      rw [List.getElem_append_left hlt]
      exact (h.stored k hlt).later (hframe.elsewhere _ (by simpa using hne)) hlog
    · rw [List.getElem_concat_length rfl, ← hsp]
      exact hstored.since h.sameRom h.logGrows

theorem push16_pushed (h : s.Pushed bytes t) (hlen : bytes.length < 65535) {x : Word} (hp : push16 x t = .ok () u) :
    s.Pushed (bytes ++ [loByte x, hiByte x]) u := by
  obtain ⟨⟨⟩, v, hlo, hhi⟩ := Res.bind_eq_ok.mp hp
  have hv := push8_pushed h (by omega) hlo
  simpa using push8_pushed hv (by simp; omega) hhi

theorem State.Pushed.a (h : s.Pushed bytes t) : t.a = s.a := by rw [h.registers]
theorem State.Pushed.b (h : s.Pushed bytes t) : t.b = s.b := by rw [h.registers]
theorem State.Pushed.ix (h : s.Pushed bytes t) : t.ix = s.ix := by rw [h.registers]
theorem State.Pushed.iy (h : s.Pushed bytes t) : t.iy = s.iy := by rw [h.registers]
theorem State.Pushed.ccr (h : s.Pushed bytes t) : t.ccr = s.ccr := by rw [h.registers]

/-- Stacking the frame pushes its nine bytes (R337). -/
theorem stackFrame_pushed (hm : s.mem.wf = true) {ret : Word} (h : stackFrame ret s = .ok () u) :
    s.Pushed (s.frameBytes ret) u := by
  obtain ⟨⟨⟩, s₁, h₁, h⟩ := Res.bind_eq_ok.mp h
  obtain ⟨⟨⟩, s₂, h₂, h⟩ := Res.bind_eq_ok.mp h
  obtain ⟨⟨⟩, s₃, h₃, h⟩ := Res.bind_eq_ok.mp h
  obtain ⟨⟨⟩, s₄, h₄, h⟩ := Res.bind_eq_ok.mp h
  obtain ⟨⟨⟩, s₅, h₅, h₆⟩ := Res.bind_eq_ok.mp h
  have p₁ := push16_pushed (.refl hm) (by simp) h₁
  have p₂ := push16_pushed p₁ (by simp) h₂
  have p₃ := push16_pushed p₂ (by simp) h₃
  have p₄ := push8_pushed p₃ (by simp) h₄
  have p₅ := push8_pushed p₄ (by simp) h₅
  have p₆ := push8_pushed p₅ (by simp) h₆
  rwa [p₁.iy, p₂.ix, p₃.a, p₄.b, p₅.ccr] at p₆

theorem State.frameAddresses_eq (s : State) :
    s.frameAddresses = (List.range 9).map fun k => s.sp - BitVec.ofNat 16 k := by
  simp [State.frameAddresses, List.range_succ]

theorem State.Pushed.frameStored {ret : Word} (h : s.Pushed (s.frameBytes ret) t) : s.frameStored t ret := by
  intro e he
  obtain ⟨k, hk, rfl⟩ := List.mem_iff_getElem.mp he
  rw [List.length_zip, Nat.lt_min] at hk
  simpa [State.frameAddresses_eq] using h.stored k hk.2

end Stack

/-! ### The entry -/

section Entry

variable {e : Event} {s t : State}

/-- Going through a vector reads it, and stores nothing. -/
theorem fetchVector_fetched (h : fetchVector e s = .ok () t) :
    s.logGrows t ∧ (∀ a, t.byteAt a = s.byteAt a) ∧ s.fetched t (e.vector s.platform) (hiByte t.pc) ∧
      s.fetched t (e.vector s.platform + 1) (loByte t.pc) := by
  obtain ⟨w, u, hread, h⟩ := Res.bind_eq_ok.mp h
  cases h
  obtain ⟨hlog, hhi, hlo⟩ := readWord_fetched hread
  exact ⟨hlog, ((readWord_meets _ s).1 w u hread).1.byteAt, hhi, hlo⟩

/-- Between the frame and the vector an entry only reads. -/
theorem takeException_stages (h : takeException e s = .ok () t) :
    ∃ u v, stackFrame (e.returnAddress s) s = .ok () u ∧ u.afterReads v ∧ u.logGrows v ∧
      fetchVector e v = .ok () t := by
  obtain ⟨⟨⟩, u, hu, h⟩ := Res.bind_eq_ok.mp h
  obtain ⟨⟨⟩, v, hv, h⟩ := Res.bind_eq_ok.mp h
  refine ⟨u, v, hu, ?_, ?_, h⟩ <;> split at hv
  · exact ((valueless_meets _ u).1 _ v hv).1
  · cases hv; exact .refl u
  · exact valueless_logGrows u _ _ v hv
  · cases hv; exact List.suffix_rfl

/-- Where MEM has something everywhere, taking an exception enters the handler of its vector (R336 to R340, R342). -/
theorem takeException_entered (e : Event) (hp : s.populated) (hm : s.mem.wf = true) :
    ∃ t, takeException e s = .ok () t ∧ s.entered t (e.returnAddress s) (e.vector s.platform) e.setsX := by
  obtain ⟨⟨⟩, t, ht, handler, w, hw, htw⟩ := Res.meets_populated (takeException_meets e s) hp
  obtain ⟨u, v, hu, huv, hlog, hv⟩ := takeException_stages ht
  have hpushed := stackFrame_pushed hm hu
  have hsv : s.sameRom v := hpushed.sameRom.trans (huv.frame []).sameRom
  have hvec : e.vector v.platform = e.vector s.platform := by rw [hsv.1]
  obtain ⟨hvt, hbytes, hhi, hlo⟩ := fetchVector_fetched hv
  rw [hvec] at hhi hlo
  have hlogv := hpushed.logGrows.trans hlog
  refine ⟨t, ht, fun f hf => ?_, ?_, hhi.last hsv (hbytes _) hlogv, hlo.last hsv (hbytes _) hlogv⟩
  · exact (hpushed.frameStored f hf).later ((hbytes f.1).trans (huv.byteAt f.1)) (hlog.trans hvt)
  · obtain ⟨heq, hstores⟩ := hw
    refine ⟨?_, ?_⟩
    · rw [htw, heq]
    · rw [htw]; exact hstores

end Entry

end Sys2Proof.Machine

end

section
/-! PROOFS. Fetching an undefined opcode from RAM or ROM, and what the step makes of it (R97, R102, R340). -/

namespace Sys2Proof.Machine

section Undefined

variable {s : State} {start : Word} {bytes : List Byte} {p : Page} {op : Byte}

/-- RAM or ROM that holds bytes holds those they start with. -/
theorem State.hasCode.of_append {l : List Byte} (h : s.hasCode start (bytes ++ l)) : s.hasCode start bytes :=
  fun k b hb => h k b (List.getElem?_append_left (List.getElem?_eq_some_iff.mp hb).1 ▸ hb)

/-- The byte that makes the opcode undefined is the last the fetch takes. -/
theorem fetchMore_undefined {k fuel : Nat} (hc : s.hasCode start bytes) (hk : bytes.length = k + 1) (o : Option Byte)
    (hd : decode bytes = .undefined p op) :
    fetchMore (fuel + 1) (bytes.take k) o (s.fetchedTo start k) = .ok none (s.fetchedTo start (k + 1)) := by
  have hb := List.getElem?_eq_getElem (l := bytes) (i := k) (by omega)
  have ht : bytes.take k ++ [bytes[k]] = bytes := by rw [List.take_append_getElem, ← hk, List.take_length]
  rw [fetchMore, fetch8_code hc hb, Res.bind_ok]
  simp only [ht, hd]

/-- The fetch of an undefined opcode takes its opcode bytes and no more (R102). -/
theorem fetchInstr_undefined (hc : s.hasCode s.pc bytes) (hd : decode bytes = .undefined p op) :
    ∃ n, fetchInstr s = .ok none (s.fetchedTo s.pc n) := by
  obtain ⟨hslot, l, rfl⟩ := decode_eq_undefined.mp hd
  have hop : decode (p.opcodeBytes op) = .undefined p op := decode_eq_undefined.mpr ⟨hslot, [], by simp⟩
  have hs : s.fetchedTo s.pc 0 = s := by simp [State.fetchedTo]
  have hcode := hc.of_append
  cases p with
  | one =>
    have hlast := fetchMore_undefined (k := 0) (fuel := 4) hcode rfl none hop
    rw [hs] at hlast
    exact ⟨1, hlast⟩
  | two | three | four =>
    have hmore := fetchMore_more (k := 0) (fuel := 4) hcode (Nat.zero_lt_succ _) none rfl rfl
    have hlast := fetchMore_undefined (k := 1) (fuel := 3) hcode rfl none hop
    rw [hs] at hmore
    exact ⟨2, hmore.trans hlast⟩

/-- Executing an undefined opcode raises the illegal-opcode event with the address of its first byte (R97). -/
theorem executeNext_undefined (hc : s.hasCode s.pc bytes) (hd : decode bytes = .undefined p op) :
    ∃ n, executeNext s = illegalOpcode s.pc (s.fetchedTo s.pc n) := by
  obtain ⟨n, hf⟩ := fetchInstr_undefined hc hd
  exact ⟨n, by rw [executeNext, hf]⟩

end Undefined

end Sys2Proof.Machine

end

section
/-! PROOFS. Addresses as numbers (R85, R87, R88, R56). -/

namespace Sys2Proof

/-- The direct page starts at address 0 (R85). -/
theorem toNat_joinBytes_zero (b : Byte) : (joinBytes 0x00 b).toNat = b.toNat := by
  calc (joinBytes 0x00 b).toNat = (0x00#8).toNat <<< 8 ||| b.toNat := BitVec.toNat_append 0x00#8 b
    _ = b.toNat := by simp

/-- An unsigned offset, modulo 2^16 (R87, R88, R56). -/
theorem toNat_add_byte (x : Word) (b : Byte) : (x + b.setWidth 16).toNat = (x.toNat + b.toNat) % 65536 := by
  have hb : (b.setWidth 16).toNat = b.toNat := BitVec.toNat_setWidth_of_le (by decide)
  rw [BitVec.toNat_add, hb]

end Sys2Proof

end

section
/-! PROOFS. The obligations of 30_encoding.md. -/

namespace Sys2Proof.Machine

/-- Settles O1: every form of every instruction decodes from its encoding, and neither the encoder nor `exec` tells a
second name from the primary instruction. -/
theorem decodeReadsWhatEncodeWrites : Obligations.DecodeReadsWhatEncodeWrites :=
  fun i rest hi => ⟨decode_encode hi rest, (encode_primary i).symm, fun s => (exec_primary i s).symm⟩

/-- Settles O2: every entry of the opcode maps makes instructions of their encodings. -/
theorem decodedBytesAreItsEncoding : Obligations.DecodedBytesAreItsEncoding := by
  intro bytes rest i h
  obtain ⟨l, rfl, hi⟩ := encodedAs_of_decode h
  exact ⟨hi.wellFormed, hi.primary, by rw [hi.encode_eq]⟩

/-- Settles O3: opcode bytes are undefined where the map of their page is, and that is outside the tables. -/
theorem undefinedOpcodesAreTheListed : Obligations.UndefinedOpcodesAreTheListed :=
  ⟨fun b rest => (decode_opcodeBytes_undefined (p := .one) (op := b) rest).trans page1_undefined_iff,
    fun op rest => (decode_opcodeBytes_undefined (p := .two) (op := op) rest).trans page2_undefined_iff,
    fun op rest => (decode_opcodeBytes_undefined (p := .three) (op := op) rest).trans page3_undefined_iff,
    fun op rest => (decode_opcodeBytes_undefined (p := .four) (op := op) rest).trans page4_undefined_iff,
    rfl, rfl, rfl, rfl⟩

/-- Settles O6: the fetch stops at the opcode bytes, and the illegal-opcode event goes as ILLOP_POLICY says. -/
theorem undefinedOpcodeStopsOrTraps : Obligations.UndefinedOpcodeStopsOrTraps := by
  intro s n p op hu hplain hd
  obtain ⟨k, hexec⟩ := executeNext_undefined (State.hasCode_codeBytes hplain) hd
  rw [step_undisturbed hu, hexec]
  refine ⟨fun hfault => illegalOpcode_eq_fault.mpr (.inl ⟨hfault, rfl⟩), fun htrap hp hm => ?_⟩
  obtain ⟨t, ht, hentered⟩ := takeException_entered (s := s.fetchedTo s.pc k) (.illegal s.pc) hp hm
  exact ⟨t, illegalOpcode_eq_next.mpr ⟨htrap, ht⟩, hentered⟩

/-- Settles O4, by running the decoder. -/
theorem sampleWordsDecode : Obligations.SampleWordsDecode := by
  unfold Obligations.SampleWordsDecode
  decide

/-- Settles O11: DIR is page 0, an indexed offset is unsigned. -/
theorem effectiveAddresses : Obligations.EffectiveAddresses :=
  fun s b _ => ⟨toNat_joinBytes_zero b, rfl, toNat_add_byte s.ix b, toNat_add_byte s.iy b⟩

end Sys2Proof.Machine

end

section
/-! PROOFS. Source operands (R105), inherent instructions by what they make of the state, and the CCR as a number. -/

namespace Sys2Proof.Machine

/-! ### Source operands -/

section Operands

variable {s t : State}

theorem operand8_fetched {o : Opr8} {v : Byte} (h : operand8 o s = .ok v t) : s.operandIs8 t o v := by
  cases o with
  | imm ii => cases h; rfl
  | mem m => exact readMem8_fetched h

theorem operand16_fetched {o : Opr16} {v : Word} (h : operand16 o s = .ok v t) : s.operandIs16 t o v := by
  cases o with
  | imm jjkk => cases h; rfl
  | mem m =>
    obtain ⟨_, u, hu, hread⟩ := Res.bind_eq_ok.mp h
    have hst := ((indexCycle_meets m s).1 _ u hu).1
    have hlog := indexCycle_logGrows s m _ u hu
    obtain ⟨_, hhi, hlo⟩ := readWord_fetched hread
    exact ⟨hhi.earlier hst hlog, hlo.earlier hst hlog⟩

/-- Where MEM has something everywhere, the 8-bit operand can be read. -/
theorem operand8_populated (hp : s.populated) (o : Opr8) :
    ∃ v t, operand8 o s = .ok v t ∧ s.afterReads t ∧ s.operandIs8 t o v := by
  obtain ⟨v, t, hread, ht⟩ := Res.meets_populated (operand8_meets o s) hp
  exact ⟨v, t, hread, ht, operand8_fetched hread⟩

/-- Where MEM has something everywhere, the 16-bit operand can be read. -/
theorem operand16_populated (hp : s.populated) (o : Opr16) :
    ∃ v t, operand16 o s = .ok v t ∧ s.afterReads t ∧ s.operandIs16 t o v := by
  obtain ⟨v, t, hread, ht⟩ := Res.meets_populated (operand16_meets o s) hp
  exact ⟨v, t, hread, ht, operand16_fetched hread⟩

end Operands

/-! ### Inherent instructions -/

section Inherent

variable {s : State} {i : Instr}

/-- An instruction that reads and then updates the state, where MEM has something everywhere: the update may be stated
of the registers before the reads, which change the draws and the device log alone. -/
theorem State.gives_of_meets {f g : State → State} (hp : s.populated)
    (h : Meets (exec i s) s.platform fun t => ∃ u, s.afterReads u ∧ t = f u)
    (hfg : ∀ n log, f { s with draws := n, deviceLog := log } = g { s with draws := n, deviceLog := log }) :
    s.gives i g := by
  obtain ⟨_, hexec, u, hu, rfl⟩ := h.populated hp
  have hgu := hfg u.draws u.deviceLog
  rw [← hu] at hgu
  exact ⟨u, hu, hgu ▸ hexec⟩

theorem accUnary_meets (f : Unary 8) (r : Acc) (s : State) :
    Meets (accUnary f r s) s.platform fun t => ∃ u, s.afterReads u ∧
      t = { u.setAcc r (f (u.acc r) u.ccr).1 with ccr := (f (u.acc r) u.ccr).2 } :=
  inherent_meets _ s

/-- An operation on an accumulator, where MEM has something everywhere. -/
theorem accUnary_gives {f : Unary 8} {r : Acc} {v : Byte} {cc : Ccr} (hp : s.populated)
    (hi : exec i s = accUnary f r s) (hf : f (s.acc r) s.ccr = (v, cc)) :
    s.gives i fun t => { t.setAcc r v with ccr := cc } := by
  refine State.gives_of_meets hp (hi ▸ accUnary_meets f r s) fun n log => ?_
  have hacc : State.acc { s with draws := n, deviceLog := log } r = s.acc r := by cases r <;> rfl
  simp only [hacc, hf]

end Inherent

/-! ### The CCR as a byte -/

/-- S is the highest bit, C the lowest (R28). -/
theorem Ccr.toByte_eq_ofNat (cc : Ccr) : cc.toByte = BitVec.ofNat 8 (128 * cc.s.toNat + 64 * cc.x.toNat +
    32 * cc.h.toNat + 16 * cc.i.toNat + 8 * cc.n.toNat + 4 * cc.z.toNat + 2 * cc.v.toNat + cc.c.toNat) := by
  rcases cc with ⟨s, x, h, i, n, z, v, c⟩
  revert s x h i n z v c
  decide

end Sys2Proof.Machine

end

section
/-! PROOFS. Loads, stores, pushes and pulls (R120 to R131, R142 to R149). -/

namespace Sys2Proof.Machine

/-! ### Loads -/

section Loads

variable {s t : State}

theorem loadAcc_of_operand8 {o : Opr8} {v : Byte} (r : Acc) (h : operand8 o s = .ok v t) :
    loadAcc r o s = .next { t.setAcc r v with ccr := s.ccr.afterData v } := by
  rw [loadAcc, h, Res.complete_ok, ((operand8_meets o s).1 v t h).ccr]
  rfl

theorem loadReg_of_operand16 {o : Opr16} {v : Word} (r : Reg16) (h : operand16 o s = .ok v t) :
    loadReg r o s = .next { t.setReg r v with ccr := s.ccr.afterData v } := by
  rw [loadReg, h, Res.complete_ok, ((operand16_meets o s).1 v t h).ccr]
  rfl

end Loads

/-! ### Stores -/

section Stores

variable {s t : State}

/-- A write of two bytes leaves the high-order byte at the lower address (R52). -/
theorem writeWord_stored {addr v : Word} (hm : s.mem.wf = true) (h : writeWord addr v s = .ok () t) :
    s.stored t addr (hiByte v) ∧ s.stored t (addr + 1) (loByte v) := by
  obtain ⟨⟨⟩, u, hhi, hlo⟩ := Res.bind_eq_ok.mp h
  have hu := ((writeByte_meets addr (hiByte v) s).1 () u hhi).frame
  have ht := ((writeByte_meets (addr + 1) (loByte v) u).1 () t hlo).frame
  have hne : addr ∉ [addr + 1] := by
    rw [List.mem_singleton]; bv_omega
  exact ⟨(writeByte_stored hm hhi).later (ht.elsewhere addr hne) (writeByte_logGrows hlo),
    (writeByte_stored (hu.wf hm) hlo).since hu.sameRom (writeByte_logGrows hhi)⟩

/-- An accumulator stored at EA, where MEM has something everywhere (R126, R127). -/
theorem storeAcc_stores (hp : s.populated) (hm : s.mem.wf = true) (r : Acc) (m : Mem) :
    ∃ t, storeAcc r m s = .next t ∧ { s with ccr := s.ccr.afterData (s.acc r) }.afterStores [s.ea m] t ∧
      s.stored t (s.ea m) (s.acc r) := by
  obtain ⟨_, u, hcycle, hu, _⟩ := Res.meets_populated (indexCycle_meets m s) hp
  obtain ⟨_, t, hwrite, ht⟩ := Res.meets_populated (writeByte_meets (s.ea m) (s.acc r) u) (hp.afterReads hu)
  have hst := (hu.afterStores _).trans ht
  have hccr : t.ccr = s.ccr := by rw [hst.1]
  refine ⟨{ t with ccr := s.ccr.afterData (s.acc r) }, ?_, hst.withCcr _, ?_⟩
  · rw [storeAcc, hcycle, Res.bind_ok, hwrite, Res.complete_ok, hccr]
    rfl
  · exact (writeByte_stored (hu.wf hm) hwrite).earlier hu (indexCycle_logGrows s m _ u hcycle)

/-- A 16-bit register stored at EA, where MEM has something everywhere (R128 to R131). -/
theorem storeReg_stores (hp : s.populated) (hm : s.mem.wf = true) (r : Reg16) (m : Mem) :
    ∃ t, storeReg r m s = .next t ∧
      { s with ccr := s.ccr.afterData (s.reg r) }.afterStores [s.ea m, s.ea m + 1] t ∧
      s.stored t (s.ea m) (hiByte (s.reg r)) ∧ s.stored t (s.ea m + 1) (loByte (s.reg r)) := by
  obtain ⟨_, u, hcycle, hu, _⟩ := Res.meets_populated (indexCycle_meets m s) hp
  obtain ⟨_, t, hwrite, ht⟩ := Res.meets_populated (writeWord_meets (s.ea m) (s.reg r) u) (hp.afterReads hu)
  have hst := (hu.afterStores _).trans ht
  have hccr : t.ccr = s.ccr := by rw [hst.1]
  have hlog := indexCycle_logGrows s m _ u hcycle
  obtain ⟨hhi, hlo⟩ := writeWord_stored (hu.wf hm) hwrite
  refine ⟨{ t with ccr := s.ccr.afterData (s.reg r) }, ?_, hst.withCcr _, hhi.earlier hu hlog, hlo.earlier hu hlog⟩
  rw [storeReg, hcycle, Res.bind_ok, hwrite, Res.complete_ok, hccr]
  rfl

end Stores

/-! ### Pushes -/

section Pushes

variable {s t u : State}

theorem State.afterReads.sp (h : s.afterReads t) : t.sp = s.sp := by
  rw [h]

/-- Bytes pushed after reads. -/
theorem State.Pushed.stored_earlier {bytes : List Byte} (h : t.Pushed bytes u) (hst : s.afterReads t)
    (hlog : s.logGrows t) (k : Nat) (hk : k < bytes.length) : s.stored u (s.sp - BitVec.ofNat 16 k) bytes[k] :=
  hst.sp ▸ (h.stored k hk).earlier hst hlog

/-- An accumulator pushed, where MEM has something everywhere (R142, R143). -/
theorem pushAcc_stores (hp : s.populated) (hm : s.mem.wf = true) (r : Acc) :
    ∃ t, pushAcc r s = .next t ∧ { s with sp := s.sp - 1 }.afterStores [s.sp] t ∧ s.stored t s.sp (s.acc r) := by
  obtain ⟨t, hexec, ht⟩ := (pushAcc_meets r s).populated hp
  obtain ⟨_, u, hlook, hpush⟩ := Res.bind_eq_ok.mp (Res.finish_eq_next.mp hexec)
  have hu := ((lookAhead_meets s).1 _ u hlook).1
  have hstored := (push8_stored (hu.wf hm) hpush).2.earlier hu (valueless_logGrows s s.pc _ u hlook)
  rw [hu.sp] at hstored
  exact ⟨t, hexec, ht, hstored⟩

/-- A 16-bit register pushed, where MEM has something everywhere (R144, R145). -/
theorem pushReg_stores (hp : s.populated) (hm : s.mem.wf = true) (r : Reg16) :
    ∃ t, pushReg r s = .next t ∧ { s with sp := s.sp - 2 }.afterStores [s.sp, s.sp - 1] t ∧
      s.stored t s.sp (loByte (s.reg r)) ∧ s.stored t (s.sp - 1) (hiByte (s.reg r)) := by
  obtain ⟨t, hexec, ht⟩ := (pushReg_meets r s).populated hp
  obtain ⟨_, u, hlook, hpush⟩ := Res.bind_eq_ok.mp (Res.finish_eq_next.mp hexec)
  have hu := ((lookAhead_meets s).1 _ u hlook).1
  have hpushed := push16_pushed (.refl (hu.wf hm)) (by simp) hpush
  have hstored := hpushed.stored_earlier hu (valueless_logGrows s s.pc _ u hlook)
  exact ⟨t, hexec, ht, by simpa using hstored 0 (by simp), hstored 1 (by simp)⟩

end Pushes

/-! ### Pulls -/

section Pulls

variable {s t u : State}

/-- Reads after a change of SP are reads before it. -/
theorem State.afterReads.before_sp {p : Word} (h : { s with sp := p }.afterReads u) :
    ∃ t, s.afterReads t ∧ u = { t with sp := p } :=
  ⟨{ s with draws := u.draws, deviceLog := u.deviceLog }, rfl, h⟩

theorem stackCycle_logGrows (s : State) : (stackCycle s).All s.logGrows :=
  (valueless_logGrows s s.pc).bind_logGrows fun _ u => valueless_logGrows u u.sp

theorem pull8_fetched {v : Byte} (h : pull8 s = .ok v t) : s.logGrows t ∧ s.fetched t (s.sp + 1) v :=
  ⟨(readByte_logGrows h : State.logGrows { s with sp := s.sp + 1 } t),
    (readByte_fetched h : State.fetched { s with sp := s.sp + 1 } t (s.sp + 1) v)⟩

/-- A pull of a word takes the high-order byte at the lower address (R53). -/
theorem pull16_fetched {v : Word} (h : pull16 s = .ok v t) :
    s.fetched t (s.sp + 1) (hiByte v) ∧ s.fetched t (s.sp + 2) (loByte v) := by
  obtain ⟨hi, u, hu, h⟩ := Res.bind_eq_ok.mp h
  obtain ⟨lo, w, hw, h⟩ := Res.bind_eq_ok.mp h
  cases h
  obtain ⟨hlog, hhi⟩ := pull8_fetched hu
  obtain ⟨hlog', hlo⟩ := pull8_fetched hw
  have hsu := ((pull8_meets s).1 hi u hu).1
  have hsp : u.sp + 1 = s.sp + 2 := by
    rw [hsu.sp, BitVec.add_assoc]; rfl
  rw [hsp] at hlo
  rw [hiByte_joinBytes, loByte_joinBytes]
  exact ⟨hhi.later hlog', (hlo.earlier hsu hlog : State.fetched { s with sp := s.sp + 1 } _ _ _)⟩

/-- What PULA and PULB do before they write their accumulator, where MEM has something everywhere (R146, R147). -/
theorem stackCycle_pull8 (hp : s.populated) : ∃ v t, s.afterReads t ∧ s.fetched t (s.sp + 1) v ∧
    ((stackCycle s).bind fun _ u => pull8 u) = .ok v { t with sp := s.sp + 1 } := by
  obtain ⟨_, u, hcycle, hu, _⟩ := Res.meets_populated (stackCycle_meets s) hp
  obtain ⟨v, w, hpull, hw, _⟩ := Res.meets_populated (pull8_meets u) (hp.afterReads hu)
  have hfetched := (pull8_fetched hpull).2.earlier hu (stackCycle_logGrows s _ u hcycle)
  rw [hu.sp] at hw hfetched
  obtain ⟨t, ht, rfl⟩ := hw.before_sp
  exact ⟨v, t, hu.trans ht, hfetched, by rw [hcycle, Res.bind_ok, hpull]⟩

/-- What PULX and PULY do before they write their register, where MEM has something everywhere (R148, R149). -/
theorem stackCycle_pull16 (hp : s.populated) : ∃ v t, s.afterReads t ∧ s.fetched t (s.sp + 1) (hiByte v) ∧
    s.fetched t (s.sp + 2) (loByte v) ∧
    ((stackCycle s).bind fun _ u => pull16 u) = .ok v { t with sp := s.sp + 2 } := by
  obtain ⟨_, u, hcycle, hu, _⟩ := Res.meets_populated (stackCycle_meets s) hp
  obtain ⟨v, w, hpull, hw, _⟩ := Res.meets_populated (pull16_meets u) (hp.afterReads hu)
  have hlog := stackCycle_logGrows s _ u hcycle
  obtain ⟨hhi, hlo⟩ := pull16_fetched hpull
  rw [hu.sp] at hw hhi hlo
  obtain ⟨t, ht, rfl⟩ := hw.before_sp
  exact ⟨v, t, hu.trans ht, hhi.earlier hu hlog, hlo.earlier hu hlog, by rw [hcycle, Res.bind_ok, hpull]⟩

theorem pullAcc_of_pull8 {v : Byte} (r : Acc) (h : ((stackCycle s).bind fun _ u => pull8 u) = .ok v t) :
    pullAcc r s = .next (t.setAcc r v) := by
  rw [pullAcc, h, Res.complete_ok]

theorem pullReg_of_pull16 {v : Word} (r : Reg16) (h : ((stackCycle s).bind fun _ u => pull16 u) = .ok v t) :
    pullReg r s = .next (t.setReg r v) := by
  rw [pullReg, h, Res.complete_ok]

end Pulls

end Sys2Proof.Machine

end

section
/-! PROOFS. The obligations of 40_load_store_stack.md. -/

namespace Sys2Proof.Machine

/-- Settles O19: a load writes the operand read, whatever register takes it. -/
theorem loadsTakeTheirOperand : Obligations.LoadsTakeTheirOperand := by
  refine fun s hp => ⟨fun o => ?_, fun o => ?_⟩
  · obtain ⟨v, t, hread, ht, hv⟩ := operand8_populated hp o
    exact ⟨v, t, ht, hv, loadAcc_of_operand8 .a hread, loadAcc_of_operand8 .b hread⟩
  · obtain ⟨v, t, hread, ht, hv⟩ := operand16_populated hp o
    exact ⟨v, t, ht, hv, loadReg_of_operand16 .d hread, loadReg_of_operand16 .s hread,
      loadReg_of_operand16 .x hread, loadReg_of_operand16 .y hread⟩

/-- Settles O20: an instruction for each register, all of them one of two shapes of store. -/
theorem storesPutTheirRegister : Obligations.StoresPutTheirRegister := by
  intro s m hp hm
  simp only [List.forall_mem_cons, List.not_mem_nil, false_implies, implies_true, and_true]
  exact ⟨⟨storeAcc_stores hp hm .a m, storeAcc_stores hp hm .b m⟩, storeReg_stores hp hm .d m,
    storeReg_stores hp hm .s m, storeReg_stores hp hm .x m, storeReg_stores hp hm .y m⟩

/-- Settles O23: two shapes of push, two of pull. -/
theorem pushesAndPullsUseTheStack : Obligations.PushesAndPullsUseTheStack := by
  intro s hp hm
  simp only [List.forall_mem_cons, List.not_mem_nil, false_implies, implies_true, and_true]
  refine ⟨⟨pushAcc_stores hp hm .a, pushAcc_stores hp hm .b⟩,
    ⟨pushReg_stores hp hm .x, pushReg_stores hp hm .y⟩, ?_, ?_⟩
  · obtain ⟨v, t, ht, hv, hpull⟩ := stackCycle_pull8 hp
    exact ⟨v, t, ht, hv, pullAcc_of_pull8 .a hpull, pullAcc_of_pull8 .b hpull⟩
  · obtain ⟨v, t, ht, hhi, hlo, hpull⟩ := stackCycle_pull16 hp
    refine ⟨hiByte v, loByte v, t, ht, hhi, hlo, ?_⟩
    rw [joinBytes_hiByte_loByte]
    exact ⟨pullReg_of_pull16 .x hpull, pullReg_of_pull16 .y hpull⟩

/-- Settles O30: every row of the table is one operation, applied to an accumulator; TST writes its operand back. -/
theorem accumulatorInstructionsCompute : Obligations.AccumulatorInstructionsCompute := by
  refine fun s hp => ⟨fun row hrow => ?_, fun row hrow => ?_, ?_, ?_⟩
  · obtain ⟨f, hf⟩ := oneOperandRows_applies hrow
    exact accUnary_gives hp (hf.onA s) hf.gives
  · obtain ⟨f, hf⟩ := oneOperandRows_applies hrow
    exact accUnary_gives hp (hf.onB s) hf.gives
  · exact State.gives_of_meets hp (inherent_meets _ s) fun _ _ => rfl
  · exact State.gives_of_meets hp (inherent_meets _ s) fun _ _ => rfl

/-- Settles O21: what each instruction does after its bus cycles. -/
theorem transfersMoveRegisters : Obligations.TransfersMoveRegisters :=
  fun s hp => ⟨State.gives_of_meets hp (inherent_meets _ s) fun _ _ => rfl,
    State.gives_of_meets hp (inherent_meets _ s) fun _ _ => rfl,
    State.gives_of_meets hp (inherentStack_meets _ s) fun _ _ => rfl,
    State.gives_of_meets hp (inherentStack_meets _ s) fun _ _ => rfl,
    State.gives_of_meets hp (inherentIdle_meets 1 _ s) fun _ _ => rfl,
    State.gives_of_meets hp (inherentIdle_meets 1 _ s) fun _ _ => rfl,
    State.gives_of_meets hp (inherentIdle_meets 1 _ s) fun _ _ => rfl,
    State.gives_of_meets hp (inherentIdle_meets 1 _ s) fun _ _ => rfl⟩

/-- Settles O22: TAP is a load of the CCR, TPA its byte. -/
theorem tapAndTpaMoveTheCcr : Obligations.TapAndTpaMoveTheCcr := by
  intro s hp
  rw [← Ccr.toByte_eq_ofNat]
  exact ⟨State.gives_of_meets hp (inherent_meets _ s) fun _ _ => rfl,
    State.gives_of_meets hp (inherent_meets _ s) fun _ _ => rfl⟩

end Sys2Proof.Machine

end

section
/-! PROOFS. Instructions of a register and an operand (R163 to R173, R194 to R198, R220 to R227), and inherent
instructions in the state their bus reads leave. -/

namespace Sys2Proof.Machine

/-! ### Bytes: the results of the table -/

theorem add8_eq (c : Bool) (x m : Byte) (cc : Ccr) :
    add8 c x m cc = (BitVec.ofNat 8 (x.toNat + m.toNat + c.toNat), cc.afterAdd8 x m c) :=
  Prod.ext (BitVec.eq_of_toNat_eq (add8_toNat x m c)) (add8_ccr c x m cc)

theorem sub8_eq (c : Bool) (x m : Byte) (cc : Ccr) :
    sub8 c x m cc = (BitVec.ofNat 8 (x.toNat + 512 - m.toNat - c.toNat), cc.afterSub8 x m c) :=
  Prod.ext (BitVec.eq_of_toNat_eq (sub8_toNat x m c)) (sub8_ccr c x m cc)

/-- Without a borrow-in one multiple of 2^8 keeps the difference above zero. -/
theorem sub8_false_eq (x m : Byte) (cc : Ccr) :
    sub8 false x m cc = (BitVec.ofNat 8 (x.toNat + 256 - m.toNat), cc.afterSub8 x m false) := by
  refine (sub8_eq false x m cc).trans (Prod.ext ?_ rfl)
  simp only [Bool.toNat_false]
  bv_omega

/-- A compare or bit test as an operation that gives its register operand back. -/
def discardResult (f : Binary 8) : Binary 8 := fun x m cc => (x, (f x m cc).2)

theorem State.setAcc_acc (s : State) (r : Acc) : s.setAcc r (s.acc r) = s := by
  cases r <;> rfl

theorem accTest_eq_accBinary (f : Binary 8) (r : Acc) (o : Opr8) :
    accTest f r o = accBinary (discardResult f) r o := by
  funext s
  simp only [accTest, accBinary, discardResult, State.setAcc_acc]

/-- The row's instructions apply `f` to their accumulator and the operand, and `f` gives the row's result and CCR. -/
structure TwoOperand.Applies (row : TwoOperand) (f : Binary 8) (x m : Byte) (cc : Ccr) : Prop where
  onA : ∀ o, exec (row.onA o) = accBinary f .a o
  onB : ∀ o, exec (row.onB o) = accBinary f .b o
  gives : f x m cc = (row.result, row.ccr)

/-- Every row is that of one operation of the model. -/
theorem twoOperandRows_applies {x m : Byte} {cc : Ccr} {row : TwoOperand} (h : row ∈ twoOperandRows x m cc) :
    ∃ f, row.Applies f x m cc := by
  simp only [twoOperandRows, List.mem_cons, List.not_mem_nil, or_false] at h
  rcases h with rfl | rfl | rfl | rfl | rfl | rfl | rfl | rfl | rfl
  · exact ⟨add8 false, fun _ => rfl, fun _ => rfl, add8_eq false x m cc⟩
  · exact ⟨adc8, fun _ => rfl, fun _ => rfl, add8_eq cc.c x m cc⟩
  · exact ⟨sub8 false, fun _ => rfl, fun _ => rfl, sub8_false_eq x m cc⟩
  · exact ⟨sbc8, fun _ => rfl, fun _ => rfl, sub8_eq cc.c x m cc⟩
  · exact ⟨discardResult (sub8 false), accTest_eq_accBinary _ .a, accTest_eq_accBinary _ .b,
      Prod.ext rfl (sub8_ccr false x m cc)⟩
  · exact ⟨and8, fun _ => rfl, fun _ => rfl, rfl⟩
  · exact ⟨discardResult and8, accTest_eq_accBinary _ .a, accTest_eq_accBinary _ .b, rfl⟩
  · exact ⟨eor8, fun _ => rfl, fun _ => rfl, rfl⟩
  · exact ⟨ora8, fun _ => rfl, fun _ => rfl, rfl⟩

/-! ### An accumulator or a 16-bit register, and an operand that was read -/

section Operands

variable {s t : State}

theorem State.afterReads.acc (h : s.afterReads t) (r : Acc) : t.acc r = s.acc r := by
  rw [h]
  cases r <;> rfl

theorem State.afterReads.reg (h : s.afterReads t) (r : Reg16) : t.reg r = s.reg r := by
  rw [h]
  cases r <;> rfl

theorem accBinary_of_operand8 {f : Binary 8} {r : Acc} {o : Opr8} {m v : Byte} {cc : Ccr}
    (h : operand8 o s = .ok m t) (hf : f (s.acc r) m s.ccr = (v, cc)) :
    accBinary f r o s = .next { t.setAcc r v with ccr := cc } := by
  have ht := (operand8_meets o s).1 m t h
  rw [accBinary, h, Res.complete_ok, ht.acc, ht.ccr, hf]

/-- Writing D writes A and B (R23). -/
theorem regBinary_d_of_operateOperand16 {f : Binary 16} {o : Opr16} {m v : Word} {cc : Ccr}
    (h : operateOperand16 o s = .ok m t) (hf : f s.d m s.ccr = (v, cc)) :
    regBinary f .d o s = .next { t with a := hiByte v, b := loByte v, ccr := cc } := by
  have ht := (operateOperand16_meets o s).1 m t h
  rw [regBinary, h, Res.complete_ok, ht.reg, ht.ccr, State.reg, hf]
  rfl

theorem regTest_of_operateOperand16 {f : Binary 16} {r : Reg16} {o : Opr16} {m : Word} {cc : Ccr}
    (h : operateOperand16 o s = .ok m t) (hf : (f (s.reg r) m s.ccr).2 = cc) :
    regTest f r o s = .next { t with ccr := cc } := by
  have ht := (operateOperand16_meets o s).1 m t h
  rw [regTest, h, Res.complete_ok, ht.reg, ht.ccr, hf]

/-- Later accesses do not change which operand was read. -/
theorem State.operandIs16.later {u : State} {o : Opr16} {m : Word} (h : s.operandIs16 t o m) (hlog : t.logGrows u) :
    s.operandIs16 u o m := by
  cases o with
  | imm jjkk => exact h
  | mem a =>
    obtain ⟨hhi, hlo⟩ := h
    exact ⟨hhi.later hlog, hlo.later hlog⟩

/-- Where MEM has something everywhere, the 16-bit operand can be read and the internal cycle after it performed. -/
theorem operateOperand16_populated (hp : s.populated) (o : Opr16) :
    ∃ m t, operateOperand16 o s = .ok m t ∧ s.afterReads t ∧ s.operandIs16 t o m := by
  obtain ⟨m, u, hread, hu, hm⟩ := operand16_populated hp o
  obtain ⟨_, t, hidle, ht, _⟩ := Res.meets_populated (idle_meets 1 u) (hp.afterReads hu)
  refine ⟨m, t, ?_, hu.trans ht, hm.later (idle_logGrows u 1 _ t hidle)⟩
  rw [operateOperand16, hread, Res.bind_ok, hidle, Res.bind_ok]

end Operands

/-! ### Words: sums, differences and steps as numbers -/

theorem add16_eq (x m : Word) (cc : Ccr) :
    add16 x m cc = (BitVec.ofNat 16 (x.toNat + m.toNat), cc.afterAdd16 x m) :=
  Prod.ext (BitVec.eq_of_toNat_eq (BitVec.toNat_add x m)) (add16_ccr x m cc)

theorem sub16_eq (x m : Word) (cc : Ccr) :
    sub16 x m cc = (BitVec.ofNat 16 (x.toNat + 65536 - m.toNat), cc.afterSub16 x m) :=
  Prod.ext (BitVec.eq_of_toNat_eq ((sub16_toNat x m).trans (BitVec.toNat_ofNat _ 16).symm)) (sub16_ccr x m cc)

theorem add_byte_eq (x : Word) (b : Byte) : x + b.setWidth 16 = BitVec.ofNat 16 (x.toNat + b.toNat) :=
  BitVec.eq_of_toNat_eq (toNat_add_byte x b)

/-- Z after a step up: only $FFFF wraps to zero (R187, R188). -/
theorem zOnly_increment (cc : Ccr) (x : Word) : cc.zOnly (x + 1) = { cc with z := decide (x = 0xFFFF) } := by
  have hz : (x + 1 == 0) = decide (x = 0xFFFF) := by
    rw [beq_eq_decide_toNat, decide_eq_decide]; bv_omega
  rw [Ccr.zOnly, hz]

/-- Z after a step down (R179, R180). -/
theorem zOnly_decrement (cc : Ccr) (x : Word) : cc.zOnly (x - 1) = { cc with z := decide (x = 1) } := by
  have hz : (x - 1 == 0) = decide (x = 1) := by
    rw [beq_eq_decide_toNat, decide_eq_decide]; bv_omega
  rw [Ccr.zOnly, hz]

/-! ### Inherent instructions -/

/-- An instruction that reads and then updates the state, where MEM has something everywhere: the reads change the
draws and the device log alone. -/
theorem exec_of_meets {s : State} {i : Instr} {f : State → State} (hp : s.populated)
    (h : Meets (exec i s) s.platform fun t => ∃ u, s.afterReads u ∧ t = f u) :
    ∃ n log, exec i s = .next (f { s with draws := n, deviceLog := log }) := by
  obtain ⟨_, hexec, u, hu, rfl⟩ := h.populated hp
  rw [hu] at hexec
  exact ⟨u.draws, u.deviceLog, hexec⟩

end Sys2Proof.Machine

end

section
/-! PROOFS. MUL, IDIV and FDIV as numbers (R181, R182, R189). -/

namespace Sys2Proof.Machine

/-! ### MUL -/

/-- Two bytes have a product of 16 bits. -/
theorem toNat_mul_bytes (x m : Byte) : (x.setWidth 16 * m.setWidth 16).toNat = x.toNat * m.toNat := by
  have hx : (x.setWidth 16).toNat = x.toNat := BitVec.toNat_setWidth_of_le (by decide)
  have hm : (m.setWidth 16).toNat = m.toNat := BitVec.toNat_setWidth_of_le (by decide)
  have hlt : x.toNat * m.toNat < 2 ^ 8 * 2 ^ 8 := Nat.mul_lt_mul'' x.isLt m.isLt
  rw [BitVec.toNat_mul, hx, hm]
  exact Nat.mod_eq_of_lt hlt

theorem joinBytes_multiply (s : State) :
    (joinBytes (multiply s).a (multiply s).b).toNat = s.a.toNat * s.b.toNat := by
  simp only [multiply, State.setD, joinBytes_hiByte_loByte, toNat_mul_bytes]

theorem multiply_ccr (s : State) :
    (multiply s).ccr = { s.ccr with c := decide (s.a.toNat * s.b.toNat / 128 % 2 = 1) } := by
  have hbit : (s.a.setWidth 16 * s.b.setWidth 16).getLsbD 7 = decide (s.a.toNat * s.b.toNat / 128 % 2 = 1) := by
    rw [BitVec.getLsbD, toNat_mul_bytes, Nat.testBit_eq_decide_div_mod_eq]
  simp only [multiply, hbit]

/-! ### The divides -/

/-- `u` differs from a state after reads from `s` in D, IX and the CCR alone. -/
def State.Divides (s u : State) : Prop :=
  ∃ t, s.afterReads t ∧ u = { t with a := u.a, b := u.b, ix := u.ix, ccr := u.ccr }

theorem divideGives_divides (quotient remainder : Nat) (s : State) : s.Divides (divideGives quotient remainder s) :=
  ⟨s, rfl, rfl⟩

theorem divideFails_divides (v c : Bool) (s : State) : s.Divides (divideFails v c s) :=
  ⟨s.drawn, rfl, rfl⟩

/-- `u` has the quotient of `n` by the IX of `s` in IX and the remainder in D, V and C cleared, Z that of the
quotient. -/
def State.Quotient (s : State) (n : Nat) (u : State) : Prop :=
  n = u.ix.toNat * s.ix.toNat + (joinBytes u.a u.b).toNat ∧ (joinBytes u.a u.b).toNat < s.ix.toNat ∧
    u.ccr = { s.ccr with z := decide (u.ix = 0), v := false, c := false }

/-- `u` has $FFFF in IX, Z clear, V and C as given. -/
def State.NoQuotient (s : State) (v c : Bool) (u : State) : Prop :=
  u.ix = 0xFFFF ∧ u.ccr = { s.ccr with z := false, v := v, c := c }

theorem divideFails_noQuotient (v c : Bool) (s : State) : s.NoQuotient v c (divideFails v c s) := ⟨rfl, rfl⟩

/-- A quotient of 16 bits is left in full. -/
theorem divideGives_quotient {s : State} {n : Nat} (hix : s.ix ≠ 0) (hq : n / s.ix.toNat < 65536) :
    s.Quotient n (divideGives (n / s.ix.toNat) (n % s.ix.toNat) s) := by
  have hpos : 0 < s.ix.toNat := Nat.pos_of_ne_zero fun h => hix (BitVec.eq_of_toNat_eq h)
  have hr : n % s.ix.toNat < s.ix.toNat := Nat.mod_lt n hpos
  have hix16 : (BitVec.ofNat 16 (n / s.ix.toNat)).toNat = n / s.ix.toNat := Nat.mod_eq_of_lt hq
  have hd16 : (BitVec.ofNat 16 (n % s.ix.toNat)).toNat = n % s.ix.toNat :=
    Nat.mod_eq_of_lt (hr.trans s.ix.isLt)
  refine ⟨?_, ?_, rfl⟩ <;> simp only [divideGives, State.setD, joinBytes_hiByte_loByte, hix16, hd16]
  · exact (Nat.div_add_mod' n s.ix.toNat).symm
  · exact hr

/-- IDIV by the divisor: a quotient of a 16-bit dividend has 16 bits (R182). -/
theorem integerDivide_spec (s : State) : s.Divides (integerDivide s) ∧
    (s.ix ≠ 0 → s.Quotient s.d.toNat (integerDivide s)) ∧ (s.ix = 0 → s.NoQuotient false true (integerDivide s)) := by
  unfold integerDivide
  split
  case isTrue hix =>
    exact ⟨divideFails_divides _ _ s, fun h => absurd hix h, fun _ => divideFails_noQuotient _ _ s⟩
  case isFalse hix =>
    have hq : s.d.toNat / s.ix.toNat < 65536 := (Nat.div_le_self _ _).trans_lt s.d.isLt
    exact ⟨divideGives_divides _ _ s, fun _ => divideGives_quotient hix hq, fun h => absurd h hix⟩

/-- FDIV by the divisor: below it, the dividend times 2^16 has a quotient of 16 bits (R181). -/
theorem fractionalDivide_spec (s : State) : s.Divides (fractionalDivide s) ∧
    (s.d.toNat < s.ix.toNat → s.Quotient (s.d.toNat * 65536) (fractionalDivide s)) ∧
    (s.ix.toNat ≤ s.d.toNat → s.NoQuotient true (decide (s.ix = 0)) (fractionalDivide s)) := by
  unfold fractionalDivide
  split
  case isTrue hix =>
    rw [decide_eq_true hix]
    exact ⟨divideFails_divides _ _ s, fun h => by simp [hix] at h, fun _ => divideFails_noQuotient _ _ s⟩
  case isFalse hix =>
    rw [decide_eq_false hix]
    split
    case isTrue hle =>
      exact ⟨divideFails_divides _ _ s, fun h => absurd hle (Nat.not_le.mpr h), fun _ => divideFails_noQuotient _ _ s⟩
    case isFalse hle =>
      refine ⟨divideGives_divides _ _ s, fun h => divideGives_quotient hix ?_, fun h => absurd h hle⟩
      exact Nat.div_lt_of_lt_mul (Nat.mul_lt_mul_of_pos_right h (by decide))

end Sys2Proof.Machine

end

section
/-! PROOFS. Decimal adjust (R174): the table's rows exclude each other, and cover every sum of two binary-coded-decimal
bytes. -/

namespace Sys2Proof.Machine

/-! ### The table -/

theorem DaaRow.applies_iff {row : DaaRow} {a : Byte} {cc : Ccr} : row.applies a cc = true ↔
    row.cBefore = cc.c ∧ row.hiFrom ≤ a.toNat / 16 ∧ a.toNat / 16 ≤ row.hiTo ∧
      row.h = cc.h ∧ row.loFrom ≤ a.toNat % 16 ∧ a.toNat % 16 ≤ row.loTo := by
  simp only [DaaRow.applies, Bool.and_eq_true, beq_iff_eq, decide_eq_true_eq, and_assoc]

/-- Two rows differ in C, in H, or have disjoint ranges of a digit. -/
def DaaRow.Excludes (row other : DaaRow) : Prop :=
  row.cBefore ≠ other.cBefore ∨ row.h ≠ other.h ∨ row.hiTo < other.hiFrom ∨ other.hiTo < row.hiFrom ∨
    row.loTo < other.loFrom ∨ other.loTo < row.loFrom

theorem daaTable_excludes : ∀ row ∈ daaTable, ∀ other ∈ daaTable, row = other ∨ row.Excludes other := by
  unfold DaaRow.Excludes
  decide

/-- A row that applies is the row DAA takes. -/
theorem daaRow_eq_some {row : DaaRow} {a : Byte} {cc : Ccr} (hrow : row ∈ daaTable) (h : row.applies a cc = true) :
    daaRow a cc = some row := by
  have hsome : (daaRow a cc).isSome := List.find?_isSome.mpr ⟨row, hrow, h⟩
  obtain ⟨found, hfound⟩ := Option.isSome_iff_exists.mp hsome
  have hfits := List.find?_some hfound
  rcases daaTable_excludes row hrow found (List.mem_of_find?_eq_some hfound) with rfl | hexcl
  · exact hfound
  · obtain ⟨hc, hhiFrom, hhiTo, hh, hloFrom, hloTo⟩ := DaaRow.applies_iff.mp h
    obtain ⟨hc', hhiFrom', hhiTo', hh', hloFrom', hloTo'⟩ := DaaRow.applies_iff.mp hfits
    rcases hexcl with hne | hne | hlt
    · exact absurd (hc.trans hc'.symm) hne
    · exact absurd (hh.trans hh'.symm) hne
    · omega

/-! ### The instruction -/

section Daa

variable {s : State}

theorem decimalAdjust_of_row {row : DaaRow} (h : daaRow s.a s.ccr = some row) :
    decimalAdjust s = { s.drawn with
      a := s.a + row.added, ccr := { s.ccr.nz (s.a + row.added) with c := row.cAfter, v := s.unspecBit } } := by
  simp only [decimalAdjust, h]

theorem decimalAdjust_of_no_row (h : daaRow s.a s.ccr = none) :
    decimalAdjust s = { s.drawn.drawn.drawn with
      a := s.unspec8
      ccr := { s.ccr.nz s.unspec8 with c := s.drawn.unspecBit, v := s.drawn.drawn.unspecBit } } := by
  simp only [decimalAdjust, h]

/-- DAA on inputs of a row of its table. -/
theorem daa_gives_of_row (hp : s.populated) {row : DaaRow} (h : daaRow s.a s.ccr = some row) :
    let r := s.a + row.added
    ∃ v, s.gives .daa fun t => { t with
      a := r, ccr := { s.ccr with n := r.msb, z := decide (r = 0), v := v, c := row.cAfter } } := by
  obtain ⟨n, log, hexec⟩ := exec_of_meets (i := .daa) hp (inherent_meets decimalAdjust s)
  rw [decimalAdjust_of_row (s := { s with draws := n, deviceLog := log }) h] at hexec
  exact ⟨_, { s with draws := n + 1, deviceLog := log }, rfl, hexec⟩

/-- DAA on inputs of no row of its table (D22). -/
theorem daa_gives_of_no_row (hp : s.populated) (h : daaRow s.a s.ccr = none) :
    ∃ r v c, s.gives .daa fun t => { t with
      a := r, ccr := { s.ccr with n := r.msb, z := decide (r = 0), v := v, c := c } } := by
  obtain ⟨n, log, hexec⟩ := exec_of_meets (i := .daa) hp (inherent_meets decimalAdjust s)
  rw [decimalAdjust_of_no_row (s := { s with draws := n, deviceLog := log }) h] at hexec
  exact ⟨_, _, _, { s with draws := n + 3, deviceLog := log }, rfl, hexec⟩

end Daa

/-! ### Sums of binary-coded-decimal bytes -/

/-- The row is the one for digits that add up to `hi` and, with the carry-in, `lo`, and it makes their sum decimal. -/
def DaaRow.Adjusts (row : DaaRow) (hi lo : Nat) : Prop :=
  let binary := 16 * hi + lo
  let decimal := 10 * hi + lo
  (row.cBefore = decide (binary > 255) ∧ row.hiFrom ≤ binary % 256 / 16 ∧ binary % 256 / 16 ≤ row.hiTo ∧
    row.h = decide (lo > 15) ∧ row.loFrom ≤ binary % 256 % 16 ∧ binary % 256 % 16 ≤ row.loTo) ∧
  BitVec.ofNat 8 binary + row.added = bcdDigits decimal ∧ row.cAfter = decide (decimal ≥ 100)

/-- Two decimal digits add up to at most 18, with a carry-in to at most 19: every such pair of sums has its row. -/
theorem daaTable_adjusts : ∀ hi < 19, ∀ lo < 20, ∃ row ∈ daaTable, row.Adjusts hi lo := by
  unfold DaaRow.Adjusts
  decide

/-- The row for the sum of two binary-coded-decimal bytes and a carry applies to what the addition leaves. -/
theorem daaTable_adjusts_add8 {x m : Byte} (hx : isBcd x) (hm : isBcd m) (c : Bool) (cc : Ccr) :
    ∃ row ∈ daaTable, row.applies (add8 c x m cc).1 (add8 c x m cc).2 = true ∧
      (add8 c x m cc).1 + row.added = bcdDigits (bcdValue x + bcdValue m + c.toNat) ∧
      row.cAfter = decide (bcdValue x + bcdValue m + c.toNat ≥ 100) := by
  obtain ⟨hxhi, hxlo⟩ := hx
  obtain ⟨hmhi, hmlo⟩ := hm
  have hc : c.toNat ≤ 1 := c.toNat_le
  obtain ⟨row, hrow, hinputs, hadded, hcarry⟩ := daaTable_adjusts (x.toNat / 16 + m.toNat / 16) (by omega)
    (x.toNat % 16 + m.toNat % 16 + c.toNat) (by omega)
  have hbinary : 16 * (x.toNat / 16 + m.toNat / 16) + (x.toNat % 16 + m.toNat % 16 + c.toNat) =
      x.toNat + m.toNat + c.toNat := by omega
  have hdecimal : 10 * (x.toNat / 16 + m.toNat / 16) + (x.toNat % 16 + m.toNat % 16 + c.toNat) =
      bcdValue x + bcdValue m + c.toNat := by unfold bcdValue; omega
  rw [hbinary] at hinputs hadded
  rw [hdecimal] at hadded hcarry
  rw [add8_eq]
  exact ⟨row, hrow, DaaRow.applies_iff.mpr hinputs, hadded, hcarry⟩

end Sys2Proof.Machine

end

section
/-! PROOFS. The obligations of 41_arithmetic.md. -/

namespace Sys2Proof.Machine

/-- Settles O27: every row is one operation, applied to an accumulator and the operand read. -/
theorem twoOperandInstructionsCompute : Obligations.TwoOperandInstructionsCompute := by
  intro s o hp
  obtain ⟨m, t, hread, ht, hm⟩ := operand8_populated hp o
  refine ⟨m, t, ht, hm, fun row hrow => ?_, fun row hrow => ?_⟩
  · obtain ⟨f, hf⟩ := twoOperandRows_applies hrow
    rw [hf.onA]
    exact accBinary_of_operand8 (r := .a) hread hf.gives
  · obtain ⟨f, hf⟩ := twoOperandRows_applies hrow
    rw [hf.onB]
    exact accBinary_of_operand8 (r := .b) hread hf.gives

/-- Settles O28: the operations of O24 and O25 on two registers, and an unsigned offset for ABX and ABY. -/
theorem inherentArithmeticComputes : Obligations.InherentArithmeticComputes := by
  intro s hp
  refine ⟨State.gives_of_meets hp (inherent_meets _ s) fun n log => ?_,
    State.gives_of_meets hp (inherent_meets _ s) fun n log => ?_,
    State.gives_of_meets hp (inherent_meets _ s) fun n log => ?_,
    State.gives_of_meets hp (inherentIdle_meets 1 _ s) fun n log => ?_,
    State.gives_of_meets hp (inherentIdle_meets 1 _ s) fun n log => ?_⟩
  · simp only [add8_eq, Bool.toNat_false, Nat.add_zero]
  · simp only [sub8_false_eq]
  · simp only [sub8_ccr]
  · simp only [add_byte_eq]
  · simp only [add_byte_eq]

/-- Settles O29: one operand read, and Add16 or Sub16 of a register and it. -/
theorem wordInstructionsCompute : Obligations.WordInstructionsCompute := by
  intro s o hp
  obtain ⟨m, t, hread, ht, hm⟩ := operateOperand16_populated hp o
  exact ⟨m, t, ht, hm, regBinary_d_of_operateOperand16 hread (add16_eq s.d m s.ccr),
    regBinary_d_of_operateOperand16 hread (sub16_eq s.d m s.ccr),
    regTest_of_operateOperand16 (r := .d) hread (sub16_ccr s.d m s.ccr),
    regTest_of_operateOperand16 (r := .x) hread (sub16_ccr s.ix m s.ccr),
    regTest_of_operateOperand16 (r := .y) hread (sub16_ccr s.iy m s.ccr)⟩

/-- Settles O35: a product of two bytes does not overflow D. -/
theorem mulGivesTheProduct : Obligations.MulGivesTheProduct := by
  intro s hp
  obtain ⟨n, log, hexec⟩ := exec_of_meets (i := .mul) hp (inherentIdle_meets 8 multiply s)
  have hccr := multiply_ccr { s with draws := n, deviceLog := log }
  exact ⟨{ s with draws := n, deviceLog := log }, _, rfl, hexec, joinBytes_multiply _, hccr ▸ rfl⟩

/-- Settles O36: the quotient has 16 bits where the divide does not fail. -/
theorem dividesGiveQuotientAndRemainder : Obligations.DividesGiveQuotientAndRemainder := by
  refine fun s hp => ⟨?_, ?_⟩
  · obtain ⟨n, log, hexec⟩ := exec_of_meets (i := .idiv) hp (inherentIdle_meets 39 integerDivide s)
    obtain ⟨⟨t, ht, hu⟩, hquotient, hzero⟩ := integerDivide_spec { s with draws := n, deviceLog := log }
    exact ⟨t, _, ht, hexec, hu, hquotient, hzero⟩
  · obtain ⟨n, log, hexec⟩ := exec_of_meets (i := .fdiv) hp (inherentIdle_meets 39 fractionalDivide s)
    obtain ⟨⟨t, ht, hu⟩, hquotient, hoverflow⟩ := fractionalDivide_spec { s with draws := n, deviceLog := log }
    exact ⟨t, _, ht, hexec, hu, hquotient, hoverflow⟩

/-- Settles O37: the row of the digits' sums applies, and adds what makes them decimal. -/
theorem daaMakesADecimalSum : Obligations.DaaMakesADecimalSum := by
  intro s x m c cc hp hx hm ha hccr
  obtain ⟨row, hrow, happlies, hdigits, hcarry⟩ := daaTable_adjusts_add8 hx hm c cc
  rw [← ha, ← hccr] at happlies
  obtain ⟨v, hgives⟩ := daa_gives_of_row hp (daaRow_eq_some hrow happlies)
  rw [ha, hdigits, hcarry] at hgives
  exact ⟨v, hgives⟩

/-- Settles O33: the step of the register, Z by where it wraps. -/
theorem pointerStepsComplete : Obligations.PointerStepsComplete := by
  intro s hp
  refine ⟨State.gives_of_meets hp (inherentStack_meets _ s) fun _ _ => rfl,
    State.gives_of_meets hp (inherentStack_meets _ s) fun _ _ => rfl,
    State.gives_of_meets hp (inherentIdle_meets 1 _ s) fun _ _ => ?_,
    State.gives_of_meets hp (inherentIdle_meets 1 _ s) fun _ _ => ?_,
    State.gives_of_meets hp (inherentIdle_meets 1 _ s) fun _ _ => ?_,
    State.gives_of_meets hp (inherentIdle_meets 1 _ s) fun _ _ => ?_⟩
  · rw [zOnly_increment]
  · rw [zOnly_decrement]
  · rw [zOnly_increment]
  · rw [zOnly_decrement]

/-- Settles O38: by the row that applies, or by free values where there is none. -/
theorem daaCompletesOnAnyInput : Obligations.DaaCompletesOnAnyInput := by
  intro s hp
  cases h : daaRow s.a s.ccr with
  | some row =>
    obtain ⟨v, hgives⟩ := daa_gives_of_row hp h
    refine ⟨s.a + row.added, v, row.cAfter, hgives, fun other hother happlies => ?_⟩
    obtain rfl : other = row := Option.some_inj.mp ((daaRow_eq_some hother happlies).symm.trans h)
    exact ⟨rfl, rfl⟩
  | none =>
    obtain ⟨r, v, c, hgives⟩ := daa_gives_of_no_row hp h
    refine ⟨r, v, c, hgives, fun row hrow happlies => ?_⟩
    exact absurd ((daaRow_eq_some hrow happlies).symm.trans h) (by simp)

end Sys2Proof.Machine

end

section
/-! PROOFS. The bit instructions BSET and BCLR: a read-modify-write whose fetch reads the operand before the mask, which
shows where both are device locations (R248, R249, R380). -/

namespace Sys2Proof

/-- Where a part of the bytes has an early operand, it is read after that part. -/
theorem Fetches.eq_of_earlyOperand {bytes : List Byte} {i : Instr} {e k : Nat} (hf : Fetches bytes i e) (hk0 : 0 < k)
    (hk : k < bytes.length) {m : Mem} (h : earlyOperand (bytes.take k) = some m) : k = e := by
  by_contra hne
  rw [hf.early k hk0 hk, if_neg hne] at h
  cases h

namespace Machine

/-! ### Read-modify-write -/

/-- All that a read-modify-write of the byte `x` at EA does, in memory and to a device location (R63, R64). -/
theorem memUnary_modifies {s u : State} {m : Mem} {x : Byte} (hp : s.populated) (hm : s.mem.wf = true)
    (f : Unary 8) (hread : readMem8 m s = .ok x u) :
    ∃ t, memUnary f m s = .next t ∧ s.fetched t (s.ea m) x ∧ s.stored t (s.ea m) (f x s.ccr).1 ∧
      { s with ccr := (f x s.ccr).2 }.afterStores [s.ea m] t ∧
      (s.kindAt (s.ea m) = .device → s.platform.dummyReads = false →
        s.accessesSince t = [.write (s.ea m) (f x s.ccr).1, .read (s.ea m) x]) := by
  obtain ⟨t, hexec, hfetched, hstored, ht⟩ := memUnary_computes hp hm f hread
  exact ⟨_, hexec, hfetched, hstored, ht.withCcr _, fun hk hd => memUnary_device f hd hk hread hexec⟩

/-! ### Device locations, where no value-less read is performed -/

section Device

variable {s : State} {m : Mem}

/-- The byte at EA is a device's answer (R69). -/
theorem readMem8_device (hd : s.platform.dummyReads = false) (hk : s.kindAt (s.ea m) = .device) :
    readMem8 m s = .ok (s.deviceAnswer (s.ea m)) (s.deviceRead (s.ea m)) := by
  rw [readMem8, indexCycle_off hd, Res.bind_ok, readByte_device hk]

/-- A byte of an instruction is a device's answer (R69). -/
theorem fetch8_device (hk : s.kindAt s.pc = .device) :
    fetch8 s = .ok (s.deviceAnswer s.pc) { s.deviceRead s.pc with pc := s.pc + 1 } := by
  rw [fetch8, readByte_device hk, Res.bind_ok]
  rfl

/-- The result of a read-modify-write goes to a device (R69). -/
theorem memModify_device (hd : s.platform.dummyReads = false) (hk : s.kindAt (s.ea m) = .device) (f : Unary 8)
    (x : Byte) :
    memModify f m x s = .next { s.deviceWritten (s.ea m) (f x s.ccr).1 with ccr := (f x s.ccr).2 } := by
  rw [memModify, idle_off hd, Res.bind_ok, writeByte_device _ hk, Res.complete_ok]

end Device

/-! ### The fetch of an instruction with an early operand, up to the read of that operand -/

section Fetch

variable {s : State} {start : Word} {bytes : List Byte} {i : Instr} {e k : Nat} {m : Mem}

/-- EA depends on the index registers alone (R85 to R88). -/
theorem State.ea_congr {t : State} (hx : t.ix = s.ix) (hy : t.iy = s.iy) (m : Mem) : t.ea m = s.ea m := by
  cases m with
  | dir _ | ext _ => rfl
  | indX _ => simp only [State.ea, hx]
  | indY _ => simp only [State.ea, hy]

/-- Only the bytes before the read of the early operand need be in RAM or ROM: `n` of them are ahead. -/
theorem fetchMore_beforeEarly (hf : Fetches bytes i e) (hc : s.hasCode start (bytes.take e))
    (hi : i.earlyMem = some m) (op : Option Byte) (fuel : Nat) {n : Nat} (hn : 0 < n) (hk : k + n = e) :
    fetchMore (fuel + n) (bytes.take k) op (s.fetchedTo start k) =
      (readMem8 m (s.fetchedTo start e)).bind fun x t => fetchMore fuel (bytes.take e) (some x) t := by
  have hlen : e < bytes.length := hf.early_lt (by simp [hi])
  have htake (j : Nat) (hj : j ≤ e) : (bytes.take e).take j = bytes.take j := by
    rw [List.take_take, Nat.min_eq_left hj]
  induction n generalizing k with
  | zero => omega
  | succ n ih =>
    have hlt : k < (bytes.take e).length := by rw [List.length_take]; omega
    have hd := hf.tooShort (k + 1) (by omega) (by omega)
    have he := hf.early (k + 1) (by omega) (by omega)
    rw [← htake (k + 1) (by omega)] at hd he
    rw [← htake k (by omega)]
    by_cases hlast : k + 1 = e
    · rw [if_pos hlast, hi] at he
      obtain rfl : n = 0 := by omega
      rw [fetchMore_early hc hlt op hd he, hlast, htake e le_rfl]
    · rw [if_neg hlast] at he
      rw [← Nat.add_assoc, fetchMore_more hc hlt op hd he, htake (k + 1) (by omega)]
      exact ih (by omega) (by omega)

/-- The fetch of an instruction whose bytes before the read of its early operand are in RAM or ROM. -/
theorem fetchInstr_beforeEarly (hf : Fetches bytes i e) (hc : s.hasCode s.pc (bytes.take e))
    (hi : i.earlyMem = some m) :
    fetchInstr s = (readMem8 m (s.fetchedTo s.pc e)).bind fun x t =>
      fetchMore (maxLength - e) (bytes.take e) (some x) t := by
  have hlt : e < bytes.length := hf.early_lt (by simp [hi])
  have hle : bytes.length ≤ maxLength := hf.length_le
  have hs : s.fetchedTo s.pc 0 = s := by simp [State.fetchedTo]
  have hfetch := fetchMore_beforeEarly hf hc hi none (maxLength - e) hf.early_pos (Nat.zero_add e)
  rwa [List.take_zero, hs, Nat.sub_add_cancel (by omega)] at hfetch

/-- The byte that completes an instruction, wherever it is. -/
theorem fetchMore_of_fetch8 {t : State} {b : Byte} {acc rest : List Byte} {op : Option Byte} (fuel : Nat)
    (h : fetch8 s = .ok b t) (hd : decode (acc ++ [b]) = .instr i rest) :
    fetchMore (fuel + 1) acc op s = .ok (some ⟨i, op⟩) t := by
  rw [fetchMore, h, Res.bind_ok]
  simp only [hd]

end Fetch

/-! ### An instruction whose last byte is a mask -/

/-- The instructions `make` are `code` and a mask; the byte at `m` is read between the two, and modified by `f` of the
mask (R90, R248, R249). -/
structure MaskIsLast (code : List Byte) (make : Byte → Instr) (f : Byte → Unary 8) (m : Mem) : Prop where
  wellFormed : ∀ mm, (make mm).wellFormed = true
  primary_eq : ∀ mm, (make mm).primary = make mm
  encode_eq : ∀ mm, encode (make mm) = code ++ [mm]
  earlyMem_eq : ∀ mm, (make mm).earlyMem = some m
  earlyOperand_eq : earlyOperand code = some m
  execFetched_eq : ∀ mm x s, execFetched ⟨make mm, some x⟩ s = memModify (f mm) m x s

theorem bset_maskIsLast {m : Mem} {code : List Byte} (h : (Instr.bset m 0).wellFormed = true)
    (hcode : code = (encode (.bset m 0)).dropLast) : MaskIsLast code (.bset m) bset8 m where
  wellFormed _ := h
  primary_eq _ := rfl
  encode_eq mm := hcode ▸ congrArg (· ++ [mm]) List.dropLast_concat.symm
  earlyMem_eq _ := rfl
  earlyOperand_eq := by
    rw [hcode]
    cases m with
    | dir _ | indX _ | indY _ => rfl
    | ext _ => cases h
  execFetched_eq _ _ _ := rfl

theorem bclr_maskIsLast {m : Mem} {code : List Byte} (h : (Instr.bclr m 0).wellFormed = true)
    (hcode : code = (encode (.bclr m 0)).dropLast) : MaskIsLast code (.bclr m) bclr8 m where
  wellFormed _ := h
  primary_eq _ := rfl
  encode_eq mm := hcode ▸ congrArg (· ++ [mm]) List.dropLast_concat.symm
  earlyMem_eq _ := rfl
  earlyOperand_eq := by
    rw [hcode]
    cases m with
    | dir _ | indX _ | indY _ => rfl
    | ext _ => cases h
  execFetched_eq _ _ _ := rfl

section Mask

variable {code : List Byte} {make : Byte → Instr} {f : Byte → Unary 8} {m : Mem} {s : State} {k : Nat}

theorem MaskIsLast.decode_eq (h : MaskIsLast code make f m) (mm : Byte) :
    decode (code ++ [mm]) = .instr (make mm) [] := by
  have hd := decode_encode (h.wellFormed mm) []
  rwa [List.append_nil, h.primary_eq, h.encode_eq] at hd

/-- The operand is read after all bytes but the mask. -/
theorem MaskIsLast.fetches (h : MaskIsLast code make f m) (mm : Byte) :
    Fetches (code ++ [mm]) (make mm) code.length := by
  obtain ⟨e, hf⟩ := fetches_of_decode (h.decode_eq mm)
  have hlength : (code ++ [mm]).length = code.length + 1 := List.length_append
  have hlt : e < (code ++ [mm]).length := hf.early_lt (by simp [h.earlyMem_eq])
  have hpos := hf.early_pos
  have hearly : earlyOperand ((code ++ [mm]).take code.length) = some m := by
    rw [List.take_left, h.earlyOperand_eq]
  rwa [hf.eq_of_earlyOperand (by omega) (by omega) hearly]

/-- The fetch takes the code up to the mask, the operand, the mask. -/
theorem MaskIsLast.fetchInstr_device (h : MaskIsLast (s.codeBytes k) make f m) (hd : s.platform.dummyReads = false)
    (hplain : s.codePlain k) (hmask : s.kindAt (s.pc + BitVec.ofNat 16 k) = .device)
    (hea : s.kindAt (s.ea m) = .device) :
    ∃ x mm t, fetchInstr s = .ok (some ⟨make mm, some x⟩) t ∧ t = { s with
      pc := t.pc, draws := t.draws
      deviceLog := .read (s.pc + BitVec.ofNat 16 k) mm :: .read (s.ea m) x :: s.deviceLog } := by
  have hlength := s.length_codeBytes k
  have hf := h.fetches 0
  have htake : (s.codeBytes k ++ [0]).take k = s.codeBytes k := List.take_left' hlength
  have hcode : s.hasCode s.pc ((s.codeBytes k ++ [0]).take k) := htake.symm ▸ State.hasCode_codeBytes hplain
  have hfuel : maxLength - k = maxLength - k - 1 + 1 := by
    have hle := hf.length_le
    rw [List.length_append, hlength, List.length_singleton] at hle
    omega
  rw [hlength] at hf
  have hea' : (s.fetchedTo s.pc k).ea m = s.ea m := State.ea_congr rfl rfl m
  have hread := readMem8_device (s := s.fetchedTo s.pc k) hd (hea' ▸ hea)
  have hmore := fetchInstr_beforeEarly hf hcode (h.earlyMem_eq 0)
  rw [hread, Res.bind_ok, hea', hfuel, htake] at hmore
  have hlast := fetch8_device (s := (s.fetchedTo s.pc k).deviceRead (s.ea m)) hmask
  exact ⟨_, _, _, hmore.trans (fetchMore_of_fetch8 _ hlast (h.decode_eq _)), rfl⟩

/-- A step of such an instruction reads the operand, fetches the mask, writes the operand (R380). -/
theorem MaskIsLast.step_device (h : MaskIsLast (s.codeBytes k) make f m) (hu : s.undisturbed)
    (hd : s.platform.dummyReads = false) (hplain : s.codePlain k)
    (hmask : s.kindAt (s.pc + BitVec.ofNat 16 k) = .device) (hea : s.kindAt (s.ea m) = .device) :
    ∃ x mm t, step s = .next t ∧ t.deviceLog = .write (s.ea m) (f mm x s.ccr).1 ::
      .read (s.pc + BitVec.ofNat 16 k) mm :: .read (s.ea m) x :: s.deviceLog := by
  obtain ⟨x, mm, t, hfetch, ht⟩ := h.fetchInstr_device hd hplain hmask hea
  have hea' : (t.moved t.pc false).ea m = s.ea m := State.ea_congr (congrArg State.ix ht) (congrArg State.iy ht) m
  have hplatform : t.platform = s.platform := by rw [ht]
  have hccr : (t.moved t.pc false).ccr = s.ccr := by rw [ht]; rfl
  have hlog := congrArg State.deviceLog ht
  have hmodify := memModify_device (s := t.moved t.pc false) (m := m) (hplatform ▸ hd)
    ((State.kindAt_congr hplatform _).trans (hea' ▸ hea)) (f mm) x
  rw [hea', hccr, ← h.execFetched_eq] at hmodify
  have hnext := executeNext_eq_next.mpr (.inl ⟨_, t, _, hfetch, hmodify, rfl⟩)
  exact ⟨x, mm, _, (step_undisturbed hu).trans hnext, congrArg (_ :: ·) hlog⟩

end Mask

end Machine

end Sys2Proof

end

section
/-! PROOFS. Shifts of D, in numbers (R234, R241, R257). -/

namespace Sys2Proof.Machine

theorem asl_eq_twice (x : Word) (cc : Ccr) :
    asl x cc = (BitVec.ofNat 16 (2 * x.toNat),
      cc.afterShift (BitVec.ofNat 16 (2 * x.toNat)) (decide (x.toNat ≥ 32768))) := by
  have hout : x.msb = decide (x.toNat ≥ 32768) := msb_eq_decide_half x
  rw [asl, shiftLeft_one_eq, hout]
  rfl

/-- N is clear after a shift to the right, so that V = N ^ C is C. -/
theorem lsr_eq_half (x : Word) (cc : Ccr) :
    lsr x cc = (BitVec.ofNat 16 (x.toNat / 2),
      cc.afterShift (BitVec.ofNat 16 (x.toNat / 2)) (decide (x.toNat % 2 = 1))) := by
  have hn : (x >>> 1).msb = false := by simp [BitVec.msb_ushiftRight]
  rw [← ushiftRight_one_eq, ← lowBit_eq]
  simp only [lsr, Ccr.afterShift, hn, Bool.false_bne]

theorem dUnary_meets (f : Unary 16) (s : State) :
    Meets (dUnary f s) s.platform fun t => ∃ u, s.afterReads u ∧
      t = { u.setD (f u.d u.ccr).1 with ccr := (f u.d u.ccr).2 } :=
  inherentIdle_meets 1 _ s

/-- An operation on D, where MEM has something everywhere. -/
theorem dUnary_gives {s : State} {i : Instr} {f : Unary 16} {v : Word} {cc : Ccr} (hp : s.populated)
    (hi : exec i s = dUnary f s) (hf : f s.d s.ccr = (v, cc)) :
    s.gives i fun t => { t with a := hiByte v, b := loByte v, ccr := cc } := by
  refine State.gives_of_meets hp (hi ▸ dUnary_meets f s) fun n log => ?_
  have hd : State.d { s with draws := n, deviceLog := log } = s.d := rfl
  simp only [hd, hf, State.setD]

end Sys2Proof.Machine

end

section
/-! PROOFS. The obligations of 42_logic_shift_bit.md. -/

namespace Sys2Proof.Machine

/-- Settles O32: each of the two is one operation applied to the byte at EA; a mask in a device location is fetched
after that byte is read. -/
theorem bitInstructionsSetAndClear : Obligations.BitInstructionsSetAndClear := by
  refine ⟨fun s m mm hp hm => ?_, fun s m k hu hd hplain hmask hea => ?_⟩
  · obtain ⟨x, u, hread⟩ := readMem8_populated hp m
    simp only [List.forall_mem_cons, List.not_mem_nil, false_implies, implies_true, and_true]
    exact ⟨x, memUnary_modifies hp hm (bset8 mm) hread, memUnary_modifies hp hm (bclr8 mm) hread⟩
  · simp only [List.forall_mem_cons, List.not_mem_nil, false_implies, implies_true, and_true]
    exact ⟨fun hi hcode => (bset_maskIsLast hi hcode).step_device hu hd hplain hmask hea,
      fun hi hcode => (bclr_maskIsLast hi hcode).step_device hu hd hplain hmask hea⟩

/-- Settles O34: one shift to the left, under two names, and one to the right. -/
theorem wordShiftsCompute : Obligations.WordShiftsCompute :=
  fun s hp => ⟨dUnary_gives hp rfl (asl_eq_twice s.d s.ccr), dUnary_gives hp rfl (asl_eq_twice s.d s.ccr),
    dUnary_gives hp rfl (lsr_eq_half s.d s.ccr)⟩

/-- Settles O39: I is clear after CLI, so that it arms the latch if I was set. -/
theorem flagInstructionsComplete : Obligations.FlagInstructionsComplete := by
  intro s hp
  refine ⟨State.gives_of_meets hp (inherent_meets _ s) fun _ _ => rfl,
    State.gives_of_meets hp (inherent_meets _ s) fun _ _ => rfl,
    State.gives_of_meets hp (inherent_meets _ s) fun _ _ => rfl,
    State.gives_of_meets hp (inherent_meets _ s) fun _ _ => rfl,
    State.gives_of_meets hp (inherent_meets _ s) fun _ _ => ?_,
    State.gives_of_meets hp (inherent_meets _ s) fun _ _ => rfl,
    State.gives_of_meets hp (inherent_meets _ s) fun _ _ => rfl⟩
  simp only [State.armIdelay, Bool.not_false, Bool.and_true]

end Sys2Proof.Machine

end

section
/-! PROOFS. The conditional branches: their target and the Boolean column, and what they read after a compare or
subtract (R270 to R288, R103). -/

namespace Sys2Proof.Machine

/-! ### One branch -/

/-- The offset is signed and the sum is modulo 2^16 (R89, R103). -/
theorem State.target_eq (s : State) (rr : Byte) : s.target rr = BitVec.ofInt 16 (s.pc.toNat + rr.toInt) := by
  have hpc : BitVec.ofInt 16 s.pc.toNat = s.pc := by rw [BitVec.ofInt_natCast, BitVec.ofNat_toNat, BitVec.setWidth_eq]
  rw [BitVec.ofInt_add, hpc]
  rfl

/-- A branch, where MEM has something everywhere. -/
theorem branchIf_gives {s : State} {i : Instr} {cond : Bool} {rr : Byte} (hp : s.populated)
    (hi : exec i s = branchIf cond rr s) :
    s.gives i fun t => { t with pc := if cond then BitVec.ofInt 16 (s.pc.toNat + rr.toInt) else s.pc } :=
  State.gives_of_meets hp (hi ▸ branchIf_meets cond rr s) fun _ _ => by rw [s.target_eq]

/-! ### The Boolean column -/

/-- N ^ V = 0, as BGE tests it, says that N and V agree (R274). -/
theorem not_bne_eq_beq (n v : Bool) : (!(n != v)) = (n == v) := Bool.not_not _

/-- Every row is a branch by its Boolean column. -/
theorem branchRows_branchIf (s : State) (rr : Byte) :
    ∀ row ∈ branchRows s.ccr, exec (row.1 rr) s = branchIf row.2 rr s := by
  simp only [branchRows, ← not_bne_eq_beq, ← Bool.not_or, List.forall_mem_cons]
  exact ⟨rfl, rfl, rfl, rfl, rfl, rfl, rfl, rfl, rfl, rfl, rfl, rfl, rfl, rfl, rfl, rfl, rfl, rfl, nofun⟩

theorem branchRows_gives {s : State} (hp : s.populated) (rr : Byte) {row : (Byte → Instr) × Bool}
    (h : row ∈ branchRows s.ccr) :
    s.gives (row.1 rr) fun t => { t with pc := if row.2 then BitVec.ofInt 16 (s.pc.toNat + rr.toInt) else s.pc } :=
  branchIf_gives hp (branchRows_branchIf s rr row h)

/-! ### After a compare or subtract -/

/-- C, Z and N ^ V say how `r` and `m` compare: below, equal, less (R270). -/
structure Ccr.Compares {w : Nat} (cc : Ccr) (r m : BitVec w) : Prop where
  below : cc.c = decide (r.toNat < m.toNat)
  equal : cc.z = decide (r = m)
  less : (cc.n != cc.v) = decide (r.toInt < m.toInt)

/-- The sign of a difference, corrected where it overflows, says which number is the smaller. -/
theorem msb_bne_subOverflow_difference {w : Nat} (r m : BitVec (w + 1)) :
    ((r - m).msb != subOverflow r m (r - m)) = decide (r.toInt < m.toInt) := by
  have hr := toNat_lt_twice r
  have hm := toNat_lt_twice m
  have hd := difference_toNat r m false
  have hv := subOverflow_difference r m false
  rw [sub_bitValue_false] at hd hv
  rw [msb_eq_decide_half, hv, hd, Bool.eq_iff_iff]
  simp only [toInt_eq_half, Bool.toNat_false, bne_iff_ne, ne_eq, decide_eq_decide, decide_eq_true_eq]
  split <;> split <;> split <;> omega

/-- The flags of Sub8 and Sub16 compare their operands (R12, R13). -/
theorem Ccr.compares_difference {w : Nat} (cc : Ccr) (r m : BitVec (w + 1)) :
    { cc.nz (r - m) with v := subOverflow r m (r - m), c := subBorrow r m (r - m) }.Compares r m where
  below := by
    have hc := subBorrow_difference r m false
    rwa [sub_bitValue_false] at hc
  equal := by
    show (r - m == 0) = decide (r = m)
    rw [Bool.eq_iff_iff, beq_iff_eq, decide_eq_true_eq]
    exact sub_eq_zero
  less := msb_bne_subOverflow_difference r m

theorem Ccr.afterSub8_compares (cc : Ccr) (r m : Byte) : (cc.afterSub8 r m false).Compares r m := by
  rw [← sub8_ccr, sub8, sub_bitValue_false]
  exact cc.compares_difference r m

theorem Ccr.afterSub16_compares (cc : Ccr) (r m : Word) : (cc.afterSub16 r m).Compares r m :=
  sub16_ccr r m cc ▸ cc.compares_difference r m

/-- The comparisons of the first column of R270 are conditions of its Boolean column. -/
theorem comparisonRows_subset_branchRows {w : Nat} {cc : Ccr} {r m : BitVec w} (h : cc.Compares r m) :
    comparisonRows r m ⊆ branchRows cc := by
  have hhs : decide (r.toNat ≥ m.toNat) = !cc.c := by
    rw [h.below, ← decide_not, decide_eq_decide, Nat.not_lt]
  have hls : decide (r.toNat ≤ m.toNat) = (cc.c || cc.z) := by
    rw [h.below, h.equal, ← Bool.decide_or, decide_eq_decide, BitVec.toNat_eq, Nat.le_iff_lt_or_eq]
  have hhi : decide (r.toNat > m.toNat) = !(cc.c || cc.z) := by
    rw [← hls, ← decide_not, decide_eq_decide, Nat.not_le]
  have hne : decide (r ≠ m) = !cc.z := by rw [h.equal, ← decide_not]
  have hge : decide (r.toInt ≥ m.toInt) = (cc.n == cc.v) := by
    rw [← not_bne_eq_beq, h.less, ← decide_not, decide_eq_decide, Int.not_lt]
  have hle : decide (r.toInt ≤ m.toInt) = (cc.z || cc.n != cc.v) := by
    rw [h.less, h.equal, ← Bool.decide_or, decide_eq_decide, ← BitVec.toInt_inj, Int.le_iff_eq_or_lt]
  have hgt : decide (r.toInt > m.toInt) = (!cc.z && cc.n == cc.v) := by
    rw [← not_bne_eq_beq, ← Bool.not_or, ← hle, ← decide_not, decide_eq_decide, Int.not_le]
  simp only [comparisonRows, ← h.below, ← h.equal, ← h.less, hhs, hls, hhi, hne, hge, hle, hgt]
  simp [branchRows]

end Sys2Proof.Machine

end

section
/-! PROOFS. BRCLR and BRSET: the bits of the mask, and a fetch that reads the operand before the mask and the offset
(R289, R290, R380). -/

namespace Sys2Proof.Machine

/-! ### The bits of the mask -/

/-- No bit of the mask is set in the byte. -/
theorem and_mask_eq_zero_iff (x mm : Byte) :
    (x &&& mm == 0) = true ↔ ∀ k : Fin 8, mm.getLsbD k = true → x.getLsbD k = false := by
  rw [beq_iff_eq]
  constructor
  · intro h k hk
    have hbit : (x.getLsbD k && mm.getLsbD k) = false := by
      rw [← BitVec.getLsbD_and, h]
      exact BitVec.getLsbD_zero
    rwa [hk, Bool.and_true] at hbit
  · intro h
    apply BitVec.eq_of_getLsbD_eq
    intro k hk
    rw [BitVec.getLsbD_and]
    cases hmm : mm.getLsbD k with
    | false => exact (Bool.and_false _).trans BitVec.getLsbD_zero.symm
    | true =>
      rw [h ⟨k, hk⟩ hmm]
      exact BitVec.getLsbD_zero.symm

/-- Every bit of the mask is set in the byte. -/
theorem not_and_mask_eq_zero_iff (x mm : Byte) :
    (~~~x &&& mm == 0) = true ↔ ∀ k : Fin 8, mm.getLsbD k = true → x.getLsbD k = true := by
  rw [and_mask_eq_zero_iff]
  simp

/-! ### A branch, and a read and a branch on its byte -/

/-- A branch, from what its internal cycle gives. -/
theorem branchIf_of_idle {s t : State} (h : idle 1 s = .ok () t) (cond : Bool) (rr : Byte) :
    branchIf cond rr s =
      .next { t with pc := if cond then BitVec.ofInt 16 (s.pc.toNat + rr.toInt) else s.pc } := by
  have hpc : t.pc = s.pc := by rw [((idle_meets 1 s).1 () t h).1]
  rw [branchIf, h, Res.complete_ok, t.target_eq, hpc]
  cases cond with
  | true => rfl
  | false => exact congrArg (fun pc => Host.Outcome.next { t with pc := pc }) hpc

/-- BRCLR and BRSET, where MEM has something everywhere: one byte read, and tested by either. -/
theorem readThenBranch_populated {s : State} (hp : s.populated) (m : Mem) :
    ∃ x t, s.afterReads t ∧ s.fetched t (s.ea m) x ∧ ∀ (cond : Byte → Bool) (rr : Byte),
      ((readMem8 m s).andThen fun x u => branchIf (cond x) rr u) =
        .next { t with pc := if cond x then BitVec.ofInt 16 (s.pc.toNat + rr.toInt) else s.pc } := by
  obtain ⟨x, u, hread⟩ := readMem8_populated hp m
  have hu := ((readMem8_meets m s).1 x u hread).1
  have hpc : u.pc = s.pc := by rw [hu]
  obtain ⟨_, t, hidle, ht, _⟩ := Res.meets_populated (idle_meets 1 u) (hp.afterReads hu)
  refine ⟨x, t, hu.trans ht, (readMem8_fetched hread).later (idle_logGrows u 1 _ t hidle), fun cond rr => ?_⟩
  rw [hread, Res.andThen_ok, branchIf_of_idle hidle, hpc]

/-! ### An instruction whose last bytes are a mask and an offset -/

/-- The instructions `make` are `code`, a mask and an offset; the byte at `m` is read after `code`, and with the mask
decides the branch (R90, R289, R290). -/
structure BranchesOnMask (code : List Byte) (make : Byte → Byte → Instr) (cond : Byte → Byte → Bool) (m : Mem) :
    Prop where
  wellFormed : ∀ mm rr, (make mm rr).wellFormed = true
  primary_eq : ∀ mm rr, (make mm rr).primary = make mm rr
  encode_eq : ∀ mm rr, encode (make mm rr) = code ++ [mm, rr]
  earlyMem_eq : ∀ mm rr, (make mm rr).earlyMem = some m
  earlyOperand_eq : earlyOperand code = some m
  execFetched_eq : ∀ mm rr x s, execFetched ⟨make mm rr, some x⟩ s = branchIf (cond x mm) rr s

/-- BRCLR and BRSET with the condition each tests. -/
def bitBranches (m : Mem) : List ((Byte → Byte → Instr) × (Byte → Byte → Bool)) :=
  [(.brclr m, fun x mm => x &&& mm == 0), (.brset m, fun x mm => ~~~x &&& mm == 0)]

theorem bitBranches_branchesOnMask {m : Mem} {e : (Byte → Byte → Instr) × (Byte → Byte → Bool)}
    (he : e ∈ bitBranches m) (hwf : (e.1 0 0).wellFormed = true) {code : List Byte} {k : Nat}
    (hcode : code = (encode (e.1 0 0)).take k) (hk : k + 2 = (e.1 0 0).length) :
    BranchesOnMask code e.1 e.2 m := by
  have hsplit : ∀ (pre : List Byte), encode (e.1 0 0) = pre ++ [0, 0] → code = pre := by
    intro pre hpre
    rw [Instr.length, hpre, List.length_append] at hk
    rw [hcode, hpre, List.take_left' (by simpa using hk.symm)]
  simp only [bitBranches, List.mem_cons, List.not_mem_nil, or_false] at he
  rcases he with rfl | rfl
  all_goals
    obtain rfl := hsplit _ rfl
    refine ⟨fun _ _ => hwf, fun _ _ => rfl, fun _ _ => rfl, fun _ _ => rfl, ?_, fun _ _ _ _ => rfl⟩
    cases m with
    | dir _ | indX _ | indY _ => rfl
    | ext _ => cases hwf

/-- A byte after which the fetch goes on, wherever it is. -/
theorem fetchMore_of_fetch8_more {s t : State} {b : Byte} {acc : List Byte} {op : Option Byte} (fuel : Nat)
    (h : fetch8 s = .ok b t) (hd : decode (acc ++ [b]) = .tooShort) (he : earlyOperand (acc ++ [b]) = none) :
    fetchMore (fuel + 1) acc op s = fetchMore fuel (acc ++ [b]) op t := by
  rw [fetchMore, h, Res.bind_ok]
  simp only [hd, he]

section Mask

variable {code : List Byte} {make : Byte → Byte → Instr} {cond : Byte → Byte → Bool} {m : Mem} {s : State} {k : Nat}

theorem BranchesOnMask.decode_eq (h : BranchesOnMask code make cond m) (mm rr : Byte) :
    decode (code ++ [mm, rr]) = .instr (make mm rr) [] := by
  have hd := decode_encode (h.wellFormed mm rr) []
  rwa [List.append_nil, h.primary_eq, h.encode_eq] at hd

/-- The operand is read after all bytes but the mask and the offset. -/
theorem BranchesOnMask.fetches (h : BranchesOnMask code make cond m) (mm rr : Byte) :
    Fetches (code ++ [mm, rr]) (make mm rr) code.length := by
  obtain ⟨e, hf⟩ := fetches_of_decode (h.decode_eq mm rr)
  have hlength : (code ++ [mm, rr]).length = code.length + 2 := List.length_append
  have hpos : 0 < code.length := List.length_pos_of_ne_nil fun hnil => by
    have hearly := h.earlyOperand_eq
    rw [hnil] at hearly
    cases hearly
  have hearly : earlyOperand ((code ++ [mm, rr]).take code.length) = some m := by
    rw [List.take_left, h.earlyOperand_eq]
  rwa [hf.eq_of_earlyOperand hpos (by omega) hearly]

/-- After the mask the decoder wants the offset, and no operand is read. -/
theorem BranchesOnMask.afterMask (h : BranchesOnMask code make cond m) (mm : Byte) :
    decode (code ++ [mm]) = .tooShort ∧ earlyOperand (code ++ [mm]) = none := by
  have hf := h.fetches mm 0
  have hlength : (code ++ [mm, 0]).length = code.length + 2 := List.length_append
  have htake : (code ++ [mm, 0]).take (code.length + 1) = code ++ [mm] := by
    rw [List.take_length_add_append]; rfl
  have hd := hf.tooShort (code.length + 1) (by omega) (by omega)
  have he := hf.early (code.length + 1) (by omega) (by omega)
  rw [htake] at hd he
  rw [if_neg (by omega)] at he
  exact ⟨hd, he⟩

/-- The mask and the offset are two answers of devices (R69). -/
theorem BranchesOnMask.fetchMore_device (h : BranchesOnMask code make cond m) (x : Byte) (fuel : Nat)
    (hmask : s.kindAt s.pc = .device) (hoffset : s.kindAt (s.pc + 1) = .device) :
    ∃ mm rr t, fetchMore (fuel + 2) code (some x) s = .ok (some ⟨make mm rr, some x⟩) t ∧ t = { s with
      pc := s.pc + 1 + 1, draws := t.draws, deviceLog := .read (s.pc + 1) rr :: .read s.pc mm :: s.deviceLog } := by
  obtain ⟨hd, he⟩ := h.afterMask (s.deviceAnswer s.pc)
  have hlast := fetch8_device (s := { s.deviceRead s.pc with pc := s.pc + 1 }) hoffset
  have hdecode (mm rr : Byte) : decode (code ++ [mm] ++ [rr]) = .instr (make mm rr) [] := by
    rw [List.append_assoc]
    exact h.decode_eq mm rr
  exact ⟨_, _, _, (fetchMore_of_fetch8_more _ (fetch8_device hmask) hd he).trans
    (fetchMore_of_fetch8 fuel hlast (hdecode _ _)), rfl⟩

/-- The fetch takes the code up to the mask, the operand, the mask, the offset. -/
theorem BranchesOnMask.fetchInstr_device (h : BranchesOnMask (s.codeBytes k) make cond m)
    (hd : s.platform.dummyReads = false) (hplain : s.codePlain k)
    (hmask : s.kindAt (s.pc + BitVec.ofNat 16 k) = .device)
    (hoffset : s.kindAt (s.pc + BitVec.ofNat 16 (k + 1)) = .device) (hea : s.kindAt (s.ea m) = .device) :
    ∃ x mm rr t, fetchInstr s = .ok (some ⟨make mm rr, some x⟩) t ∧ t = { s with
      pc := s.pc + BitVec.ofNat 16 (k + 2), draws := t.draws
      deviceLog := .read (s.pc + BitVec.ofNat 16 (k + 1)) rr :: .read (s.pc + BitVec.ofNat 16 k) mm ::
        .read (s.ea m) x :: s.deviceLog } := by
  have hlength := s.length_codeBytes k
  have hf := h.fetches 0 0
  have htake : (s.codeBytes k ++ [0, 0]).take k = s.codeBytes k := List.take_left' hlength
  have hcode : s.hasCode s.pc ((s.codeBytes k ++ [0, 0]).take k) := htake.symm ▸ State.hasCode_codeBytes hplain
  have hfuel : maxLength - k = maxLength - k - 2 + 2 := by
    have hle := hf.length_le
    rw [List.length_append, hlength] at hle
    exact (Nat.sub_add_cancel (Nat.le_sub_of_add_le' hle)).symm
  have hnext (n : Nat) : s.pc + BitVec.ofNat 16 n + 1 = s.pc + BitVec.ofNat 16 (n + 1) := by
    rw [BitVec.ofNat_add, ← BitVec.add_assoc]; rfl
  have hea' : (s.fetchedTo s.pc k).ea m = s.ea m := State.ea_congr rfl rfl m
  have hread := readMem8_device (s := s.fetchedTo s.pc k) hd (hea' ▸ hea)
  rw [hlength] at hf
  have hmore := fetchInstr_beforeEarly hf hcode (h.earlyMem_eq 0 0)
  rw [hread, Res.bind_ok, hea', hfuel, htake] at hmore
  rw [← hnext k] at hoffset
  rw [← hnext (k + 1), ← hnext k]
  obtain ⟨mm, rr, t, hrest, ht⟩ := h.fetchMore_device (s := (s.fetchedTo s.pc k).deviceRead (s.ea m))
    ((s.fetchedTo s.pc k).deviceAnswer (s.ea m)) (maxLength - k - 2) hmask hoffset
  exact ⟨_, mm, rr, t, hmore.trans hrest, ht⟩

/-- A step of such an instruction reads the operand, fetches the mask and the offset, and branches from the next
instruction (R380). -/
theorem BranchesOnMask.step_device (h : BranchesOnMask (s.codeBytes k) make cond m) (hu : s.undisturbed)
    (hd : s.platform.dummyReads = false) (hplain : s.codePlain k)
    (hmask : s.kindAt (s.pc + BitVec.ofNat 16 k) = .device)
    (hoffset : s.kindAt (s.pc + BitVec.ofNat 16 (k + 1)) = .device) (hea : s.kindAt (s.ea m) = .device) :
    ∃ x mm rr t, step s = .next t ∧
      t.deviceLog = .read (s.pc + BitVec.ofNat 16 (k + 1)) rr :: .read (s.pc + BitVec.ofNat 16 k) mm ::
        .read (s.ea m) x :: s.deviceLog ∧
      (let next := s.pc + BitVec.ofNat 16 (k + 2)
       t.pc = if cond x mm then BitVec.ofInt 16 (next.toNat + rr.toInt) else next) := by
  obtain ⟨x, mm, rr, t, hfetch, ht⟩ := h.fetchInstr_device hd hplain hmask hoffset hea
  have hdummy : t.platform.dummyReads = false := by rw [ht]; exact hd
  have hbranch := branchIf_of_idle (idle_off (s := { t with idelay := false }) hdummy 1) (cond x mm) rr
  rw [← h.execFetched_eq] at hbranch
  have hnext := executeNext_eq_next.mpr (.inl ⟨_, t, _, hfetch, hbranch, rfl⟩)
  have hpc : t.pc = s.pc + BitVec.ofNat 16 (k + 2) := congrArg State.pc ht
  refine ⟨x, mm, rr, _, (step_undisturbed hu).trans hnext, congrArg State.deviceLog ht, ?_⟩
  rw [← hpc]
  rfl

end Mask

end Sys2Proof.Machine

end

section
/-! PROOFS. Calls and the return: what is pushed and what is pulled (R291 to R294). -/

namespace Sys2Proof.Machine

/-! ### Calls -/

section Calls

variable {s t : State} {target : Word}

/-- A call pushes the PC, low-order byte first, after a value-less read (R291, R293). -/
theorem callTo_pushed (hm : s.mem.wf = true) (h : callTo target s = .ok () t) :
    s.stored t s.sp (loByte s.pc) ∧ s.stored t (s.sp - 1) (hiByte s.pc) := by
  obtain ⟨⟨⟩, u, hread, h⟩ := Res.bind_eq_ok.mp h
  obtain ⟨⟨⟩, v, hpush, h⟩ := Res.bind_eq_ok.mp h
  cases h
  have hu := ((valueless_meets target s).1 () u hread).1
  have hpc : u.pc = s.pc := by rw [hu]
  have hpushed := push16_pushed (.refl (hu.wf hm)) (by simp) hpush
  have hstored := hpushed.stored_earlier hu (valueless_logGrows s target () u hread)
  rw [hpc] at hstored
  have hlo : s.stored v s.sp (loByte s.pc) := by simpa using hstored 0 (by simp)
  exact ⟨hlo, hstored 1 (by simp)⟩

/-- BSR and JSR, where MEM has something everywhere: reads, then a call whose target they do not change. -/
theorem call_stores (hp : s.populated) (hm : s.mem.wf = true) {cycle : Res Unit} {goal : State → Word}
    (hcycle : cycle.meets s.platform fun _ u => s.afterReads u ∧ (s.platform.dummyReads = false → u = s))
    (hlog : cycle.All s.logGrows) (hgoal : ∀ u, s.afterReads u → goal u = target) :
    ∃ t, ((cycle.bind fun _ u => callTo (goal u) u).complete fun _ u => u) = .next t ∧
      { s with sp := s.sp - 2, pc := target }.afterStores [s.sp, s.sp - 1] t ∧
      s.stored t s.sp (loByte s.pc) ∧ s.stored t (s.sp - 1) (hiByte s.pc) := by
  obtain ⟨_, u, hc, hu, _⟩ := Res.meets_populated hcycle hp
  obtain ⟨_, t, hcall, w, hw, rfl⟩ := Res.meets_populated (callTo_afterReads hu target) hp
  obtain ⟨hlo, hhi⟩ := callTo_pushed (hu.wf hm) hcall
  have hulog := hlog _ u hc
  have hpc : u.pc = s.pc := by rw [hu]
  rw [hu.sp, hpc] at hlo hhi
  refine ⟨_, ?_, ?_, hlo.earlier hu hulog, hhi.earlier hu hulog⟩
  · rw [hc, Res.bind_ok, hgoal u hu, hcall, Res.complete_ok]
  · obtain ⟨heq, hstores⟩ := hw
    refine ⟨?_, hstores⟩
    rw [heq]

end Calls

/-! ### The return -/

/-- RTS, where MEM has something everywhere (R294). -/
theorem rts_pulls {s : State} (hp : s.populated) : ∃ v t, s.afterReads t ∧ s.fetched t (s.sp + 1) (hiByte v) ∧
    s.fetched t (s.sp + 2) (loByte v) ∧ exec .rts s = .next { t with sp := s.sp + 2, pc := v } := by
  obtain ⟨v, t, ht, hhi, hlo, hpull⟩ := stackCycle_pull16 hp
  refine ⟨v, t, ht, hhi, hlo, ?_⟩
  show execRts s = _
  rw [execRts, hpull, Res.complete_ok]

/-! ### A call, then a return -/

section Ram

variable {s t : State} {addr : Word} {x : Byte}

/-- RAM holds the byte stored. -/
theorem State.stored.byteAt_of_ram (h : s.stored t addr x) (hk : s.kindAt addr = .ram) : t.byteAt addr = x := by
  simpa only [State.stored, hk] using h

/-- The byte fetched from RAM is the one it holds. -/
theorem State.fetched.eq_of_ram (h : s.fetched t addr x) (hk : s.kindAt addr = .ram) : x = s.byteAt addr := by
  simpa only [State.fetched, hk] using h

/-- From a state whose stack in RAM has the bytes of `ret` on top, RTS returns there. -/
theorem rts_returns (hp : s.populated) {ret : Word} (hk1 : s.kindAt (s.sp + 1) = .ram)
    (hk2 : s.kindAt (s.sp + 2) = .ram) (hhi : s.byteAt (s.sp + 1) = hiByte ret)
    (hlo : s.byteAt (s.sp + 2) = loByte ret) :
    ∃ u, exec .rts s = .next u ∧ u.pc = ret ∧ u.sp = s.sp + 2 := by
  obtain ⟨v, t, _, hvhi, hvlo, hexec⟩ := rts_pulls hp
  have hv : v = ret := by
    rw [← joinBytes_hiByte_loByte v, hvhi.eq_of_ram hk1, hvlo.eq_of_ram hk2, hhi, hlo, joinBytes_hiByte_loByte]
  exact ⟨_, hexec, hv, rfl⟩

/-- After a call RTS returns to the address it pushed. -/
theorem rts_returns_after_call (hp : s.populated) (hk0 : s.kindAt s.sp = .ram) (hk1 : s.kindAt (s.sp - 1) = .ram)
    {target : Word} (ht : { s with sp := s.sp - 2, pc := target }.afterStores [s.sp, s.sp - 1] t)
    (hlo : s.stored t s.sp (loByte s.pc)) (hhi : s.stored t (s.sp - 1) (hiByte s.pc)) :
    ∃ u, exec .rts t = .next u ∧ u.pc = s.pc ∧ u.sp = s.sp := by
  have hkind (a : Word) : t.kindAt a = s.kindAt a := State.kindAt_congr ht.platform a
  have hsp : t.sp = s.sp - 2 := by rw [ht.1]
  have hsp1 : t.sp + 1 = s.sp - 1 := by rw [hsp]; bv_omega
  have hsp2 : t.sp + 2 = s.sp := by rw [hsp]; exact BitVec.sub_add_cancel s.sp 2
  have hreturn := rts_returns (s := t) (ret := s.pc) (fun a => hkind a ▸ hp a)
  rw [hsp1, hsp2, hkind, hkind] at hreturn
  exact hreturn hk1 hk0 (hhi.byteAt_of_ram hk1) (hlo.byteAt_of_ram hk0)

end Ram

end Sys2Proof.Machine

end

section
/-! PROOFS. The obligations of 43_control.md. -/

namespace Sys2Proof.Machine

/-- Settles O40: every row of the table is one conditional branch. -/
theorem branchesFollowTheBooleanColumn : Obligations.BranchesFollowTheBooleanColumn :=
  fun _ rr hp _ hrow => branchRows_gives hp rr hrow

/-- Settles O41: the flags of a difference compare its operands, so that the order is read by rows of O40's table. -/
theorem branchesAfterACompareReadTheOrder : Obligations.BranchesAfterACompareReadTheOrder := by
  refine ⟨fun s r m rr cc hp hcc row hrow => ?_, fun s r m rr cc hp hcc row hrow => ?_⟩
  · exact branchRows_gives hp rr (comparisonRows_subset_branchRows (hcc ▸ cc.afterSub8_compares r m) hrow)
  · exact branchRows_gives hp rr (comparisonRows_subset_branchRows (hcc ▸ cc.afterSub16_compares r m) hrow)

/-- Settles O42: both instructions test the byte read at EA against the mask; a mask and an offset in device locations
are fetched after that byte is read. -/
theorem bitBranchesTestTheMask : Obligations.BitBranchesTestTheMask := by
  refine ⟨fun s m mm rr hp => ?_, fun s m k hu hd hplain hmask hoffset hea e he hwf hcode hk => ?_⟩
  · obtain ⟨x, t, ht, hfetched, hbranch⟩ := readThenBranch_populated hp m
    simp only [← and_mask_eq_zero_iff, ← not_and_mask_eq_zero_iff]
    exact ⟨x, t, ht, hfetched, hbranch (fun x => x &&& mm == 0) rr, hbranch (fun x => ~~~x &&& mm == 0) rr⟩
  · exact (bitBranches_branchesOnMask he hwf hcode hk).step_device hu hd hplain hmask hoffset hea

/-- Settles O43: the two calls are one operation after the reads of their mode. -/
theorem jumpsCallsAndReturns : Obligations.JumpsCallsAndReturns := by
  refine fun s hp hm => ⟨fun m => State.gives_of_meets hp (execJmp_meets m s) fun _ _ => rfl, ?_, ?_⟩
  · rintro e (⟨m, rfl⟩ | ⟨rr, rfl⟩)
    · exact call_stores hp hm (indexCycle_meets m s) (indexCycle_logGrows s m) fun _ _ => rfl
    · refine call_stores hp hm (idle_meets 1 s) (idle_logGrows s 1) (goal := (State.target · rr)) fun u hu => ?_
      have hpc : u.pc = s.pc := by rw [hu]
      rw [u.target_eq, hpc]
  · obtain ⟨v, t, ht, hhi, hlo, hexec⟩ := rts_pulls hp
    exact ⟨hiByte v, loByte v, t, ht, hhi, hlo, by rw [joinBytes_hiByte_loByte, hexec]⟩

/-- Settles O44: what the call of O43 pushes to RAM, the RTS of O43 pulls. -/
theorem returnFollowsTheCall : Obligations.ReturnFollowsTheCall := by
  intro s i hp hm hk0 hk1 hi
  obtain ⟨target, hcall⟩ : ∃ target, (∃ m, (i, target) = (.jsr m, s.ea m)) ∨
      ∃ rr : Byte, (i, target) = (.bsr rr, BitVec.ofInt 16 (s.pc.toNat + rr.toInt)) := by
    rcases hi with ⟨m, rfl⟩ | ⟨rr, rfl⟩
    · exact ⟨_, .inl ⟨m, rfl⟩⟩
    · exact ⟨_, .inr ⟨rr, rfl⟩⟩
  obtain ⟨_, hcalls, _⟩ := jumpsCallsAndReturns s hp hm
  obtain ⟨t, hexec, ht, hlo, hhi⟩ := hcalls (i, target) hcall
  obtain ⟨u, hrts, hpc, hsp⟩ := rts_returns_after_call hp hk0 hk1 ht hlo hhi
  exact ⟨t, u, hexec, hrts, hpc, hsp⟩

end Sys2Proof.Machine

end

section
/-! PROOFS. Software interrupt and wait: the frame and the entry, seen from before the value-less reads (R313, R314,
R336, R337). -/

namespace Sys2Proof.Machine

section Entry

variable {s t u : State} {ret vec : Word} {setsX : Bool}

/-- A byte fetched last, seen from before some reads. -/
theorem State.fetchedLast.earlier {addr : Word} {x : Byte} (h : t.fetchedLast u addr x) (hst : s.afterReads t)
    (hlog : s.logGrows t) : s.fetchedLast u addr x := by
  unfold State.fetchedLast at *
  rw [State.kindAt_congr hst.platform] at h
  revert h
  cases s.kindAt addr with
  | device => exact fun h => State.accessesSince_subset_earlier hlog h
  | ram | rom | nothing => exact id

/-- A frame, seen from before some reads: they change nothing it holds, and not where it lies. -/
theorem State.frameStored.earlier (h : t.frameStored u ret) (hst : s.afterReads t) (hlog : s.logGrows t) :
    s.frameStored u ret := by
  have haddr : t.frameAddresses = s.frameAddresses := by rw [hst]; rfl
  have hbytes : t.frameBytes ret = s.frameBytes ret := by rw [hst]; rfl
  rw [State.frameStored, haddr, hbytes] at h
  exact fun e he => (h e he).earlier hst hlog

/-- An entry, seen from before some reads. -/
theorem State.entered.earlier (h : t.entered u ret vec setsX) (hst : s.afterReads t) (hlog : s.logGrows t) :
    s.entered u ret vec setsX := by
  obtain ⟨hframe, hstores, hhi, hlo⟩ := h
  refine ⟨hframe.earlier hst hlog, ?_, hhi.earlier hst hlog, hlo.earlier hst hlog⟩
  have haddr : t.frameAddresses = s.frameAddresses := by rw [hst]; rfl
  rw [haddr] at hstores
  refine State.afterStores.trans (State.afterReads.afterStores ?_ _) hstores
  rw [State.afterReads, hst]

/-- SWI, where MEM has something everywhere: a value-less read, then the entry (R313). -/
theorem swi_enters (hp : s.populated) (hm : s.mem.wf = true) :
    ∃ t, exec .swi s = .next t ∧ s.entered t s.pc s.platform.vecSwi false := by
  obtain ⟨_, u, hlook, hu, _⟩ := Res.meets_populated (lookAhead_meets s) hp
  obtain ⟨t, hexc, ht⟩ := takeException_entered .swi (hp.afterReads hu) (hu.wf hm)
  have hpc : u.pc = s.pc := by rw [hu]
  have hentered := ht.earlier hu (valueless_logGrows s s.pc _ u hlook)
  rw [Event.returnAddress, Event.vector, hpc, hu.platform] at hentered
  refine ⟨t, ?_, hentered⟩
  show execSwi s = _
  rw [execSwi, hlook, Res.bind_ok, hexc, Res.complete_ok]

/-- WAI leaves the frame on the stack, between value-less reads (R314). -/
theorem wai_frameStored (hm : s.mem.wf = true) (h : exec .wai s = .next t) : s.frameStored t s.pc := by
  obtain ⟨_, w, hw, rfl⟩ := Res.complete_eq_next.mp h
  obtain ⟨_, u, hlook, hw⟩ := Res.bind_eq_ok.mp hw
  obtain ⟨_, v, hframe, hreread⟩ := Res.bind_eq_ok.mp hw
  have hu := ((lookAhead_meets s).1 _ u hlook).1
  have hv := ((valueless_meets (v.sp + 1) v).1 _ w hreread).1
  have hpc : u.pc = s.pc := by rw [hu]
  rw [hpc] at hframe
  have hstored := ((stackFrame_pushed (hu.wf hm) hframe).frameStored).earlier hu (valueless_logGrows s s.pc _ u hlook)
  exact fun e he => (hstored e he).later (hv.byteAt e.1) (valueless_logGrows v _ _ w hreread)

/-- WAI, where MEM has something everywhere: the frame is stored, and of the registers and hidden state SP and the
run-state alone change (R314). -/
theorem wai_waits (hp : s.populated) (hm : s.mem.wf = true) :
    ∃ t, exec .wai s = .next t ∧ s.frameStored t s.pc ∧
      { s with sp := s.sp - 9, runState := .waiting }.afterStores s.frameAddresses t := by
  obtain ⟨t, hexec, w, ⟨heq, hstores⟩, rfl⟩ := (execWai_meets s).populated hp
  refine ⟨_, hexec, wai_frameStored hm hexec, ?_, hstores⟩
  rw [heq]

end Entry

end Sys2Proof.Machine

end

section
/-! PROOFS. Return from interrupt: bytes pulled one after the other, and the frame they make (R312, R344). -/

namespace Sys2Proof.Machine

/-! ### Bytes pulled -/

/-- `t` is `s` with these bytes pulled, the first of them from the address above SP. -/
structure State.Pulled (s : State) (bytes : List Byte) (t : State) : Prop where
  registers : { s with sp := s.sp + BitVec.ofNat 16 bytes.length }.afterReads t
  logGrows : s.logGrows t
  fetched : ∀ (k : Nat) (hk : k < bytes.length), s.fetched t (s.sp + BitVec.ofNat 16 (k + 1)) bytes[k]

section Pulled

variable {s t u : State} {bytes : List Byte}

/-- Reads pull nothing. -/
theorem State.afterReads.pulled (h : s.afterReads t) (hlog : s.logGrows t) : s.Pulled [] t where
  registers := by
    have hsp : s.sp + BitVec.ofNat 16 ([] : List Byte).length = s.sp := BitVec.add_zero s.sp
    rw [hsp]
    exact h
  logGrows := hlog
  fetched _ hk := absurd hk (Nat.not_lt_zero _)

theorem State.Pulled.sp (h : s.Pulled bytes t) : t.sp = s.sp + BitVec.ofNat 16 bytes.length := h.registers.sp

theorem State.Pulled.ccr (h : s.Pulled bytes t) : t.ccr = s.ccr := h.registers.ccr

theorem pull8_pulled (h : s.Pulled bytes t) {x : Byte} (hx : pull8 t = .ok x u) : s.Pulled (bytes ++ [x]) u := by
  have hsp : t.sp + 1 = s.sp + BitVec.ofNat 16 (bytes.length + 1) := by
    rw [h.sp, BitVec.add_assoc, BitVec.ofNat_add]; rfl
  have hu := ((pull8_meets t).1 x u hx).1
  obtain ⟨hlog, hfetched⟩ := pull8_fetched hx
  rw [hsp] at hu hfetched
  refine ⟨?_, h.logGrows.trans hlog, fun k hk => ?_⟩
  · rw [List.length_append, List.length_singleton]
    exact h.registers.pull hu
  · rw [List.length_append, List.length_singleton, Nat.lt_succ_iff_lt_or_eq] at hk
    rcases hk with hlt | rfl
    · rw [List.getElem_append_left hlt]
      exact (h.fetched k hlt).later hlog
    · rw [List.getElem_concat_length rfl]
      exact (hfetched.earlier h.registers h.logGrows : State.fetched { s with sp := _ } u _ x)

/-- The bytes pulled, each with how far above SP it lies. -/
theorem State.Pulled.fetched_zip (h : s.Pulled bytes t) :
    ∀ e ∈ (List.range' 1 bytes.length).zip bytes, s.fetched t (s.sp + BitVec.ofNat 16 e.1) e.2 := by
  intro e he
  obtain ⟨k, hk, rfl⟩ := List.mem_iff_getElem.mp he
  rw [List.length_zip, Nat.lt_min] at hk
  simpa [Nat.add_comm] using h.fetched k hk.2

/-- A word is pulled with its high-order byte first (R53). -/
theorem pull16_pulled (h : s.Pulled bytes t) {x : Word} (hx : pull16 t = .ok x u) :
    s.Pulled (bytes ++ [hiByte x, loByte x]) u := by
  obtain ⟨hi, v, hhi, hx⟩ := Res.bind_eq_ok.mp hx
  obtain ⟨lo, w, hlo, hx⟩ := Res.bind_eq_ok.mp hx
  cases hx
  rw [hiByte_joinBytes, loByte_joinBytes]
  simpa using pull8_pulled (pull8_pulled h hhi) hlo

/-- A return from an exception pulls nine bytes, and takes the CCR, B, A, IX, IY and the PC from them (R312, R344). -/
theorem returnFromException_pulled (h : s.Pulled [] t) (hr : returnFromException t = .ok () u) :
    ∃ c b a ix iy pc v, s.Pulled [c, b, a, hiByte ix, loByte ix, hiByte iy, loByte iy, hiByte pc, loByte pc] v ∧
      u = { v with ccr := s.ccr.load c, b := b, a := a, ix := ix, iy := iy, pc := pc } := by
  obtain ⟨c, s₁, h₁, hr⟩ := Res.bind_eq_ok.mp hr
  obtain ⟨b, s₂, h₂, hr⟩ := Res.bind_eq_ok.mp hr
  obtain ⟨a, s₃, h₃, hr⟩ := Res.bind_eq_ok.mp hr
  obtain ⟨ix, s₄, h₄, hr⟩ := Res.bind_eq_ok.mp hr
  obtain ⟨iy, s₅, h₅, hr⟩ := Res.bind_eq_ok.mp hr
  obtain ⟨pc, s₆, h₆, hr⟩ := Res.bind_eq_ok.mp hr
  cases hr
  have p₃ := pull8_pulled (pull8_pulled (pull8_pulled h h₁) h₂) h₃
  have p₆ := pull16_pulled (pull16_pulled (pull16_pulled p₃ h₄) h₅) h₆
  exact ⟨c, b, a, ix, iy, pc, s₆, p₆, by rw [p₆.ccr]⟩

end Pulled

/-! ### The instruction -/

/-- RTI, where MEM has something everywhere: value-less reads, then the nine bytes above SP (R312). -/
theorem rti_pulls {s : State} (hp : s.populated) : ∃ c b a ix iy pc v,
    s.Pulled [c, b, a, hiByte ix, loByte ix, hiByte iy, loByte iy, hiByte pc, loByte pc] v ∧
      exec .rti s = .next { v with ccr := s.ccr.load c, b := b, a := a, ix := ix, iy := iy, pc := pc } := by
  obtain ⟨_, u, hcycle, hu, _⟩ := Res.meets_populated (stackCycle_meets s) hp
  obtain ⟨_, t, hreturn, _⟩ := Res.meets_populated (returnFromException_meets u) (hp.afterReads hu)
  obtain ⟨c, b, a, ix, iy, pc, v, hv, rfl⟩ :=
    returnFromException_pulled (hu.pulled (stackCycle_logGrows s _ u hcycle)) hreturn
  refine ⟨c, b, a, ix, iy, pc, v, hv, ?_⟩
  show execRti s = _
  rw [execRti, hcycle, Res.bind_ok, hreturn, Res.complete_ok]

end Sys2Proof.Machine

end

section
/-! PROOFS. A step by the run-state, reset not asserted: what a waiting, a stopped and a testing MPU recognise (R314 to
R316). -/

namespace Sys2Proof.Machine

section Boundary

variable {s : State}

/-! ### The run-states -/

theorem step_waiting (hrun : s.runState = .waiting) (hscript : s.script = []) (hreset : s.lines.reset = false) :
    step s = waitingStep s := by
  rw [step, oneStep, s.takeScript_of_nil hscript, stepWithLines, hreset, hrun]; rfl

theorem step_stopped (hrun : s.runState = .stopped) (hscript : s.script = []) (hreset : s.lines.reset = false) :
    step s = stoppedStep s := by
  rw [step, oneStep, s.takeScript_of_nil hscript, stepWithLines, hreset, hrun]; rfl

theorem step_testLoop (hrun : s.runState = .testLoop) (hscript : s.script = []) (hreset : s.lines.reset = false) :
    step s = testLoopStep s := by
  rw [step, oneStep, s.takeScript_of_nil hscript, stepWithLines, hreset, hrun]; rfl

/-! ### The requests -/

theorem State.xirqRequest_eq_true (hline : s.lines.xirq = true) (hx : s.ccr.x = false) : s.xirqRequest = true := by
  rw [State.xirqRequest, hline, hx]; rfl

/-- XIRQ is not asserted, or X masks it (R333). -/
theorem State.xirqRequest_eq_false (h : s.lines.xirq = false ∨ s.ccr.x = true) : s.xirqRequest = false := by
  rcases h with h | h <;> simp [State.xirqRequest, h]

/-! ### The wait (R314) -/

theorem waitingStep_xirq (h : s.xirqRequest = true) :
    waitingStep s = (fetchVector .xirq s).complete fun _ t => t := by
  rw [waitingStep, h]; rfl

theorem waitingStep_maskable {src : Source} (h : s.xirqRequest = false) (hsrc : s.maskableRequest = some src) :
    waitingStep s = (fetchVector (.maskable src) s).complete fun _ t => t := by
  rw [waitingStep, h, hsrc]; rfl

theorem waitingStep_nothing (h : s.xirqRequest = false) (hsrc : s.maskableRequest = none) :
    waitingStep s = (rereadCcr s).complete fun _ t => t := by
  rw [waitingStep, h, hsrc]; rfl

/-- Where MEM has something everywhere, going through the vector of an event stacks nothing (R314). -/
theorem fetchVector_wakes (e : Event) (hp : s.populated) : ∃ t, s.afterReads t ∧ ∃ handler,
    ((fetchVector e s).complete fun _ u => u) = .next { t with
      ccr := { s.ccr with i := true, x := s.ccr.x || e.setsX }, pc := handler, runState := .running,
      idelay := false, prevColumn45 := false } ∧
    s.fetched t (e.vector s.platform) (hiByte handler) ∧ s.fetched t (e.vector s.platform + 1) (loByte handler) := by
  obtain ⟨_, _, hvec, handler, t, ht, _, rfl⟩ := Res.meets_populated (fetchVector_meets e s) hp
  obtain ⟨_, _, hhi, hlo⟩ := fetchVector_fetched hvec
  exact ⟨t, ht, handler, by rw [hvec, Res.complete_ok], hhi, hlo⟩

/-! ### The stop (R315) -/

theorem stoppedStep_xirq (hline : s.lines.xirq = true) (hx : s.ccr.x = false) :
    stoppedStep s = interrupt .xirq s := by
  rw [stoppedStep, hline, hx]; rfl

theorem stoppedStep_maskedXirq (hline : s.lines.xirq = true) (hx : s.ccr.x = true) :
    stoppedStep s = .next { s with runState := .running } := by
  rw [stoppedStep, hline, hx]; rfl

theorem stoppedStep_irq (hline : s.lines.xirq = false) (hirq : s.lines.irq = true) (hi : s.ccr.i = false) :
    stoppedStep s = interrupt (.maskable .irq) s := by
  rw [stoppedStep, hline, hirq, hi]; rfl

theorem stoppedStep_nothing (hline : s.lines.xirq = false) (hirq : s.lines.irq = false ∨ s.ccr.i = true) :
    stoppedStep s = .next s := by
  rcases hirq with h | h <;> simp [stoppedStep, hline, h]

/-- Where MEM has something everywhere, an interrupt enters the handler of its vector (R336 to R339). -/
theorem interrupt_entered (e : Event) (hp : s.populated) (hm : s.mem.wf = true) :
    ∃ t, interrupt e s = .next t ∧ s.entered t (e.returnAddress s) (e.vector s.platform) e.setsX := by
  obtain ⟨t, ht, hentered⟩ := takeException_entered e hp hm
  exact ⟨t, interrupt_eq_next.mpr ht, hentered⟩

end Boundary

end Sys2Proof.Machine

end

section
/-! PROOFS. CLI and the I-delay latch, STOP and TEST (R38, R310, R315, R316, R374). -/

namespace Sys2Proof.Machine

/-! ### CLI -/

/-- What CLI can do: a value-less read, I clear, and the latch armed where I was set (R310). -/
theorem execCli_meets (s : State) : Meets (exec .cli s) s.platform fun t => ∃ u, s.afterReads u ∧
    t = { u with ccr := { u.ccr with i := false } }.armIdelay u.ccr :=
  inherent_meets _ s

/-- A step of CLI in RAM or ROM: I is clear, and the latch is armed where I was set; nothing else changes but the PC and
what reads change (R310). -/
theorem step_cli {s : State} (hu : s.undisturbed) (hp : s.populated) (hplain : s.plain s.pc)
    (hbyte : s.byteAt s.pc = 0x0E) : ∃ u, (s.moved (s.pc + 1) false).afterReads u ∧
      step s = .next (({ u with ccr := { u.ccr with i := false } }.armIdelay u.ccr).executed .cli) := by
  have hcode : s.hasCode s.pc [0x0E] := by
    intro k b hb
    obtain ⟨hk, rfl⟩ := List.getElem?_eq_some_iff.mp hb
    obtain rfl : k = 0 := by simpa using hk
    have hpc : s.pc + BitVec.ofNat 16 0 = s.pc := BitVec.add_zero s.pc
    rw [hpc]
    exact ⟨hplain, hbyte⟩
  have hstep := (step_undisturbed hu).trans (executeNext_code hcode (i := .cli) (by decide))
  obtain ⟨_, hexec, u, hread, rfl⟩ := (execCli_meets (s.moved (s.pc + 1) false)).populated hp
  refine ⟨u, hread, hstep.trans ?_⟩
  show Result.remembering (exec .cli (s.moved (s.pc + 1) false)) .cli = _
  rw [hexec]
  rfl

/-- An instruction that is neither CLI nor TAP leaves the latch clear, TEST outside test mode included (R38). -/
theorem runInstr_idelay {f : Fetched} {s t : State} (hcli : f.instr ≠ .cli) (htap : f.instr ≠ .tap)
    (h : runInstr f s = .next t) : t.idelay = false := by
  obtain ⟨u, hexec, rfl⟩ := runInstr_eq_next.mp h
  rw [State.executed_idelay]
  by_cases hswi : f.instr = .swi
  · rw [execFetched_of_latch (by simp [hswi]), hswi] at hexec
    obtain ⟨_, _, _, rfl⟩ := (execSwi_meets _).1 u hexec
    rfl
  · rcases execFetched_eq_next hexec with ⟨he, _⟩ | hexc
    · exact he.idelay (by simp [hcli, htap, hswi])
    · obtain ⟨_, _, _, rfl⟩ := (takeException_meets _ _).1 () u hexc
      rfl

/-! ### STOP -/

section Stop

variable {s : State}

theorem stopProcessing_nop (hs : s.ccr.s = true) : stopProcessing s = s := by
  rw [stopProcessing, hs]; rfl

theorem stopProcessing_stops (hs : s.ccr.s = false) (he : s.platform.stopErratum = false ∨ s.prevColumn45 = false) :
    stopProcessing s = { s with runState := .stopped } := by
  rcases he with h | h <;> simp [stopProcessing, hs, h]

theorem stopProcessing_skips (hs : s.ccr.s = false) (he : s.platform.stopErratum = true) (hc : s.prevColumn45 = true) :
    stopProcessing s = { s with runState := .stopped, pc := s.pc + 1 } := by
  rw [stopProcessing, hs, he, hc]; rfl

theorem stop_gives {g : State → State} (hp : s.populated)
    (h : ∀ n log, stopProcessing { s with draws := n, deviceLog := log } =
      g { s with draws := n, deviceLog := log }) :
    s.gives .stop g :=
  State.gives_of_meets hp (inherent_meets _ s) h

end Stop

/-! ### TEST -/

section Test

variable {s : State}

/-- TEST in test mode, where MEM has something everywhere (R316). -/
theorem test_loops (hp : s.populated) (hmode : s.platform.testMode = true) :
    ∃ pc, s.gives .test fun t => { t with runState := .testLoop, pc := pc } := by
  obtain ⟨_, hexec, u, hu, rfl⟩ := (execTest_meets s hmode).populated hp
  exact ⟨u.unspec16, u.drawn, hu.trans (.drawn u u.deviceLog), hexec⟩

/-- TEST outside test mode, taken as an illegal opcode with its own address (R98, R340). -/
theorem test_traps (hp : s.populated) (hm : s.mem.wf = true) (hmode : s.platform.testMode = false)
    (hpolicy : s.platform.illopPolicy = .trap) :
    ∃ t, exec .test s = .next t ∧ s.entered t (s.pc - 1) s.platform.vecIllop false := by
  obtain ⟨t, ht, hentered⟩ := takeException_entered (.illegal (s.pc - 1)) hp hm
  exact ⟨t, (execTest_illegal s hmode).trans (illegalOpcode_eq_next.mpr ⟨hpolicy, ht⟩), hentered⟩

end Test

end Sys2Proof.Machine

end

section
/-! PROOFS. The obligations of 44_system.md. -/

namespace Sys2Proof.Machine

/-- Settles O45: after a value-less read SWI is an entry. -/
theorem swiEntersThroughItsVector : Obligations.SwiEntersThroughItsVector :=
  fun _ hp hm => swi_enters hp hm

/-- Settles O46: the nine bytes pulled, one after the other; their CCR is loaded with X only downward. -/
theorem rtiRestoresFromTheFrame : Obligations.RtiRestoresFromTheFrame := by
  intro s hp
  obtain ⟨c, b, a, ix, iy, pc, v, hv, hexec⟩ := rti_pulls hp
  obtain ⟨t, ht, rfl⟩ := hv.registers.before_sp
  refine ⟨t, c, b, a, hiByte ix, loByte ix, hiByte iy, loByte iy, hiByte pc, loByte pc, ht, hv.fetched_zip, ?_⟩
  simp only [joinBytes_hiByte_loByte]
  exact hexec

/-- Settles O48: the frame of an entry, but no vector. -/
theorem waiStacksAndWaits : Obligations.WaiStacksAndWaits :=
  fun _ hp hm => wai_waits hp hm

/-- Settles O53: the three ways a step of a waiting MPU can go; two of them go through a vector. -/
theorem waitingEndsWithoutStacking : Obligations.WaitingEndsWithoutStacking := by
  intro s hp hrun hscript hreset
  rw [step_waiting hrun hscript hreset]
  refine ⟨fun hline hx => ?_, fun src hxirq hsrc => ?_, fun hxirq hsrc => ?_⟩
  · rw [waitingStep_xirq (State.xirqRequest_eq_true hline hx)]
    simpa only [Event.setsX, Event.vector, Bool.or_true] using fetchVector_wakes .xirq hp
  · rw [waitingStep_maskable (State.xirqRequest_eq_false hxirq) hsrc]
    simpa only [Event.setsX, Bool.or_false] using fetchVector_wakes (.maskable src) hp
  · rw [waitingStep_nothing (State.xirqRequest_eq_false hxirq) hsrc]
    obtain ⟨_, t, hread, ht, hoff⟩ := Res.meets_populated (valueless_meets (s.sp + 1) s) hp
    exact ⟨t, ht, by rw [rereadCcr, hread, Res.complete_ok], hoff⟩

/-- Settles O54: the four ways a step of a stopped MPU can go; two of them are an entry. -/
theorem stoppedWakesForXirqOrIrq : Obligations.StoppedWakesForXirqOrIrq := by
  intro s hp hm hrun hscript hreset
  rw [step_stopped hrun hscript hreset]
  refine ⟨fun hline hx => ?_, stoppedStep_maskedXirq, fun hline hirq hi => ?_, stoppedStep_nothing⟩
  · rw [stoppedStep_xirq hline hx]
    exact interrupt_entered .xirq hp hm
  · rw [stoppedStep_irq hline hirq hi]
    exact interrupt_entered (.maskable .irq) hp hm

/-- Settles O56: CLI leaves the latch armed and the lines as they are, so that the next step is undisturbed; an
instruction that is neither CLI nor TAP leaves the latch clear. -/
theorem cliDelaysOneInstruction : Obligations.CliDelaysOneInstruction := by
  refine ⟨fun s hu hp hi hplain hbyte => ?_, fun s t f hcli htap _ h => runInstr_idelay hcli htap h⟩
  obtain ⟨u, hread, hstep⟩ := step_cli hu hp hplain hbyte
  obtain ⟨hrun, hscript, hreset, hxirq, _⟩ := hu
  have hlatch : ({ u with ccr := { u.ccr with i := false } }.armIdelay u.ccr).idelay = true := by
    rw [State.armIdelay_idelay, hread]
    simp [State.moved, hi]
  refine ⟨_, hstep, rfl, hlatch, ?_, step_undisturbed ⟨?_, ?_, ?_, ?_, .inl hlatch⟩⟩
  · exact congrArg State.pc hread
  · exact (congrArg State.runState hread).trans hrun
  · exact (congrArg State.script hread).trans hscript
  · exact (congrArg (·.lines.reset) hread).trans hreset
  · exact (congrArg State.xirqRequest hread).trans hxirq

/-- Settles O49: STOP is a value-less read, then a NOP, a stop or a stop one byte further. -/
theorem stopHaltsUnlessDisabled : Obligations.StopHaltsUnlessDisabled :=
  fun _ hp => ⟨fun hs => stop_gives hp fun _ _ => stopProcessing_nop hs,
    fun hs he => stop_gives hp fun _ _ => stopProcessing_stops hs he,
    fun hs he hc => stop_gives hp fun _ _ => stopProcessing_skips hs he hc⟩

/-- Settles O50: in test mode the loop is entered and kept; outside it TEST is the illegal-opcode event. -/
theorem testLoopsOrIsIllegal : Obligations.TestLoopsOrIsIllegal := by
  refine fun s hp => ⟨test_loops hp, fun hrun hscript hreset => ?_, fun hmode hpolicy => ?_,
    fun hmode hpolicy hm => test_traps hp hm hmode hpolicy⟩
  · exact ⟨s.unspec16, step_testLoop hrun hscript hreset⟩
  · exact (execTest_illegal s hmode).trans (illegalOpcode_eq_fault.mpr (.inl ⟨hpolicy, rfl⟩))

end Sys2Proof.Machine

end

section
/-! PROOFS. What a running MPU recognises at a boundary, and the reset (R334, R335, R341, R370). -/

namespace Sys2Proof.Machine

/-! ### Requests and the boundary (R334, R335) -/

section Boundary

variable {s : State}

/-- A source is taken iff I is clear and it is the first by IRQ_PRIORITY that requests (R334, R335, D9). -/
theorem State.maskableRequest_eq_some_iff {src : Source} : s.maskableRequest = some src ↔
    s.ccr.i = false ∧ s.lines.requests src = true ∧ ∃ above below, s.platform.priority = above ++ src :: below ∧
      ∀ other ∈ above, s.lines.requests other = false := by
  cases hi : s.ccr.i with
  | true => simp [State.maskableRequest, hi]
  | false => simp [State.maskableRequest, hi, List.find?_eq_some_iff_append]

theorem step_running (hrun : s.runState = .running) (hscript : s.script = []) (hreset : s.lines.reset = false) :
    step s = runningStep s := by
  rw [step, oneStep, s.takeScript_of_nil hscript, stepWithLines, hreset, hrun]; rfl

theorem step_reset (hscript : s.script = []) (hreset : s.lines.reset = true) :
    step s = (takeReset s).complete fun _ t => t := by
  rw [step, oneStep, s.takeScript_of_nil hscript, stepWithLines, hreset]; rfl

theorem runningStep_xirq (h : s.xirqRequest = true) : runningStep s = interrupt .xirq s := by
  rw [runningStep, h]; rfl

theorem runningStep_maskable {src : Source} (h : s.xirqRequest = false) (hlatch : s.idelay = false)
    (hsrc : s.maskableRequest = some src) : runningStep s = interrupt (.maskable src) s := by
  rw [runningStep, h, hlatch, hsrc]; rfl

end Boundary

/-! ### Reset (R341, R370) -/

section Reset

variable {s t : State}

/-- A byte fetched after the registers are reset is one fetched before: they are no part of what a read sees. -/
theorem State.fetched.of_resetRegisters {addr : Word} {v : Byte} (h : s.resetRegisters.fetched t addr v) :
    s.fetched t addr v :=
  h.mono rfl rfl (List.Subset.refl _)

/-- After a reset the PC is the word fetched at VEC_RESET (R341). -/
theorem takeReset_fetched (h : takeReset s = .ok () t) :
    s.fetched t s.platform.vecReset (hiByte t.pc) ∧ s.fetched t (s.platform.vecReset + 1) (loByte t.pc) := by
  obtain ⟨start, u, hread, h⟩ := Res.bind_eq_ok.mp h
  cases h
  obtain ⟨_, hhi, hlo⟩ := readWord_fetched hread
  exact ⟨hhi.of_resetRegisters, hlo.of_resetRegisters⟩

end Reset

end Sys2Proof.Machine

end

section
/-! PROOFS. A return right after an entry: the bytes pulled are the bytes pushed (R312, R337, R344). -/

namespace Sys2Proof.Machine

section Return

variable {s t u : State} {ret vec : Word} {setsX : Bool} {bytes : List Byte}

theorem word_eq_of_bytes {v w : Word} (hhi : hiByte v = hiByte w) (hlo : loByte v = loByte w) : v = w := by
  rw [← joinBytes_hiByte_loByte v, hhi, hlo, joinBytes_hiByte_loByte]

/-- The frame's addresses from the lowest up are the nine a return pulls from (R312, R337). -/
theorem State.frameAddresses_reverse (s : State) :
    s.frameAddresses.reverse = (List.range' 1 9).map fun k => s.sp - 9 + BitVec.ofNat 16 k := by
  simp only [State.frameAddresses, List.range', List.map, List.reverse_cons, List.reverse_nil, List.nil_append,
    List.cons_append, List.cons.injEq, and_true]
  bv_omega

/-- In RAM the stack holds the frame. -/
theorem State.frameStored.map_byteAt (h : s.frameStored t ret) (hram : ∀ a ∈ s.frameAddresses, s.kindAt a = .ram) :
    s.frameAddresses.map t.byteAt = s.frameBytes ret := by
  refine List.ext_getElem rfl fun k haddr hbyte => ?_
  rw [List.getElem_map]
  rw [List.length_map] at haddr
  have hmem : (s.frameAddresses[k], (s.frameBytes ret)[k]) ∈ s.frameAddresses.zip (s.frameBytes ret) :=
    List.mem_iff_getElem.mpr ⟨k, by rw [List.length_zip]; exact Nat.lt_min.mpr ⟨haddr, hbyte⟩, List.getElem_zip⟩
  exact (h _ hmem).byteAt_of_ram (hram _ (List.getElem_mem haddr))

/-- Bytes pulled from RAM are those above SP, in rising order. -/
theorem State.Pulled.eq_map_byteAt (h : s.Pulled bytes t)
    (hram : ∀ a ∈ (List.range' 1 bytes.length).map fun k => s.sp + BitVec.ofNat 16 k, s.kindAt a = .ram) :
    bytes = ((List.range' 1 bytes.length).map fun k => s.sp + BitVec.ofNat 16 k).map s.byteAt := by
  refine List.ext_getElem (by simp) fun k hbyte hk => ?_
  simp only [List.getElem_map, List.getElem_range', Nat.one_mul, Nat.add_comm 1 k]
  refine (h.fetched k hbyte).eq_of_ram (hram _ (List.mem_map.mpr ⟨k + 1, ?_, rfl⟩))
  rw [List.mem_range'_1]
  omega

theorem State.entered.platform (h : s.entered t ret vec setsX) : t.platform = s.platform := by
  obtain ⟨_, hstores, _⟩ := h
  exact hstores.platform

theorem State.entered.sp (h : s.entered t ret vec setsX) : t.sp = s.sp - 9 := by
  obtain ⟨_, ⟨heq, _⟩, _⟩ := h
  rw [heq]

theorem State.entered.ccr (h : s.entered t ret vec setsX) :
    t.ccr = { s.ccr with i := true, x := s.ccr.x || setsX } := by
  obtain ⟨_, ⟨heq, _⟩, _⟩ := h
  rw [heq]

/-- Nine bytes pulled right after an entry are its frame, the byte stacked last first (R337, R344). -/
theorem State.entered.pulled_eq (h : s.entered t ret vec setsX) (hram : ∀ a ∈ s.frameAddresses, s.kindAt a = .ram)
    (hpulled : t.Pulled bytes u) (hlen : bytes.length = 9) : bytes = (s.frameBytes ret).reverse := by
  have hframe : s.frameStored t ret := h.1
  have haddr : ((List.range' 1 bytes.length).map fun k => t.sp + BitVec.ofNat 16 k) = s.frameAddresses.reverse := by
    rw [hlen, h.sp, State.frameAddresses_reverse]
  have hbytes := hpulled.eq_map_byteAt
  rw [haddr] at hbytes
  rw [← hframe.map_byteAt hram, ← List.map_reverse]
  exact hbytes fun a ha => (State.kindAt_congr h.platform a).trans (hram a (List.mem_reverse.mp ha))

/-- The stacked CCR loaded after an entry: an entry can only set X, so X is what it was (R30, R338, R344). -/
theorem State.entered.load_ccr (h : s.entered t ret vec setsX) : t.ccr.load s.ccr.toByte = s.ccr := by
  rw [Ccr.load_toByte, h.ccr]
  show { s.ccr with x := (s.ccr.x || setsX) && s.ccr.x } = s.ccr
  have hx : ((s.ccr.x || setsX) && s.ccr.x) = s.ccr.x := by
    rw [Bool.and_comm]
    cases s.ccr.x <;> rfl
  rw [hx]

end Return

end Sys2Proof.Machine

end

section
/-! PROOFS. The obligations of 60_exceptions.md. -/

namespace Sys2Proof.Machine

/-- Settles O47: the nine bytes RTI pulls are those the entry pushed. -/
theorem rtiUndoesAnEntry : Obligations.RtiUndoesAnEntry := by
  intro s t ret vec setsX hp _ hram hentered
  obtain ⟨c, b, a, ix, iy, pc, v, hpulled, hexec⟩ := rti_pulls hp
  have hframe := hentered.pulled_eq hram hpulled rfl
  simp only [State.frameBytes, List.reverse_cons, List.reverse_nil, List.nil_append, List.cons_append,
    List.cons.injEq, and_true] at hframe
  obtain ⟨rfl, rfl, rfl, hxh, hxl, hyh, hyl, hph, hpl⟩ := hframe
  have hsp : v.sp = s.sp := by
    rw [hpulled.sp, hentered.sp]
    exact BitVec.sub_add_cancel s.sp 9
  exact ⟨_, hexec, rfl, rfl, word_eq_of_bytes hxh hxl, word_eq_of_bytes hyh hyl, hsp, hentered.load_ccr,
    word_eq_of_bytes hph hpl⟩

/-- Settles O51: the priority list is searched from its head. -/
theorem maskableSourceIsTheHighest : Obligations.MaskableSourceIsTheHighest :=
  fun _ _ => State.maskableRequest_eq_some_iff

/-- Settles O52: at the boundary of a running MPU both requests are an entry. -/
theorem interruptsEnterThroughTheirVectors : Obligations.InterruptsEnterThroughTheirVectors := by
  intro s hp hm hrun hscript hreset
  rw [step_running hrun hscript hreset]
  refine ⟨fun hline hx => ?_, fun src hxirq hlatch hsrc => ?_⟩
  · rw [runningStep_xirq (State.xirqRequest_eq_true hline hx)]
    exact interrupt_entered .xirq hp hm
  · rw [runningStep_maskable (State.xirqRequest_eq_false hxirq) hlatch hsrc]
    exact interrupt_entered (.maskable src) hp hm

/-- Settles O55: after the registers are reset, reads alone and the PC. -/
theorem resetStartsAtItsVector : Obligations.ResetStartsAtItsVector := by
  intro s hp hscript hreset
  obtain ⟨_, t, htake, start, u, hu, rfl⟩ := Res.meets_populated (takeReset_meets s) hp
  obtain ⟨hhi, hlo⟩ := takeReset_fetched htake
  have hstep : step s = .next { u with pc := start } := by rw [step_reset hscript hreset, htake, Res.complete_ok]
  refine ⟨_, hstep, ?_, ?_, ?_, ?_, ?_, hu.mem, hhi, hlo⟩
  · exact congrArg Ccr.s hu.ccr
  · exact congrArg Ccr.x hu.ccr
  · exact congrArg Ccr.i hu.ccr
  · exact congrArg State.idelay hu
  · exact congrArg State.runState hu

end Sys2Proof.Machine

end

section
/-! PROOFS. How many accesses every bus operation and every shape of instruction makes on a bus that shows them all
(R60, R69, R380). -/

namespace Sys2Proof.Machine

/-! ### Accesses counted -/

/-- Every address is a device location and the value-less cycles are performed: the log shows every access (R60, R69). -/
def State.busVisible (s : State) : Prop := (∀ a, s.kindAt a = .device) ∧ s.platform.dummyReads = true

/-- From `s` to `t` the parameters stay, and a visible bus shows `n` accesses. -/
structure State.Shows (n : Nat) (s t : State) : Prop where
  platform : t.platform = s.platform
  log : s.busVisible → t.deviceLog.length = s.deviceLog.length + n

/-- Every next state comes after `n` accesses. -/
def ShowsAccesses (n : Nat) (s : State) (r : Result) : Prop := ∀ t, r = .next t → s.Shows n t

theorem State.busVisible.congr {s t : State} (h : s.busVisible) (hp : t.platform = s.platform) : t.busVisible :=
  ⟨fun a => (State.kindAt_congr hp a).trans (h.1 a), hp ▸ h.2⟩

/-- An update that makes no access. -/
theorem State.Shows.of_update {s t : State} (hp : t.platform = s.platform) (hl : t.deviceLog = s.deviceLog) :
    s.Shows 0 t :=
  ⟨hp, fun _ => congrArg List.length hl⟩

theorem State.Shows.refl (s : State) : s.Shows 0 s := .of_update rfl rfl

theorem State.Shows.trans {s t u : State} {m n : Nat} (h : s.Shows m t) (h' : t.Shows n u) : s.Shows (m + n) u where
  platform := h'.platform.trans h.platform
  log hs := by rw [h'.log (hs.congr h.platform), h.log hs, Nat.add_assoc]

theorem Res.All.bind_shows {α β : Type} {r : Res α} {k : α → State → Res β} {s : State} {m n : Nat}
    (hr : r.All (s.Shows m)) (hk : ∀ a u, (k a u).All (u.Shows n)) : (r.bind k).All (s.Shows (m + n)) := by
  intro b t h
  obtain ⟨a, u, hau, hbt⟩ := Res.bind_eq_ok.mp h
  exact (hr a u hau).trans (hk a u b t hbt)

/-- An operation that ends with an update. -/
theorem Res.All.bind_update {α β : Type} {r : Res α} {g : α → State → β} {f : α → State → State} {s : State}
    {n : Nat} (hr : r.All (s.Shows n)) (hf : ∀ a (u : State), u.Shows 0 (f a u)) :
    (r.bind fun a u => .ok (g a u) (f a u)).All (s.Shows n) :=
  hr.bind_shows fun a u => .ok (hf a u)

theorem Res.All.complete_shows {α : Type} {r : Res α} {k : α → State → State} {s : State} {n : Nat}
    (hr : r.All (s.Shows n)) (hk : ∀ a (u : State), u.Shows 0 (k a u)) : ShowsAccesses n s (r.complete k) := by
  intro t h
  obtain ⟨a, u, hau, rfl⟩ := Res.complete_eq_next.mp h
  exact (hr a u hau).trans (hk a u)

theorem Res.All.andThen_shows {α : Type} {r : Res α} {k : α → State → Result} {s : State} {m n : Nat}
    (hr : r.All (s.Shows m)) (hk : ∀ a u, ShowsAccesses n u (k a u)) : ShowsAccesses (m + n) s (r.andThen k) := by
  intro t h
  obtain ⟨a, u, hau, hut⟩ := Res.andThen_eq_next.mp h
  exact (hr a u hau).trans (hk a u t hut)

/-! ### Bus operations -/

/-- The internal cycles of the mode: one where it is indexed (R380). -/
def indexCycles (m : Mem) : Nat := memCycles 0 0 1 1 m

/-- The accesses of `Opr8()`: none where the operand is one of the instruction's own bytes. -/
def operand8Accesses : Opr8 → Nat
  | .imm _ => 0
  | .mem m => indexCycles m + 1

/-- The accesses of `Opr16()`. -/
def operand16Accesses : Opr16 → Nat
  | .imm _ => 0
  | .mem m => indexCycles m + 2

section Operations

variable (s : State)

theorem readByte_shows (addr : Word) : (readByte addr s).All (s.Shows 1) := by
  intro v t h
  refine ⟨((readByte_meets addr s).1 v t h).1.platform, fun hs => ?_⟩
  rw [readByte_device (hs.1 addr)] at h
  cases h
  rfl

theorem writeByte_shows (addr : Word) (v : Byte) : (writeByte addr v s).All (s.Shows 1) := by
  intro _ t h
  refine ⟨((writeByte_meets addr v s).1 _ t h).platform, fun hs => ?_⟩
  rw [writeByte_device v (hs.1 addr)] at h
  cases h
  rfl

theorem readWord_shows (addr : Word) : (readWord addr s).All (s.Shows 2) :=
  (readByte_shows s addr).bind_shows fun _ u => (readByte_shows u (addr + 1)).bind_update fun _ v => .refl v

theorem writeWord_shows (addr v : Word) : (writeWord addr v s).All (s.Shows 2) :=
  (writeByte_shows s addr _).bind_shows fun _ u => writeByte_shows u (addr + 1) _

theorem valueless_shows (addr : Word) : (valueless addr s).All (s.Shows 1) := by
  unfold valueless
  split
  · exact (readByte_shows s addr).bind_update fun _ u => .refl u
  · next hoff => exact .ok ⟨rfl, fun hs => absurd hs.2 hoff⟩

theorem idle_shows (n : Nat) : (idle n s).All (s.Shows n) := by
  induction n generalizing s with
  | zero => exact .ok (.refl s)
  | succ n ih =>
    have h := (valueless_shows s idleAddress).bind_shows fun _ u => ih u
    rwa [Nat.add_comm 1 n] at h

theorem lookAhead_shows : (lookAhead s).All (s.Shows 1) := valueless_shows s s.pc

theorem stackCycle_shows : (stackCycle s).All (s.Shows 2) :=
  (lookAhead_shows s).bind_shows fun _ u => valueless_shows u u.sp

theorem testCycles_shows : (testCycles s).All (s.Shows 3) :=
  (lookAhead_shows s).bind_shows fun _ u =>
    (valueless_shows u (u.pc + 1)).bind_shows fun _ v => valueless_shows v (v.pc + 2)

theorem indexCycle_shows (m : Mem) : (indexCycle m s).All (s.Shows (indexCycles m)) := by
  cases m with
  | dir _ | ext _ => exact .ok (.refl s)
  | indX _ | indY _ => exact idle_shows s 1

theorem readMem8_shows (m : Mem) : (readMem8 m s).All (s.Shows (indexCycles m + 1)) :=
  (indexCycle_shows s m).bind_shows fun _ u => readByte_shows u (s.ea m)

theorem operand8_shows (o : Opr8) : (operand8 o s).All (s.Shows (operand8Accesses o)) := by
  cases o with
  | imm _ => exact .ok (.refl s)
  | mem m => exact readMem8_shows s m

theorem operand16_shows (o : Opr16) : (operand16 o s).All (s.Shows (operand16Accesses o)) := by
  cases o with
  | imm _ => exact .ok (.refl s)
  | mem m => exact (indexCycle_shows s m).bind_shows fun _ u => readWord_shows u (s.ea m)

theorem operateOperand16_shows (o : Opr16) : (operateOperand16 o s).All (s.Shows (operand16Accesses o + 1)) :=
  (operand16_shows s o).bind_shows fun _ u => (idle_shows u 1).bind_update fun _ v => .refl v

/-! ### The stack and exceptions -/

theorem push8_shows (v : Byte) : (push8 v s).All (s.Shows 1) :=
  (writeByte_shows s s.sp v).bind_update fun _ _ => .of_update rfl rfl

theorem pull8_shows : (pull8 s).All (s.Shows 1) := fun v t h =>
  (State.Shows.of_update (s := s) (t := { s with sp := s.sp + 1 }) rfl rfl).trans (readByte_shows _ _ v t h)

theorem push16_shows (v : Word) : (push16 v s).All (s.Shows 2) :=
  (push8_shows s _).bind_shows fun _ u => push8_shows u _

theorem pull16_shows : (pull16 s).All (s.Shows 2) :=
  (pull8_shows s).bind_shows fun _ u => (pull8_shows u).bind_update fun _ v => .refl v

theorem stackFrame_shows (ret : Word) : (stackFrame ret s).All (s.Shows 9) :=
  (push16_shows s ret).bind_shows fun _ s₁ => (push16_shows s₁ _).bind_shows fun _ s₂ =>
  (push16_shows s₂ _).bind_shows fun _ s₃ => (push8_shows s₃ _).bind_shows fun _ s₄ =>
  (push8_shows s₄ _).bind_shows fun _ s₅ => push8_shows s₅ _

theorem rereadCcr_shows : (rereadCcr s).All (s.Shows 1) := valueless_shows s (s.sp + 1)

theorem fetchVector_shows (e : Event) : (fetchVector e s).All (s.Shows 2) :=
  (readWord_shows s _).bind_update fun _ _ => .of_update rfl rfl

/-- The entry of SWI re-reads the stacked CCR before the vector (R313). -/
theorem takeException_swi_shows : (takeException .swi s).All (s.Shows 12) :=
  (stackFrame_shows s _).bind_shows fun _ u => (rereadCcr_shows u).bind_shows fun _ v => fetchVector_shows v .swi

theorem returnFromException_shows : (returnFromException s).All (s.Shows 9) := by
  refine (pull8_shows s).bind_shows fun _ s₁ => (pull8_shows s₁).bind_shows fun _ s₂ =>
    (pull8_shows s₂).bind_shows fun _ s₃ => (pull16_shows s₃).bind_shows fun _ s₄ =>
    (pull16_shows s₄).bind_shows fun _ s₅ => (pull16_shows s₅).bind_update fun _ _ => ?_
  exact .of_update rfl rfl

theorem callTo_shows (target : Word) : (callTo target s).All (s.Shows 3) :=
  (valueless_shows s target).bind_shows (n := 2) fun _ u => (push16_shows u _).bind_update fun _ _ => .of_update rfl rfl

/-! ### The updates an instruction ends with -/

theorem State.setAcc_shows (r : Acc) (v : Byte) : s.Shows 0 (s.setAcc r v) := by
  cases r <;> exact .of_update rfl rfl

theorem State.setReg_shows (r : Reg16) (v : Word) : s.Shows 0 (s.setReg r v) := by
  cases r <;> exact .of_update rfl rfl

theorem State.Shows.with_ccr {s t : State} (h : s.Shows 0 t) (cc : Ccr) : s.Shows 0 { t with ccr := cc } :=
  ⟨h.platform, h.log⟩

theorem decimalAdjust_shows : s.Shows 0 (decimalAdjust s) := by
  unfold decimalAdjust
  split <;> exact .of_update rfl rfl

theorem integerDivide_shows : s.Shows 0 (integerDivide s) := by
  unfold integerDivide
  split <;> exact .of_update rfl rfl

theorem fractionalDivide_shows : s.Shows 0 (fractionalDivide s) := by
  unfold fractionalDivide
  split
  · exact .of_update rfl rfl
  · split <;> exact .of_update rfl rfl

theorem stopProcessing_shows : s.Shows 0 (stopProcessing s) := by
  unfold stopProcessing
  split
  · exact .refl s
  · split <;> exact .of_update rfl rfl

/-! ### The shapes of instruction -/

theorem inherent_shows {f : State → State} (hf : ∀ u : State, u.Shows 0 (f u)) : ShowsAccesses 1 s (inherent f s) :=
  (lookAhead_shows s).complete_shows fun _ u => hf u

theorem inherentIdle_shows (n : Nat) {f : State → State} (hf : ∀ u : State, u.Shows 0 (f u)) :
    ShowsAccesses (1 + n) s (inherentIdle n f s) :=
  ((lookAhead_shows s).bind_shows fun _ u => idle_shows u n).complete_shows fun _ u => hf u

theorem inherentStack_shows {f : State → State} (hf : ∀ u : State, u.Shows 0 (f u)) :
    ShowsAccesses 2 s (inherentStack f s) :=
  (stackCycle_shows s).complete_shows fun _ u => hf u

theorem accBinary_shows (f : Binary 8) (r : Acc) (o : Opr8) :
    ShowsAccesses (operand8Accesses o) s (accBinary f r o s) :=
  (operand8_shows s o).complete_shows fun _ u => (u.setAcc_shows r _).with_ccr _

theorem accTest_shows (f : Binary 8) (r : Acc) (o : Opr8) : ShowsAccesses (operand8Accesses o) s (accTest f r o s) :=
  (operand8_shows s o).complete_shows fun _ u => (State.Shows.refl u).with_ccr _

theorem loadAcc_shows (r : Acc) (o : Opr8) : ShowsAccesses (operand8Accesses o) s (loadAcc r o s) :=
  (operand8_shows s o).complete_shows fun _ u => (u.setAcc_shows r _).with_ccr _

theorem loadReg_shows (r : Reg16) (o : Opr16) : ShowsAccesses (operand16Accesses o) s (loadReg r o s) :=
  (operand16_shows s o).complete_shows fun _ u => (u.setReg_shows r _).with_ccr _

theorem regBinary_shows (f : Binary 16) (r : Reg16) (o : Opr16) :
    ShowsAccesses (operand16Accesses o + 1) s (regBinary f r o s) :=
  (operateOperand16_shows s o).complete_shows fun _ u => (u.setReg_shows r _).with_ccr _

theorem regTest_shows (f : Binary 16) (r : Reg16) (o : Opr16) :
    ShowsAccesses (operand16Accesses o + 1) s (regTest f r o s) :=
  (operateOperand16_shows s o).complete_shows fun _ u => (State.Shows.refl u).with_ccr _

theorem accUnary_shows (f : Unary 8) (r : Acc) : ShowsAccesses 1 s (accUnary f r s) :=
  inherent_shows s fun u => (u.setAcc_shows r _).with_ccr _

theorem dUnary_shows (f : Unary 16) : ShowsAccesses 2 s (dUnary f s) :=
  inherentIdle_shows s 1 fun _ => .of_update rfl rfl

theorem memModify_shows (f : Unary 8) (m : Mem) (x : Byte) : ShowsAccesses 2 s (memModify f m x s) :=
  ((idle_shows s 1).bind_shows fun _ u => writeByte_shows u (s.ea m) _).complete_shows fun _ u =>
    (State.Shows.refl u).with_ccr _

theorem memUnary_shows (f : Unary 8) (m : Mem) : ShowsAccesses (indexCycles m + 3) s (memUnary f m s) :=
  (readMem8_shows s m).andThen_shows fun x u => memModify_shows u f m x

theorem memTest_shows (f : Unary 8) (m : Mem) : ShowsAccesses (indexCycles m + 3) s (memTest f m s) :=
  ((readMem8_shows s m).bind_shows fun _ u => (idle_shows u 2).bind_update fun _ v => .refl v).complete_shows
    fun _ u => (State.Shows.refl u).with_ccr _

theorem storeAcc_shows (r : Acc) (m : Mem) : ShowsAccesses (indexCycles m + 1) s (storeAcc r m s) :=
  ((indexCycle_shows s m).bind_shows fun _ u => writeByte_shows u (s.ea m) _).complete_shows fun _ u =>
    (State.Shows.refl u).with_ccr _

theorem storeReg_shows (r : Reg16) (m : Mem) : ShowsAccesses (indexCycles m + 2) s (storeReg r m s) :=
  ((indexCycle_shows s m).bind_shows fun _ u => writeWord_shows u (s.ea m) _).complete_shows fun _ u =>
    (State.Shows.refl u).with_ccr _

theorem pushAcc_shows (r : Acc) : ShowsAccesses 2 s (pushAcc r s) :=
  ((lookAhead_shows s).bind_shows fun _ u => push8_shows u _).complete_shows fun _ u => .refl u

theorem pushReg_shows (r : Reg16) : ShowsAccesses 3 s (pushReg r s) :=
  ((lookAhead_shows s).bind_shows fun _ u => push16_shows u _).complete_shows fun _ u => .refl u

theorem pullAcc_shows (r : Acc) : ShowsAccesses 3 s (pullAcc r s) :=
  ((stackCycle_shows s).bind_shows fun _ u => pull8_shows u).complete_shows fun v u => u.setAcc_shows r v

theorem pullReg_shows (r : Reg16) : ShowsAccesses 4 s (pullReg r s) :=
  ((stackCycle_shows s).bind_shows fun _ u => pull16_shows u).complete_shows fun v u => u.setReg_shows r v

theorem branchIf_shows (cond : Bool) (rr : Byte) : ShowsAccesses 1 s (branchIf cond rr s) := by
  refine (idle_shows s 1).complete_shows fun _ u => ?_
  split
  · exact .of_update rfl rfl
  · exact .refl u

theorem readThenBranch_shows (cond : Byte → Bool) (m : Mem) (rr : Byte) :
    ShowsAccesses (indexCycles m + 2) s ((readMem8 m s).andThen fun x t => branchIf (cond x) rr t) :=
  (readMem8_shows s m).andThen_shows fun x u => branchIf_shows u (cond x) rr

/-! ### The instructions with a sequence of their own -/

theorem execBsr_shows (rr : Byte) : ShowsAccesses 4 s (execBsr rr s) :=
  ((idle_shows s 1).bind_shows fun _ u => callTo_shows u _).complete_shows fun _ u => .refl u

theorem execJmp_shows (m : Mem) : ShowsAccesses (indexCycles m) s (execJmp m s) :=
  (indexCycle_shows s m).complete_shows fun _ _ => .of_update rfl rfl

theorem execJsr_shows (m : Mem) : ShowsAccesses (indexCycles m + 3) s (execJsr m s) :=
  ((indexCycle_shows s m).bind_shows fun _ u => callTo_shows u _).complete_shows fun _ u => .refl u

theorem execRts_shows : ShowsAccesses 4 s (execRts s) :=
  ((stackCycle_shows s).bind_shows fun _ u => pull16_shows u).complete_shows fun _ _ => .of_update rfl rfl

theorem execRti_shows : ShowsAccesses 11 s (execRti s) :=
  ((stackCycle_shows s).bind_shows fun _ u => returnFromException_shows u).complete_shows fun _ u => .refl u

theorem execSwi_shows : ShowsAccesses 13 s (execSwi s) :=
  ((lookAhead_shows s).bind_shows fun _ u => takeException_swi_shows u).complete_shows fun _ u => .refl u

theorem execWai_shows : ShowsAccesses 11 s (execWai s) :=
  ((lookAhead_shows s).bind_shows fun _ u => (stackFrame_shows u _).bind_shows fun _ v =>
    rereadCcr_shows v).complete_shows fun _ _ => .of_update rfl rfl

theorem execTest_shows (h : s.platform.testMode = true) : ShowsAccesses 3 s (execTest s) := by
  unfold execTest
  rw [h]
  exact (testCycles_shows s).complete_shows fun _ _ => .of_update rfl rfl

end Operations

end Sys2Proof.Machine

end

section
/-! PROOFS. How many accesses every instruction makes, all 145 of them, and the cycle tables (R380, R381). -/

namespace Sys2Proof.Machine

/-- How many accesses an instruction makes after the fetch of its own bytes, by shape (R380). -/
def ownAccesses : Instr → Nat
  | .ldaa o | .ldab o | .adca o | .adcb o | .adda o | .addb o | .cmpa o | .cmpb o | .sbca o | .sbcb o
  | .suba o | .subb o | .anda o | .andb o | .bita o | .bitb o | .eora o | .eorb o | .oraa o | .orab o =>
    operand8Accesses o
  | .ldd o | .lds o | .ldx o | .ldy o => operand16Accesses o
  | .addd o | .subd o | .cpd o | .cpx o | .cpy o => operand16Accesses o + 1
  | .jmp m => indexCycles m
  | .staa m | .stab m => indexCycles m + 1
  | .std m | .sts m | .stx m | .sty m | .brclr m _ _ | .brset m _ _ => indexCycles m + 2
  | .clr m | .dec m | .inc m | .neg m | .com m | .asl m | .asr m | .lsr m | .rol m | .ror m | .lsl m
  | .bclr m _ | .bset m _ | .tst m | .jsr m => indexCycles m + 3
  | .tab | .tba | .tap | .tpa | .clra | .clrb | .aba | .cba | .daa | .deca | .decb | .inca | .incb | .nega
  | .negb | .sba | .tsta | .tstb | .coma | .comb | .asla | .aslb | .asra | .asrb | .lsra | .lsrb | .rola
  | .rolb | .rora | .rorb | .clc | .clv | .sec | .sev | .lsla | .lslb | .nop | .cli | .sei | .stop
  | .bcc _ | .bcs _ | .beq _ | .bge _ | .bgt _ | .bhi _ | .bhs _ | .ble _ | .blo _ | .bls _ | .blt _
  | .bmi _ | .bne _ | .bpl _ | .bra _ | .brn _ | .bvc _ | .bvs _ => 1
  | .tsx | .tsy | .txs | .tys | .xgdx | .xgdy | .abx | .aby | .des | .ins | .dex | .dey | .inx | .iny
  | .asld | .lsrd | .lsld | .psha | .pshb => 2
  | .pshx | .pshy | .pula | .pulb | .test => 3
  | .pulx | .puly | .rts | .bsr _ => 4
  | .mul => 9
  | .rti | .wai => 11
  | .swi => 13
  | .fdiv | .idiv => 40

/-- The accesses of every instruction, after the fetch of its own bytes (R380). -/
theorem exec_shows (i : Instr) (s : State) (hi : s.legal i) : ShowsAccesses (ownAccesses i) s (exec i s) := by
  cases i with
  | ldaa o | ldab o => exact loadAcc_shows s _ o
  | ldd o | lds o | ldx o | ldy o => exact loadReg_shows s _ o
  | staa m | stab m => exact storeAcc_shows s _ m
  | std m | sts m | stx m | sty m => exact storeReg_shows s _ m
  | tab | tba | tap | tpa | aba | cba | sba | clc | clv | sec | sev | nop | cli | sei =>
    exact inherent_shows s fun _ => .of_update rfl rfl
  | tsx | tsy | des | ins => exact inherentStack_shows s fun _ => .of_update rfl rfl
  | txs | tys | xgdx | xgdy | abx | aby | dex | dey | inx | iny =>
    exact inherentIdle_shows s 1 fun _ => .of_update rfl rfl
  | mul => exact inherentIdle_shows s 8 fun _ => .of_update rfl rfl
  | daa => exact inherent_shows s decimalAdjust_shows
  | fdiv => exact inherentIdle_shows s 39 fractionalDivide_shows
  | idiv => exact inherentIdle_shows s 39 integerDivide_shows
  | stop => exact inherent_shows s stopProcessing_shows
  | psha | pshb => exact pushAcc_shows s _
  | pshx | pshy => exact pushReg_shows s _
  | pula | pulb => exact pullAcc_shows s _
  | pulx | puly => exact pullReg_shows s _
  | clr m | dec m | inc m | neg m | com m | asl m | asr m | lsr m | rol m | ror m | lsl m | bclr m _ | bset m _ =>
    exact memUnary_shows s _ m
  | tst m => exact memTest_shows s _ m
  | clra | clrb | deca | decb | inca | incb | nega | negb | tsta | tstb | coma | comb | asla | aslb | asra | asrb
  | lsra | lsrb | rola | rolb | rora | rorb | lsla | lslb => exact accUnary_shows s _ _
  | asld | lsrd | lsld => exact dUnary_shows s _
  | adca o | adcb o | adda o | addb o | sbca o | sbcb o | suba o | subb o | anda o | andb o | eora o | eorb o
  | oraa o | orab o => exact accBinary_shows s _ _ o
  | cmpa o | cmpb o | bita o | bitb o => exact accTest_shows s _ _ o
  | addd o | subd o => exact regBinary_shows s _ _ o
  | cpd o | cpx o | cpy o => exact regTest_shows s _ _ o
  | bcc rr | bcs rr | beq rr | bge rr | bgt rr | bhi rr | bhs rr | ble rr | blo rr | bls rr | blt rr | bmi rr
  | bne rr | bpl rr | bra rr | brn rr | bvc rr | bvs rr => exact branchIf_shows s _ rr
  | brclr m mm rr => exact readThenBranch_shows s (fun x => x &&& mm == 0) m rr
  | brset m mm rr => exact readThenBranch_shows s (fun x => ~~~x &&& mm == 0) m rr
  | bsr rr => exact execBsr_shows s rr
  | jmp m => exact execJmp_shows s m
  | jsr m => exact execJsr_shows s m
  | rts => exact execRts_shows s
  | rti => exact execRti_shows s
  | swi => exact execSwi_shows s
  | wai => exact execWai_shows s
  | test => exact execTest_shows s (hi rfl)

/-- A cycle table has a row for every byte of the instruction and for every access after them; the two rows more of
WAI are the read of the vector (R380, R381, R314). -/
theorem cycles_eq (i : Instr) (hw : i.wellFormed = true) (hi : i ≠ .test) :
    i.cycles = some (ownAccesses i + i.length + if i = .wai then 2 else 0) := by
  cases i with
  | ldaa o | ldab o | adca o | adcb o | adda o | addb o | cmpa o | cmpb o | sbca o | sbcb o | suba o | subb o
  | anda o | andb o | bita o | bitb o | eora o | eorb o | oraa o | orab o | ldd o | lds o | ldx o | ldy o | addd o
  | subd o | cpd o | cpx o | cpy o =>
    cases o with
    | imm _ => rfl
    | mem m => cases m <;> rfl
  | staa m | stab m | std m | sts m | stx m | sty m | jsr m => cases m <;> rfl
  | clr m | dec m | inc m | neg m | com m | asl m | asr m | lsr m | rol m | ror m | lsl m | tst m | jmp m =>
    cases m with
    | dir _ => cases hw
    | ext _ | indX _ | indY _ => rfl
  | bclr m | bset m | brclr m | brset m =>
    cases m with
    | ext _ => cases hw
    | dir _ | indX _ | indY _ => rfl
  | test => exact absurd rfl hi
  | _ => rfl

end Sys2Proof.Machine

end

section
/-! PROOFS. The obligations of 70_reset_and_hazards.md. -/

namespace Sys2Proof.Machine

/-- Settles O18: the accesses an instruction makes after its own bytes, and the rows its cycle table has for them. -/
theorem busAccessesMatchTheCycleTables : Obligations.BusAccessesMatchTheCycleTables := by
  intro i s t n hdevice hdummy hw hcycles hexec
  have htest : i ≠ .test := by
    rintro rfl
    cases hcycles
  have hlog := (exec_shows i s (fun h => absurd h htest) t hexec).log ⟨hdevice, hdummy⟩
  have hrows : n = ownAccesses i + i.length + if i = .wai then 2 else 0 :=
    Option.some.inj (hcycles.symm.trans (cycles_eq i hw htest))
  by_cases hwai : i = .wai
  · rw [if_pos hwai] at hrows ⊢
    omega
  · rw [if_neg hwai] at hrows ⊢
    omega

end Sys2Proof.Machine

end
